-- ==== Sys2Proof/Word.lean ====
section
/-! DEFINITION. The block's words: a byte and a 32-bit register value. -/

namespace Sys2Proof

/-- One byte of system memory (00_scope R16). Bit 0 is the least significant bit (R14). -/
abbrev Byte := BitVec 8

/-- A register value, a bus address or a length: 32 bits (00_scope R10, REG_WIDTH, ADDR_WIDTH, LEN_WIDTH). -/
abbrev Word := BitVec 32

end Sys2Proof
end

