-- ==== Sys2Proof/Machine/Units.lean ====
section
/-! DEFINITION. The stored internal state of the six units and the latched operands, with the widths
10_state R50 to R59 give them. A command's own working values stand in Machine/Operands.lean. -/

namespace Sys2Proof.Machine

/-- An entry of the node arena (10_state R51). -/
inductive Node where
  /-- `Leaf`: the symbol and its 40-bit weight. -/
  | leaf (sym : Byte) (w : BitVec 40)
  /-- `Internal`: the 40-bit weight and the arena indices of the two children. -/
  | internal (w : BitVec 40) (left right : BitVec 9)
deriving DecidableEq, Repr, Inhabited

/-- Every element of the units' internal state, 10_state R50 to R58, each at its stored width. Its value
outside a running command is unspecified (10_state R64). -/
structure Units where
  /-- R50: `freq[0..255]`. -/
  freq      : Vector (BitVec 32) 256
  /-- R51: the node arena, index 0 first. -/
  arena     : List Node
  /-- R52: the set `Q` of arena indices. -/
  queue     : List (BitVec 9)
  /-- R53: `code[b]`; `len[b]` is its length. `false` is "0" (left), `true` is "1" (right). -/
  codes     : Vector (List Bool) 256
  /-- R54: the bit packer's `acc`. -/
  acc       : Byte
  /-- R54: the bit packer's `cnt`, 0..7. -/
  packCnt   : BitVec 3
  /-- R55: the bit unpacker's `cur`. -/
  cur       : Byte
  /-- R55: the bit unpacker's `pos`. -/
  pos       : BitVec 64
  /-- R55: the bit unpacker's `T`. -/
  totalBits : BitVec 64
  /-- R56: the LZ77 encoder's `cur`. -/
  lzCur     : BitVec 32
  /-- R56: `best_len`. -/
  bestLen   : BitVec 16
  /-- R56: `best_off`. -/
  bestOff   : BitVec 16
  /-- R57: the history buffer, newest byte first. -/
  hist      : List Byte
  /-- R57: `produced`. -/
  produced  : BitVec 32
  /-- R58: the RLE position `i`. -/
  rleI      : BitVec 32
  /-- R58: the run length `r`, 0..127. -/
  rleR      : BitVec 7
  /-- R58: the raw span end `j`. -/
  rleJ      : BitVec 32
  /-- R58: the control byte `c`. -/
  rleC      : Byte
  /-- R58: the count `cnt`, 0..128. -/
  rleCnt    : BitVec 8
deriving DecidableEq, Repr, Inhabited

/-- The copies of CMD and the operand registers an accepted START takes (10_state R59). -/
structure Latch where
  cmd : Word
  src : Word
  len : Word
  dst : Word
  cap : Word
deriving DecidableEq, Repr, Inhabited

end Sys2Proof.Machine
end

