-- ==== Sys2Proof/Config.lean ====
section
/-! DEFINITION. What is fixed for one machine (00_scope R10, R11; 92_eei_decisions, OPEN parameters), and the free
values the spec leaves open (93_implementation_defined). -/

namespace Sys2Proof

/-- A range of bus addresses: `base`, `base + 1`, …, `base + size - 1`. -/
structure Region where
  base : Nat
  size : Nat
deriving DecidableEq, Repr

/-- `r` holds address `a`. -/
def Region.contains (r : Region) (a : Nat) : Bool :=
  decide (r.base ≤ a) && decide (a < r.base + r.size)

/-- The configuration of one machine: the four synthesis-time parameters of 00_scope R10 and the platform
parameters of 92_eei_decisions. It stands in State and no step changes it. DESIGN CHOICE (log 12). -/
structure Config where
  /-- WINDOW_SIZE, 1..65535. -/
  windowSize       : Nat
  /-- MAX_MATCH_LEN, MIN_MATCH_LEN..255. -/
  maxMatchLen      : Nat
  /-- MIN_MATCH_LEN, 1..255. -/
  minMatchLen      : Nat
  /-- LZ_STORE_THRESHOLD, 0..65535. -/
  lzStoreThreshold : Nat
  /-- BASE: where the register window lies. -/
  base             : Word
  /-- BUS_OK, by the ranges whose accesses get a bus error (20_memory R81). -/
  busFail          : List Region
  /-- Registers of other devices (20_memory R93). -/
  devices          : List Region
  /-- Memory whose reads have side effects or are not stable (20_memory R92). -/
  sideEffectMem    : List Region
  /-- DMA_COHERENT (20_memory R102). -/
  dmaCoherent      : Bool
  /-- IRQ wiring: the host interrupt input IRQ drives, none if it drives none (60_exceptions R423, log 29). -/
  irqInput         : Option Nat
deriving DecidableEq, Repr

namespace Config

/-- BUS_OK(a): a DMA access at bus address `a` completes (20_memory R81). -/
def busOk (c : Config) (a : Nat) : Bool :=
  !(c.busFail.any fun r => r.contains a)

/-- The register window: REG_WINDOW = 0x100 bytes at BASE (00_scope R10). -/
def window (c : Config) : Region := ⟨c.base.toNat, 0x100⟩

/-- Every range of device registers, the block's own window among them (20_memory R93). -/
def deviceRegions (c : Config) : List Region := c.window :: c.devices

/-- The defaults of 00_scope R10, and for the OPEN parameters the values log 12 names. -/
def default : Config where
  windowSize := 4096
  maxMatchLen := 18
  minMatchLen := 3
  lzStoreThreshold := 64
  base := 0x40000000
  busFail := []
  devices := []
  sideEffectMem := []
  dmaCoherent := true
  irqInput := some 0

/-- The free value of one byte: draw number, address. Used where 93_implementation_defined 1, 2, 8 and 11 say
"any value" (log 8, log 14). -/
opaque freeByte : Nat → Nat → Byte

/-- The free value of the units' internal state after a reset or a completion (93_implementation_defined 3; log 7). -/
opaque freeUnits : Nat → Machine.Units

/-- The free value of the latched copies after a reset or a completion (93_implementation_defined 3; log 7). -/
opaque freeLatch : Nat → Machine.Latch

/-- The free value of `ip` after a reset or a completion (10_state R64; log 7). -/
opaque freeIp : Nat → Word

/-- The free value of `op` after a reset or a completion (10_state R64; log 7). -/
opaque freeOp : Nat → Word

end Config

end Sys2Proof
end

