-- ==== Sys2Proof/Syntax.lean ====
section
/-! DEFINITION. The command set CCB-CMD: one constructor for each row of spec/opcode_table.json, the six commands
(30_encoding R111) and the three control actions (30_encoding R116). -/

namespace Sys2Proof

/-- The nine instructions. A command has no field: its operands are the latched operand registers (30_encoding R113).
A control action keeps the bits its word ignores, so that encoding and decoding drop nothing. -/
inductive Instr where
  /-- HUFF_ENC, OP 0x1 (41_huffman_encoder R210). -/
  | huffEnc
  /-- HUFF_DEC, OP 0x2 (42_huffman_decoder R247). -/
  | huffDec
  /-- LZ77_ENC, OP 0x3 (43_lz77_encoder R284). -/
  | lz77Enc
  /-- LZ77_DEC, OP 0x4 (44_lz77_decoder R325). -/
  | lz77Dec
  /-- RLE_ENC, OP 0x5 (45_rle_encoder R354). -/
  | rleEnc
  /-- RLE_DEC, OP 0x6 (46_rle_decoder R382). -/
  | rleDec
  /-- START: a CTRL write with bits 1:0 = 01. `ie` is bit 2, the new IE; `ignored` is bits 31:3. -/
  | start (ie : Bool) (ignored : BitVec 29)
  /-- SOFT_RESET: a CTRL write with bit 1 = 1. `bit0` and `ignored` (bits 31:2) are ignored. -/
  | softReset (bit0 : Bool) (ignored : BitVec 30)
  /-- DONE-clear: a STATUS write with bit 1 = 1. `bit0` and `ignored` (bits 31:2) are ignored. -/
  | doneClear (bit0 : Bool) (ignored : BitVec 30)
deriving DecidableEq, Repr

/-- The register an instruction's word stands in (the "register" column of spec/opcode_table.json). -/
inductive Port where
  /-- CMD, offset 0x10: run by START. -/
  | cmd
  /-- CTRL, offset 0x08. -/
  | ctrl
  /-- STATUS, offset 0x0C. -/
  | status
deriving DecidableEq, Repr

/-- Where each instruction's word stands. -/
def Instr.port : Instr → Port
  | .huffEnc => .cmd
  | .huffDec => .cmd
  | .lz77Enc => .cmd
  | .lz77Dec => .cmd
  | .rleEnc => .cmd
  | .rleDec => .cmd
  | .start _ _ => .ctrl
  | .softReset _ _ => .ctrl
  | .doneClear _ _ => .status

/-- One thing that happens at the block's boundary next, in the order the bus delivers it (60_exceptions R424,
70_reset_and_hazards R462). The host's accesses are those of the driver notation (30_encoding R135). -/
inductive Input where
  /-- `w32`: a register write of `bits` bits at offset `off`. -/
  | write (bits : Nat) (off : BitVec 8) (v : Word)
  /-- `r32`: a register read of `bits` bits at offset `off`. -/
  | read (bits : Nat) (off : BitVec 8)
  /-- `mem.wr`: the host writes one byte of system memory. -/
  | memWrite (a : Nat) (b : Byte)
  /-- `mem.rd`: the host reads one byte of system memory. -/
  | memRead (a : Nat)
  /-- `fence`: the host platform's barrier (20_memory R95, R96). -/
  | fence
  /-- The host cleans a range from its caches (20_memory R102). -/
  | cacheClean (r : Region)
  /-- The host invalidates a range in its caches (20_memory R102). -/
  | cacheInvalidate (r : Region)
  /-- The host takes the interrupt that stands at its interrupt input `line` (60_exceptions R416, R423). -/
  | takeIrq (line : Nat)
  /-- The platform asserts and releases the hardware reset (70_reset_and_hazards R450). -/
  | hwReset
  /-- A running command completes at this point (70_reset_and_hazards R466). -/
  | blockTurn
deriving DecidableEq, Repr

end Sys2Proof
end

