-- ==== Sys2Proof/WellFormed.lean ====
section
/-! DEFINITION. The checks on what is written from outside the machine: instructions, register accesses and the
configuration. An instruction's fields are in range by their types, so every term of `Instr` is well-formed. -/

namespace Sys2Proof

/-- Every field of every instruction is in range by its type (30_encoding R111, R116). -/
def Instr.wellFormed : Instr → Bool
  | .huffEnc => true
  | .huffDec => true
  | .lz77Enc => true
  | .lz77Dec => true
  | .rleEnc => true
  | .rleDec => true
  | .start _ _ => true
  | .softReset _ _ => true
  | .doneClear _ _ => true

/-- A register access is 32 bits wide and 4-byte aligned (20_memory R89). -/
def accessFormOk (bits : Nat) (off : BitVec 8) : Bool :=
  decide (bits = 32) && decide (off.toNat % 4 = 0)

/-- A host access to a byte of system memory names one of its 2^32 addresses (20_memory R80). -/
def addressOk (a : Nat) : Bool := decide (a < 2 ^ 32)

/-- A host access is well-formed: its register access form or its memory address is one the block's spec gives a
meaning (20_memory R80, R89). -/
def Input.wellFormed : Input → Bool
  | .write bits off _ => accessFormOk bits off
  | .read bits off => accessFormOk bits off
  | .memWrite a _ => addressOk a
  | .memRead a => addressOk a
  | .fence => true
  | .cacheClean _ => true
  | .cacheInvalidate _ => true
  | .takeIrq _ => true
  | .hwReset => true
  | .blockTurn => true

/-- The configuration is inside the ranges of 00_scope R10 and R11. -/
def Config.wellFormed (c : Config) : Bool :=
  decide (1 ≤ c.minMatchLen) && decide (c.minMatchLen ≤ c.maxMatchLen) && decide (c.maxMatchLen ≤ 255) &&
    decide (1 ≤ c.windowSize) && decide (c.windowSize ≤ 65535) && decide (c.lzStoreThreshold ≤ 65535)

end Sys2Proof
end

