-- ==== Sys2Proof/Decode.lean ====
section
/-! DEFINITION. Decoding and encoding of the words of 30_encoding sections 1: from the bytes a register's word has on
the bus (20_memory R87) to an instruction or a named rejection, and back. -/

namespace Sys2Proof

/-- Why bytes are no instruction. -/
inductive DecodeError where
  /-- Fewer than the four bytes of a word (30_encoding R117: every word has one length). -/
  | short
  /-- The CMD word selects no command (30_encoding R112). -/
  | noCommand
  /-- The CTRL or STATUS word requests no control action (30_encoding R114, R115). -/
  | noAction
deriving DecidableEq, Repr

/-- The four bytes of a register value at increasing addresses, low byte first (20_memory R87). -/
def wordBytes (w : Word) : List Byte :=
  [w.extractLsb' 0 8, w.extractLsb' 8 8, w.extractLsb' 16 8, w.extractLsb' 24 8]

/-- The register value of four bytes at increasing addresses (20_memory R87). -/
def wordOfBytes (b0 b1 b2 b3 : Byte) : Word := b3 ++ b2 ++ b1 ++ b0

/-- The OP values of 30_encoding R111. -/
def selectOp (op : BitVec 4) : Option Instr :=
  if op = 0x1 then some .huffEnc
  else if op = 0x2 then some .huffDec
  else if op = 0x3 then some .lz77Enc
  else if op = 0x4 then some .lz77Dec
  else if op = 0x5 then some .rleEnc
  else if op = 0x6 then some .rleDec
  else none

/-- The command a CMD word selects: `CMD[31:4] = 0` and OP in the table (30_encoding R111, R112). -/
def decodeCommand (w : Word) : Option Instr :=
  if w.extractLsb' 4 28 = 0 then selectOp (w.extractLsb' 0 4) else none

/-- CTRL write decoding, in the order of 30_encoding R114: SOFT_RESET first, then START. -/
def decodeCtrl (w : Word) : Option Instr :=
  if w.getLsbD 1 then some (.softReset (w.getLsbD 0) (w.extractLsb' 2 30))
  else if w.getLsbD 0 then some (.start (w.getLsbD 2) (w.extractLsb' 3 29))
  else none

/-- STATUS write decoding (30_encoding R115). -/
def decodeStatus (w : Word) : Option Instr :=
  if w.getLsbD 1 then some (.doneClear (w.getLsbD 0) (w.extractLsb' 2 30)) else none

/-- The instruction a word is in the register it stands in. -/
def decodeWord (p : Port) (w : Word) : Except DecodeError Instr :=
  match p with
  | .cmd => match decodeCommand w with
    | some i => .ok i
    | none => .error .noCommand
  | .ctrl => match decodeCtrl w with
    | some i => .ok i
    | none => .error .noAction
  | .status => match decodeStatus w with
    | some i => .ok i
    | none => .error .noAction

/-- The instruction at the front of `bs`, standing in register `p`, and the bytes after it. Total on any bytes. -/
def decode (p : Port) (bs : List Byte) : Except DecodeError (Instr × List Byte) :=
  match bs with
  | b0 :: b1 :: b2 :: b3 :: rest =>
    match decodeWord p (wordOfBytes b0 b1 b2 b3) with
    | .ok i => .ok (i, rest)
    | .error e => .error e
  | _ => .error .short

/-- The word of an instruction (30_encoding R111, R116). -/
def encodeWord : Instr → Word
  | .huffEnc => 0x00000001
  | .huffDec => 0x00000002
  | .lz77Enc => 0x00000003
  | .lz77Dec => 0x00000004
  | .rleEnc => 0x00000005
  | .rleDec => 0x00000006
  | .start ie ignored => ignored ++ BitVec.ofBool ie ++ 0b01#2
  | .softReset bit0 ignored => ignored ++ 0b1#1 ++ BitVec.ofBool bit0
  | .doneClear bit0 ignored => ignored ++ 0b1#1 ++ BitVec.ofBool bit0

/-- The bytes of an instruction's word on the bus. -/
def encode (i : Instr) : List Byte := wordBytes (encodeWord i)

/-- The register whose written word can be a control action: CTRL (0x08) or STATUS (0x0C) (40_command_sequencer R151).
A CMD word acts when the block runs it, not when it is written. -/
def writePort (off : BitVec 8) : Option Port :=
  if off = 0x08 then some .ctrl
  else if off = 0x0C then some .status
  else none

/-- A word of spec/opcode_table.json without its register. The nine rows share words across registers, so the register
must be chosen: a word that selects a command is read as a CMD word, any other as a CTRL word. DESIGN CHOICE (log 1). -/
def decodeTableWord (nbits w : Nat) : Option Instr :=
  let bs := wordBytes (BitVec.ofNat 32 (w % 2 ^ nbits))
  match decode .cmd bs with
  | .ok (i, _) => some i
  | .error _ =>
    match decode .ctrl bs with
    | .ok (i, _) => some i
    | .error _ => none

end Sys2Proof
end

