-- ==== Sys2Proof/Machine/State.lean ====
section
/-! DEFINITION. The state of the block, of the system memory it reaches and of the host's accesses still to come; the
reasons a step can stop; the state after reset. -/

namespace Sys2Proof.Machine

/-- Why a step stops because something asked for does not exist. -/
inductive Fault where
  /-- A host byte access names an address outside the 2^32 bytes of system memory (20_memory R80). Raised by the host's
  memory accesses. Safe: no such access exists on the bus. -/
  | noSuchAddress
deriving DecidableEq, Repr

/-- Why a step has no meaning. Each one but the first is a run the spec says a model refuses. -/
inductive Refusal where
  /-- An instruction that has no meaning yet. Raised by exec's arms only. Safe. -/
  | notModelled (mnemonic : String)
  /-- The configuration is outside its ranges (00_scope R10, R11). Raised by every step. Safe. -/
  | configOutOfRange
  /-- A register access that is not 32 bits wide or not 4-byte aligned (20_memory R89). Raised by host register
  accesses. Safe. -/
  | registerAccessForm
  /-- A host byte access to the register window or another device's registers (20_memory R89, R93). Raised by the
  host's memory accesses. Safe. -/
  | hostByteAccessToDevice
  /-- A host write into the input or output region of a command before its DONE was seen (20_memory R98,
  70_reset_and_hazards R461 duties 1, 2). Raised by the host's memory writes. Safe. -/
  | hostWroteCommandRegion
  /-- A host read of the output region before DONE was seen and ordered (20_memory R96, 70_reset_and_hazards R461
  duties 2, 7). Raised by the host's memory reads. Safe. -/
  | outputReadUnordered
  /-- A host read of the output region through a cache that was not invalidated (20_memory R102, 70_reset_and_hazards
  R461 duty 5). Raised by the host's memory reads. Safe. -/
  | outputCacheStale
  /-- The input or output region covers device registers (20_memory R93, 70_reset_and_hazards R461 duty 4). Raised by
  START. Safe. -/
  | regionOverDevice
  /-- The input region is not idempotent memory (20_memory R92, 70_reset_and_hazards R461 duty 3). Raised by
  START. Safe. -/
  | inputNotIdempotent
  /-- START was given with a host store into the input region not ordered before it (20_memory R95,
  70_reset_and_hazards R461 duty 7). Raised by START. Safe. -/
  | inputStoreUnordered
  /-- START was given with a host store into the input region still in a cache the DMA does not see (20_memory R102,
  70_reset_and_hazards R461 duty 5). Raised by START. Safe. -/
  | inputCacheUnclean
deriving DecidableEq, Repr

/-- The errors a command can end with (60_exceptions R400). Codes 0, 1 and 10 to 15 are no errors a command raises
(R401, R410), so they have no constructor. -/
inductive ErrKind where
  | truncatedStream
  | corruptTree
  | invalidOffset
  | unknownFormatMarker
  | badCommand
  | rangeError
  | outputOverflow
  | busError
deriving DecidableEq, Repr

/-- `raise E(info)` (60_exceptions R414). -/
structure Raise where
  kind : ErrKind
  info : Nat
deriving DecidableEq, Repr

/-- The sequencer's phase (10_state R59). -/
inductive Phase where
  | idle
  | run
deriving DecidableEq, Repr

/-- System memory: the bytes that differ from what an unlisted address reads as, addresses strictly rising. -/
abbrev Memory := List Host.Cell

/-- The two regions of a started command, kept while the host's duties last (20_memory R83, 70_reset_and_hazards
R461). -/
structure Owned where
  input  : Region
  output : Region
deriving DecidableEq, Repr

/-- The host's side: what its last read returned and which of its accesses are not ordered yet (20_memory R95, R96,
R102). The model's own fields: DESIGN CHOICE (log 15, log 16, log 20). -/
structure HostView where
  /-- The value the last host read returned (40_command_sequencer R150). -/
  readData       : Word
  /-- The regions of started commands, the last one's first, until the host has seen a DONE since or the block is reset. -/
  owned          : List Owned
  /-- Addresses of host stores with no fence after them. -/
  unfenced       : List Nat
  /-- Addresses of host stores not cleaned from the host's caches. -/
  dirty          : List Nat
  /-- Output regions of completed commands not yet ordered before the host's reads; the flag says DONE was seen. -/
  outUnordered   : List (Region × Bool)
  /-- What the host has not invalidated in its caches of the output regions of completed commands. -/
  outCached      : List Region
deriving DecidableEq, Repr

/-- Everything the spec gives the machine (INVENTORY.md, State), and the model's own fields `host`, `inputs`,
`draws`. -/
structure State where
  /-- Configuration (00_scope R10): no step changes it. -/
  cfg     : Config
  /-- CTRL.IE (10_state R36). -/
  ie      : Bool
  /-- STATUS.BUSY (10_state R38). -/
  busy    : Bool
  /-- STATUS.DONE (10_state R39). -/
  done    : Bool
  /-- STATUS.ERROR (10_state R40). -/
  error   : Bool
  /-- STATUS.ERR_CODE (10_state R41). -/
  errCode : BitVec 4
  /-- CMD (10_state R43). -/
  cmd     : Word
  /-- SRC_ADDR (10_state R46). -/
  srcAddr : Word
  /-- SRC_LEN (10_state R46). -/
  srcLen  : Word
  /-- DST_ADDR (10_state R46). -/
  dstAddr : Word
  /-- DST_CAP (10_state R46). -/
  dstCap  : Word
  /-- OUT_LEN (10_state R47). -/
  outLen  : Word
  /-- ERR_INFO (10_state R48). -/
  errInfo : Word
  /-- The sequencer's phase (10_state R59). -/
  phase   : Phase
  /-- L_CMD, L_SRC, L_LEN, L_DST, L_CAP (10_state R59). -/
  latch   : Latch
  /-- The input cursor (10_state R59). -/
  ip      : Word
  /-- The output count (10_state R59). -/
  op      : Word
  /-- The units' internal state (10_state R50 to R58). -/
  units   : Units
  /-- System memory (20_memory R80). -/
  mem     : Memory
  /-- The host's side. -/
  host    : HostView
  /-- What reaches the block's boundary next, oldest first (log 2). -/
  inputs  : List Input
  /-- How many free values were drawn so far (log 7). -/
  draws   : Nat
deriving DecidableEq, Repr

/-- All zero and empty: DESIGN CHOICE (log 6), since 10_state R64 leaves the internal state unspecified at reset. -/
def Units.zero : Units where
  freq := Vector.replicate 256 0
  arena := []
  queue := []
  codes := Vector.replicate 256 []
  acc := 0
  packCnt := 0
  cur := 0
  pos := 0
  totalBits := 0
  lzCur := 0
  bestLen := 0
  bestOff := 0
  hist := []
  produced := 0
  rleI := 0
  rleR := 0
  rleJ := 0
  rleC := 0
  rleCnt := 0

/-- A host that has done nothing yet (log 16, log 20). -/
def HostView.fresh : HostView where
  readData := 0
  owned := []
  unfenced := []
  dirty := []
  outUnordered := []
  outCached := []

/-- The machine right after the hardware reset (70_reset_and_hazards R450, 10_state R31 to R49): every register at its
reset value, idle, memory with nothing listed. The internal state, latched copies, `ip` and `op` are log 6's zeros, the
configuration is log 12's. -/
def State.reset : State where
  cfg := Config.default
  ie := false
  busy := false
  done := false
  error := false
  errCode := 0
  cmd := 0
  srcAddr := 0
  srcLen := 0
  dstAddr := 0
  dstCap := 0
  outLen := 0
  errInfo := 0
  phase := .idle
  latch := ⟨0, 0, 0, 0, 0⟩
  ip := 0
  op := 0
  units := Units.zero
  mem := []
  host := HostView.fresh
  inputs := []
  draws := 0

end Sys2Proof.Machine
end

