-- ==== Sys2Proof/Machine/Flags.lean ====
section
/-! DEFINITION. The flags of the block, the STATUS and CTRL words a host reads, the interrupt line, and what each event
writes in them (10_state R33 to R42, R60, R63). -/

namespace Sys2Proof.Machine

/-- The number of an error (60_exceptions R400). -/
def ErrKind.code : ErrKind → BitVec 4
  | .truncatedStream => 2
  | .corruptTree => 3
  | .invalidOffset => 4
  | .unknownFormatMarker => 5
  | .badCommand => 6
  | .rangeError => 7
  | .outputOverflow => 8
  | .busError => 9

/-- STATUS as read: ERR_CODE in 11:8, ERROR in 2, DONE in 1, BUSY in 0, every other bit 0 (10_state R38 to R42). -/
def State.statusWord (s : State) : Word :=
  0#20 ++ s.errCode ++ 0#5 ++ BitVec.ofBool s.error ++ BitVec.ofBool s.done ++ BitVec.ofBool s.busy

/-- CTRL as read: IE in bit 2, every other bit 0 (10_state R33, R37). -/
def State.ctrlWord (s : State) : Word :=
  0#29 ++ BitVec.ofBool s.ie ++ 0#2

/-- The interrupt output: `STATUS.DONE & CTRL.IE` (10_state R60). -/
def State.irq (s : State) : Bool := s.done && s.ie

/-- An accepted START: BUSY <- 1, DONE, ERROR and ERR_CODE <- 0 (40_command_sequencer R152). -/
def flagsStart (s : State) : State :=
  { s with busy := true, done := false, error := false, errCode := 0 }

/-- A completion: ERROR and ERR_CODE say how it ended, BUSY <- 0, DONE <- 1 (40_command_sequencer R166). -/
def flagsComplete (err : Option ErrKind) (s : State) : State :=
  match err with
  | none => { s with busy := false, done := true, error := false, errCode := 0 }
  | some k => { s with busy := false, done := true, error := true, errCode := k.code }

/-- DONE-clear writes DONE alone (40_command_sequencer R154). -/
def flagsDoneClear (s : State) : State :=
  { s with done := false }

/-- A reset clears every flag and IE (40_command_sequencer R153). -/
def flagsReset (s : State) : State :=
  { s with ie := false, busy := false, done := false, error := false, errCode := 0 }

/-- A CTRL write that does not set bit 1 sets IE (10_state R36). -/
def setIe (ie : Bool) (s : State) : State :=
  { s with ie := ie }

end Sys2Proof.Machine
end

