-- ==== Sys2Proof/Machine/Operands.lean ====
section
/-! DEFINITION. A command's operands: the four latched operand registers, the two regions they name, and the start
checks on them (30_encoding R113, 20_memory R83, 40_command_sequencer R152, R158). -/

namespace Sys2Proof

/-- `r` and `q` are both nonempty and share an address (40_command_sequencer R158, the third check). -/
def Region.meets (r q : Region) : Bool :=
  decide (0 < r.size) && decide (0 < q.size) &&
    decide (r.base < q.base + q.size) && decide (q.base < r.base + r.size)

/-- The addresses of `r` that are none of `q`: those below `q`, and those above it. -/
def Region.minus (r q : Region) : List Region :=
  [⟨r.base, min r.size (q.base - r.base)⟩,
    ⟨max r.base (q.base + q.size), r.base + r.size - max r.base (q.base + q.size)⟩]

/-- The region runs past the end of the 2^32-byte space; the addition is exact (40_command_sequencer R158). -/
def Region.wraps (r : Region) : Bool := decide (2 ^ 32 < r.base + r.size)

end Sys2Proof

namespace Sys2Proof.Machine

/-- L_OP, bits 3:0 of L_CMD (10_state R59). -/
def Latch.op (l : Latch) : BitVec 4 := l.cmd.extractLsb' 0 4

/-- The input region: L_SRC + i for i below L_LEN (20_memory R83). -/
def Latch.input (l : Latch) : Region := ⟨l.src.toNat, l.len.toNat⟩

/-- The output region: L_DST + k for k below L_CAP (20_memory R83). -/
def Latch.output (l : Latch) : Region := ⟨l.dst.toNat, l.cap.toNat⟩

/-- The copies an accepted START takes (40_command_sequencer R152). -/
def State.operands (s : State) : Latch :=
  ⟨s.cmd, s.srcAddr, s.srcLen, s.dstAddr, s.dstCap⟩

/-- StartChecks: the first check that fails, in order (40_command_sequencer R158). -/
def startChecks (l : Latch) : Option Raise :=
  if (decodeCommand l.cmd).isNone then some ⟨.badCommand, 0⟩
  else if l.input.wraps || l.output.wraps then some ⟨.rangeError, 0⟩
  else if l.input.meets l.output then some ⟨.rangeError, 0⟩
  else none

end Sys2Proof.Machine
end

