-- ==== Sys2Proof/Machine/Ops.lean ====
section
/-! DEFINITION. The shared operations: system memory, the register file, taking an error completion (the block's
exception, 60_exceptions R417) and returning from one, accepting a START, and the two resets. -/

namespace Sys2Proof.Machine

/-! ### System memory (20_memory R80 to R82) -/

/-- What an address reads as when the memory lists nothing there. The spec gives no reset contents: DESIGN CHOICE
(log 5). -/
def Memory.unlisted : Byte := 0

/-- `MemRead(a, 1)` without the bus answer (20_memory R81). -/
def Memory.read : Memory → Nat → Byte
  | [], _ => Memory.unlisted
  | (k, v) :: rest, a => if k = a then v else if a < k then Memory.unlisted else Memory.read rest a

/-- Put a cell in front unless it holds what an unlisted address reads as. -/
def Memory.cons (a : Nat) (b : Byte) (m : Memory) : Memory :=
  if b = Memory.unlisted then m else (a, b) :: m

/-- `MemWrite(a, 1, b)` without the bus answer (20_memory R82). -/
def Memory.write : Memory → Nat → Byte → Memory
  | [], a, b => Memory.cons a b []
  | (k, v) :: rest, a, b =>
    if k = a then Memory.cons a b rest
    else if a < k then Memory.cons a b ((k, v) :: rest)
    else (k, v) :: Memory.write rest a b

/-- `bs` at `a`, `a + 1`, …, in order. -/
def Memory.writeBytes : Memory → Nat → List Byte → Memory
  | m, _, [] => m
  | m, a, b :: bs => Memory.writeBytes (Memory.write m a b) (a + 1) bs

/-- Every byte of `n` addresses from `a` on takes the value `f` gives it. -/
def Memory.fill (f : Nat → Byte) : Memory → Nat → Nat → Memory
  | m, _, 0 => m
  | m, a, n + 1 => Memory.fill f (Memory.write m a (f a)) (a + 1) n

/-- Addresses rise strictly from `lo` on, and no entry holds what an unlisted address reads as. -/
def Memory.wfFrom : Nat → Memory → Bool
  | _, [] => true
  | lo, (k, v) :: rest => decide (lo ≤ k) && decide (v ≠ Memory.unlisted) && Memory.wfFrom (k + 1) rest

/-- The canonical form: equal memories are equal lists. -/
def Memory.wf (m : Memory) : Bool := Memory.wfFrom 0 m

/-- Every listed address is one of the 2^32 (20_memory R80). -/
def Memory.inSpace (m : Memory) : Bool := m.all fun c => decide (c.1 < 2 ^ 32)

/-! ### The register file (10_state R30 to R49) -/

/-- PARAM_LZ (10_state R44). -/
def Config.paramLz (c : Config) : Word :=
  BitVec.ofNat 8 c.minMatchLen ++ BitVec.ofNat 8 c.maxMatchLen ++ BitVec.ofNat 16 c.windowSize

/-- PARAM_STORE (10_state R45). -/
def Config.paramStore (c : Config) : Word := 0#16 ++ BitVec.ofNat 16 c.lzStoreThreshold

/-- What a 32-bit read at offset `off` returns (40_command_sequencer R150, 10_state R31 to R49). -/
def readReg (s : State) (off : BitVec 8) : Word :=
  if off = 0x00 then 0x0000CCB1
  else if off = 0x04 then 0x00000001
  else if off = 0x08 then s.ctrlWord
  else if off = 0x0C then s.statusWord
  else if off = 0x10 then s.cmd
  else if off = 0x14 then s.srcAddr
  else if off = 0x18 then s.srcLen
  else if off = 0x1C then s.dstAddr
  else if off = 0x20 then s.dstCap
  else if off = 0x24 then s.outLen
  else if off = 0x28 then s.errInfo
  else if off = 0x2C then Config.paramLz s.cfg
  else if off = 0x30 then Config.paramStore s.cfg
  else 0

/-- What a 32-bit write at offset `off` does when it requests no control action (40_command_sequencer R151, R155, R156):
CMD and the operand registers store `v` unless BUSY, CTRL takes IE, everything else ignores the write. -/
def writeReg (s : State) (off : BitVec 8) (v : Word) : State :=
  if off = 0x08 then setIe (v.getLsbD 2) s
  else if s.busy then s
  else if off = 0x10 then { s with cmd := v }
  else if off = 0x14 then { s with srcAddr := v }
  else if off = 0x18 then { s with srcLen := v }
  else if off = 0x1C then { s with dstAddr := v }
  else if off = 0x20 then { s with dstCap := v }
  else s

/-! ### Free values (93_implementation_defined) -/

/-- The internal state, latched copies, `ip` and `op` take free values (10_state R64; log 7). -/
def forgetInternals (s : State) : State :=
  { s with
    latch := Config.freeLatch s.draws
    ip := Config.freeIp s.draws
    op := Config.freeOp s.draws
    units := Config.freeUnits s.draws
    draws := s.draws + 1 }

/-- Every byte of the running command's output region takes a free value (93_implementation_defined 1, 2, 11; log 8). Of
a region that would wrap, the addresses below 2^32 are all there are (20_memory R80, log 10). -/
def scrambleOutput (s : State) : State :=
  { s with
    mem := Memory.fill (Config.freeByte s.draws) s.mem s.latch.dst.toNat
      (min s.latch.cap.toNat (2 ^ 32 - s.latch.dst.toNat))
    draws := s.draws + 1 }

/-! ### Completion, errors and the return from one -/

/-- The host's side of a completion: its reads of the output region are not ordered yet and its caches may hold the
region (20_memory R96, R102; log 16). So it is after a failed start check too: 70_reset_and_hazards R461 makes no
exception to duties 5 and 7 for a command that wrote nothing (log 15). -/
def hostCompleted (s : State) : HostView :=
  { s.host with
    outUnordered := (s.latch.output, false) :: s.host.outUnordered
    outCached := s.latch.output :: s.host.outCached }

/-- The completion transition (40_command_sequencer R166): OUT_LEN, ERR_INFO, the flags, and the phase. -/
def complete (err : Option ErrKind) (outLen errInfo : Word) (s : State) : State :=
  forgetInternals
    { flagsComplete err s with
      outLen := outLen
      errInfo := errInfo
      phase := .idle
      host := hostCompleted s }

/-- TAKING AN ERROR: the block's only trap (60_exceptions R414, R417). ERROR, ERR_CODE and ERR_INFO take the cause and
the location, OUT_LEN is 0, and the command is over. -/
def takeError (r : Raise) (s : State) : State :=
  complete (some r.kind) 0 (BitVec.ofNat 32 r.info) s

/-- RETURN: the host acknowledges a completion. ERROR, ERR_CODE, ERR_INFO and OUT_LEN stay (60_exceptions R418). -/
def acknowledge (s : State) : State := flagsDoneClear s

/-- A success with output `out` (40_command_sequencer R165, R166): its bytes stand at L_DST on, OUT_LEN counts them. -/
def succeed (out : List Byte) (s : State) : State :=
  complete none (BitVec.ofNat 32 out.length) 0
    { s with mem := Memory.writeBytes s.mem s.latch.dst.toNat out }

/-! ### START and the resets -/

/-- The host duty a START breaks, if any: then the result is unspecified and a model refuses the run
(70_reset_and_hazards R461 duties 3, 4, 5, 7; 20_memory R92, R93, R95, R102). The duties hold from the START write on,
so the run is refused there, whether or not its start checks would pass and even if a reset would abort it (DEDUCED,
log 26). -/
def dutyBreach (s : State) : Option Refusal :=
  if (Config.deviceRegions s.cfg).any
      (fun d => d.meets s.operands.input || d.meets s.operands.output) then some .regionOverDevice
  else if s.cfg.sideEffectMem.any (fun m => m.meets s.operands.input) then some .inputNotIdempotent
  else if s.host.unfenced.any (fun a => s.operands.input.contains a) then some .inputStoreUnordered
  else if !s.cfg.dmaCoherent && s.host.dirty.any (fun a => s.operands.input.contains a) then some .inputCacheUnclean
  else none

/-- The host's side of an accepted START: the command's regions become its duty, beside those of earlier commands whose
DONE it has not seen (70_reset_and_hazards R461; log 15). A host store into the OUTPUT region that is not ordered or not
clean yet counts as performed before the block's writes; the spec leaves its order open (DESIGN CHOICE, log 27). -/
def hostStarted (s : State) : HostView :=
  { s.host with owned := ⟨s.operands.input, s.operands.output⟩ :: s.host.owned }

/-- An accepted START: latch, clear the last result, become busy (40_command_sequencer R152). -/
def acceptStart (s : State) : State :=
  { flagsStart s with
    latch := s.operands
    outLen := 0
    errInfo := 0
    ip := 0
    op := 0
    phase := .run
    host := hostStarted s }

/-- An aborted command leaves every byte of its output region unspecified, whatever its start checks would say
(40_command_sequencer R153, 70_reset_and_hazards R451, 93_implementation_defined 2; log 10). -/
def abort (s : State) : State :=
  if s.phase = .run then scrambleOutput s else s

/-- A reset, soft or hardware: abort a running command, every register at its reset value, idle (40_command_sequencer
R153, 70_reset_and_hazards R450 to R453). It ends the host's duties for the last command's regions, but not the order
its loads of a completed output still need: the spec is silent on an output whose DONE was never seen before the reset,
and the model keeps refusing those loads until a later DONE is seen and a fence follows. Nor does it say what orders host
loads of the output of a command the reset ABORTED, which has no DONE: they complete at once, with no fence and no
invalidate, and each gives the free byte the abort left there (both DESIGN CHOICE, log 28). -/
def resetBlock (s : State) : State :=
  forgetInternals
    { flagsReset (abort s) with
      cmd := 0
      srcAddr := 0
      srcLen := 0
      dstAddr := 0
      dstCap := 0
      outLen := 0
      errInfo := 0
      phase := .idle
      host := { s.host with owned := [] } }

end Sys2Proof.Machine
end

