-- ==== Sys2Proof/Machine/Prims.lean ====
section
/-! DEFINITION. What a running command works on, and the primitives In, Fetch, FetchLE, Emit and EmitLE the unit rules
are written with (00_scope R17, 40_command_sequencer R160 to R164). A command's working values are naturals, as
00_scope R15 says; their stored widths are in Machine/Units.lean (log 18). -/

namespace Sys2Proof.Machine

/-- A node of the arena while a command works on it (10_state R51). -/
inductive WNode where
  | leaf (sym : Byte) (w : Nat)
  | internal (w left right : Nat)
deriving DecidableEq, Repr

/-- The weight of a node. -/
def WNode.weight : WNode → Nat
  | .leaf _ w => w
  | .internal w _ _ => w

/-- The working values of the units (10_state R50 to R58): the fields of `Units`, but for `produced`, which is the number
of bytes emitted (44_lz77_decoder R323). -/
structure Work where
  freq      : List Nat
  arena     : List WNode
  queue     : List Nat
  codes     : List (List Bool)
  acc       : Nat
  packCnt   : Nat
  cur       : Byte
  pos       : Nat
  totalBits : Nat
  lzCur     : Nat
  bestLen   : Nat
  bestOff   : Nat
  hist      : List Byte
  rleI      : Nat
  rleR      : Nat
  rleJ      : Nat
  rleC      : Byte
  rleCnt    : Nat
deriving DecidableEq, Repr

/-- A stored node as a working node. -/
def Node.toWork : Node → WNode
  | .leaf sym w => .leaf sym w.toNat
  | .internal w l r => .internal w.toNat l.toNat r.toNat

/-- The stored internal state as the command finds it; every command sets each element before it reads it (10_state
R64). -/
def Units.toWork (u : Units) : Work where
  freq := u.freq.toList.map BitVec.toNat
  arena := u.arena.map Node.toWork
  queue := u.queue.map BitVec.toNat
  codes := u.codes.toList
  acc := u.acc.toNat
  packCnt := u.packCnt.toNat
  cur := u.cur
  pos := u.pos.toNat
  totalBits := u.totalBits.toNat
  lzCur := u.lzCur.toNat
  bestLen := u.bestLen.toNat
  bestOff := u.bestOff.toNat
  hist := u.hist
  rleI := u.rleI.toNat
  rleR := u.rleR.toNat
  rleJ := u.rleJ.toNat
  rleC := u.rleC
  rleCnt := u.rleCnt.toNat

/-- What a command is given and cannot change: the configuration, the memory it reads, its latched operands (00_scope
R13, 40_command_sequencer R167). -/
structure Env where
  cfg : Config
  mem : Memory
  src : Nat
  len : Nat
  dst : Nat
  cap : Nat
deriving DecidableEq, Repr

/-- What a command changes while it runs: the input cursor `ip`, the bytes emitted so far, and the working values. -/
structure Run where
  ip  : Nat
  out : List Byte
  u   : Work
deriving DecidableEq, Repr

/-- `op`: the number of bytes emitted (10_state R59). -/
def Run.op (r : Run) : Nat := r.out.length

/-- The running command's environment: its latched operands (40_command_sequencer R167). -/
def State.env (s : State) : Env :=
  ⟨s.cfg, s.mem, s.latch.src.toNat, s.latch.len.toNat, s.latch.dst.toNat, s.latch.cap.toNat⟩

/-- A command begins with ip = 0, op = 0 and the units as they are (40_command_sequencer R152). -/
def State.begin (s : State) : Run := ⟨0, [], s.units.toWork⟩

/-- `In(i)`: `MemRead(L_SRC + i, 1)`, which may raise BUS_ERROR (40_command_sequencer R160, 20_memory R81). -/
def input (e : Env) (i : Nat) : Except Raise Byte :=
  if e.cfg.busOk (e.src + i) then .ok (e.mem.read (e.src + i))
  else .error ⟨.busError, e.src + i⟩

/-- `Fetch()`: the next input byte (40_command_sequencer R161). -/
def fetch (e : Env) (r : Run) : Except Raise (Byte × Run) :=
  if e.len ≤ r.ip then .error ⟨.truncatedStream, r.ip⟩
  else do
    let b ← input e r.ip
    return (b, { r with ip := r.ip + 1 })

/-- `FetchLE(N)`: N bytes as a little-endian number (40_command_sequencer R162). -/
def fetchLE (e : Env) : Nat → Run → Except Raise (Nat × Run)
  | 0, r => .ok (0, r)
  | n + 1, r => do
    let (b, r) ← fetch e r
    let (v, r) ← fetchLE e n r
    return (b.toNat + 256 * v, r)

/-- `Emit(b, info)`: append one output byte at L_DST + op (40_command_sequencer R163, 20_memory R82). -/
def emit (e : Env) (b : Byte) (info : Nat) (r : Run) : Except Raise Run :=
  if e.cap ≤ r.op then .error ⟨.outputOverflow, info⟩
  else if e.cfg.busOk (e.dst + r.op) then .ok { r with out := r.out ++ [b] }
  else .error ⟨.busError, e.dst + r.op⟩

/-- `EmitLE(v, N, info)`: the N bytes of `v`, low byte first (40_command_sequencer R164). -/
def emitLE (e : Env) (info : Nat) : Nat → Nat → Run → Except Raise Run
  | 0, _, r => .ok r
  | n + 1, v, r => do
    let r ← emit e (BitVec.ofNat 8 v) info r
    emitLE e info n (v / 256) r

/-- `Emit(b, info)` `n` times. -/
def emitRep (e : Env) (b : Byte) (info : Nat) : Nat → Run → Except Raise Run
  | 0, r => .ok r
  | n + 1, r => do
    let r ← emit e b info r
    emitRep e b info n r

end Sys2Proof.Machine
end

