-- ==== Sys2Proof/Machine/Sequencer.lean ====
section
/-! DEFINITION. The command sequencer: running a latched command (40_command_sequencer R157, R166, R167), and the three
control actions START, SOFT_RESET and DONE-clear (R152 to R154). -/

namespace Sys2Proof.Machine

/-- Run the latched command with the unit `unit` and complete it in one transition (40_command_sequencer R157, R158,
R166, R167). A failed start check touches no memory (60_exceptions R406, R407); any later error leaves the output
region unspecified (20_memory R84). While idle no command runs and no memory is accessed (60_exceptions R426). -/
def runCommand (unit : Env → Run → Except Raise Run) (s : State) : Host.Outcome State Fault Refusal :=
  match s.phase with
  | .idle => .next s
  | .run =>
    match startChecks s.latch with
    | some r => .next (takeError r s)
    | none =>
      match unit s.env s.begin with
      | .ok r => .next (succeed r.out s)
      | .error r => .next (takeError r (scrambleOutput s))

/-- A running command word that selects no command: the first start check raises BAD_COMMAND(0) (30_encoding R112,
60_exceptions R406). -/
def runNoCommand (s : State) : Host.Outcome State Fault Refusal :=
  .next (takeError ⟨.badCommand, 0⟩ s)

/-- START (40_command_sequencer R152): IE first (30_encoding R114), then the start, ignored while BUSY. A run that
breaks a host duty is refused here, where the duties begin (70_reset_and_hazards R461, log 26). -/
def execStart (ie : Bool) (s : State) : Host.Outcome State Fault Refusal :=
  if s.busy then .next (setIe ie s)
  else match dutyBreach s with
    | some why => .refused why
    | none => .next (acceptStart (setIe ie s))

/-- SOFT_RESET (40_command_sequencer R153). -/
def execSoftReset (s : State) : Host.Outcome State Fault Refusal :=
  .next (resetBlock s)

/-- DONE-clear (40_command_sequencer R154). -/
def execDoneClear (s : State) : Host.Outcome State Fault Refusal :=
  .next (acknowledge s)

end Sys2Proof.Machine
end

