-- ==== Sys2Proof/Machine/HuffmanEncoder.lean ====
section
/-! DEFINITION. huffman_encoder: the frequency counter, the tree builder, the code generator, the bit packer and
HUFF_ENC (41_huffman_encoder R200 to R211). -/

namespace Sys2Proof.Machine

/-! ### Frequency counter -/

/-- `freq[b]`. -/
def freqOf (freq : List Nat) (b : Byte) : Nat := freq.getD b.toNat 0

/-- The loop of FREQ_COUNT; the first argument is L_LEN - ip. -/
def freqLoop (e : Env) : Nat → Run → Except Raise Run
  | 0, r => .ok r
  | n + 1, r => do
    let (b, r) ← fetch e r
    freqLoop e n { r with u := { r.u with freq := r.u.freq.set b.toNat (freqOf r.u.freq b + 1) } }

/-- FREQ_COUNT (41_huffman_encoder R200). -/
def freqCount (e : Env) (r : Run) : Except Raise Run :=
  freqLoop e e.len { r with ip := 0, u := { r.u with freq := List.replicate 256 0 } }

/-- Every byte value in ascending order. -/
def allBytes : List Byte := (List.range 256).map (BitVec.ofNat 8)

/-- SYMBOLS: the byte values with a nonzero count, ascending (41_huffman_encoder R201). -/
def symbols (freq : List Nat) : List Byte :=
  allBytes.filter fun b => decide (0 < freqOf freq b)

/-! ### Tree builder -/

/-- The weight of the node at an arena index. -/
def weightAt (arena : List WNode) (q : Nat) : Nat := ((arena[q]?).map WNode.weight).getD 0

/-- The key order of the queue: (weight, arena index), lexicographic (41_huffman_encoder R202). -/
def keyLess (arena : List WNode) (p q : Nat) : Bool :=
  decide (weightAt arena p < weightAt arena q) || (decide (weightAt arena p = weightAt arena q) && decide (p < q))

/-- The element of `q :: qs` with the least key. -/
def leastKey (arena : List WNode) : Nat → List Nat → Nat
  | q, [] => q
  | q, p :: qs => leastKey arena (if keyLess arena p q then p else q) qs

/-- The loop of BUILD_TREE: while two elements are left, the two least become the children of a new node. The first
argument bounds the rounds; each takes one element away (log 17). -/
def buildLoop : Nat → List WNode → List Nat → List WNode × List Nat
  | 0, arena, q => (arena, q)
  | n + 1, arena, q =>
    match q with
    | x :: y :: rest =>
      let a := leastKey arena x (y :: rest)
      match (x :: y :: rest).erase a with
      | z :: rest' =>
        let c := leastKey arena z rest'
        buildLoop n (arena ++ [.internal (weightAt arena a + weightAt arena c) a c])
          ((z :: rest').erase c ++ [arena.length])
      | [] => (arena, q)
    | _ => (arena, q)

/-- The leaves of BUILD_TREE, in the order of `syms` (41_huffman_encoder R202). -/
def leaves (syms : List Byte) (freq : List Nat) : List WNode :=
  syms.map fun b => .leaf b (freqOf freq b)

/-- BUILD_TREE: the arena, and the queue whose only element is the root (41_huffman_encoder R202). -/
def buildTree (syms : List Byte) (freq : List Nat) : List WNode × List Nat :=
  buildLoop syms.length (leaves syms freq) (List.range syms.length)

/-- The root BUILD_TREE leaves in the queue. -/
def rootOf (queue : List Nat) : Nat := queue.headD 0

/-- BUILD_TREE as the command runs it: the arena and the queue are the unit's (10_state R51, R52). -/
def buildTreeRun (syms : List Byte) (r : Run) : Run :=
  { r with u := { r.u with
    arena := (buildTree syms r.u.freq).1
    queue := (buildTree syms r.u.freq).2 } }

/-! ### Code generator -/

/-- WALK: the code of each leaf below node `x` is the path to it, `false` for left (41_huffman_encoder R204). The first
argument bounds the depth; a tree's depth is below the arena's length (log 17). -/
def walkCodes (arena : List WNode) : Nat → Nat → List Bool → List (List Bool) → List (List Bool)
  | 0, _, _, codes => codes
  | n + 1, x, p, codes =>
    match arena[x]? with
    | some (.leaf sym _) => codes.set sym.toNat p
    | some (.internal _ l rt) =>
      walkCodes arena n rt (p ++ [true]) (walkCodes arena n l (p ++ [false]) codes)
    | none => codes

/-- GEN_CODES (41_huffman_encoder R204). Entries of absent byte values keep what they held and are never read
(10_state R53). -/
def genCodes (r : Run) : Run :=
  { r with u := { r.u with
    codes := walkCodes r.u.arena r.u.arena.length (rootOf r.u.queue) [] r.u.codes } }

/-- `code[b]`. -/
def codeOf (codes : List (List Bool)) (b : Byte) : List Bool := codes.getD b.toNat []

/-- TOTAL_BITS (41_huffman_encoder R206). -/
def totalBitsOf (freq : List Nat) (codes : List (List Bool)) (syms : List Byte) : Nat :=
  (syms.map fun b => freqOf freq b * (codeOf codes b).length).sum

/-! ### Bit packer -/

/-- PUT_BIT (41_huffman_encoder R207). -/
def putBit (e : Env) (x : Bool) (info : Nat) (r : Run) : Except Raise Run :=
  let acc := (r.u.acc * 2 + x.toNat) % 256
  let cnt := r.u.packCnt + 1
  if cnt = 8 then do
    let r ← emit e (BitVec.ofNat 8 acc) info r
    return { r with u := { r.u with acc := 0, packCnt := 0 } }
  else .ok { r with u := { r.u with acc := acc, packCnt := cnt } }

/-- PUT_BIT of every bit of a code. -/
def putBits (e : Env) (info : Nat) : List Bool → Run → Except Raise Run
  | [], r => .ok r
  | x :: xs, r => do
    let r ← putBit e x info r
    putBits e info xs r

/-- FLUSH (41_huffman_encoder R208): the last bits, padded with zero bits. -/
def flushBits (e : Env) (info : Nat) (r : Run) : Except Raise Run :=
  if 0 < r.u.packCnt then do
    let r ← emit e (BitVec.ofNat 8 (r.u.acc * 2 ^ (8 - r.u.packCnt) % 256)) info r
    return { r with u := { r.u with acc := 0, packCnt := 0 } }
  else .ok r

/-- The loop of PAYLOAD_PASS; the first argument is L_LEN - ip. -/
def payloadLoop (e : Env) : Nat → Run → Except Raise Run
  | 0, r => .ok r
  | n + 1, r => do
    let (b, r) ← fetch e r
    let r ← putBits e r.ip (codeOf r.u.codes b) r
    payloadLoop e n r

/-- PAYLOAD_PASS (41_huffman_encoder R209). -/
def payloadPass (e : Env) (r : Run) : Except Raise Run := do
  let r ← payloadLoop e e.len { r with ip := 0, u := { r.u with acc := 0, packCnt := 0 } }
  flushBits e r.ip r

/-! ### The command -/

/-- The (byte, frequency) pairs of the header (41_huffman_encoder R211). -/
def writePairs (e : Env) : List Byte → Run → Except Raise Run
  | [], r => .ok r
  | b :: bs, r => do
    let r ← emit e b r.ip r
    let r ← emitLE e r.ip 4 (freqOf r.u.freq b) r
    writePairs e bs r

/-- WRITE_HEADER (41_huffman_encoder R211). -/
def writeHeader (e : Env) (syms : List Byte) (total : Nat) (r : Run) : Except Raise Run := do
  let r ← emitLE e r.ip 8 syms.length r
  let r ← writePairs e syms r
  emitLE e r.ip 8 total r

/-- The unit huffman_encoder (41_huffman_encoder R210). -/
def huffEncUnit (e : Env) (r : Run) : Except Raise Run := do
  let r ← freqCount e r
  let syms := symbols r.u.freq
  if syms.length = 0 then do
    let r ← emitLE e r.ip 8 0 r
    emitLE e r.ip 8 0 r
  else do
    let r := genCodes (buildTreeRun syms r)
    let r ← writeHeader e syms (totalBitsOf r.u.freq r.u.codes syms) r
    payloadPass e r

/-- HUFF_ENC (41_huffman_encoder R210). -/
def execHuffEnc (s : State) : Host.Outcome State Fault Refusal :=
  runCommand huffEncUnit s

end Sys2Proof.Machine
end

