-- ==== Sys2Proof/Machine/HuffmanDecoder.lean ====
section
/-! DEFINITION. huffman_decoder: the tree deserializer, the bit unpacker and HUFF_DEC (42_huffman_decoder R240 to
R248). -/

namespace Sys2Proof.Machine

/-! ### Tree deserializer -/

/-- READ_COUNT (42_huffman_decoder R240). -/
def readCount (e : Env) (r : Run) : Except Raise (Nat × Run) := do
  let (d, r) ← fetchLE e 8 r
  if 256 < d then .error ⟨.corruptTree, 0⟩ else return (d, r)

/-- READ_PAIRS from pair `k` on, `n` pairs left, `prev` the byte of the pair before (none before the first); the symbols
in the order read, and their frequencies in `freq` (42_huffman_decoder R241). -/
def readPairs (e : Env) : Nat → Nat → Option Byte → Run → Except Raise (List Byte × Run)
  | 0, _, _, r => .ok ([], r)
  | n + 1, k, prev, r => do
    let (b, r) ← fetch e r
    let (f, r) ← fetchLE e 4 r
    if (prev.any fun p => decide (b.toNat ≤ p.toNat)) || decide (f = 0) then .error ⟨.corruptTree, 8 + 5 * k⟩
    else do
      let (syms, r) ← readPairs e n (k + 1) (some b) { r with u := { r.u with freq := r.u.freq.set b.toNat f } }
      return (b :: syms, r)

/-- N, the declared output length: the sum of the frequencies (42_huffman_decoder R242). -/
def declaredLength (freq : List Nat) (syms : List Byte) : Nat :=
  (syms.map (freqOf freq)).sum

/-- READ_TOTALBITS: T (42_huffman_decoder R242). -/
def readTotalBits (e : Env) (r : Run) : Except Raise Run := do
  let (t, r) ← fetchLE e 8 r
  return { r with u := { r.u with totalBits := t } }

/-! ### Bit unpacker -/

/-- The second line of GET_BIT: a payload byte is fetched when its first bit is needed (42_huffman_decoder R244). -/
def loadByte (e : Env) (r : Run) : Except Raise Run :=
  if r.u.pos % 8 = 0 then do
    let (b, r) ← fetch e r
    return { r with u := { r.u with cur := b } }
  else .ok r

/-- GET_BIT (42_huffman_decoder R244). -/
def getBit (e : Env) (r : Run) : Except Raise (Bool × Run) :=
  if r.u.totalBits ≤ r.u.pos then .error ⟨.truncatedStream, r.ip⟩
  else do
    let r ← loadByte e r
    return (r.u.cur.getLsbD (7 - r.u.pos % 8), { r with u := { r.u with pos := r.u.pos + 1 } })

/-- WALK_SYMBOL from node `x` (42_huffman_decoder R245). The first argument bounds the depth, as in `walkCodes`; a tree
of BUILD_TREE ends in a leaf before it runs out (R249, log 17). -/
def walkSymbol (e : Env) : Nat → Nat → Run → Except Raise (Byte × Run)
  | 0, _, r => .ok (0, r)
  | n + 1, x, r =>
    match r.u.arena[x]? with
    | some (.leaf sym _) => .ok (sym, r)
    | some (.internal _ l rt) => do
      let (bit, r) ← getBit e r
      walkSymbol e n (if bit then rt else l) r
    | none => .ok (0, r)

/-- The symbol loop of HUFF_DEC: `n` symbols (42_huffman_decoder R246, R247). -/
def decodeSymbols (e : Env) : Nat → Run → Except Raise Run
  | 0, r => .ok r
  | n + 1, r => do
    let (s, r) ← walkSymbol e r.u.arena.length (rootOf r.u.queue) r
    let r ← emit e s r.ip r
    decodeSymbols e n r

/-! ### The command -/

/-- HUFF_DEC after its header: no symbol, one symbol counted, or a tree walked (42_huffman_decoder R247, R248). -/
def huffDecBody (e : Env) (syms : List Byte) (r : Run) : Except Raise Run :=
  match syms with
  | [] => .ok r
  | [b] => emitRep e b r.ip (declaredLength r.u.freq [b]) r
  | b :: c :: rest =>
    let r := buildTreeRun (b :: c :: rest) r
    decodeSymbols e (declaredLength r.u.freq (b :: c :: rest)) { r with u := { r.u with pos := 0 } }

/-- The unit huffman_decoder (42_huffman_decoder R247). -/
def huffDecUnit (e : Env) (r : Run) : Except Raise Run := do
  let (d, r) ← readCount e { r with ip := 0 }
  let (syms, r) ← readPairs e d 0 none r
  let r ← readTotalBits e r
  huffDecBody e syms r

/-- HUFF_DEC (42_huffman_decoder R247). -/
def execHuffDec (s : State) : Host.Outcome State Fault Refusal :=
  runCommand huffDecUnit s

end Sys2Proof.Machine
end

