-- ==== Sys2Proof/Machine/Lz77Encoder.lean ====
section
/-! DEFINITION. lz77_encoder: the sliding-window match finder, the token emitter, the stored path and LZ77_ENC
(43_lz77_encoder R280 to R284). The window is re-read from the input with In (R280). -/

namespace Sys2Proof.Machine

/-- The marker 'U' of the stored form (30_encoding R125). -/
def markerStored : Byte := 0x55

/-- The marker 'C' of the tokenized form (30_encoding R125). -/
def markerTokens : Byte := 0x43

/-- The inner loop of FIND_MATCH: how far the bytes `off` back match, from length `len` on; the first argument is
maxlen - len (43_lz77_encoder R281). -/
def matchLengthFrom (e : Env) (cur off : Nat) : Nat → Nat → Except Raise Nat
  | 0, len => .ok len
  | n + 1, len => do
    let a ← input e (cur - off + len)
    let b ← input e (cur + len)
    if a = b then matchLengthFrom e cur off n (len + 1) else return len

/-- The outer loop of FIND_MATCH over ascending offsets from `off` on; the first argument is how many are left. Only a
strictly longer match replaces the best one (43_lz77_encoder R281). -/
def findMatchFrom (e : Env) (cur maxlen : Nat) : Nat → Nat → Nat × Nat → Except Raise (Nat × Nat)
  | 0, _, best => .ok best
  | n + 1, off, best => do
    let len ← matchLengthFrom e cur off maxlen 0
    findMatchFrom e cur maxlen n (off + 1) (if best.2 < len then (off, len) else best)

/-- FIND_MATCH: (best_off, best_len) (43_lz77_encoder R281). -/
def findMatch (e : Env) (cur : Nat) : Except Raise (Nat × Nat) :=
  findMatchFrom e cur (min e.cfg.maxMatchLen (e.len - 1 - cur)) (min cur e.cfg.windowSize) 1 (0, 0)

/-- EMIT_TOKEN with cur, best_off and best_len in the unit's state (43_lz77_encoder R282). -/
def emitToken (e : Env) (r : Run) : Except Raise Run := do
  let cur := r.u.lzCur
  let off := r.u.bestOff
  let len := r.u.bestLen
  if e.cfg.minMatchLen ≤ len then do
    let r ← emitLE e cur 2 off r
    let r ← emitLE e cur 2 len r
    let b ← input e (cur + len)
    let r ← emit e b cur r
    return { r with u := { r.u with lzCur := cur + len + 1 } }
  else do
    let r ← emitLE e cur 2 0 r
    let r ← emitLE e cur 2 0 r
    let b ← input e cur
    let r ← emit e b cur r
    return { r with u := { r.u with lzCur := cur + 1 } }

/-- `Emit(In(i), i)` for `n` positions from `i` on (43_lz77_encoder R283). -/
def storeBytes (e : Env) : Nat → Nat → Run → Except Raise Run
  | 0, _, r => .ok r
  | n + 1, i, r => do
    let b ← input e i
    let r ← emit e b i r
    storeBytes e n (i + 1) r

/-- STORE_RAW (43_lz77_encoder R283). -/
def storeRaw (e : Env) (r : Run) : Except Raise Run := do
  let r ← emit e markerStored 0 r
  storeBytes e e.len 0 r

/-- One round of LZ77_ENC's loop: the best match at the cursor, then its token (43_lz77_encoder R284). -/
def lz77EncToken (e : Env) (r : Run) : Except Raise Run := do
  let (off, len) ← findMatch e r.u.lzCur
  emitToken e { r with u := { r.u with bestOff := off, bestLen := len } }

/-- The loop of LZ77_ENC. Each token covers at least one byte, so L_LEN rounds are enough (log 17). -/
def lz77EncLoop (e : Env) : Nat → Run → Except Raise Run
  | 0, r => .ok r
  | n + 1, r =>
    if r.u.lzCur < e.len then do
      let r ← lz77EncToken e r
      lz77EncLoop e n r
    else .ok r

/-- The unit lz77_encoder (43_lz77_encoder R284). -/
def lz77EncUnit (e : Env) (r : Run) : Except Raise Run :=
  if e.len < e.cfg.lzStoreThreshold then storeRaw e r
  else do
    let r ← emit e markerTokens 0 r
    lz77EncLoop e e.len { r with u := { r.u with lzCur := 0 } }

/-- LZ77_ENC (43_lz77_encoder R284). -/
def execLz77Enc (s : State) : Host.Outcome State Fault Refusal :=
  runCommand lz77EncUnit s

end Sys2Proof.Machine
end

