-- ==== Sys2Proof/Machine/RleDecoder.lean ====
section
/-! DEFINITION. rle_decoder: the span expander and RLE_DEC (46_rle_decoder R380 to R382). -/

namespace Sys2Proof.Machine

/-- `b <- Fetch(); Emit(b, ip)`, `n` times (46_rle_decoder R380, 44_lz77_decoder R322). -/
def copyBytes (e : Env) : Nat → Run → Except Raise Run
  | 0, r => .ok r
  | n + 1, r => do
    let (b, r) ← fetch e r
    let r ← emit e b r.ip r
    copyBytes e n r

/-- EXPAND_RAW: the control byte `c` at offset `t` (46_rle_decoder R380). -/
def expandRaw (e : Env) (c : Byte) (t : Nat) (r : Run) : Except Raise Run :=
  let cnt := c.toNat % 128 + 1
  let r := { r with u := { r.u with rleCnt := cnt } }
  if e.len - r.ip < cnt then .error ⟨.truncatedStream, t⟩
  else copyBytes e cnt r

/-- EXPAND_RUN: the control byte `c` at offset `t` (46_rle_decoder R381). -/
def expandRun (e : Env) (c : Byte) (t : Nat) (r : Run) : Except Raise Run :=
  if e.len - r.ip < 1 then .error ⟨.truncatedStream, t⟩
  else do
    let cnt := c.toNat % 128
    let r := { r with u := { r.u with rleCnt := cnt } }
    let (v, r) ← fetch e r
    emitRep e v r.ip cnt r

/-- One span: the control byte, then the run or the raw bytes (46_rle_decoder R382). -/
def rleDecSpan (e : Env) (r : Run) : Except Raise Run := do
  let t := r.ip
  let (c, r) ← fetch e r
  let r := { r with u := { r.u with rleC := c } }
  if c.getLsbD 7 then expandRun e c t r else expandRaw e c t r

/-- The loop of RLE_DEC. Each round consumes at least one byte, so L_LEN rounds are enough (log 17). -/
def rleDecLoop (e : Env) : Nat → Run → Except Raise Run
  | 0, r => .ok r
  | n + 1, r =>
    if r.ip < e.len then do
      let r ← rleDecSpan e r
      rleDecLoop e n r
    else .ok r

/-- The unit rle_decoder (46_rle_decoder R382). -/
def rleDecUnit (e : Env) (r : Run) : Except Raise Run :=
  rleDecLoop e e.len { r with ip := 0 }

/-- RLE_DEC (46_rle_decoder R382). -/
def execRleDec (s : State) : Host.Outcome State Fault Refusal :=
  runCommand rleDecUnit s

end Sys2Proof.Machine
end

