-- ==== Sys2Proof/Machine/Lz77Decoder.lean ====
section
/-! DEFINITION. lz77_decoder: the marker, the token reader, the history buffer reconstructor and LZ77_DEC
(44_lz77_decoder R320 to R325). -/

namespace Sys2Proof.Machine

/-- READ_MARKER (44_lz77_decoder R320). -/
def readMarker (e : Env) (r : Run) : Except Raise (Byte × Run) :=
  if e.len = 0 then .error ⟨.truncatedStream, 0⟩
  else fetch e { r with ip := 0 }

/-- COPY_STORED (44_lz77_decoder R322): every byte left, one by one. -/
def copyStored (e : Env) (r : Run) : Except Raise Run :=
  copyBytes e (e.len - r.ip) r

/-- A token record (30_encoding R128). -/
structure Token where
  off : Nat
  len : Nat
  lit : Byte
deriving DecidableEq, Repr

/-- READ_TOKEN (44_lz77_decoder R323). -/
def readToken (e : Env) (r : Run) : Except Raise (Token × Run) :=
  if e.len - r.ip < 5 then .error ⟨.truncatedStream, r.ip⟩
  else do
    let t := r.ip
    let (off, r) ← fetchLE e 2 r
    let (len, r) ← fetchLE e 2 r
    let (lit, r) ← fetch e r
    if 0 < len ∧ (off = 0 ∨ min r.op e.cfg.windowSize < off) then .error ⟨.invalidOffset, t⟩
    else return (⟨off, len, lit⟩, r)

/-- `hist.push(b)`: the newest byte first, the oldest dropped once WINDOW_SIZE are held (44_lz77_decoder R324). -/
def histPush (e : Env) (b : Byte) (r : Run) : Run :=
  { r with u := { r.u with hist := (b :: r.u.hist).take e.cfg.windowSize } }

/-- `n` bytes, each copied from `off` bytes back in the history (44_lz77_decoder R324). READ_TOKEN has checked that the
history holds them, so the default of the lookup is never used. -/
def copyBack (e : Env) (off : Nat) : Nat → Run → Except Raise Run
  | 0, r => .ok r
  | n + 1, r => do
    let b := r.u.hist.getD (off - 1) 0
    let r ← emit e b r.ip r
    copyBack e off n (histPush e b r)

/-- RECONSTRUCT (44_lz77_decoder R324). -/
def reconstruct (e : Env) (t : Token) (r : Run) : Except Raise Run := do
  let r ← copyBack e t.off t.len r
  let r ← emit e t.lit r.ip r
  return histPush e t.lit r

/-- The token loop of LZ77_DEC. Each record is five bytes, so L_LEN rounds are enough (log 17). -/
def lz77DecLoop (e : Env) : Nat → Run → Except Raise Run
  | 0, r => .ok r
  | n + 1, r =>
    if r.ip < e.len then do
      let (t, r) ← readToken e r
      let r ← reconstruct e t r
      lz77DecLoop e n r
    else .ok r

/-- The unit lz77_decoder (44_lz77_decoder R325). -/
def lz77DecUnit (e : Env) (r : Run) : Except Raise Run := do
  let (m, r) ← readMarker e { r with u := { r.u with hist := [] } }
  if m = markerStored then copyStored e r
  else if m = markerTokens then lz77DecLoop e e.len r
  else .error ⟨.unknownFormatMarker, 0⟩

/-- LZ77_DEC (44_lz77_decoder R325). -/
def execLz77Dec (s : State) : Host.Outcome State Fault Refusal :=
  runCommand lz77DecUnit s

end Sys2Proof.Machine
end

