-- ==== Sys2Proof/Machine/RleEncoder.lean ====
section
/-! DEFINITION. rle_encoder: the run classifier, the span emitters and RLE_ENC (45_rle_encoder R350 to R354). -/

namespace Sys2Proof.Machine

/-- RLE_MAX_RUN (00_scope R10). -/
def rleMaxRun : Nat := 127

/-- RLE_MAX_RAW (00_scope R10). -/
def rleMaxRaw : Nat := 128

/-- The loop of RUN_LENGTH from length `r` on; the first argument is RLE_MAX_RUN - r. -/
def runLengthFrom (e : Env) (i : Nat) : Nat → Nat → Except Raise Nat
  | 0, r => .ok r
  | n + 1, r =>
    if i + r < e.len then do
      let a ← input e (i + r)
      let b ← input e i
      if a = b then runLengthFrom e i n (r + 1) else return r
    else .ok r

/-- RUN_LENGTH (45_rle_encoder R350). -/
def runLength (e : Env) (i : Nat) : Except Raise Nat :=
  runLengthFrom e i (rleMaxRun - 1) 1

/-- The loop of RAW_SPAN_END from position `j` on; the first argument is RLE_MAX_RAW - (j - i). -/
def rawSpanEndFrom (e : Env) : Nat → Nat → Except Raise Nat
  | 0, j => .ok j
  | n + 1, j =>
    if j < e.len then
      if j + 1 < e.len then do
        let a ← input e j
        let b ← input e (j + 1)
        if a = b then return j else rawSpanEndFrom e n (j + 1)
      else rawSpanEndFrom e n (j + 1)
    else .ok j

/-- RAW_SPAN_END (45_rle_encoder R351). -/
def rawSpanEnd (e : Env) (i : Nat) : Except Raise Nat :=
  rawSpanEndFrom e (rleMaxRaw - 1) (i + 1)

/-- EMIT_RUN with i and r in the unit's state (45_rle_encoder R352). -/
def emitRun (e : Env) (r : Run) : Except Raise Run := do
  let i := r.u.rleI
  let r ← emit e (BitVec.ofNat 8 (0x80 + r.u.rleR)) i r
  let b ← input e i
  let r ← emit e b i r
  return { r with u := { r.u with rleI := i + r.u.rleR } }

/-- The bytes In(k), …, In(k + n - 1), each emitted with info `info`. -/
def emitInput (e : Env) (info : Nat) : Nat → Nat → Run → Except Raise Run
  | 0, _, r => .ok r
  | n + 1, k, r => do
    let b ← input e k
    let r ← emit e b info r
    emitInput e info n (k + 1) r

/-- EMIT_RAW with i and j in the unit's state (45_rle_encoder R353). -/
def emitRaw (e : Env) (r : Run) : Except Raise Run := do
  let i := r.u.rleI
  let j := r.u.rleJ
  let r ← emit e (BitVec.ofNat 8 (j - i - 1)) i r
  let r ← emitInput e i (j - i) i r
  return { r with u := { r.u with rleI := j } }

/-- One round of RLE_ENC's loop at position i. -/
def rleEncSpan (e : Env) (r : Run) : Except Raise Run := do
  let n ← runLength e r.u.rleI
  let r := { r with u := { r.u with rleR := n } }
  if 2 ≤ n then emitRun e r
  else do
    let j ← rawSpanEnd e r.u.rleI
    emitRaw e { r with u := { r.u with rleJ := j } }

/-- The loop of RLE_ENC. Each round consumes at least one byte, so L_LEN rounds are enough (log 17). -/
def rleEncLoop (e : Env) : Nat → Run → Except Raise Run
  | 0, r => .ok r
  | n + 1, r =>
    if r.u.rleI < e.len then do
      let r ← rleEncSpan e r
      rleEncLoop e n r
    else .ok r

/-- The unit rle_encoder (45_rle_encoder R354). -/
def rleEncUnit (e : Env) (r : Run) : Except Raise Run :=
  rleEncLoop e e.len { r with u := { r.u with rleI := 0 } }

/-- RLE_ENC (45_rle_encoder R354). -/
def execRleEnc (s : State) : Host.Outcome State Fault Refusal :=
  runCommand rleEncUnit s

end Sys2Proof.Machine
end

