-- ==== Sys2Proof/Machine/Dispatch.lean ====
section
/-! DEFINITION. One arm for each instruction. -/

namespace Sys2Proof.Machine

/-- The effect of one instruction (30_encoding R111, R116). -/
def exec (i : Instr) (s : State) : Host.Outcome State Fault Refusal :=
  match i with
  | .huffEnc => Sys2Proof.Machine.execHuffEnc s
  | .huffDec => Sys2Proof.Machine.execHuffDec s
  | .lz77Enc => Sys2Proof.Machine.execLz77Enc s
  | .lz77Dec => Sys2Proof.Machine.execLz77Dec s
  | .rleEnc => Sys2Proof.Machine.execRleEnc s
  | .rleDec => Sys2Proof.Machine.execRleDec s
  | .start ie _ => Sys2Proof.Machine.execStart ie s
  | .softReset _ _ => Sys2Proof.Machine.execSoftReset s
  | .doneClear _ _ => Sys2Proof.Machine.execDoneClear s

end Sys2Proof.Machine
end

