-- ==== Sys2Proof/Machine/HostBus.lean ====
section
/-! DEFINITION. What each access of the host does that is no instruction of the block: register reads and writes, byte
accesses to system memory, fences, cache maintenance, taking the interrupt and the hardware reset (30_encoding R135,
40_command_sequencer R150 R151, 20_memory section 5, 70_reset_and_hazards R450 R461). -/

namespace Sys2Proof.Machine

/-- The host has seen DONE = 1: its duties for that command end, and those for every earlier one, which completed before it
(DEDUCED, log 15); a fence from now on orders its reads of their outputs (20_memory R96, 70_reset_and_hazards R461). -/
def HostView.sawDone (h : HostView) : HostView :=
  { h with owned := [], outUnordered := h.outUnordered.map fun p => (p.1, true) }

/-- Address `a` lies in a region of the running command, or of a started one while no DONE has been seen since
(20_memory R98, 70_reset_and_hazards R461). -/
def commandOwns (s : State) (a : Nat) : Bool :=
  (decide (s.phase = .run) && (s.latch.input.contains a || s.latch.output.contains a)) ||
    s.host.owned.any fun o => o.input.contains a || o.output.contains a

/-- `r32` (40_command_sequencer R150): the register's value; a STATUS read that shows DONE = 1 tells the host of the
completion. -/
def hostRegRead (bits : Nat) (off : BitVec 8) (s : State) : Host.Outcome State Fault Refusal :=
  if accessFormOk bits off then
    let h := if off = 0x0C ∧ s.done then s.host.sawDone else s.host
    .next { s with host := { h with readData := readReg s off } }
  else .refused .registerAccessForm

/-- `w32` of a word that requests no control action (40_command_sequencer R151). -/
def hostRegWrite (bits : Nat) (off : BitVec 8) (v : Word) (s : State) : Host.Outcome State Fault Refusal :=
  if accessFormOk bits off then .next (writeReg s off v) else .refused .registerAccessForm

/-- `mem.wr` (20_memory R80, R93, R98). -/
def hostMemWrite (a : Nat) (b : Byte) (s : State) : Host.Outcome State Fault Refusal :=
  if !addressOk a then .fault .noSuchAddress
  else if (Config.deviceRegions s.cfg).any (fun d => d.contains a) then .refused .hostByteAccessToDevice
  else if commandOwns s a then .refused .hostWroteCommandRegion
  else .next { s with
    mem := Memory.write s.mem a b
    host := { s.host with unfenced := a :: s.host.unfenced, dirty := a :: s.host.dirty } }

/-- `mem.rd` (20_memory R80, R93, R96, R98, R102). A load that the platform's barrier or cache maintenance does not yet
order is refused (93_implementation_defined 9). While the command runs, a byte of its output region reads as a free
value (93_implementation_defined 8; log 14). What a HOST load of memory with read side effects or unstable reads gives is
open, 20_memory R92 speaks of the command's input alone: the model loads the stored byte, without a side effect (DESIGN
CHOICE, log 30). -/
def hostMemRead (a : Nat) (s : State) : Host.Outcome State Fault Refusal :=
  if !addressOk a then .fault .noSuchAddress
  else if (Config.deviceRegions s.cfg).any (fun d => d.contains a) then .refused .hostByteAccessToDevice
  else if s.phase = .run ∧ s.latch.output.contains a then
    .next { s with
      host := { s.host with readData := (Config.freeByte s.draws a).setWidth 32 }
      draws := s.draws + 1 }
  else if (s.host.owned.any fun o => o.output.contains a) ||
      s.host.outUnordered.any (fun p => p.1.contains a) then .refused .outputReadUnordered
  else if !s.cfg.dmaCoherent && s.host.outCached.any (fun r => r.contains a) then .refused .outputCacheStale
  else .next { s with host := { s.host with readData := (Memory.read s.mem a).setWidth 32 } }

/-- `fence`: the host's stores are ordered before what follows, and its reads of outputs whose DONE it has seen are
ordered after it (20_memory R95, R96). -/
def hostFence (s : State) : State :=
  { s with host := { s.host with
    unfenced := []
    outUnordered := s.host.outUnordered.filter fun p => !p.2 } }

/-- The host cleans a range from its caches (20_memory R102), before or after the fence (DESIGN CHOICE, log 31). -/
def hostCacheClean (r : Region) (s : State) : State :=
  { s with host := { s.host with dirty := s.host.dirty.filter fun a => !r.contains a } }

/-- The host invalidates a range in its caches, all of an output region or a part of it (20_memory R102). It counts from
the completion on, when DONE becomes 1, seen by the host or not, and before or after the fence: R102 and
70_reset_and_hazards R461 duty 5 say "after DONE" and leave both open (DESIGN CHOICE, log 31). Host stores it has not
cleaned stay in memory (DESIGN CHOICE, log 16). -/
def hostCacheInvalidate (r : Region) (s : State) : State :=
  { s with host := { s.host with outCached := s.host.outCached.flatMap fun q => q.minus r } }

/-- The host takes an interrupt at its input `line`. If IRQ is wired there and is 1 the host learns of the completion
(20_memory R96, 60_exceptions R416, R423; log 29). -/
def hostTakeIrq (line : Nat) (s : State) : State :=
  if s.cfg.irqInput = some line ∧ s.irq then { s with host := s.host.sawDone } else s

/-- The hardware reset, asserted and released (70_reset_and_hazards R450, R451). -/
def hardwareReset (s : State) : State := resetBlock s

end Sys2Proof.Machine
end

