-- ==== Sys2Proof/Machine/Fetch.lean ====
section
/-! DEFINITION. What the next step is: an instruction to run, or what happens instead of one (00_scope R12,
40_command_sequencer R157, R167). -/

namespace Sys2Proof.Machine

/-- What the next step does: run an instruction in a state, or end in an outcome already known. -/
inductive Fetched where
  | run (i : Instr) (s : State)
  | done (o : Host.Outcome State Fault Refusal)

/-- The block's turn: a running command's latched word is decoded and run; an idle block does nothing
(40_command_sequencer R157, 60_exceptions R426). -/
def blockTurn (s : State) : Fetched :=
  match s.phase with
  | .idle => .done (.next s)
  | .run =>
    match decode .cmd (wordBytes s.latch.cmd) with
    | .ok (i, _) => .run i s
    | .error _ => .done (runNoCommand s)

/-- A host register write: a control action if its word requests one in its register, a plain write otherwise
(40_command_sequencer R151). -/
def busWrite (bits : Nat) (off : BitVec 8) (v : Word) (s : State) : Fetched :=
  if accessFormOk bits off then
    match writePort off with
    | none => .done (hostRegWrite bits off v s)
    | some p =>
      match decode p (wordBytes v) with
      | .ok (i, _) => .run i s
      | .error _ => .done (hostRegWrite bits off v s)
  else .done (.refused .registerAccessForm)

/-- The first entry of the input list, in the state without it. -/
def takeInput (x : Input) (s : State) : Fetched :=
  match x with
  | .write bits off v => busWrite bits off v s
  | .read bits off => .done (hostRegRead bits off s)
  | .memWrite a b => .done (hostMemWrite a b s)
  | .memRead a => .done (hostMemRead a s)
  | .fence => .done (.next (hostFence s))
  | .cacheClean r => .done (.next (hostCacheClean r s))
  | .cacheInvalidate r => .done (.next (hostCacheInvalidate r s))
  | .takeIrq line => .done (.next (hostTakeIrq line s))
  | .hwReset => .done (.next (hardwareReset s))
  | .blockTurn => blockTurn s

/-- The next step: a configuration out of range is refused (00_scope R11), then the oldest input, and with no input left
the block's turn, so that a running command always completes (93_implementation_defined 13). -/
def fetchNext (s : State) : Fetched :=
  if s.cfg.wellFormed then
    match s.inputs with
    | [] => blockTurn s
    | x :: rest => takeInput x { s with inputs := rest }
  else .done (.refused .configOutOfRange)

/-- The state whose next step runs the command word `w`: CMD holds it and a START of it was accepted (log 3). -/
def placeCommand (w : Word) (s : State) : State :=
  { acceptStart { s with cmd := w } with inputs := .blockTurn :: s.inputs }

/-- The state whose next step is the write of `w` to CTRL (log 3). -/
def placeCtrl (w : Word) (s : State) : State :=
  { s with inputs := .write 32 0x08 w :: s.inputs }

end Sys2Proof.Machine
end

