-- ==== Sys2Proof/Machine/Step.lean ====
section
/-! DEFINITION. One step of the machine, and the state in which the next step runs a given word. -/

namespace Sys2Proof.Machine

/-- One step: what `fetchNext` finds, run (00_scope R12). -/
def step (s : State) : Host.Outcome State Fault Refusal :=
  match fetchNext s with
  | .run i t => exec i t
  | .done o => o

/-- `s` with the table word `w` where the next step takes it from: a command word latched by an accepted START, any
other word as the next CTRL write (log 1, log 3). -/
def State.withFetchWord (s : State) (nbits w : Nat) : State :=
  match decodeTableWord nbits w with
  | some i =>
    match i.port with
    | .cmd => placeCommand (BitVec.ofNat 32 (w % 2 ^ nbits)) s
    | .ctrl => placeCtrl (BitVec.ofNat 32 (w % 2 ^ nbits)) s
    | .status => placeCtrl (BitVec.ofNat 32 (w % 2 ^ nbits)) s
  | none => placeCommand (BitVec.ofNat 32 (w % 2 ^ nbits)) s

end Sys2Proof.Machine
end

