-- ==== Sys2Proof/Safety.lean ====
section
/-! DEFINITION. The words claims are stated in: the invariant of the machine, when a command's run is defined, the input
and output of a command as byte sequences, and what the artifacts of 30_encoding stand for. -/

namespace Sys2Proof.Machine

/-! ### The host's duties -/

/-- Neither region of the operands covers device registers, and reading the input has no side effect
(70_reset_and_hazards R461 duties 3, 4; 20_memory R92, R93). -/
abbrev OnMemory (c : Config) (l : Latch) : Prop :=
  (∀ d ∈ Config.deviceRegions c, d.meets l.input = false ∧ d.meets l.output = false) ∧
    ∀ m ∈ c.sideEffectMem, m.meets l.input = false

/-- Every host store into the input region was ordered, and cleaned where the DMA does not see the host's caches
(70_reset_and_hazards R461 duties 5, 7; 20_memory R95, R102). -/
abbrev StoresReach (s : State) (l : Latch) : Prop :=
  (∀ a ∈ s.host.unfenced, l.input.contains a = false) ∧
    (s.cfg.dmaCoherent = true ∨ ∀ a ∈ s.host.dirty, l.input.contains a = false)

/-- A START in `s` keeps the host's duties (70_reset_and_hazards R461, log 26). -/
def State.Dutiful (s : State) : Prop := OnMemory s.cfg s.operands ∧ StoresReach s s.operands

/-! ### The invariant -/

/-- What the registers, the phase, the memory and the host's duties satisfy in every state a run reaches. -/
structure State.Inv (s : State) : Prop where
  /-- `phase = RUN` exactly when STATUS.BUSY = 1 (10_state R59). -/
  busy_iff    : s.busy = true ↔ s.phase = .run
  /-- BUSY = 1 and DONE = 1 never hold together (10_state R39). -/
  exclusive   : ¬(s.busy = true ∧ s.done = true)
  /-- ERR_CODE ≠ 0 exactly when ERROR = 1 (10_state R41). -/
  error_iff   : s.errCode ≠ 0 ↔ s.error = true
  /-- ERR_CODE is NONE or one of the codes a command raises (60_exceptions R400, R401, R410). -/
  code_legal  : s.errCode = 0 ∨ (2 ≤ s.errCode.toNat ∧ s.errCode.toNat ≤ 9)
  /-- While BUSY = 1, OUT_LEN, ERR_INFO, ERROR and ERR_CODE read 0 (70_reset_and_hazards R465). -/
  busy_clear  : s.busy = true → s.outLen = 0 ∧ s.errInfo = 0 ∧ s.error = false ∧ s.errCode = 0
  /-- OUT_LEN is 0 after an error (10_state R47). -/
  error_len   : s.error = true → s.outLen = 0
  /-- ERR_INFO is 0 without an error (10_state R48). -/
  success_info : s.error = false → s.errInfo = 0
  /-- While a command runs, its regions are the host's duty (70_reset_and_hazards R461). -/
  owned_run   : s.busy = true → s.host.owned.head? = some ⟨s.latch.input, s.latch.output⟩
  /-- The regions of a running command are plain memory: START refused it otherwise (70_reset_and_hazards R461 duties 3, 4;
  log 26). -/
  on_memory   : s.busy = true → OnMemory s.cfg s.latch
  /-- Memory is in its canonical form. -/
  mem_wf      : Memory.wf s.mem = true
  /-- Every listed address is one of the 2^32 (20_memory R80). -/
  mem_space   : Memory.inSpace s.mem = true

/-! ### A command's input, output and defined runs -/

/-- Input byte `i` of a command (40_command_sequencer R160). -/
def Env.byte (e : Env) (i : Nat) : Byte := Memory.read e.mem (e.src + i)

/-- The input of a command: the bytes of its input region in order (00_scope R3). -/
def Env.bytes (e : Env) : List Byte := (List.range e.len).map e.byte

/-- Every access of the command's two regions completes (20_memory R81). -/
def Env.BusFine (e : Env) : Prop :=
  (∀ i, i < e.len → e.cfg.busOk (e.src + i) = true) ∧ (∀ k, k < e.cap → e.cfg.busOk (e.dst + k) = true)

/-- The same machine and state, on a bus that rejects no access (20_memory R81). -/
def State.busClear (s : State) : State := { s with cfg := { s.cfg with busFail := [] } }

/-- `k` is the first index of the input region whose address BUS_OK rejects (20_memory R81, 60_exceptions R409). -/
structure Env.FirstBadIn (e : Env) (k : Nat) : Prop where
  inside   : k < e.len
  rejected : e.cfg.busOk (e.src + k) = false
  first    : ∀ j, j < k → e.cfg.busOk (e.src + j) = true

/-- `k` is the first index of the output region whose address BUS_OK rejects (20_memory R82, 60_exceptions R409). -/
structure Env.FirstBadOut (e : Env) (k : Nat) : Prop where
  inside   : k < e.cap
  rejected : e.cfg.busOk (e.dst + k) = false
  first    : ∀ j, j < k → e.cfg.busOk (e.dst + j) = true

/-- `a` is the address a bus error of command `i` reports: the first rejected one of its input or of its output region
(60_exceptions R409, R413). RLE_ENC reads In(i + 1) before In(i) where both are new to it, so that of two rejected
neighbours it may reach the second first (45_rle_encoder R350; log 11). -/
inductive Env.BusErrorAt (e : Env) (i : Instr) : Nat → Prop where
  | read (k : Nat) : e.FirstBadIn k → Env.BusErrorAt e i (e.src + k)
  | readAhead (k : Nat) : i = .rleEnc → e.FirstBadIn k → k + 1 < e.len → e.cfg.busOk (e.src + (k + 1)) = false →
      Env.BusErrorAt e i (e.src + (k + 1))
  | write (k : Nat) : e.FirstBadOut k → Env.BusErrorAt e i (e.dst + k)

/-- A command runs, its start checks pass and its regions are plain memory, as START saw to (40_command_sequencer R158,
70_reset_and_hazards R461): the command accesses memory and its result is defined. -/
structure State.Running (s : State) : Prop where
  phase  : s.phase = .run
  checks : startChecks s.latch = none
  memory : OnMemory s.cfg s.latch

/-- The command succeeded with output `out` and nothing else of the register file moved: OUT_LEN is its length, its bytes
stand at L_DST on, the rest of memory is as before (40_command_sequencer R165, R166, 20_memory R84). -/
structure Succeeded (s t : State) (out : List Byte) : Prop where
  done    : t.done = true
  idle    : t.busy = false ∧ t.phase = .idle
  noError : t.error = false ∧ t.errCode = 0 ∧ t.errInfo = 0
  outLen  : t.outLen.toNat = out.length
  bytes   : ∀ k, (hk : k < out.length) → Memory.read t.mem (s.latch.dst.toNat + k) = out[k]
  rest    : ∀ a, (a < s.latch.dst.toNat ∨ s.latch.dst.toNat + out.length ≤ a) →
    Memory.read t.mem a = Memory.read s.mem a

/-- The command ended with error `k` and error info `info` (40_command_sequencer R166, 60_exceptions R414). -/
structure FailedWith (t : State) (k : ErrKind) (info : Nat) : Prop where
  done    : t.done = true
  idle    : t.busy = false ∧ t.phase = .idle
  code    : t.error = true ∧ t.errCode = k.code
  errInfo : t.errInfo = BitVec.ofNat 32 info
  outLen  : t.outLen = 0

/-- What a command leaves unchanged, however it ends: the configuration, IE, CMD and the operand registers, what reaches
the block next, and every byte of memory outside its output region (10_state R61, 20_memory R84). On the host's side it
adds its output region, its DONE not seen, to the outputs not yet ordered and not yet invalidated, and changes nothing else
(20_memory R96, R102; log 15, log 16). -/
structure CommandFrame (s t : State) : Prop where
  cfg    : t.cfg = s.cfg
  ie     : t.ie = s.ie
  cmd    : t.cmd = s.cmd
  operands : t.srcAddr = s.srcAddr ∧ t.srcLen = s.srcLen ∧ t.dstAddr = s.dstAddr ∧ t.dstCap = s.dstCap
  inputs : t.inputs = s.inputs
  host   : t.host = { s.host with
    outUnordered := (s.latch.output, false) :: s.host.outUnordered
    outCached := s.latch.output :: s.host.outCached }
  memory : ∀ a, (a < s.latch.dst.toNat ∨ s.latch.dst.toNat + s.latch.cap.toNat ≤ a) →
    Memory.read t.mem a = Memory.read s.mem a

/-- Every register a reset writes holds the reset value of its rule, and the block is idle (10_state R33 to R48,
70_reset_and_hazards R450). -/
structure AtReset (t : State) : Prop where
  ctrl     : t.ie = false
  status   : t.busy = false ∧ t.done = false ∧ t.error = false ∧ t.errCode = 0
  cmd      : t.cmd = 0
  operands : t.srcAddr = 0 ∧ t.srcLen = 0 ∧ t.dstAddr = 0 ∧ t.dstCap = 0
  result   : t.outLen = 0 ∧ t.errInfo = 0
  phase    : t.phase = .idle
  irq      : t.irq = false

/-- The errors an encoder can end with after its start checks (60_exceptions R411). -/
abbrev encoderErrors : List ErrKind := [.outputOverflow, .busError]

/-- The errors HUFF_DEC can end with after its start checks (60_exceptions R411). -/
abbrev huffDecErrors : List ErrKind := [.truncatedStream, .corruptTree, .outputOverflow, .busError]

/-- The errors LZ77_DEC can end with after its start checks (60_exceptions R411). -/
abbrev lz77DecErrors : List ErrKind :=
  [.truncatedStream, .invalidOffset, .unknownFormatMarker, .outputOverflow, .busError]

/-- The errors RLE_DEC can end with after its start checks (60_exceptions R411). -/
abbrev rleDecErrors : List ErrKind := [.truncatedStream, .outputOverflow, .busError]

/-- The rows of the table of 60_exceptions R411, but for BAD_COMMAND and RANGE_ERROR, which the start checks raise. -/
def errorsOf : Instr → List ErrKind
  | .huffEnc => encoderErrors
  | .huffDec => huffDecErrors
  | .lz77Enc => encoderErrors
  | .lz77Dec => lz77DecErrors
  | .rleEnc => encoderErrors
  | .rleDec => rleDecErrors
  | .start _ _ => []
  | .softReset _ _ => []
  | .doneClear _ _ => []

/-! ### What artifacts stand for, from their formats alone (30_encoding sections 2 to 4) -/

/-- `RleArtifact art out`: the RLE artifact `art` stands for the bytes `out` (30_encoding R131, R132). -/
inductive RleArtifact : List Byte → List Byte → Prop where
  | nil : RleArtifact [] []
  | run (c v : Byte) {art out : List Byte} : c.getLsbD 7 = true → RleArtifact art out →
      RleArtifact (c :: v :: art) (List.replicate (c.toNat % 128) v ++ out)
  | raw (c : Byte) (bs : List Byte) {art out : List Byte} : c.getLsbD 7 = false →
      bs.length = c.toNat % 128 + 1 → RleArtifact art out → RleArtifact (c :: bs ++ art) (bs ++ out)

/-- The RLE artifacts whose control bytes are all in the ranges RLE_ENC writes: run controls 0x82 to 0xFF, raw controls
0x00 to 0x7F (30_encoding R133, 45_rle_encoder R355). -/
inductive RleWritten : List Byte → Prop where
  | nil : RleWritten []
  | run (c v : Byte) {art : List Byte} : 0x82 ≤ c.toNat → RleWritten art → RleWritten (c :: v :: art)
  | raw (c : Byte) (bs : List Byte) {art : List Byte} : c.toNat ≤ 0x7F → bs.length = c.toNat + 1 → RleWritten art →
      RleWritten (c :: bs ++ art)

/-- The bytes of spans or token records, each given with the input index it starts at. -/
def recordBytes (rs : List (Nat × List Byte)) : List Byte := rs.flatMap Prod.snd

/-- `RleEncoding i bs spans`: the spans RLE_ENC writes for the bytes `bs` that stand at input index `i`, each with the
index its input starts at (45_rle_encoder R350 to R354). A run is the longest of its byte up to 127; a raw span holds no two
equal neighbours, the byte after it included, and stops at 128 bytes, at the end, or before a repeat. -/
inductive RleEncoding : Nat → List Byte → List (Nat × List Byte) → Prop where
  | nil (i : Nat) : RleEncoding i [] []
  | run (i : Nat) (v : Byte) (r : Nat) {rest : List Byte} {spans : List (Nat × List Byte)} : 2 ≤ r → r ≤ 127 →
      (r < 127 → rest.head? ≠ some v) → RleEncoding (i + r) rest spans →
      RleEncoding i (List.replicate r v ++ rest) ((i, [BitVec.ofNat 8 (0x80 + r), v]) :: spans)
  | raw (i : Nat) (bs : List Byte) {rest : List Byte} {spans : List (Nat × List Byte)} : 1 ≤ bs.length →
      bs.length ≤ 128 → List.IsChain (fun x y => x ≠ y) (bs ++ rest.take 1) →
      (bs.length < 128 → rest = [] ∨ ∃ v more, rest = v :: v :: more) → RleEncoding (i + bs.length) rest spans →
      RleEncoding i (bs ++ rest) ((i, BitVec.ofNat 8 (bs.length - 1) :: bs) :: spans)

/-- The number of a little-endian byte pair (30_encoding R128). -/
def pairValue (lo hi : Byte) : Nat := lo.toNat + 256 * hi.toNat

/-- `n` more bytes, each a copy of the byte `off` back (44_lz77_decoder R324). -/
def copyFrom (off : Nat) : Nat → List Byte → List Byte
  | 0, out => out
  | n + 1, out => copyFrom off n (out ++ [out.getD (out.length - off) 0])

/-- `LzTokens w before recs out`: after the output `before`, the token records `recs` make it `out`, with a window of `w`
bytes (30_encoding R127 to R129, 44_lz77_decoder R323, R324). -/
inductive LzTokens (w : Nat) : List Byte → List Byte → List Byte → Prop where
  | nil (before : List Byte) : LzTokens w before [] before
  | token (before : List Byte) (o0 o1 l0 l1 lit : Byte) {recs out : List Byte} :
      (pairValue l0 l1 = 0 ∨ (1 ≤ pairValue o0 o1 ∧ pairValue o0 o1 ≤ min before.length w)) →
      LzTokens w (copyFrom (pairValue o0 o1) (pairValue l0 l1) before ++ [lit]) recs out →
      LzTokens w before (o0 :: o1 :: l0 :: l1 :: lit :: recs) out

/-- `LzArtifact w art out`: the LZ77 artifact `art` stands for the bytes `out` (30_encoding R125 to R127). -/
inductive LzArtifact (w : Nat) : List Byte → List Byte → Prop where
  | stored (bs : List Byte) : LzArtifact w (0x55 :: bs) bs
  | tokens {recs out : List Byte} : LzTokens w [] recs out → LzArtifact w (0x43 :: recs) out

/-- The `n` bytes of `v`, low byte first: `le_n(v)` (00_scope R16). -/
def leBytes : Nat → Nat → List Byte
  | 0, _ => []
  | n + 1, v => BitVec.ofNat 8 v :: leBytes n (v / 256)

/-- A byte of eight bits, the first in bit 7 (00_scope R14). -/
def byteOfBits (bits : List Bool) : Byte := BitVec.ofNat 8 (bits.foldl (fun a x => 2 * a + x.toNat) 0)

/-- A bit string packed most-significant-bit first, the last byte padded with zero bits (30_encoding R124,
41_huffman_encoder R208). The first argument bounds the bytes. -/
def packBits : Nat → List Bool → List Byte
  | 0, _ => []
  | _ + 1, [] => []
  | n + 1, x :: xs =>
    byteOfBits (((x :: xs).take 8) ++ List.replicate (8 - ((x :: xs).take 8).length) false) ::
      packBits n ((x :: xs).drop 8)

/-- The bytes at input index `cur` and `off` before it agree for `n` bytes (43_lz77_encoder R281). -/
def Env.MatchAt (e : Env) (cur off n : Nat) : Prop := ∀ k, k < n → e.byte (cur - off + k) = e.byte (cur + k)

/-- The longest match FIND_MATCH may take at `cur`: it leaves one byte for nextLiteral (43_lz77_encoder R281). -/
def Env.maxMatch (e : Env) (cur : Nat) : Nat := min e.cfg.maxMatchLen (e.len - 1 - cur)

/-- `(off, n)` is what FIND_MATCH returns at `cur`: the longest match in the window, the smallest offset among equals,
and (0, 0) when nothing matches (43_lz77_encoder R280, R281). -/
structure Env.BestMatch (e : Env) (cur off n : Nat) : Prop where
  none    : n = 0 → off = 0
  found   : 0 < n → 1 ≤ off ∧ off ≤ min cur e.cfg.windowSize ∧ n ≤ e.maxMatch cur ∧ e.MatchAt cur off n
  longest : ∀ o m, 1 ≤ o → o ≤ min cur e.cfg.windowSize → m ≤ e.maxMatch cur → e.MatchAt cur o m → m ≤ n
  nearest : ∀ o, 1 ≤ o → o < off → ¬e.MatchAt cur o n

/-- `LzEncoded e cur recs`: the token records LZ77_ENC writes from the cursor `cur` on, each with the cursor before it
(43_lz77_encoder R281, R282, R284). The cursor ends exactly at L_LEN. -/
inductive LzEncoded (e : Env) : Nat → List (Nat × List Byte) → Prop where
  | done : LzEncoded e e.len []
  | matched (cur off n : Nat) {recs : List (Nat × List Byte)} : cur < e.len → e.BestMatch cur off n →
      e.cfg.minMatchLen ≤ n → LzEncoded e (cur + n + 1) recs →
      LzEncoded e cur ((cur, leBytes 2 off ++ leBytes 2 n ++ [e.byte (cur + n)]) :: recs)
  | literal (cur off n : Nat) {recs : List (Nat × List Byte)} : cur < e.len → e.BestMatch cur off n →
      n < e.cfg.minMatchLen → LzEncoded e (cur + 1) recs →
      LzEncoded e cur ((cur, [0, 0, 0, 0, e.byte cur]) :: recs)

/-- The key of node `p` is below that of node `q`: by weight, then by arena index (41_huffman_encoder R202). -/
def KeyBelow (arena : List WNode) (p q : Nat) : Prop :=
  weightAt arena p < weightAt arena q ∨ (weightAt arena p = weightAt arena q ∧ p < q)

/-- Node `y` waits in the queue when internal node `x` is made: it stands before `x` and is no child of an earlier internal
node; `d` leaves stand first (41_huffman_encoder R202). -/
def Waits (arena : List WNode) (d x y : Nat) : Prop :=
  y < x ∧ ∀ z w l r, d ≤ z → z < x → arena[z]? = some (WNode.internal w l r) → y ≠ l ∧ y ≠ r

/-- The node a bit string leads to from node `x`, "0" to the left child and "1" to the right one (41_huffman_encoder
R204, 42_huffman_decoder R245). -/
def followCode (arena : List WNode) : Nat → List Bool → Option WNode
  | x, [] => arena[x]?
  | x, b :: bs =>
    match arena[x]? with
    | some (.internal _ l r) => followCode arena (if b then r else l) bs
    | _ => none

/-- How often each byte value occurs (41_huffman_encoder R200). -/
def countsOf (bs : List Byte) : List Nat := allBytes.map fun b => bs.count b

/-- The code table of a frequency table (41_huffman_encoder R201, R202, R204). -/
def codesFor (freq : List Nat) : List (List Bool) :=
  let tree := buildTree (symbols freq) freq
  walkCodes tree.1 tree.1.length (rootOf tree.2) [] (List.replicate 256 [])

/-- The header of a Huffman artifact (30_encoding R120, 41_huffman_encoder R211). -/
def huffHeader (freq : List Nat) (syms : List Byte) (total : Nat) : List Byte :=
  leBytes 8 syms.length ++ syms.flatMap (fun b => b :: leBytes 4 (freqOf freq b)) ++ leBytes 8 total

/-- The bits of a payload in order, bit 7 of each byte first (30_encoding R124, 20_memory R88). -/
def unpackBits (bs : List Byte) : List Bool :=
  bs.flatMap fun b => (List.range 8).map fun k => b.getLsbD (7 - k)

/-- The (byte, frequency) pairs of a header as they stand in it (30_encoding R120). -/
def pairBytes (ps : List (Byte × Nat)) : List Byte := ps.flatMap fun p => p.1 :: leBytes 4 p.2

/-- Pairs HUFF_DEC accepts: bytes strictly ascending, frequencies 1 to 2^32 - 1 (42_huffman_decoder R241). -/
def PairsFine (ps : List (Byte × Nat)) : Prop :=
  List.IsChain (fun p q => p.1.toNat < q.1.toNat) ps ∧ ∀ p ∈ ps, 1 ≤ p.2 ∧ p.2 < 2 ^ 32

/-- The Huffman artifact of a byte sequence: header, then the packed codes of its bytes in order (30_encoding R120,
R124). -/
def huffArtifact (bs : List Byte) : List Byte :=
  let freq := countsOf bs
  let bits := bs.flatMap (codeOf (codesFor freq))
  huffHeader freq (symbols freq) bits.length ++ packBits bits.length bits

end Sys2Proof.Machine
end

