-- ==== Sys2Proof/Certificates/Slice0/Obligations.lean ====
section
/-! DEFINITION. The statements for the provers. Each docstring names the rule of spec/ it formalises, and the log entry
where a clause is the model's own choice. -/

open Sys2Proof Sys2Proof.Machine

/-! ### Encoding -/

/-- 30_encoding R111, R112: the six CMD words that select a command, and no other word. -/
def Obligations.CommandWords : Prop :=
  ∀ (w : Word) (i : Instr), decode .cmd (wordBytes w) = .ok (i, []) ↔
    (w = 0x00000001 ∧ i = .huffEnc) ∨ (w = 0x00000002 ∧ i = .huffDec) ∨ (w = 0x00000003 ∧ i = .lz77Enc) ∨
    (w = 0x00000004 ∧ i = .lz77Dec) ∨ (w = 0x00000005 ∧ i = .rleEnc) ∨ (w = 0x00000006 ∧ i = .rleDec)

/-- 30_encoding R110, R111, R114 to R117, 20_memory R87: encoding and decoding are inverse in both directions, for every
instruction with every value of its fields, every register its word stands in, and any bytes after it. -/
def Obligations.DecodeEncodeAgree : Prop :=
  ∀ (p : Port) (i : Instr) (bs rest : List Byte),
    decode p bs = .ok (i, rest) ↔ (i.wellFormed = true ∧ i.port = p ∧ bs = encode i ++ rest)

/-- 30_encoding R111, R116: words written out from the spec's encodings, as the bytes of the bus. -/
def Obligations.WrittenOutWords : Prop :=
  decode .cmd [0x01, 0x00, 0x00, 0x00] = .ok (.huffEnc, []) ∧ decode .cmd [0x02, 0x00, 0x00, 0x00] = .ok (.huffDec, []) ∧
  decode .cmd [0x03, 0x00, 0x00, 0x00] = .ok (.lz77Enc, []) ∧ decode .cmd [0x04, 0x00, 0x00, 0x00] = .ok (.lz77Dec, []) ∧
  decode .cmd [0x05, 0x00, 0x00, 0x00] = .ok (.rleEnc, []) ∧ decode .cmd [0x06, 0x00, 0x00, 0x00] = .ok (.rleDec, []) ∧
  decode .ctrl [0x01, 0x00, 0x00, 0x00] = .ok (.start false 0, []) ∧
  decode .ctrl [0x05, 0x00, 0x00, 0x00] = .ok (.start true 0, []) ∧
  decode .ctrl [0x02, 0x00, 0x00, 0x00] = .ok (.softReset false 0, []) ∧
  decode .ctrl [0x03, 0x00, 0x00, 0x00] = .ok (.softReset true 0, []) ∧
  decode .status [0x02, 0x00, 0x00, 0x00] = .ok (.doneClear false 0, []) ∧
  decode .cmd [0x00, 0x00, 0x00, 0x00] = .error .noCommand ∧ decode .cmd [0x07, 0x00, 0x00, 0x00] = .error .noCommand ∧
  decode .cmd [0x11, 0x00, 0x00, 0x00] = .error .noCommand ∧ decode .ctrl [0x04, 0x00, 0x00, 0x00] = .error .noAction ∧
  decode .status [0x01, 0x00, 0x00, 0x00] = .error .noAction

/-! ### The step -/

/-- 40_command_sequencer R157, R159: on the block's turn a running command's latched word is decoded and the step is exec
of the instruction. A blockTurn entry is taken from the inputs first; with no input left the step is the block's turn
(log 2). -/
def Obligations.StepRunsLatchedCommand : Prop :=
  ∀ (s : State) (i : Instr), s.cfg.wellFormed = true → s.phase = .run →
    decode .cmd (wordBytes s.latch.cmd) = .ok (i, []) →
    (s.inputs = [] → step s = exec i s) ∧
    (∀ rest, s.inputs = .blockTurn :: rest → step s = exec i { s with inputs := rest })

/-- 40_command_sequencer R151: a register write whose word is a control action in its register makes the step exec of that
action, in the state with the write taken from the inputs (log 2). -/
def Obligations.StepRunsControlAction : Prop :=
  ∀ (s : State) (off : BitVec 8) (p : Port) (v : Word) (i : Instr) (rest : List Input), s.cfg.wellFormed = true →
    s.inputs = .write 32 off v :: rest → writePort off = some p → decode p (wordBytes v) = .ok (i, []) →
    step s = exec i { s with inputs := rest }

/-- 00_scope R11: a configuration out of range is refused. -/
def Obligations.ConfigurationRefused : Prop :=
  ∀ s : State, (s.cfg.minMatchLen = 0 ∨ s.cfg.maxMatchLen < s.cfg.minMatchLen ∨ 255 < s.cfg.maxMatchLen ∨
    s.cfg.windowSize = 0 ∨ 65535 < s.cfg.windowSize) → step s = .refused .configOutOfRange

/-- 00_scope R10: no step changes the configuration. -/
def Obligations.ConfigurationFixed : Prop :=
  ∀ s t : State, step s = .next t → t.cfg = s.cfg

/-- 60_exceptions R426: an idle block's turn changes nothing, memory included. -/
def Obligations.IdleBlockDoesNothing : Prop :=
  ∀ (s : State) (rest : List Input), s.cfg.wellFormed = true → s.phase = .idle →
    (s.inputs = [] → step s = .next s) ∧ (s.inputs = .blockTurn :: rest → step s = .next { s with inputs := rest })

/-! ### Register accesses -/

/-- 40_command_sequencer R150, with the values of 10_state R31 to R49: a read of any word offset answers, gives the register's
value and changes no state of the block, the memory or the host's accesses to come. On the host's side it sets readData
alone (log 20), but that a STATUS read with DONE = 1 ends the duties and marks every output so far as seen (log 15). -/
def Obligations.RegisterRead : Prop :=
  ∀ (s : State) (off : BitVec 8) (rest : List Input), s.cfg.wellFormed = true → off.toNat % 4 = 0 →
    s.inputs = .read 32 off :: rest →
    ∃ h : HostView, step s = .next { s with inputs := rest, host := h } ∧
      (off = 0x0C → s.done = true → h = { s.host with
        readData := h.readData
        owned := []
        outUnordered := s.host.outUnordered.map fun p => (p.1, true) }) ∧
      (¬(off = 0x0C ∧ s.done = true) → h = { s.host with readData := h.readData }) ∧
      (off = 0x00 → h.readData = 0x0000CCB1) ∧
      (off = 0x04 → h.readData = 0x00000001) ∧
      (off = 0x08 → h.readData.toNat = 4 * s.ie.toNat) ∧
      (off = 0x0C → h.readData.toNat =
        s.busy.toNat + 2 * s.done.toNat + 4 * s.error.toNat + 256 * s.errCode.toNat) ∧
      (off = 0x10 → h.readData = s.cmd) ∧
      (off = 0x14 → h.readData = s.srcAddr) ∧
      (off = 0x18 → h.readData = s.srcLen) ∧
      (off = 0x1C → h.readData = s.dstAddr) ∧
      (off = 0x20 → h.readData = s.dstCap) ∧
      (off = 0x24 → h.readData = s.outLen) ∧
      (off = 0x28 → h.readData = s.errInfo) ∧
      (off = 0x2C → h.readData.toNat =
        s.cfg.minMatchLen * 2 ^ 24 + s.cfg.maxMatchLen * 2 ^ 16 + s.cfg.windowSize) ∧
      (off = 0x30 → h.readData.toNat = s.cfg.lzStoreThreshold) ∧
      (0x34 ≤ off.toNat → h.readData = 0)

/-- 20_memory R80, R89, R93: a register access of another width, or not 4-byte aligned, is refused; so is a host byte access
to device registers, the block's window among them, and one outside the 2^32 bytes faults (log 21). -/
def Obligations.AccessFormRefused : Prop :=
  ∀ (s : State) (bits : Nat) (off : BitVec 8) (v : Word) (rest : List Input), s.cfg.wellFormed = true →
    ((bits ≠ 32 ∨ off.toNat % 4 ≠ 0) →
      (s.inputs = .write bits off v :: rest ∨ s.inputs = .read bits off :: rest) →
      step s = .refused .registerAccessForm) ∧
    (∀ (a : Nat) (b : Byte), (s.inputs = .memWrite a b :: rest ∨ s.inputs = .memRead a :: rest) →
      (2 ^ 32 ≤ a → step s = .fault .noSuchAddress) ∧
      (a < 2 ^ 32 → (∃ d ∈ Config.deviceRegions s.cfg, d.contains a = true) →
        step s = .refused .hostByteAccessToDevice))

/-- 10_state R43, R46, 40_command_sequencer R151: while idle a write to CMD or an operand register stores all 32 bits and
changes nothing else. -/
def Obligations.OperandWriteStores : Prop :=
  ∀ (s : State) (v : Word) (rest : List Input), s.cfg.wellFormed = true → s.busy = false →
    (s.inputs = .write 32 0x10 v :: rest → step s = .next { s with inputs := rest, cmd := v }) ∧
    (s.inputs = .write 32 0x14 v :: rest → step s = .next { s with inputs := rest, srcAddr := v }) ∧
    (s.inputs = .write 32 0x18 v :: rest → step s = .next { s with inputs := rest, srcLen := v }) ∧
    (s.inputs = .write 32 0x1C v :: rest → step s = .next { s with inputs := rest, dstAddr := v }) ∧
    (s.inputs = .write 32 0x20 v :: rest → step s = .next { s with inputs := rest, dstCap := v })

/-- 40_command_sequencer R156: while BUSY = 1 a write to CMD or an operand register is ignored; a CTRL write sets IE and
its SOFT_RESET acts, its START does not; a STATUS write acts. -/
def Obligations.WritesWhileBusy : Prop :=
  ∀ (s : State) (off : BitVec 8) (v : Word) (rest : List Input), s.cfg.wellFormed = true → s.busy = true →
    s.inputs = .write 32 off v :: rest →
    ((off = 0x10 ∨ off = 0x14 ∨ off = 0x18 ∨ off = 0x1C ∨ off = 0x20) → step s = .next { s with inputs := rest }) ∧
    (off = 0x08 → v.getLsbD 1 = false → step s = .next { s with inputs := rest, ie := v.getLsbD 2 }) ∧
    (off = 0x08 → v.getLsbD 1 = true → ∃ t, step s = .next t ∧ AtReset t) ∧
    (off = 0x0C → v.getLsbD 1 = true → step s = .next { s with inputs := rest, done := false })

/-- 40_command_sequencer R155: a write to a read-only register or a reserved offset has no effect. -/
def Obligations.ReadOnlyWritesIgnored : Prop :=
  ∀ (s : State) (off : BitVec 8) (v : Word) (rest : List Input), s.cfg.wellFormed = true →
    s.inputs = .write 32 off v :: rest → off.toNat % 4 = 0 →
    (off = 0x00 ∨ off = 0x04 ∨ off = 0x24 ∨ off = 0x28 ∨ off = 0x2C ∨ off = 0x30 ∨ 0x34 ≤ off.toNat) →
    step s = .next { s with inputs := rest }

/-- 30_encoding R114: the order in which a CTRL write is decoded. Bits 31:3 have no effect: each case is given by bits
2:0. -/
def Obligations.CtrlWriteDecoding : Prop :=
  ∀ (s : State) (v : Word) (rest : List Input), s.cfg.wellFormed = true → s.inputs = .write 32 0x08 v :: rest →
    (v.getLsbD 1 = true → step s = exec (.softReset false 0) { s with inputs := rest }) ∧
    (v.getLsbD 1 = false → v.getLsbD 0 = true → step s = exec (.start (v.getLsbD 2) 0) { s with inputs := rest }) ∧
    (v.getLsbD 1 = false → v.getLsbD 0 = false → step s = .next { s with inputs := rest, ie := v.getLsbD 2 })

/-- 30_encoding R115, 10_state R42: a STATUS write clears DONE exactly when its bit 1 is set and does nothing else, and the
reserved bits of STATUS read 0. -/
def Obligations.StatusWriteAndReservedBits : Prop :=
  ∀ (s : State) (v : Word) (rest : List Input), s.cfg.wellFormed = true → s.inputs = .write 32 0x0C v :: rest →
    (v.getLsbD 1 = true → step s = .next { s with inputs := rest, done := false }) ∧
    (v.getLsbD 1 = false → step s = .next { s with inputs := rest }) ∧
    (∀ k, ((3 ≤ k ∧ k ≤ 7) ∨ (12 ≤ k ∧ k ≤ 31)) → (readReg s 0x0C).getLsbD k = false)

/-! ### Control actions -/

/-- 40_command_sequencer R152, R156: an idle block's START latches the operands, clears the last result, sets IE and
becomes busy; every other register, the memory and the configuration stay. A START while BUSY = 1 sets IE and has no other
effect. The host keeps its duties at the START (70_reset_and_hazards R461, log 26). The host's side takes the command's regions
beside those it already has (log 15). -/
def Obligations.StartEffect : Prop :=
  ∀ (s : State) (ie : Bool) (ignored : BitVec 29),
    (s.busy = true → exec (.start ie ignored) s = .next { s with ie := ie }) ∧
    (s.busy = false → s.Dutiful → exec (.start ie ignored) s = .next { s with
        ie := ie, busy := true, done := false, error := false, errCode := 0,
        latch := ⟨s.cmd, s.srcAddr, s.srcLen, s.dstAddr, s.dstCap⟩,
        outLen := 0, errInfo := 0, ip := 0, op := 0, phase := .run,
        host := { s.host with
          owned := ⟨⟨s.srcAddr.toNat, s.srcLen.toNat⟩, ⟨s.dstAddr.toNat, s.dstCap.toNat⟩⟩ :: s.host.owned } })

/-- 40_command_sequencer R153, 70_reset_and_hazards R451, R453: SOFT_RESET puts every register at its reset value and the
block idle, without a completion; it keeps the configuration, ID, VERSION, PARAM_LZ and PARAM_STORE, and changes memory at
most in the output region of a command it aborts. That command's input region stays where the two regions share no
address; where they do, which a start check would reject, the shared bytes are output bytes (log 10). Of the host's side it
ends the duties and changes nothing else (log 15, log 28). -/
def Obligations.SoftResetEffect : Prop :=
  ∀ (s : State) (bit0 : Bool) (ignored : BitVec 30), Memory.wf s.mem = true →
    ∃ t, exec (.softReset bit0 ignored) s = .next t ∧ AtReset t ∧ t.cfg = s.cfg ∧ t.inputs = s.inputs ∧
      t.host = { s.host with owned := [] } ∧
      (∀ off : BitVec 8, (off = 0x00 ∨ off = 0x04 ∨ off = 0x2C ∨ off = 0x30) → readReg t off = readReg s off) ∧
      (s.phase = .idle → t.mem = s.mem) ∧
      (∀ a, (a < s.latch.dst.toNat ∨ s.latch.dst.toNat + s.latch.cap.toNat ≤ a) →
        Memory.read t.mem a = Memory.read s.mem a) ∧
      (s.latch.input.meets s.latch.output = false → ∀ k, k < s.latch.len.toNat →
        Memory.read t.mem (s.latch.src.toNat + k) = Memory.read s.mem (s.latch.src.toNat + k))

/-- 70_reset_and_hazards R452: a soft reset leaves the block in the state a hardware reset leaves it in. -/
def Obligations.SoftResetIsHardwareReset : Prop :=
  ∀ (s s' : State) (v : Word) (rest : List Input), s.cfg.wellFormed = true → v.getLsbD 1 = true →
    s.inputs = .write 32 0x08 v :: rest → s' = { s with inputs := .hwReset :: rest } →
    step s = step s' ∧ ∃ t, step s' = .next t ∧ AtReset t

/-- 40_command_sequencer R154: DONE-clear clears DONE and nothing else; while BUSY = 1 it has no effect. -/
def Obligations.DoneClearEffect : Prop :=
  ∀ (s : State) (bit0 : Bool) (ignored : BitVec 30),
    exec (.doneClear bit0 ignored) s = .next { s with done := false } ∧
    (s.Inv → s.busy = true → exec (.doneClear bit0 ignored) s = .next s)

/-- 10_state R60, 60_exceptions R416, 40_command_sequencer R152 to R154: IRQ is DONE & IE; it rises with the completion of
any command when IE = 1 and when IE is set while DONE = 1; it falls on DONE-clear, on a CTRL write with bit 2 = 0, on an
accepted START and on reset. Which STARTs are accepted, those that keep the host's duties, is log 26. -/
def Obligations.InterruptLine : Prop :=
  ∀ s t : State,
    (s.irq = true ↔ s.done = true ∧ s.ie = true) ∧
    (∀ i, i.port = .cmd → s.phase = .run → exec i s = .next t → t.irq = s.ie) ∧
    (∀ v rest, s.cfg.wellFormed = true → s.inputs = .write 32 0x08 v :: rest → v.getLsbD 1 = false →
      v.getLsbD 0 = false → ∃ t', step s = .next t' ∧ t'.irq = (s.done && v.getLsbD 2)) ∧
    (∀ ie x, s.busy = false → s.Dutiful → ∃ t', exec (.start ie x) s = .next t' ∧ t'.irq = false) ∧
    (∀ b x, ∃ t', exec (.doneClear b x) s = .next t' ∧ t'.irq = false) ∧
    (∀ b x, ∃ t', exec (.softReset b x) s = .next t' ∧ t'.irq = false)

/-! ### Running a command -/

/-- 60_exceptions R406, R418, 30_encoding R112, 10_state R61: a running word that selects no command ends with
BAD_COMMAND(0), whatever its regions; IE, CMD, the operand registers and the configuration stay, and the host's side notes
the output region as for every completion (log 15, log 16). That memory stays as it was, the output region included, is R406 read against 20_memory R84, the model's choice (log 9). -/
def Obligations.BadCommand : Prop :=
  ∀ (s : State) (rest : List Input), s.cfg.wellFormed = true → s.phase = .run →
    (s.latch.cmd = 0 ∨ 7 ≤ s.latch.cmd.toNat) → (s.inputs = [] ∨ s.inputs = .blockTurn :: rest) →
    ∃ t, step s = .next t ∧ FailedWith t .badCommand 0 ∧ t.mem = s.mem ∧
      CommandFrame { s with inputs := s.inputs.tail } t

/-- 60_exceptions R407, 40_command_sequencer R158: a wrapping region, or two nonempty regions that share an address, end
the command with RANGE_ERROR(0); the rest is as for every completion, the host's side noting the output region although
nothing was written included (log 15, log 16). That memory stays as it was, the output region included, is
R407 read against 20_memory R84, the model's choice (log 9). -/
def Obligations.RangeError : Prop :=
  ∀ (s : State) (i : Instr), s.phase = .run → decode .cmd (wordBytes s.latch.cmd) = .ok (i, []) →
    (2 ^ 32 < s.latch.src.toNat + s.latch.len.toNat ∨ 2 ^ 32 < s.latch.dst.toNat + s.latch.cap.toNat ∨
      ∃ a, s.latch.src.toNat ≤ a ∧ a < s.latch.src.toNat + s.latch.len.toNat ∧
        s.latch.dst.toNat ≤ a ∧ a < s.latch.dst.toNat + s.latch.cap.toNat) →
    ∃ t, exec i s = .next t ∧ FailedWith t .rangeError 0 ∧ t.mem = s.mem ∧ CommandFrame s t

/-- 40_command_sequencer R166, 70_reset_and_hazards R466, 60_exceptions R414: every running command completes in its
completion step: BUSY 0, DONE 1, idle; with an error OUT_LEN is 0 and ERR_CODE one of the codes 2 to 9, without one
ERR_CODE and ERR_INFO are 0. -/
def Obligations.CommandCompletes : Prop :=
  ∀ (s : State) (i : Instr), i.port = .cmd → s.phase = .run →
    ∃ t, exec i s = .next t ∧ t.busy = false ∧ t.done = true ∧ t.phase = .idle ∧
      (t.error = true → t.outLen = 0 ∧ 2 ≤ t.errCode.toNat ∧ t.errCode.toNat ≤ 9) ∧
      (t.error = false → t.errCode = 0 ∧ t.errInfo = 0)

/-- 20_memory R84, R96, R102, 10_state R61, R63: what the six commands leave unchanged, and that their output region waits
for the host's fence and invalidate (log 15, log 16). Memory outside the output region stays; after a success OUT_LEN is at
most L_CAP and memory outside the OUT_LEN bytes from L_DST on stays. -/
def Obligations.CommandLeavesUnchanged : Prop :=
  ∀ (s t : State) (i : Instr), i.port = .cmd → s.phase = .run → Memory.wf s.mem = true → exec i s = .next t →
    CommandFrame s t ∧
    (t.error = false → t.outLen.toNat ≤ s.latch.cap.toNat ∧
      ∀ a, (a < s.latch.dst.toNat ∨ s.latch.dst.toNat + t.outLen.toNat ≤ a) →
        Memory.read t.mem a = Memory.read s.mem a)

/-- 60_exceptions R411: the errors each command can end with, on the block's turn with no input left or at a blockTurn
entry. -/
def Obligations.ErrorsOfEachCommand : Prop :=
  ∀ (s t : State) (rest : List Input), s.cfg.wellFormed = true → (s.inputs = [] ∨ s.inputs = .blockTurn :: rest) →
    s.phase = .run → step s = .next t → t.error = true →
    (∀ i, decode .cmd (wordBytes s.latch.cmd) = .ok (i, []) →
      t.errCode = ErrKind.rangeError.code ∨ ∃ k, k ∈ errorsOf i ∧ t.errCode = k.code) ∧
    ((∀ i, decode .cmd (wordBytes s.latch.cmd) ≠ .ok (i, [])) → t.errCode = ErrKind.badCommand.code)

/-- 60_exceptions R413: what ERR_INFO holds after an error, on the block's turn with no input left or at a blockTurn
entry. -/
def Obligations.ErrInfo : Prop :=
  ∀ (s t : State) (rest : List Input), s.cfg.wellFormed = true → (s.inputs = [] ∨ s.inputs = .blockTurn :: rest) →
    s.phase = .run → step s = .next t → t.error = true →
    (t.errCode = ErrKind.busError.code → s.cfg.busOk t.errInfo.toNat = false ∧
      ((s.latch.src.toNat ≤ t.errInfo.toNat ∧ t.errInfo.toNat < s.latch.src.toNat + s.latch.len.toNat) ∨
       (s.latch.dst.toNat ≤ t.errInfo.toNat ∧ t.errInfo.toNat < s.latch.dst.toNat + s.latch.cap.toNat))) ∧
    ((t.errCode = ErrKind.badCommand.code ∨ t.errCode = ErrKind.rangeError.code) → t.errInfo = 0) ∧
    (t.errCode ≠ ErrKind.busError.code → t.errInfo.toNat ≤ s.latch.len.toNat)

/-- 60_exceptions R409, R412, R413, 20_memory R81, R82: what each of the six commands does on a bus that rejects accesses,
beside what it does (`t0`) where BUS_OK holds everywhere. It ends as there, or with BUS_ERROR and the address of the first
rejected byte of its input or output region. It ends with that BUS_ERROR when it would have succeeded and written the first
rejected output byte, and, HUFF_DEC apart, which need not read its whole input, whenever it would have succeeded and an
input byte is rejected. HUFF_ENC, HUFF_DEC, LZ77_DEC and RLE_DEC fail so at a rejected first input byte whatever follows.
Which of two rejected neighbours RLE_ENC reads first is log 11. -/
def Obligations.BusErrors : Prop :=
  ∀ (s : State) (i : Instr), i.port = .cmd → s.Running →
    (∀ t0, exec i s.busClear = .next t0 → ∃ t, exec i s = .next t ∧
      (t = { t0 with cfg := s.cfg } ∨ ∃ a, s.env.BusErrorAt i a ∧ FailedWith t .busError a) ∧
      (t0.error = false →
        ((∃ k, s.env.FirstBadOut k ∧ k < t0.outLen.toNat) ∨ (i ≠ .huffDec ∧ ∃ k, s.env.FirstBadIn k)) →
        ∃ a, s.env.BusErrorAt i a ∧ FailedWith t .busError a)) ∧
    ((i = .huffEnc ∨ i = .huffDec ∨ i = .lz77Dec ∨ i = .rleDec) → s.env.FirstBadIn 0 →
      ∃ t, exec i s = .next t ∧ FailedWith t .busError s.latch.src.toNat)

/-- 70_reset_and_hazards R461, 20_memory R92, R93, R95, R102: a START is refused when its regions cover device registers, its
input is not idempotent, or a store into its input region was not ordered or, on a platform whose DMA does not see the
host's caches, not cleaned; otherwise it is accepted. That the run is refused at the START, and whether or not its start
checks would pass, is the model's reading (log 26). -/
def Obligations.DutiesRefused : Prop :=
  ∀ (s : State) (ie : Bool) (x : BitVec 29), s.busy = false →
    ((∃ d ∈ Config.deviceRegions s.cfg, d.meets s.operands.input = true ∨ d.meets s.operands.output = true) →
      exec (.start ie x) s = .refused .regionOverDevice) ∧
    (((∃ m ∈ s.cfg.sideEffectMem, m.meets s.operands.input = true) ∨
        (∃ a ∈ s.host.unfenced, s.srcAddr.toNat ≤ a ∧ a < s.srcAddr.toNat + s.srcLen.toNat) ∨
        (s.cfg.dmaCoherent = false ∧
          ∃ a ∈ s.host.dirty, s.srcAddr.toNat ≤ a ∧ a < s.srcAddr.toNat + s.srcLen.toNat)) →
      ∃ w, exec (.start ie x) s = .refused w) ∧
    (OnMemory s.cfg s.operands → StoresReach s s.operands → ∃ t, exec (.start ie x) s = .next t ∧ t.busy = true)

/-- 20_memory R95, R96, R102: a fence orders every host store before it and keeps waiting only for the outputs whose DONE
was not seen; a clean of a range takes exactly its addresses from the stores not cleaned; neither changes anything else
(log 16). -/
def Obligations.FenceAndClean : Prop :=
  ∀ (s : State) (r : Region) (rest : List Input), s.cfg.wellFormed = true →
    (s.inputs = .fence :: rest → ∃ u, step s =
        .next { s with inputs := rest, host := { s.host with unfenced := [], outUnordered := u } } ∧
      ∀ p, p ∈ u ↔ p ∈ s.host.outUnordered ∧ p.2 = false) ∧
    (s.inputs = .cacheClean r :: rest → ∃ d, step s =
        .next { s with inputs := rest, host := { s.host with dirty := d } } ∧
      ∀ a, a ∈ d ↔ a ∈ s.host.dirty ∧ r.contains a = false)

/-! ### The host and the memory -/

/-- 30_encoding R135, 00_scope R12, 20_memory R80: a host store to ordinary memory changes that byte and no other, and
nothing of the block; the host's side notes it as not yet ordered and not yet cleaned (log 16). That BUS_OK says nothing
about a host store is log 21, which bytes it may not write log 15, that memory with read side effects is stored to as any
other log 30. -/
def Obligations.HostStore : Prop :=
  ∀ (s : State) (a : Nat) (b : Byte) (rest : List Input), s.cfg.wellFormed = true → s.inputs = .memWrite a b :: rest →
    a < 2 ^ 32 → (∀ d ∈ Config.deviceRegions s.cfg, d.contains a = false) → commandOwns s a = false →
    Memory.wf s.mem = true →
    ∃ m : Memory, step s = .next { s with
        inputs := rest
        mem := m
        host := { s.host with unfenced := a :: s.host.unfenced, dirty := a :: s.host.dirty } } ∧
      Memory.read m a = b ∧ (∀ x, x ≠ a → Memory.read m x = Memory.read s.mem x) ∧ Memory.wf m = true

/-- 20_memory R98, 70_reset_and_hazards R461: while a command runs, a host load of its output region completes, leaves the
command and the memory alone and returns a byte the model leaves free (the model's choice, log 14), whatever BUS_OK says of
its address (log 21); a host store into either region is refused, and so it is until the host has seen DONE (the model's
choice of when the duties end, log 15). -/
def Obligations.HostAccessWhileRunning : Prop :=
  ∀ (s : State) (a : Nat) (b : Byte) (rest : List Input), s.cfg.wellFormed = true → a < 2 ^ 32 →
    (∀ d ∈ Config.deviceRegions s.cfg, d.contains a = false) →
    (s.phase = .run → s.latch.output.contains a = true → s.inputs = .memRead a :: rest →
      ∃ (w : Word) (n : Nat), step s =
          .next { s with inputs := rest, host := { s.host with readData := w }, draws := n } ∧ w.toNat < 256) ∧
    (s.phase = .run → (s.latch.input.contains a = true ∨ s.latch.output.contains a = true) →
      s.inputs = .memWrite a b :: rest → step s = .refused .hostWroteCommandRegion) ∧
    (∀ o ∈ s.host.owned, (o.input.contains a = true ∨ o.output.contains a = true) →
      s.inputs = .memWrite a b :: rest → step s = .refused .hostWroteCommandRegion)

/-- 20_memory R96, 30_encoding R135: a STATUS read that shows DONE = 1 and then a fence leave no output so far unordered, no
store unordered and no duty of the host. That one sight of DONE counts for every command started so far is the model's
choice (log 15), and so is what a fence clears (log 16). -/
def Obligations.DoneThenFenceOrders : Prop :=
  ∀ (s : State) (rest : List Input), s.cfg.wellFormed = true → s.done = true →
    s.inputs = .read 32 0x0C :: .fence :: rest →
    ∃ s1 t, step s = .next s1 ∧ step s1 = .next t ∧ t.host.outUnordered = [] ∧ t.host.owned = [] ∧
      t.host.unfenced = [] ∧ t.mem = s.mem ∧ t.inputs = rest

/-- 20_memory R96, R102, 70_reset_and_hazards R461: a host load of an output byte whose DONE was not seen, or with no fence
after that, is refused; so is one of an output byte not invalidated on a platform whose DMA the host's caches do not see;
every other load of ordinary memory returns the byte memory holds there. How long an output stays unordered or cached is
the model's choice (log 15, log 16, log 31, and after a reset log 28), and so is that memory with read side effects is loaded as any
other (log 30). That a load completes whatever BUS_OK says of its address is log 21. -/
def Obligations.HostLoad : Prop :=
  ∀ (s : State) (a : Nat) (rest : List Input), s.cfg.wellFormed = true → s.inputs = .memRead a :: rest →
    a < 2 ^ 32 → (∀ d ∈ Config.deviceRegions s.cfg, d.contains a = false) →
    ¬(s.phase = .run ∧ s.latch.output.contains a = true) →
    let unordered := (∃ o ∈ s.host.owned, o.output.contains a = true) ∨
      ∃ p ∈ s.host.outUnordered, p.1.contains a = true
    let stale := s.cfg.dmaCoherent = false ∧ ∃ r ∈ s.host.outCached, r.contains a = true
    (unordered → step s = .refused .outputReadUnordered) ∧
    (¬unordered → stale → step s = .refused .outputCacheStale) ∧
    (¬unordered → ¬stale → ∃ v : Word, step s =
        .next { s with inputs := rest, host := { s.host with readData := v } } ∧
      v.toNat = (Memory.read s.mem a).toNat)

/-- 20_memory R96, R102, 60_exceptions R416, R423: an invalidate of a range takes exactly its addresses from the outputs
not invalidated; taking the interrupt at the input IRQ is wired to, while IRQ is 1, ends the host's duties as a STATUS read
with DONE = 1 does, so that a fence then orders its loads; anywhere else, or while IRQ is 0, it changes nothing (log 15, log
16, log 29). When an invalidate may come is log 31. -/
def Obligations.InvalidateAndInterrupt : Prop :=
  ∀ (s : State) (r : Region) (line : Nat) (rest : List Input), s.cfg.wellFormed = true →
    (s.inputs = .cacheInvalidate r :: rest → ∃ c, step s =
        .next { s with inputs := rest, host := { s.host with outCached := c } } ∧
      ∀ a, (∃ q ∈ c, q.contains a = true) ↔
        (∃ q ∈ s.host.outCached, q.contains a = true) ∧ r.contains a = false) ∧
    (s.inputs = .takeIrq line :: rest → s.cfg.irqInput = some line → s.irq = true → ∃ u, step s =
        .next { s with inputs := rest, host := { s.host with owned := [], outUnordered := u } } ∧
      u.map Prod.fst = s.host.outUnordered.map Prod.fst ∧ ∀ p ∈ u, p.2 = true) ∧
    (s.inputs = .takeIrq line :: rest → (s.cfg.irqInput ≠ some line ∨ s.irq = false) →
      step s = .next { s with inputs := rest })

/-! ### Whole-machine invariants -/

/-- 10_state R39, R41, R47, R48, R59, 70_reset_and_hazards R465, 60_exceptions R400, R401, R410: every step keeps the
invariant, from every state that has it. -/
def Obligations.StepKeepsInv : Prop :=
  ∀ s t : State, s.Inv → step s = .next t → t.Inv

/-- The reset state has the invariant. -/
def Obligations.ResetHasInv : Prop := State.reset.Inv

/-- 70_reset_and_hazards R450, 10_state section 1: the register file after reset, as the host reads it. The values of
PARAM_LZ and PARAM_STORE are those of the spec's default parameters, which the reset state holds (log 12). -/
def Obligations.ResetRegisters : Prop :=
  readReg State.reset 0x00 = 0x0000CCB1 ∧ readReg State.reset 0x04 = 0x00000001 ∧ readReg State.reset 0x08 = 0 ∧
  readReg State.reset 0x0C = 0 ∧ readReg State.reset 0x10 = 0 ∧ readReg State.reset 0x14 = 0 ∧
  readReg State.reset 0x18 = 0 ∧ readReg State.reset 0x1C = 0 ∧ readReg State.reset 0x20 = 0 ∧
  readReg State.reset 0x24 = 0 ∧ readReg State.reset 0x28 = 0 ∧ readReg State.reset 0x2C = 0x03121000 ∧
  readReg State.reset 0x30 = 0x00000040 ∧ AtReset State.reset

/-- 00_scope R13, 10_state R64: the result of LZ77 and RLE commands is a function of the latched operands, the input bytes
and the configuration: two states that agree on those end alike, whatever their internal state, registers and other
memory hold. -/
def Obligations.ResultIsAFunction : Prop :=
  ∀ (s s' t t' : State) (i : Instr), (i = .lz77Enc ∨ i = .lz77Dec ∨ i = .rleEnc ∨ i = .rleDec) → s.Running →
    s'.Running → Memory.wf s.mem = true → Memory.wf s'.mem = true → s'.cfg = s.cfg → s'.latch = s.latch →
    s'.env.bytes = s.env.bytes → exec i s = .next t → exec i s' = .next t' →
    t'.error = t.error ∧ t'.errCode = t.errCode ∧ t'.errInfo = t.errInfo ∧ t'.outLen = t.outLen ∧
    (t.error = false → ∀ k, k < t.outLen.toNat →
      Memory.read t'.mem (s.latch.dst.toNat + k) = Memory.read t.mem (s.latch.dst.toNat + k))

/-- The same of the two Huffman commands (00_scope R13, 10_state R53, R64). -/
def Obligations.HuffResultIsAFunction : Prop :=
  ∀ (s s' t t' : State) (i : Instr), (i = .huffEnc ∨ i = .huffDec) → s.Running →
    s'.Running → Memory.wf s.mem = true → Memory.wf s'.mem = true → s'.cfg = s.cfg → s'.latch = s.latch →
    s'.env.bytes = s.env.bytes → exec i s = .next t → exec i s' = .next t' →
    t'.error = t.error ∧ t'.errCode = t.errCode ∧ t'.errInfo = t.errInfo ∧ t'.outLen = t.outLen ∧
    (t.error = false → ∀ k, k < t.outLen.toNat →
      Memory.read t'.mem (s.latch.dst.toNat + k) = Memory.read t.mem (s.latch.dst.toNat + k))

/-! ### RLE -/

/-- 45_rle_encoder R350 to R355, 30_encoding R131 to R133, 60_exceptions R408: RLE_ENC's output is the spans the run
classifier and the span emitters give, of at most 2·L_LEN bytes, with control bytes in the ranges of R355. Where they fit
it succeeds; where a span does not, it fails with OUTPUT_OVERFLOW and the span's start. -/
def Obligations.RleEncWritesSpans : Prop :=
  ∀ s : State, s.Running → s.env.BusFine → Memory.wf s.mem = true →
    ∃ spans, RleEncoding 0 s.env.bytes spans ∧ RleWritten (recordBytes spans) ∧
      RleArtifact (recordBytes spans) s.env.bytes ∧ (recordBytes spans).length ≤ 2 * s.latch.len.toNat ∧
      ((recordBytes spans).length ≤ s.latch.cap.toNat →
        ∃ t, exec .rleEnc s = .next t ∧ Succeeded s t (recordBytes spans)) ∧
      (∀ pre i span post, spans = pre ++ (i, span) :: post → (recordBytes pre).length ≤ s.latch.cap.toNat →
        s.latch.cap.toNat < (recordBytes pre).length + span.length →
        ∃ t, exec .rleEnc s = .next t ∧ FailedWith t .outputOverflow i)

/-- 46_rle_decoder R380 to R382, 60_exceptions R408, R415: RLE_DEC of an artifact writes exactly the bytes its spans stand
for. Where a span's output does not fit, whatever follows it, RLE_DEC fails with OUTPUT_OVERFLOW and the offset after the
last artifact byte fetched: the value byte of a run, the byte too many of a raw span. -/
def Obligations.RleDecExpands : Prop :=
  ∀ s : State, s.Running → s.env.BusFine → Memory.wf s.mem = true →
    (∀ out, RleArtifact s.env.bytes out → out.length ≤ s.latch.cap.toNat →
      ∃ t, exec .rleDec s = .next t ∧ Succeeded s t out) ∧
    (∀ pre out c v tail, RleArtifact pre out → s.env.bytes = pre ++ c :: v :: tail → c.getLsbD 7 = true →
      out.length ≤ s.latch.cap.toNat → s.latch.cap.toNat < out.length + c.toNat % 128 →
      ∃ t, exec .rleDec s = .next t ∧ FailedWith t .outputOverflow (pre.length + 2)) ∧
    (∀ pre out c bs tail, RleArtifact pre out → s.env.bytes = pre ++ c :: bs ++ tail → c.getLsbD 7 = false →
      bs.length = c.toNat % 128 + 1 → out.length ≤ s.latch.cap.toNat → s.latch.cap.toNat < out.length + bs.length →
      ∃ t, exec .rleDec s = .next t ∧
        FailedWith t .outputOverflow (pre.length + 2 + (s.latch.cap.toNat - out.length)))

/-- 46_rle_decoder R380, R381, 60_exceptions R402: an artifact that ends inside a span fails with TRUNCATED_STREAM and the
control byte's offset, when the output of the spans before it fits. -/
def Obligations.RleDecTruncated : Prop :=
  ∀ (s : State) (art out tail : List Byte) (c : Byte), s.Running → s.env.BusFine → RleArtifact art out →
    out.length ≤ s.latch.cap.toNat → s.env.bytes = art ++ c :: tail →
    ((c.getLsbD 7 = true ∧ tail = []) ∨ (c.getLsbD 7 = false ∧ tail.length < c.toNat % 128 + 1)) →
    ∃ t, exec .rleDec s = .next t ∧ FailedWith t .truncatedStream art.length

/-- 46_rle_decoder R383: for every input, RLE_ENC succeeds into a region of 2·L_LEN bytes, and whenever it succeeds,
RLE_DEC of its output into a region that holds the input succeeds with the input. -/
def Obligations.RleRoundTrip : Prop :=
  ∀ s : State, s.Running → s.env.BusFine → Memory.wf s.mem = true →
    (2 * s.latch.len.toNat ≤ s.latch.cap.toNat → ∃ t, exec .rleEnc s = .next t ∧ t.error = false) ∧
    (∀ t s' : State, exec .rleEnc s = .next t → t.error = false → s'.Running → s'.env.BusFine → s'.mem = t.mem →
      s'.latch.src = s.latch.dst → s'.latch.len = t.outLen → s.latch.len.toNat ≤ s'.latch.cap.toNat →
      ∃ t', exec .rleDec s' = .next t' ∧ Succeeded s' t' s.env.bytes)

/-! ### LZ77 -/

/-- 43_lz77_encoder R283: an input shorter than LZ_STORE_THRESHOLD is stored behind the marker 0x55, and an output region
too short for it fails with OUTPUT_OVERFLOW: info 0 at the marker, i at byte i. -/
def Obligations.Lz77StoresShortInput : Prop :=
  ∀ s : State, s.Running → s.env.BusFine → Memory.wf s.mem = true → s.latch.len.toNat < s.cfg.lzStoreThreshold →
    (1 + s.latch.len.toNat ≤ s.latch.cap.toNat →
      ∃ t, exec .lz77Enc s = .next t ∧ Succeeded s t (0x55 :: s.env.bytes)) ∧
    (s.latch.cap.toNat = 0 → ∃ t, exec .lz77Enc s = .next t ∧ FailedWith t .outputOverflow 0) ∧
    (∀ i, i < s.latch.len.toNat → s.latch.cap.toNat = 1 + i →
      ∃ t, exec .lz77Enc s = .next t ∧ FailedWith t .outputOverflow i)

/-- 43_lz77_encoder R281, R282, R284, 60_exceptions R408: an input of LZ_STORE_THRESHOLD bytes or more is tokenized behind
the marker 0x43, each token the longest match at the cursor with the smallest offset, in at most 1 + 5·L_LEN bytes. Where
they fit LZ77_ENC succeeds; where the marker does not, it fails with OUTPUT_OVERFLOW(0), where a token does not, with the
cursor before it. -/
def Obligations.Lz77EncWritesTokens : Prop :=
  ∀ s : State, s.Running → s.env.BusFine → Memory.wf s.mem = true → s.cfg.wellFormed = true →
    s.cfg.lzStoreThreshold ≤ s.latch.len.toNat →
    ∃ toks, LzEncoded s.env 0 toks ∧ LzArtifact s.cfg.windowSize (0x43 :: recordBytes toks) s.env.bytes ∧
      (recordBytes toks).length ≤ 5 * s.latch.len.toNat ∧
      (1 + (recordBytes toks).length ≤ s.latch.cap.toNat →
        ∃ t, exec .lz77Enc s = .next t ∧ Succeeded s t (0x43 :: recordBytes toks)) ∧
      (s.latch.cap.toNat = 0 → ∃ t, exec .lz77Enc s = .next t ∧ FailedWith t .outputOverflow 0) ∧
      (∀ pre cur tok post, toks = pre ++ (cur, tok) :: post → 1 + (recordBytes pre).length ≤ s.latch.cap.toNat →
        s.latch.cap.toNat < 1 + (recordBytes pre).length + tok.length →
        ∃ t, exec .lz77Enc s = .next t ∧ FailedWith t .outputOverflow cur)

/-- 44_lz77_decoder R320 to R325, 60_exceptions R408, R415: LZ77_DEC of an artifact writes exactly the bytes it stands for.
Where they do not fit it fails with OUTPUT_OVERFLOW: of a stored artifact with the offset after the byte too many, of a
record that goes past the region, whatever follows it, with the offset after the record. -/
def Obligations.Lz77DecReconstructs : Prop :=
  ∀ s : State, s.Running → s.env.BusFine → Memory.wf s.mem = true →
    (∀ out, LzArtifact s.cfg.windowSize s.env.bytes out → out.length ≤ s.latch.cap.toNat →
      ∃ t, exec .lz77Dec s = .next t ∧ Succeeded s t out) ∧
    (∀ bs, s.env.bytes = 0x55 :: bs → s.latch.cap.toNat < bs.length →
      ∃ t, exec .lz77Dec s = .next t ∧ FailedWith t .outputOverflow (s.latch.cap.toNat + 2)) ∧
    (∀ recs out o0 o1 l0 l1 lit tail, LzTokens s.cfg.windowSize [] recs out →
      s.env.bytes = 0x43 :: recs ++ o0 :: o1 :: l0 :: l1 :: lit :: tail →
      (pairValue l0 l1 = 0 ∨ (1 ≤ pairValue o0 o1 ∧ pairValue o0 o1 ≤ min out.length s.cfg.windowSize)) →
      out.length ≤ s.latch.cap.toNat → s.latch.cap.toNat < out.length + pairValue l0 l1 + 1 →
      ∃ t, exec .lz77Dec s = .next t ∧ FailedWith t .outputOverflow (recs.length + 6))

/-- 60_exceptions R405, 44_lz77_decoder R320, R321: a first byte that is no marker fails with UNKNOWN_FORMAT_MARKER(0), an
empty artifact with TRUNCATED_STREAM(0). -/
def Obligations.Lz77DecMarker : Prop :=
  ∀ s : State, s.Running → s.env.BusFine →
    (∀ m tail, s.env.bytes = m :: tail → m ≠ 0x55 → m ≠ 0x43 →
      ∃ t, exec .lz77Dec s = .next t ∧ FailedWith t .unknownFormatMarker 0) ∧
    (s.env.bytes = [] → ∃ t, exec .lz77Dec s = .next t ∧ FailedWith t .truncatedStream 0)

/-- 44_lz77_decoder R323, 60_exceptions R402, R404: after records that decode, a partial record fails with TRUNCATED_STREAM
and a match token that refers outside the produced window with INVALID_OFFSET, both with the record's offset. -/
def Obligations.Lz77DecTokenErrors : Prop :=
  ∀ (s : State) (recs out tail : List Byte), s.Running → s.env.BusFine → LzTokens s.cfg.windowSize [] recs out →
    out.length ≤ s.latch.cap.toNat → s.env.bytes = 0x43 :: recs ++ tail →
    (1 ≤ tail.length → tail.length < 5 →
      ∃ t, exec .lz77Dec s = .next t ∧ FailedWith t .truncatedStream (1 + recs.length)) ∧
    (∀ o0 o1 l0 l1 lit more, tail = o0 :: o1 :: l0 :: l1 :: lit :: more → 0 < pairValue l0 l1 →
      (pairValue o0 o1 = 0 ∨ min out.length s.cfg.windowSize < pairValue o0 o1) →
      ∃ t, exec .lz77Dec s = .next t ∧ FailedWith t .invalidOffset (1 + recs.length))

/-- 44_lz77_decoder R326: for every input, LZ77_ENC succeeds into a region of 1 + 5·L_LEN bytes, and whenever it succeeds,
LZ77_DEC of its output into a region that holds the input succeeds with the input, on the same configuration. -/
def Obligations.Lz77RoundTrip : Prop :=
  ∀ s : State, s.Running → s.env.BusFine → Memory.wf s.mem = true → s.cfg.wellFormed = true →
    (1 + 5 * s.latch.len.toNat ≤ s.latch.cap.toNat → ∃ t, exec .lz77Enc s = .next t ∧ t.error = false) ∧
    (∀ t s' : State, exec .lz77Enc s = .next t → t.error = false → s'.Running → s'.env.BusFine → s'.mem = t.mem →
      s'.cfg = s.cfg → s'.latch.src = s.latch.dst → s'.latch.len = t.outLen →
      s.latch.len.toNat ≤ s'.latch.cap.toNat →
      ∃ t', exec .lz77Dec s' = .next t' ∧ Succeeded s' t' s.env.bytes)

/-! ### Huffman -/

/-- 41_huffman_encoder R202 to R204: the tree of two or more symbols: its size, its root, its leaves, that every node but
the root is one child of one node, and the root's weight. Each internal node joins, of the nodes that wait when it is made,
the one with the least key (weight, arena index) as its left child and the next one as its right child. A symbol's code is
the path from the root to its leaf, "0" for left and "1" for right. -/
def Obligations.TreeShape : Prop :=
  ∀ freq : List Nat, 2 ≤ (symbols freq).length →
    let d := (symbols freq).length
    let arena := (buildTree (symbols freq) freq).1
    (buildTree (symbols freq) freq).2 = [2 * d - 2] ∧ arena.length = 2 * d - 1 ∧
    (∀ k (hk : k < d), arena[k]? = some (WNode.leaf (symbols freq)[k] (freqOf freq (symbols freq)[k]))) ∧
    (∀ x : Nat, d ≤ x → x ≤ 2 * d - 2 → ∃ w l r, arena[x]? = some (WNode.internal w l r) ∧
      w = weightAt arena l + weightAt arena r ∧ l ≠ r ∧ Waits arena d x l ∧ Waits arena d x r ∧
      (∀ y, Waits arena d x y → y ≠ l → KeyBelow arena l y) ∧
      (∀ y, Waits arena d x y → y ≠ l → y ≠ r → KeyBelow arena r y)) ∧
    (∀ y : Nat, y < 2 * d - 2 → ∃ x : Nat, ∀ z : Nat, (∃ w l r, arena[z]? = some (WNode.internal w l r) ∧ (l = y ∨ r = y)) ↔ z = x) ∧
    weightAt arena (2 * d - 2) = ((symbols freq).map (freqOf freq)).sum ∧
    (∀ b ∈ symbols freq, followCode arena (2 * d - 2) (codeOf (codesFor freq) b) = some (.leaf b (freqOf freq b)))

/-- 41_huffman_encoder R205: with two or more symbols every code has 1 to d - 1 bits, no code is a prefix of another, and
the code lengths fill the code space exactly (the sum of 2^-len, scaled by 2^255). -/
def Obligations.CodesPrefixFree : Prop :=
  ∀ freq : List Nat, 2 ≤ (symbols freq).length →
    (∀ b ∈ symbols freq, 1 ≤ (codeOf (codesFor freq) b).length ∧
      (codeOf (codesFor freq) b).length ≤ (symbols freq).length - 1) ∧
    (∀ b ∈ symbols freq, ∀ c ∈ symbols freq, b ≠ c → ¬(codeOf (codesFor freq) b <+: codeOf (codesFor freq) c)) ∧
    ((symbols freq).map fun b => 2 ^ (255 - (codeOf (codesFor freq) b).length)).sum = 2 ^ 255

/-- 41_huffman_encoder R207, R208, 20_memory R88: PUT_BIT of a bit string and FLUSH append its bytes, packed from bit 7
down, the last one padded with zero bits. -/
def Obligations.BitPacking : Prop :=
  ∀ (e : Env) (info : Nat) (bits : List Bool) (r : Run), r.u.acc = 0 → r.u.packCnt = 0 →
    r.out.length + (bits.length + 7) / 8 ≤ e.cap →
    (∀ k, r.out.length ≤ k → k < r.out.length + (bits.length + 7) / 8 → e.cfg.busOk (e.dst + k) = true) →
    ∃ r', (putBits e info bits r >>= flushBits e info) = .ok r' ∧
      r'.out = r.out ++ packBits bits.length bits ∧ r'.u.acc = 0 ∧ r'.u.packCnt = 0

/-- 41_huffman_encoder R200 to R211, 30_encoding R120, R121, R124, 60_exceptions R408: HUFF_ENC writes the artifact of its
input, of 16 + 5d + ceil(T/8) bytes, when the output region holds it, and fails with OUTPUT_OVERFLOW when it does not: with
L_LEN when the header does not fit, else with the offset after the input byte whose code completes the payload byte too
many, and with L_LEN when FLUSH would write that byte. -/
def Obligations.HuffEncWritesArtifact : Prop :=
  ∀ s : State, s.Running → s.env.BusFine → Memory.wf s.mem = true →
    let syms := symbols (countsOf s.env.bytes)
    let bitsOf := fun bs : List Byte => bs.flatMap (codeOf (codesFor (countsOf s.env.bytes)))
    let head := 16 + 5 * syms.length
    (huffArtifact s.env.bytes).length = head + ((bitsOf s.env.bytes).length + 7) / 8 ∧
    (bitsOf s.env.bytes).length = totalBitsOf (countsOf s.env.bytes) (codesFor (countsOf s.env.bytes)) syms ∧
    ((huffArtifact s.env.bytes).length ≤ s.latch.cap.toNat →
      ∃ t, exec .huffEnc s = .next t ∧ Succeeded s t (huffArtifact s.env.bytes)) ∧
    (s.latch.cap.toNat < (huffArtifact s.env.bytes).length →
      ∃ t info, exec .huffEnc s = .next t ∧ FailedWith t .outputOverflow info ∧
        (s.latch.cap.toNat < head → info = s.latch.len.toNat) ∧
        (head ≤ s.latch.cap.toNat →
          (∀ k, k < s.latch.len.toNat →
            (bitsOf (s.env.bytes.take k)).length < 8 * (s.latch.cap.toNat - head + 1) →
            8 * (s.latch.cap.toNat - head + 1) ≤ (bitsOf (s.env.bytes.take (k + 1))).length → info = k + 1) ∧
          ((bitsOf s.env.bytes).length < 8 * (s.latch.cap.toNat - head + 1) → info = s.latch.len.toNat)))

/-- 30_encoding R122, 41_huffman_encoder R210: HUFF_ENC of the empty input writes 16 zero bytes; of n times one byte it
writes 21 bytes and no payload. -/
def Obligations.HuffEncDegenerate : Prop :=
  ∀ s : State, s.Running → s.env.BusFine → Memory.wf s.mem = true →
    (s.latch.len = 0 → 16 ≤ s.latch.cap.toNat →
      ∃ t, exec .huffEnc s = .next t ∧ Succeeded s t (List.replicate 16 0)) ∧
    (∀ c : Byte, 1 ≤ s.latch.len.toNat → s.env.bytes = List.replicate s.latch.len.toNat c →
      21 ≤ s.latch.cap.toNat →
      ∃ t, exec .huffEnc s = .next t ∧
        Succeeded s t (leBytes 8 1 ++ [c] ++ leBytes 4 s.latch.len.toNat ++ leBytes 8 0))

/-- 42_huffman_decoder R248, 60_exceptions R408: with no symbol the output is empty, with one it is N copies, whatever
totalBits is and whatever follows; N copies that do not fit fail with OUTPUT_OVERFLOW and the offset after the header. -/
def Obligations.HuffDecDegenerate : Prop :=
  ∀ (s : State) (total n : Nat) (b : Byte) (tail : List Byte), s.Running → s.env.BusFine → Memory.wf s.mem = true →
    total < 2 ^ 64 →
    (s.env.bytes = leBytes 8 0 ++ leBytes 8 total ++ tail →
      ∃ t, exec .huffDec s = .next t ∧ Succeeded s t []) ∧
    (1 ≤ n → n < 2 ^ 32 → s.env.bytes = leBytes 8 1 ++ b :: leBytes 4 n ++ leBytes 8 total ++ tail →
      (n ≤ s.latch.cap.toNat → ∃ t, exec .huffDec s = .next t ∧ Succeeded s t (List.replicate n b)) ∧
      (s.latch.cap.toNat < n → ∃ t, exec .huffDec s = .next t ∧ FailedWith t .outputOverflow 21))

/-- 42_huffman_decoder R240: a distinctCount above 256 fails with CORRUPT_TREE(0), an artifact of fewer than 8 bytes with
TRUNCATED_STREAM(L_LEN). -/
def Obligations.HuffDecCount : Prop :=
  ∀ (s : State) (d : Nat) (tail : List Byte), s.Running → s.env.BusFine →
    (256 < d → d < 2 ^ 64 → s.env.bytes = leBytes 8 d ++ tail →
      ∃ t, exec .huffDec s = .next t ∧ FailedWith t .corruptTree 0) ∧
    (s.latch.len.toNat < 8 →
      ∃ t, exec .huffDec s = .next t ∧ FailedWith t .truncatedStream s.latch.len.toNat)

/-- 42_huffman_decoder R241, R242, 60_exceptions R402, R403: after good pairs, a pair whose byte is not above the one
before it or whose frequency is 0 fails with CORRUPT_TREE and its offset; an artifact that ends inside the pairs or
inside totalBits fails with TRUNCATED_STREAM(L_LEN). -/
def Obligations.HuffDecPairs : Prop :=
  ∀ (s : State) (d : Nat) (ps : List (Byte × Nat)) (tail : List Byte), s.Running → s.env.BusFine → d ≤ 256 →
    PairsFine ps → s.env.bytes = leBytes 8 d ++ pairBytes ps ++ tail →
    (∀ b f more, ps.length < d → f < 2 ^ 32 → tail = b :: leBytes 4 f ++ more →
      (f = 0 ∨ ∃ p, ps.getLast? = some p ∧ b.toNat ≤ p.1.toNat) →
      ∃ t, exec .huffDec s = .next t ∧ FailedWith t .corruptTree (8 + 5 * ps.length)) ∧
    (ps.length < d → tail.length < 5 →
      ∃ t, exec .huffDec s = .next t ∧ FailedWith t .truncatedStream s.latch.len.toNat) ∧
    (ps.length = d → tail.length < 8 →
      ∃ t, exec .huffDec s = .next t ∧ FailedWith t .truncatedStream s.latch.len.toNat)

/-- 42_huffman_decoder R240 to R247, 60_exceptions R408: HUFF_DEC decodes a header of two or more symbols and a payload
whose first bits are the codes of N bytes, totalBits or more bits being read by nobody, to those bytes; bytes after the
last payload byte needed are ignored. Where the N bytes do not fit it fails with OUTPUT_OVERFLOW and the offset after the
payload byte that holds the last bit of the byte too many, whatever comes later. -/
def Obligations.HuffDecDecodes : Prop :=
  ∀ (s : State) (freq : List Nat) (total : Nat) (out pay : List Byte), s.Running → s.env.BusFine →
    Memory.wf s.mem = true → freq.length = 256 → (∀ f ∈ freq, f < 2 ^ 32) → 2 ≤ (symbols freq).length →
    (∀ b ∈ out, 0 < freqOf freq b) → (out.flatMap (codeOf (codesFor freq))).length ≤ total → total < 2 ^ 64 →
    out.flatMap (codeOf (codesFor freq)) <+: unpackBits pay →
    s.env.bytes = huffHeader freq (symbols freq) total ++ pay →
    (out.length = freq.sum → out.length ≤ s.latch.cap.toNat →
      ∃ t, exec .huffDec s = .next t ∧ Succeeded s t out) ∧
    (out.length ≤ freq.sum → out.length = s.latch.cap.toNat + 1 →
      ∃ t, exec .huffDec s = .next t ∧ FailedWith t .outputOverflow
        (16 + 5 * (symbols freq).length + ((out.flatMap (codeOf (codesFor freq))).length + 7) / 8))

/-- 42_huffman_decoder R244, 60_exceptions R402, R412: when totalBits or the artifact's bytes end before the codes of the N
declared bytes do, and the output region has room for the bytes whose codes are complete, HUFF_DEC fails with
TRUNCATED_STREAM and the offset after the last payload byte it fetched. Room for all N is not asked for. -/
def Obligations.HuffDecTruncated : Prop :=
  ∀ (s : State) (freq : List Nat) (total : Nat) (out pay : List Byte), s.Running → s.env.BusFine →
    freq.length = 256 → (∀ f ∈ freq, f < 2 ^ 32) → 2 ≤ (symbols freq).length →
    out.length ≤ freq.sum → (∀ b ∈ out, 0 < freqOf freq b) → total < 2 ^ 64 →
    min total (8 * pay.length) < (out.flatMap (codeOf (codesFor freq))).length →
    (out.flatMap (codeOf (codesFor freq))).take (min total (8 * pay.length)) <+: unpackBits pay →
    s.env.bytes = huffHeader freq (symbols freq) total ++ pay →
    (∀ k, k ≤ out.length → ((out.take k).flatMap (codeOf (codesFor freq))).length ≤ min total (8 * pay.length) →
      k ≤ s.latch.cap.toNat) →
    ∃ t, exec .huffDec s = .next t ∧
      FailedWith t .truncatedStream (16 + 5 * (symbols freq).length + min ((total + 7) / 8) pay.length)

/-- 42_huffman_decoder R250: for every input, HUFF_ENC succeeds into a region that holds its artifact, and whenever it
succeeds, HUFF_DEC of its output into a region that holds the input succeeds with the input. -/
def Obligations.HuffRoundTrip : Prop :=
  ∀ s : State, s.Running → s.env.BusFine → Memory.wf s.mem = true →
    ((huffArtifact s.env.bytes).length ≤ s.latch.cap.toNat → ∃ t, exec .huffEnc s = .next t ∧ t.error = false) ∧
    (∀ t s' : State, exec .huffEnc s = .next t → t.error = false → s'.Running → s'.env.BusFine → s'.mem = t.mem →
      s'.latch.src = s.latch.dst → s'.latch.len = t.outLen → s.latch.len.toNat ≤ s'.latch.cap.toNat →
      ∃ t', exec .huffDec s' = .next t' ∧ Succeeded s' t' s.env.bytes)
end

