-- ==== Sys2Proof/Laws/Decode.lean ====
section
/-! SUPPORT. The byte layout of a word and the fields of the control words, taken apart and put together. -/

namespace Sys2Proof

/-- The four bytes of a word make it up again (20_memory R87). -/
@[simp] theorem wordOfBytes_wordBytes (w : Word) :
    wordOfBytes (w.extractLsb' 0 8) (w.extractLsb' 8 8) (w.extractLsb' 16 8) (w.extractLsb' 24 8) = w := by
  unfold wordOfBytes
  ext i hi
  simp only [BitVec.getElem_append, BitVec.getElem_extractLsb']
  split
  · simp [BitVec.getLsbD_eq_getElem hi]
  · split
    · rw [show 8 + (i - 8) = i by omega, BitVec.getLsbD_eq_getElem hi]
    · split
      · rw [show 16 + (i - 8 - 8) = i by omega, BitVec.getLsbD_eq_getElem hi]
      · rw [show 24 + (i - 8 - 8 - 8) = i by omega, BitVec.getLsbD_eq_getElem hi]

/-- Decoding the bytes of a word is decoding the word. -/
theorem decode_wordBytes (p : Port) (w : Word) (rest : List Byte) :
    decode p (wordBytes w ++ rest) =
      (match decodeWord p w with
        | .ok i => .ok (i, rest)
        | .error e => .error e) := by
  simp only [decode, wordBytes, List.cons_append, List.nil_append, wordOfBytes_wordBytes]
  all_goals (cases decodeWord p w <;> rfl)

/-- The same with no bytes after the word. -/
theorem decode_wordBytes_nil (p : Port) (w : Word) :
    decode p (wordBytes w) =
      (match decodeWord p w with
        | .ok i => .ok (i, [])
        | .error e => .error e) := by
  have := decode_wordBytes p w []
  rwa [List.append_nil] at this

/-- A command word is one of six numbers (30_encoding R111). -/
theorem decodeCommand_eq_some {w : Word} {i : Instr} (h : decodeCommand w = some i) :
    (w = 1 ∧ i = .huffEnc) ∨ (w = 2 ∧ i = .huffDec) ∨ (w = 3 ∧ i = .lz77Enc) ∨ (w = 4 ∧ i = .lz77Dec) ∨
      (w = 5 ∧ i = .rleEnc) ∨ (w = 6 ∧ i = .rleDec) := by
  unfold decodeCommand at h
  split at h
  · next hz =>
    have hw : ∀ k : BitVec 4, w.extractLsb' 0 4 = k → w = 0#28 ++ k := by
      rintro k rfl
      ext j hj
      have := congrArg (fun v : BitVec 28 => v.getLsbD (j - 4)) hz
      simp only [BitVec.getLsbD_extractLsb'] at this
      rw [BitVec.getElem_append]
      split
      · simp [BitVec.getElem_extractLsb', BitVec.getLsbD_eq_getElem hj]
      · rw [show 4 + (j - 4) = j by omega] at this
        rw [BitVec.getLsbD_eq_getElem hj] at this
        simpa [show j - 4 < 28 by omega] using this
    unfold selectOp at h
    split at h
    · next k => exact .inl ⟨hw _ k, (Option.some.inj h).symm⟩
    · split at h
      · next k => exact .inr (.inl ⟨hw _ k, (Option.some.inj h).symm⟩)
      · split at h
        · next k => exact .inr (.inr (.inl ⟨hw _ k, (Option.some.inj h).symm⟩))
        · split at h
          · next k => exact .inr (.inr (.inr (.inl ⟨hw _ k, (Option.some.inj h).symm⟩)))
          · split at h
            · next k => exact .inr (.inr (.inr (.inr (.inl ⟨hw _ k, (Option.some.inj h).symm⟩))))
            · split at h
              · next k => exact .inr (.inr (.inr (.inr (.inr ⟨hw _ k, (Option.some.inj h).symm⟩))))
              · cases h
  · cases h

end Sys2Proof
end

