-- ==== Sys2Proof/Laws/Memory.lean ====
section
/-! SUPPORT. The laws of system memory: a read after a write, the bytes a list write or a fill leaves, and the canonical
form, which every memory operation keeps and which makes equal memories equal lists. -/

namespace Sys2Proof.Machine.Memory

@[simp] theorem read_nil (a : Nat) : read [] a = unlisted := rfl

@[simp] theorem wf_nil : wf [] = true := rfl

@[simp] theorem inSpace_nil : inSpace [] = true := rfl

theorem read_cons_self (a : Nat) (b : Byte) (m : Memory) (hm : ∀ x ≤ a, read m x = unlisted) :
    read (cons a b m) a = b := by
  unfold cons
  split
  · simp_all
  · simp [read]

theorem read_cons_of_lt {a x : Nat} (b : Byte) (m : Memory) (h : a < x) : read (cons a b m) x = read m x := by
  unfold cons
  split
  · rfl
  · simp [read, Nat.ne_of_lt h, Nat.not_lt_of_gt h]

theorem read_cons_of_gt {a x : Nat} (b : Byte) (m : Memory) (h : x < a) (hm : read m x = unlisted) :
    read (cons a b m) x = read m x := by
  unfold cons
  split
  · rfl
  · simp [read, Nat.ne_of_gt h, h, hm]

/-- In the canonical form nothing is listed below the first address. -/
theorem read_of_wfFrom : ∀ {m : Memory} {lo x : Nat}, wfFrom lo m = true → x < lo → read m x = unlisted
  | [], _, _, _, _ => rfl
  | (k, v) :: rest, lo, x, h, hx => by
    simp only [wfFrom, Bool.and_eq_true, decide_eq_true_eq] at h
    have h1 : x < k := by omega
    simp [read, Nat.ne_of_gt h1, h1]

theorem wfFrom_mono {m : Memory} {lo lo' : Nat} (h : wfFrom lo m = true) (hl : lo' ≤ lo) : wfFrom lo' m = true := by
  cases m with
  | nil => rfl
  | cons c rest =>
    obtain ⟨k, v⟩ := c
    simp only [wfFrom, Bool.and_eq_true, decide_eq_true_eq] at h ⊢
    exact ⟨⟨by omega, h.1.2⟩, h.2⟩

theorem wfFrom_cons {lo a : Nat} (b : Byte) {m : Memory} (hl : lo ≤ a) (h : wfFrom (a + 1) m = true) :
    wfFrom lo (cons a b m) = true := by
  unfold cons
  split
  · exact wfFrom_mono h (by omega)
  · simp [wfFrom, *]

/-- A write keeps the canonical form above any address at or below the written one. -/
theorem wfFrom_write : ∀ {m : Memory} {lo a : Nat} (b : Byte), lo ≤ a → wfFrom lo m = true →
    wfFrom lo (write m a b) = true
  | [], lo, a, b, hl, _ => wfFrom_cons b hl rfl
  | (k, v) :: rest, lo, a, b, hl, h => by
    simp only [wfFrom, Bool.and_eq_true, decide_eq_true_eq] at h
    obtain ⟨⟨hk, hv⟩, hr⟩ := h
    unfold write
    split
    · next e => subst e; exact wfFrom_cons b hl hr
    · split
      · exact wfFrom_cons b hl (by simp [wfFrom, hv, hr]; omega)
      · have : k + 1 ≤ a := by omega
        simp [wfFrom, hk, hv, wfFrom_write b this hr]

/-- A write keeps the canonical form. -/
theorem wf_write {m : Memory} (a : Nat) (b : Byte) (h : wf m = true) : wf (write m a b) = true :=
  wfFrom_write b (Nat.zero_le a) h

theorem read_write_same_from : ∀ {m : Memory} {lo a : Nat} (b : Byte), wfFrom lo m = true → read (write m a b) a = b
  | [], _, a, b, _ => read_cons_self a b [] (by simp)
  | (k, v) :: rest, lo, a, b, h => by
    simp only [wfFrom, Bool.and_eq_true, decide_eq_true_eq] at h
    obtain ⟨⟨hk, hv⟩, hr⟩ := h
    unfold write
    split
    · next e => subst e; exact read_cons_self k b rest fun x hx => read_of_wfFrom hr (by omega)
    · split
      · next hne hlt =>
        refine read_cons_self a b _ fun x hx => ?_
        have : x < k := by omega
        simp [read, Nat.ne_of_gt this, this]
      · next hne hge => simp [read, hne, hge, read_write_same_from b hr]

/-- A read of the written address gives the byte written. -/
theorem read_write_same {m : Memory} (a : Nat) (b : Byte) (h : wf m = true) : read (write m a b) a = b :=
  read_write_same_from b h

theorem read_write_other_from : ∀ {m : Memory} {lo a x : Nat} (b : Byte), wfFrom lo m = true → x ≠ a →
    read (write m a b) x = read m x
  | [], _, a, x, b, _, hx => by
    rcases Nat.lt_or_gt_of_ne hx with h | h
    · exact read_cons_of_gt b [] h rfl
    · exact read_cons_of_lt b [] h
  | (k, v) :: rest, lo, a, x, b, h, hx => by
    simp only [wfFrom, Bool.and_eq_true, decide_eq_true_eq] at h
    obtain ⟨⟨hk, hv⟩, hr⟩ := h
    unfold write
    split
    · next e =>
      subst e
      rcases Nat.lt_or_gt_of_ne hx with h1 | h1
      · have h2 := read_of_wfFrom hr (x := x) (by omega)
        rw [read_cons_of_gt b rest h1 h2, h2]
        simp [read, Nat.ne_of_gt h1, h1]
      · rw [read_cons_of_lt b rest h1]
        simp [read, Nat.ne_of_lt h1, Nat.not_lt_of_gt h1]
    · split
      · next hne hlt =>
        rcases Nat.lt_or_gt_of_ne hx with h1 | h1
        · have h2 : x < k := by omega
          exact read_cons_of_gt b _ h1 (by simp [read, Nat.ne_of_gt h2, h2])
        · exact read_cons_of_lt b _ h1
      · simp [read, read_write_other_from b hr hx]

/-- A read of any other address gives what it gave before. -/
theorem read_write_other {m : Memory} {a x : Nat} (b : Byte) (h : wf m = true) (hx : x ≠ a) :
    read (write m a b) x = read m x :=
  read_write_other_from b h hx

/-- One read after one write. -/
theorem read_write {m : Memory} (a x : Nat) (b : Byte) (h : wf m = true) :
    read (write m a b) x = if x = a then b else read m x := by
  split
  · next e => subst e; exact read_write_same x b h
  · next e => exact read_write_other b h e

/-- A list write keeps the canonical form. -/
theorem wf_writeBytes : ∀ {m : Memory} (bs : List Byte) (a : Nat), wf m = true → wf (writeBytes m a bs) = true
  | _, [], _, h => h
  | _, b :: bs, a, h => wf_writeBytes bs (a + 1) (wf_write a b h)

/-- A fill keeps the canonical form. -/
theorem wf_fill (f : Nat → Byte) : ∀ {m : Memory} (n a : Nat), wf m = true → wf (fill f m a n) = true
  | _, 0, _, h => h
  | _, n + 1, a, h => wf_fill f n (a + 1) (wf_write a (f a) h)

/-- Outside the bytes written, a list write changes nothing. -/
theorem read_writeBytes_other : ∀ {m : Memory} (bs : List Byte) (a x : Nat), wf m = true →
    (x < a ∨ a + bs.length ≤ x) → read (writeBytes m a bs) x = read m x
  | _, [], _, _, _, _ => rfl
  | m, b :: bs, a, x, h, hx => by
    simp only [List.length_cons] at hx
    rw [writeBytes, read_writeBytes_other bs (a + 1) x (wf_write a b h) (by omega),
      read_write_other b h (by omega)]

/-- Byte `k` of a list write stands at `a + k`. -/
theorem read_writeBytes_at : ∀ {m : Memory} (bs : List Byte) (a k : Nat), wf m = true → (hk : k < bs.length) →
    read (writeBytes m a bs) (a + k) = bs[k]
  | _, [], _, _, _, hk => absurd hk (by simp)
  | m, b :: bs, a, 0, h, _ => by
    show read (writeBytes (write m a b) (a + 1) bs) a = b
    rw [read_writeBytes_other bs (a + 1) a (wf_write a b h) (by omega), read_write_same a b h]
  | m, b :: bs, a, k + 1, h, hk => by
    have hk' : k < bs.length := by simpa using hk
    have := read_writeBytes_at bs (a + 1) k (wf_write a b h) hk'
    rw [writeBytes, show a + (k + 1) = a + 1 + k by omega, this]
    rfl

/-- Outside the bytes filled, a fill changes nothing. -/
theorem read_fill_other (f : Nat → Byte) : ∀ {m : Memory} (n a x : Nat), wf m = true →
    (x < a ∨ a + n ≤ x) → read (fill f m a n) x = read m x
  | _, 0, _, _, _, _ => rfl
  | m, n + 1, a, x, h, hx => by
    rw [fill, read_fill_other f n (a + 1) x (wf_write a (f a) h) (by omega),
      read_write_other (f a) h (by omega)]

theorem inSpace_cons {a : Nat} (b : Byte) {m : Memory} (ha : a < 2 ^ 32) (h : inSpace m = true) :
    inSpace (cons a b m) = true := by
  unfold cons
  split
  · exact h
  · rw [inSpace, List.all_cons, ← inSpace, h]
    simpa using ha

/-- A write inside the space keeps every listed address inside it. -/
theorem inSpace_write : ∀ {m : Memory} {a : Nat} (b : Byte), a < 2 ^ 32 → inSpace m = true →
    inSpace (write m a b) = true
  | [], _, b, ha, h => inSpace_cons b ha h
  | (k, v) :: rest, a, b, ha, h => by
    have h' := h
    simp only [inSpace, List.all_cons, Bool.and_eq_true, decide_eq_true_eq] at h
    unfold write
    split
    · exact inSpace_cons b ha h.2
    · split
      · exact inSpace_cons b ha h'
      · have := inSpace_write b ha (m := rest) h.2
        simp only [inSpace, List.all_cons, Bool.and_eq_true, decide_eq_true_eq] at this ⊢
        exact ⟨h.1, this⟩

/-- A list write inside the space keeps every listed address inside it. -/
theorem inSpace_writeBytes : ∀ {m : Memory} (bs : List Byte) (a : Nat), a + bs.length ≤ 2 ^ 32 → inSpace m = true →
    inSpace (writeBytes m a bs) = true
  | _, [], _, _, h => h
  | _, b :: bs, a, ha, h => by
    simp only [List.length_cons] at ha
    exact inSpace_writeBytes bs (a + 1) (by omega) (inSpace_write b (by omega) h)

/-- A fill inside the space keeps every listed address inside it. -/
theorem inSpace_fill (f : Nat → Byte) : ∀ {m : Memory} (n a : Nat), a + n ≤ 2 ^ 32 → inSpace m = true →
    inSpace (fill f m a n) = true
  | _, 0, _, _, h => h
  | _, n + 1, a, ha, h => inSpace_fill f n (a + 1) (by omega) (inSpace_write (f a) (by omega) h)

theorem ext_from : ∀ {m m' : Memory} {lo : Nat}, wfFrom lo m = true → wfFrom lo m' = true →
    (∀ a, read m a = read m' a) → m = m'
  | [], [], _, _, _, _ => rfl
  | [], (k, v) :: rest, _, _, h', hr => by
    simp only [wfFrom, Bool.and_eq_true, decide_eq_true_eq] at h'
    exact absurd (by simpa [read] using (hr k).symm) h'.1.2
  | (k, v) :: rest, [], _, h, _, hr => by
    simp only [wfFrom, Bool.and_eq_true, decide_eq_true_eq] at h
    exact absurd (by simpa [read] using hr k) h.1.2
  | (k, v) :: rest, (k', v') :: rest', lo, h, h', hr => by
    simp only [wfFrom, Bool.and_eq_true, decide_eq_true_eq] at h h'
    have hk : k = k' := by
      rcases Nat.lt_trichotomy k k' with h1 | h1 | h1
      · have := hr k
        simp [read, Nat.ne_of_gt h1, h1] at this
        exact absurd this h.1.2
      · exact h1
      · have := hr k'
        simp [read, Nat.ne_of_gt h1, h1] at this
        exact absurd this.symm h'.1.2
    subst hk
    have hv : v = v' := by simpa [read] using hr k
    subst hv
    have := ext_from h.2 h'.2 fun a => by
      rcases Nat.lt_or_ge k a with h1 | h1
      · simpa [read, Nat.ne_of_lt h1, Nat.not_lt_of_gt h1] using hr a
      · rw [read_of_wfFrom h.2 (by omega), read_of_wfFrom h'.2 (by omega)]
    rw [this]

/-- Equal memories are equal data: in the canonical form, two memories that read the same everywhere are one list. -/
theorem ext {m m' : Memory} (h : wf m = true) (h' : wf m' = true) (hr : ∀ a, read m a = read m' a) : m = m' :=
  ext_from h h' hr

end Sys2Proof.Machine.Memory
end

