-- ==== Sys2Proof/Laws/State.lean ====
section
/-! SUPPORT. One lemma for each field of State under each named update: what the field holds afterwards. -/

namespace Sys2Proof.Machine

variable (s : State)

/-! ### setIe -/

@[simp] theorem setIe_cfg (b : Bool) : (setIe b s).cfg = s.cfg := rfl
@[simp] theorem setIe_ie (b : Bool) : (setIe b s).ie = b := rfl
@[simp] theorem setIe_busy (b : Bool) : (setIe b s).busy = s.busy := rfl
@[simp] theorem setIe_done (b : Bool) : (setIe b s).done = s.done := rfl
@[simp] theorem setIe_error (b : Bool) : (setIe b s).error = s.error := rfl
@[simp] theorem setIe_errCode (b : Bool) : (setIe b s).errCode = s.errCode := rfl
@[simp] theorem setIe_cmd (b : Bool) : (setIe b s).cmd = s.cmd := rfl
@[simp] theorem setIe_srcAddr (b : Bool) : (setIe b s).srcAddr = s.srcAddr := rfl
@[simp] theorem setIe_srcLen (b : Bool) : (setIe b s).srcLen = s.srcLen := rfl
@[simp] theorem setIe_dstAddr (b : Bool) : (setIe b s).dstAddr = s.dstAddr := rfl
@[simp] theorem setIe_dstCap (b : Bool) : (setIe b s).dstCap = s.dstCap := rfl
@[simp] theorem setIe_outLen (b : Bool) : (setIe b s).outLen = s.outLen := rfl
@[simp] theorem setIe_errInfo (b : Bool) : (setIe b s).errInfo = s.errInfo := rfl
@[simp] theorem setIe_phase (b : Bool) : (setIe b s).phase = s.phase := rfl
@[simp] theorem setIe_latch (b : Bool) : (setIe b s).latch = s.latch := rfl
@[simp] theorem setIe_ip (b : Bool) : (setIe b s).ip = s.ip := rfl
@[simp] theorem setIe_op (b : Bool) : (setIe b s).op = s.op := rfl
@[simp] theorem setIe_units (b : Bool) : (setIe b s).units = s.units := rfl
@[simp] theorem setIe_mem (b : Bool) : (setIe b s).mem = s.mem := rfl
@[simp] theorem setIe_host (b : Bool) : (setIe b s).host = s.host := rfl
@[simp] theorem setIe_inputs (b : Bool) : (setIe b s).inputs = s.inputs := rfl
@[simp] theorem setIe_draws (b : Bool) : (setIe b s).draws = s.draws := rfl

/-! ### flagsStart -/

@[simp] theorem flagsStart_cfg : (flagsStart s).cfg = s.cfg := rfl
@[simp] theorem flagsStart_ie : (flagsStart s).ie = s.ie := rfl
@[simp] theorem flagsStart_busy : (flagsStart s).busy = true := rfl
@[simp] theorem flagsStart_done : (flagsStart s).done = false := rfl
@[simp] theorem flagsStart_error : (flagsStart s).error = false := rfl
@[simp] theorem flagsStart_errCode : (flagsStart s).errCode = 0 := rfl
@[simp] theorem flagsStart_cmd : (flagsStart s).cmd = s.cmd := rfl
@[simp] theorem flagsStart_srcAddr : (flagsStart s).srcAddr = s.srcAddr := rfl
@[simp] theorem flagsStart_srcLen : (flagsStart s).srcLen = s.srcLen := rfl
@[simp] theorem flagsStart_dstAddr : (flagsStart s).dstAddr = s.dstAddr := rfl
@[simp] theorem flagsStart_dstCap : (flagsStart s).dstCap = s.dstCap := rfl
@[simp] theorem flagsStart_outLen : (flagsStart s).outLen = s.outLen := rfl
@[simp] theorem flagsStart_errInfo : (flagsStart s).errInfo = s.errInfo := rfl
@[simp] theorem flagsStart_phase : (flagsStart s).phase = s.phase := rfl
@[simp] theorem flagsStart_latch : (flagsStart s).latch = s.latch := rfl
@[simp] theorem flagsStart_ip : (flagsStart s).ip = s.ip := rfl
@[simp] theorem flagsStart_op : (flagsStart s).op = s.op := rfl
@[simp] theorem flagsStart_units : (flagsStart s).units = s.units := rfl
@[simp] theorem flagsStart_mem : (flagsStart s).mem = s.mem := rfl
@[simp] theorem flagsStart_host : (flagsStart s).host = s.host := rfl
@[simp] theorem flagsStart_inputs : (flagsStart s).inputs = s.inputs := rfl
@[simp] theorem flagsStart_draws : (flagsStart s).draws = s.draws := rfl

/-! ### flagsDoneClear -/

@[simp] theorem flagsDoneClear_cfg : (flagsDoneClear s).cfg = s.cfg := rfl
@[simp] theorem flagsDoneClear_ie : (flagsDoneClear s).ie = s.ie := rfl
@[simp] theorem flagsDoneClear_busy : (flagsDoneClear s).busy = s.busy := rfl
@[simp] theorem flagsDoneClear_done : (flagsDoneClear s).done = false := rfl
@[simp] theorem flagsDoneClear_error : (flagsDoneClear s).error = s.error := rfl
@[simp] theorem flagsDoneClear_errCode : (flagsDoneClear s).errCode = s.errCode := rfl
@[simp] theorem flagsDoneClear_cmd : (flagsDoneClear s).cmd = s.cmd := rfl
@[simp] theorem flagsDoneClear_srcAddr : (flagsDoneClear s).srcAddr = s.srcAddr := rfl
@[simp] theorem flagsDoneClear_srcLen : (flagsDoneClear s).srcLen = s.srcLen := rfl
@[simp] theorem flagsDoneClear_dstAddr : (flagsDoneClear s).dstAddr = s.dstAddr := rfl
@[simp] theorem flagsDoneClear_dstCap : (flagsDoneClear s).dstCap = s.dstCap := rfl
@[simp] theorem flagsDoneClear_outLen : (flagsDoneClear s).outLen = s.outLen := rfl
@[simp] theorem flagsDoneClear_errInfo : (flagsDoneClear s).errInfo = s.errInfo := rfl
@[simp] theorem flagsDoneClear_phase : (flagsDoneClear s).phase = s.phase := rfl
@[simp] theorem flagsDoneClear_latch : (flagsDoneClear s).latch = s.latch := rfl
@[simp] theorem flagsDoneClear_ip : (flagsDoneClear s).ip = s.ip := rfl
@[simp] theorem flagsDoneClear_op : (flagsDoneClear s).op = s.op := rfl
@[simp] theorem flagsDoneClear_units : (flagsDoneClear s).units = s.units := rfl
@[simp] theorem flagsDoneClear_mem : (flagsDoneClear s).mem = s.mem := rfl
@[simp] theorem flagsDoneClear_host : (flagsDoneClear s).host = s.host := rfl
@[simp] theorem flagsDoneClear_inputs : (flagsDoneClear s).inputs = s.inputs := rfl
@[simp] theorem flagsDoneClear_draws : (flagsDoneClear s).draws = s.draws := rfl

/-! ### acknowledge -/

@[simp] theorem acknowledge_cfg : (acknowledge s).cfg = s.cfg := rfl
@[simp] theorem acknowledge_ie : (acknowledge s).ie = s.ie := rfl
@[simp] theorem acknowledge_busy : (acknowledge s).busy = s.busy := rfl
@[simp] theorem acknowledge_done : (acknowledge s).done = false := rfl
@[simp] theorem acknowledge_error : (acknowledge s).error = s.error := rfl
@[simp] theorem acknowledge_errCode : (acknowledge s).errCode = s.errCode := rfl
@[simp] theorem acknowledge_cmd : (acknowledge s).cmd = s.cmd := rfl
@[simp] theorem acknowledge_srcAddr : (acknowledge s).srcAddr = s.srcAddr := rfl
@[simp] theorem acknowledge_srcLen : (acknowledge s).srcLen = s.srcLen := rfl
@[simp] theorem acknowledge_dstAddr : (acknowledge s).dstAddr = s.dstAddr := rfl
@[simp] theorem acknowledge_dstCap : (acknowledge s).dstCap = s.dstCap := rfl
@[simp] theorem acknowledge_outLen : (acknowledge s).outLen = s.outLen := rfl
@[simp] theorem acknowledge_errInfo : (acknowledge s).errInfo = s.errInfo := rfl
@[simp] theorem acknowledge_phase : (acknowledge s).phase = s.phase := rfl
@[simp] theorem acknowledge_latch : (acknowledge s).latch = s.latch := rfl
@[simp] theorem acknowledge_ip : (acknowledge s).ip = s.ip := rfl
@[simp] theorem acknowledge_op : (acknowledge s).op = s.op := rfl
@[simp] theorem acknowledge_units : (acknowledge s).units = s.units := rfl
@[simp] theorem acknowledge_mem : (acknowledge s).mem = s.mem := rfl
@[simp] theorem acknowledge_host : (acknowledge s).host = s.host := rfl
@[simp] theorem acknowledge_inputs : (acknowledge s).inputs = s.inputs := rfl
@[simp] theorem acknowledge_draws : (acknowledge s).draws = s.draws := rfl

/-! ### flagsReset -/

@[simp] theorem flagsReset_cfg : (flagsReset s).cfg = s.cfg := rfl
@[simp] theorem flagsReset_ie : (flagsReset s).ie = false := rfl
@[simp] theorem flagsReset_busy : (flagsReset s).busy = false := rfl
@[simp] theorem flagsReset_done : (flagsReset s).done = false := rfl
@[simp] theorem flagsReset_error : (flagsReset s).error = false := rfl
@[simp] theorem flagsReset_errCode : (flagsReset s).errCode = 0 := rfl
@[simp] theorem flagsReset_cmd : (flagsReset s).cmd = s.cmd := rfl
@[simp] theorem flagsReset_srcAddr : (flagsReset s).srcAddr = s.srcAddr := rfl
@[simp] theorem flagsReset_srcLen : (flagsReset s).srcLen = s.srcLen := rfl
@[simp] theorem flagsReset_dstAddr : (flagsReset s).dstAddr = s.dstAddr := rfl
@[simp] theorem flagsReset_dstCap : (flagsReset s).dstCap = s.dstCap := rfl
@[simp] theorem flagsReset_outLen : (flagsReset s).outLen = s.outLen := rfl
@[simp] theorem flagsReset_errInfo : (flagsReset s).errInfo = s.errInfo := rfl
@[simp] theorem flagsReset_phase : (flagsReset s).phase = s.phase := rfl
@[simp] theorem flagsReset_latch : (flagsReset s).latch = s.latch := rfl
@[simp] theorem flagsReset_ip : (flagsReset s).ip = s.ip := rfl
@[simp] theorem flagsReset_op : (flagsReset s).op = s.op := rfl
@[simp] theorem flagsReset_units : (flagsReset s).units = s.units := rfl
@[simp] theorem flagsReset_mem : (flagsReset s).mem = s.mem := rfl
@[simp] theorem flagsReset_host : (flagsReset s).host = s.host := rfl
@[simp] theorem flagsReset_inputs : (flagsReset s).inputs = s.inputs := rfl
@[simp] theorem flagsReset_draws : (flagsReset s).draws = s.draws := rfl

/-! ### forgetInternals -/

@[simp] theorem forgetInternals_cfg : (forgetInternals s).cfg = s.cfg := rfl
@[simp] theorem forgetInternals_ie : (forgetInternals s).ie = s.ie := rfl
@[simp] theorem forgetInternals_busy : (forgetInternals s).busy = s.busy := rfl
@[simp] theorem forgetInternals_done : (forgetInternals s).done = s.done := rfl
@[simp] theorem forgetInternals_error : (forgetInternals s).error = s.error := rfl
@[simp] theorem forgetInternals_errCode : (forgetInternals s).errCode = s.errCode := rfl
@[simp] theorem forgetInternals_cmd : (forgetInternals s).cmd = s.cmd := rfl
@[simp] theorem forgetInternals_srcAddr : (forgetInternals s).srcAddr = s.srcAddr := rfl
@[simp] theorem forgetInternals_srcLen : (forgetInternals s).srcLen = s.srcLen := rfl
@[simp] theorem forgetInternals_dstAddr : (forgetInternals s).dstAddr = s.dstAddr := rfl
@[simp] theorem forgetInternals_dstCap : (forgetInternals s).dstCap = s.dstCap := rfl
@[simp] theorem forgetInternals_outLen : (forgetInternals s).outLen = s.outLen := rfl
@[simp] theorem forgetInternals_errInfo : (forgetInternals s).errInfo = s.errInfo := rfl
@[simp] theorem forgetInternals_phase : (forgetInternals s).phase = s.phase := rfl
@[simp] theorem forgetInternals_latch : (forgetInternals s).latch = Config.freeLatch s.draws := rfl
@[simp] theorem forgetInternals_ip : (forgetInternals s).ip = Config.freeIp s.draws := rfl
@[simp] theorem forgetInternals_op : (forgetInternals s).op = Config.freeOp s.draws := rfl
@[simp] theorem forgetInternals_units : (forgetInternals s).units = Config.freeUnits s.draws := rfl
@[simp] theorem forgetInternals_mem : (forgetInternals s).mem = s.mem := rfl
@[simp] theorem forgetInternals_host : (forgetInternals s).host = s.host := rfl
@[simp] theorem forgetInternals_inputs : (forgetInternals s).inputs = s.inputs := rfl
@[simp] theorem forgetInternals_draws : (forgetInternals s).draws = s.draws + 1 := rfl

/-! ### scrambleOutput -/

@[simp] theorem scrambleOutput_cfg : (scrambleOutput s).cfg = s.cfg := rfl
@[simp] theorem scrambleOutput_ie : (scrambleOutput s).ie = s.ie := rfl
@[simp] theorem scrambleOutput_busy : (scrambleOutput s).busy = s.busy := rfl
@[simp] theorem scrambleOutput_done : (scrambleOutput s).done = s.done := rfl
@[simp] theorem scrambleOutput_error : (scrambleOutput s).error = s.error := rfl
@[simp] theorem scrambleOutput_errCode : (scrambleOutput s).errCode = s.errCode := rfl
@[simp] theorem scrambleOutput_cmd : (scrambleOutput s).cmd = s.cmd := rfl
@[simp] theorem scrambleOutput_srcAddr : (scrambleOutput s).srcAddr = s.srcAddr := rfl
@[simp] theorem scrambleOutput_srcLen : (scrambleOutput s).srcLen = s.srcLen := rfl
@[simp] theorem scrambleOutput_dstAddr : (scrambleOutput s).dstAddr = s.dstAddr := rfl
@[simp] theorem scrambleOutput_dstCap : (scrambleOutput s).dstCap = s.dstCap := rfl
@[simp] theorem scrambleOutput_outLen : (scrambleOutput s).outLen = s.outLen := rfl
@[simp] theorem scrambleOutput_errInfo : (scrambleOutput s).errInfo = s.errInfo := rfl
@[simp] theorem scrambleOutput_phase : (scrambleOutput s).phase = s.phase := rfl
@[simp] theorem scrambleOutput_latch : (scrambleOutput s).latch = s.latch := rfl
@[simp] theorem scrambleOutput_ip : (scrambleOutput s).ip = s.ip := rfl
@[simp] theorem scrambleOutput_op : (scrambleOutput s).op = s.op := rfl
@[simp] theorem scrambleOutput_units : (scrambleOutput s).units = s.units := rfl
@[simp] theorem scrambleOutput_mem : (scrambleOutput s).mem = Memory.fill (Config.freeByte s.draws) s.mem s.latch.dst.toNat
    (min s.latch.cap.toNat (2 ^ 32 - s.latch.dst.toNat)) := rfl
@[simp] theorem scrambleOutput_host : (scrambleOutput s).host = s.host := rfl
@[simp] theorem scrambleOutput_inputs : (scrambleOutput s).inputs = s.inputs := rfl
@[simp] theorem scrambleOutput_draws : (scrambleOutput s).draws = s.draws + 1 := rfl

/-! ### flagsComplete -/

@[simp] theorem flagsComplete_cfg (err : Option ErrKind) : (flagsComplete err s).cfg = s.cfg := by cases err <;> rfl
@[simp] theorem flagsComplete_ie (err : Option ErrKind) : (flagsComplete err s).ie = s.ie := by cases err <;> rfl
@[simp] theorem flagsComplete_busy (err : Option ErrKind) : (flagsComplete err s).busy = false := by cases err <;> rfl
@[simp] theorem flagsComplete_done (err : Option ErrKind) : (flagsComplete err s).done = true := by cases err <;> rfl
@[simp] theorem flagsComplete_error (err : Option ErrKind) : (flagsComplete err s).error = err.isSome := by cases err <;> rfl
@[simp] theorem flagsComplete_errCode (err : Option ErrKind) : (flagsComplete err s).errCode = (err.map ErrKind.code).getD 0 := by cases err <;> rfl
@[simp] theorem flagsComplete_cmd (err : Option ErrKind) : (flagsComplete err s).cmd = s.cmd := by cases err <;> rfl
@[simp] theorem flagsComplete_srcAddr (err : Option ErrKind) : (flagsComplete err s).srcAddr = s.srcAddr := by cases err <;> rfl
@[simp] theorem flagsComplete_srcLen (err : Option ErrKind) : (flagsComplete err s).srcLen = s.srcLen := by cases err <;> rfl
@[simp] theorem flagsComplete_dstAddr (err : Option ErrKind) : (flagsComplete err s).dstAddr = s.dstAddr := by cases err <;> rfl
@[simp] theorem flagsComplete_dstCap (err : Option ErrKind) : (flagsComplete err s).dstCap = s.dstCap := by cases err <;> rfl
@[simp] theorem flagsComplete_outLen (err : Option ErrKind) : (flagsComplete err s).outLen = s.outLen := by cases err <;> rfl
@[simp] theorem flagsComplete_errInfo (err : Option ErrKind) : (flagsComplete err s).errInfo = s.errInfo := by cases err <;> rfl
@[simp] theorem flagsComplete_phase (err : Option ErrKind) : (flagsComplete err s).phase = s.phase := by cases err <;> rfl
@[simp] theorem flagsComplete_latch (err : Option ErrKind) : (flagsComplete err s).latch = s.latch := by cases err <;> rfl
@[simp] theorem flagsComplete_ip (err : Option ErrKind) : (flagsComplete err s).ip = s.ip := by cases err <;> rfl
@[simp] theorem flagsComplete_op (err : Option ErrKind) : (flagsComplete err s).op = s.op := by cases err <;> rfl
@[simp] theorem flagsComplete_units (err : Option ErrKind) : (flagsComplete err s).units = s.units := by cases err <;> rfl
@[simp] theorem flagsComplete_mem (err : Option ErrKind) : (flagsComplete err s).mem = s.mem := by cases err <;> rfl
@[simp] theorem flagsComplete_host (err : Option ErrKind) : (flagsComplete err s).host = s.host := by cases err <;> rfl
@[simp] theorem flagsComplete_inputs (err : Option ErrKind) : (flagsComplete err s).inputs = s.inputs := by cases err <;> rfl
@[simp] theorem flagsComplete_draws (err : Option ErrKind) : (flagsComplete err s).draws = s.draws := by cases err <;> rfl

/-! ### complete -/

@[simp] theorem complete_cfg (err : Option ErrKind) (o e : Word) : (complete err o e s).cfg = s.cfg := by cases err <;> rfl
@[simp] theorem complete_ie (err : Option ErrKind) (o e : Word) : (complete err o e s).ie = s.ie := by cases err <;> rfl
@[simp] theorem complete_busy (err : Option ErrKind) (o e : Word) : (complete err o e s).busy = false := by cases err <;> rfl
@[simp] theorem complete_done (err : Option ErrKind) (o e : Word) : (complete err o e s).done = true := by cases err <;> rfl
@[simp] theorem complete_error (err : Option ErrKind) (o e : Word) : (complete err o e s).error = err.isSome := by cases err <;> rfl
@[simp] theorem complete_errCode (err : Option ErrKind) (o e : Word) : (complete err o e s).errCode = (err.map ErrKind.code).getD 0 := by cases err <;> rfl
@[simp] theorem complete_cmd (err : Option ErrKind) (o e : Word) : (complete err o e s).cmd = s.cmd := by cases err <;> rfl
@[simp] theorem complete_srcAddr (err : Option ErrKind) (o e : Word) : (complete err o e s).srcAddr = s.srcAddr := by cases err <;> rfl
@[simp] theorem complete_srcLen (err : Option ErrKind) (o e : Word) : (complete err o e s).srcLen = s.srcLen := by cases err <;> rfl
@[simp] theorem complete_dstAddr (err : Option ErrKind) (o e : Word) : (complete err o e s).dstAddr = s.dstAddr := by cases err <;> rfl
@[simp] theorem complete_dstCap (err : Option ErrKind) (o e : Word) : (complete err o e s).dstCap = s.dstCap := by cases err <;> rfl
@[simp] theorem complete_outLen (err : Option ErrKind) (o e : Word) : (complete err o e s).outLen = o := by cases err <;> rfl
@[simp] theorem complete_errInfo (err : Option ErrKind) (o e : Word) : (complete err o e s).errInfo = e := by cases err <;> rfl
@[simp] theorem complete_phase (err : Option ErrKind) (o e : Word) : (complete err o e s).phase = .idle := by cases err <;> rfl
@[simp] theorem complete_latch (err : Option ErrKind) (o e : Word) : (complete err o e s).latch = Config.freeLatch s.draws := by cases err <;> rfl
@[simp] theorem complete_ip (err : Option ErrKind) (o e : Word) : (complete err o e s).ip = Config.freeIp s.draws := by cases err <;> rfl
@[simp] theorem complete_op (err : Option ErrKind) (o e : Word) : (complete err o e s).op = Config.freeOp s.draws := by cases err <;> rfl
@[simp] theorem complete_units (err : Option ErrKind) (o e : Word) : (complete err o e s).units = Config.freeUnits s.draws := by cases err <;> rfl
@[simp] theorem complete_mem (err : Option ErrKind) (o e : Word) : (complete err o e s).mem = s.mem := by cases err <;> rfl
@[simp] theorem complete_host (err : Option ErrKind) (o e : Word) : (complete err o e s).host = hostCompleted s := by cases err <;> rfl
@[simp] theorem complete_inputs (err : Option ErrKind) (o e : Word) : (complete err o e s).inputs = s.inputs := by cases err <;> rfl
@[simp] theorem complete_draws (err : Option ErrKind) (o e : Word) : (complete err o e s).draws = s.draws + 1 := by cases err <;> rfl

/-! ### takeError -/

@[simp] theorem takeError_cfg (r : Raise) : (takeError r s).cfg = s.cfg := rfl
@[simp] theorem takeError_ie (r : Raise) : (takeError r s).ie = s.ie := rfl
@[simp] theorem takeError_busy (r : Raise) : (takeError r s).busy = false := rfl
@[simp] theorem takeError_done (r : Raise) : (takeError r s).done = true := rfl
@[simp] theorem takeError_error (r : Raise) : (takeError r s).error = true := rfl
@[simp] theorem takeError_errCode (r : Raise) : (takeError r s).errCode = r.kind.code := rfl
@[simp] theorem takeError_cmd (r : Raise) : (takeError r s).cmd = s.cmd := rfl
@[simp] theorem takeError_srcAddr (r : Raise) : (takeError r s).srcAddr = s.srcAddr := rfl
@[simp] theorem takeError_srcLen (r : Raise) : (takeError r s).srcLen = s.srcLen := rfl
@[simp] theorem takeError_dstAddr (r : Raise) : (takeError r s).dstAddr = s.dstAddr := rfl
@[simp] theorem takeError_dstCap (r : Raise) : (takeError r s).dstCap = s.dstCap := rfl
@[simp] theorem takeError_outLen (r : Raise) : (takeError r s).outLen = 0 := rfl
@[simp] theorem takeError_errInfo (r : Raise) : (takeError r s).errInfo = BitVec.ofNat 32 r.info := rfl
@[simp] theorem takeError_phase (r : Raise) : (takeError r s).phase = .idle := rfl
@[simp] theorem takeError_latch (r : Raise) : (takeError r s).latch = Config.freeLatch s.draws := rfl
@[simp] theorem takeError_ip (r : Raise) : (takeError r s).ip = Config.freeIp s.draws := rfl
@[simp] theorem takeError_op (r : Raise) : (takeError r s).op = Config.freeOp s.draws := rfl
@[simp] theorem takeError_units (r : Raise) : (takeError r s).units = Config.freeUnits s.draws := rfl
@[simp] theorem takeError_mem (r : Raise) : (takeError r s).mem = s.mem := rfl
@[simp] theorem takeError_host (r : Raise) : (takeError r s).host = hostCompleted s := rfl
@[simp] theorem takeError_inputs (r : Raise) : (takeError r s).inputs = s.inputs := rfl
@[simp] theorem takeError_draws (r : Raise) : (takeError r s).draws = s.draws + 1 := rfl

/-! ### succeed -/

@[simp] theorem succeed_cfg (out : List Byte) : (succeed out s).cfg = s.cfg := rfl
@[simp] theorem succeed_ie (out : List Byte) : (succeed out s).ie = s.ie := rfl
@[simp] theorem succeed_busy (out : List Byte) : (succeed out s).busy = false := rfl
@[simp] theorem succeed_done (out : List Byte) : (succeed out s).done = true := rfl
@[simp] theorem succeed_error (out : List Byte) : (succeed out s).error = false := rfl
@[simp] theorem succeed_errCode (out : List Byte) : (succeed out s).errCode = 0 := rfl
@[simp] theorem succeed_cmd (out : List Byte) : (succeed out s).cmd = s.cmd := rfl
@[simp] theorem succeed_srcAddr (out : List Byte) : (succeed out s).srcAddr = s.srcAddr := rfl
@[simp] theorem succeed_srcLen (out : List Byte) : (succeed out s).srcLen = s.srcLen := rfl
@[simp] theorem succeed_dstAddr (out : List Byte) : (succeed out s).dstAddr = s.dstAddr := rfl
@[simp] theorem succeed_dstCap (out : List Byte) : (succeed out s).dstCap = s.dstCap := rfl
@[simp] theorem succeed_outLen (out : List Byte) : (succeed out s).outLen = BitVec.ofNat 32 out.length := rfl
@[simp] theorem succeed_errInfo (out : List Byte) : (succeed out s).errInfo = 0 := rfl
@[simp] theorem succeed_phase (out : List Byte) : (succeed out s).phase = .idle := rfl
@[simp] theorem succeed_latch (out : List Byte) : (succeed out s).latch = Config.freeLatch s.draws := rfl
@[simp] theorem succeed_ip (out : List Byte) : (succeed out s).ip = Config.freeIp s.draws := rfl
@[simp] theorem succeed_op (out : List Byte) : (succeed out s).op = Config.freeOp s.draws := rfl
@[simp] theorem succeed_units (out : List Byte) : (succeed out s).units = Config.freeUnits s.draws := rfl
@[simp] theorem succeed_mem (out : List Byte) : (succeed out s).mem = Memory.writeBytes s.mem s.latch.dst.toNat out := rfl
@[simp] theorem succeed_host (out : List Byte) : (succeed out s).host = hostCompleted s := rfl
@[simp] theorem succeed_inputs (out : List Byte) : (succeed out s).inputs = s.inputs := rfl
@[simp] theorem succeed_draws (out : List Byte) : (succeed out s).draws = s.draws + 1 := rfl

/-! ### acceptStart -/

@[simp] theorem acceptStart_cfg : (acceptStart s).cfg = s.cfg := rfl
@[simp] theorem acceptStart_ie : (acceptStart s).ie = s.ie := rfl
@[simp] theorem acceptStart_busy : (acceptStart s).busy = true := rfl
@[simp] theorem acceptStart_done : (acceptStart s).done = false := rfl
@[simp] theorem acceptStart_error : (acceptStart s).error = false := rfl
@[simp] theorem acceptStart_errCode : (acceptStart s).errCode = 0 := rfl
@[simp] theorem acceptStart_cmd : (acceptStart s).cmd = s.cmd := rfl
@[simp] theorem acceptStart_srcAddr : (acceptStart s).srcAddr = s.srcAddr := rfl
@[simp] theorem acceptStart_srcLen : (acceptStart s).srcLen = s.srcLen := rfl
@[simp] theorem acceptStart_dstAddr : (acceptStart s).dstAddr = s.dstAddr := rfl
@[simp] theorem acceptStart_dstCap : (acceptStart s).dstCap = s.dstCap := rfl
@[simp] theorem acceptStart_outLen : (acceptStart s).outLen = 0 := rfl
@[simp] theorem acceptStart_errInfo : (acceptStart s).errInfo = 0 := rfl
@[simp] theorem acceptStart_phase : (acceptStart s).phase = .run := rfl
@[simp] theorem acceptStart_latch : (acceptStart s).latch = s.operands := rfl
@[simp] theorem acceptStart_ip : (acceptStart s).ip = 0 := rfl
@[simp] theorem acceptStart_op : (acceptStart s).op = 0 := rfl
@[simp] theorem acceptStart_units : (acceptStart s).units = s.units := rfl
@[simp] theorem acceptStart_mem : (acceptStart s).mem = s.mem := rfl
@[simp] theorem acceptStart_host : (acceptStart s).host = hostStarted s := rfl
@[simp] theorem acceptStart_inputs : (acceptStart s).inputs = s.inputs := rfl
@[simp] theorem acceptStart_draws : (acceptStart s).draws = s.draws := rfl

/-! ### abort -/

@[simp] theorem abort_cfg : (abort s).cfg = s.cfg := by unfold abort; split <;> rfl
@[simp] theorem abort_ie : (abort s).ie = s.ie := by unfold abort; split <;> rfl
@[simp] theorem abort_busy : (abort s).busy = s.busy := by unfold abort; split <;> rfl
@[simp] theorem abort_done : (abort s).done = s.done := by unfold abort; split <;> rfl
@[simp] theorem abort_error : (abort s).error = s.error := by unfold abort; split <;> rfl
@[simp] theorem abort_errCode : (abort s).errCode = s.errCode := by unfold abort; split <;> rfl
@[simp] theorem abort_cmd : (abort s).cmd = s.cmd := by unfold abort; split <;> rfl
@[simp] theorem abort_srcAddr : (abort s).srcAddr = s.srcAddr := by unfold abort; split <;> rfl
@[simp] theorem abort_srcLen : (abort s).srcLen = s.srcLen := by unfold abort; split <;> rfl
@[simp] theorem abort_dstAddr : (abort s).dstAddr = s.dstAddr := by unfold abort; split <;> rfl
@[simp] theorem abort_dstCap : (abort s).dstCap = s.dstCap := by unfold abort; split <;> rfl
@[simp] theorem abort_outLen : (abort s).outLen = s.outLen := by unfold abort; split <;> rfl
@[simp] theorem abort_errInfo : (abort s).errInfo = s.errInfo := by unfold abort; split <;> rfl
@[simp] theorem abort_phase : (abort s).phase = s.phase := by unfold abort; split <;> rfl
@[simp] theorem abort_latch : (abort s).latch = s.latch := by unfold abort; split <;> rfl
@[simp] theorem abort_ip : (abort s).ip = s.ip := by unfold abort; split <;> rfl
@[simp] theorem abort_op : (abort s).op = s.op := by unfold abort; split <;> rfl
@[simp] theorem abort_units : (abort s).units = s.units := by unfold abort; split <;> rfl
@[simp] theorem abort_host : (abort s).host = s.host := by unfold abort; split <;> rfl
@[simp] theorem abort_inputs : (abort s).inputs = s.inputs := by unfold abort; split <;> rfl

/-! ### resetBlock -/

@[simp] theorem resetBlock_cfg : (resetBlock s).cfg = s.cfg := by simp [resetBlock]
@[simp] theorem resetBlock_ie : (resetBlock s).ie = false := by simp [resetBlock]
@[simp] theorem resetBlock_busy : (resetBlock s).busy = false := by simp [resetBlock]
@[simp] theorem resetBlock_done : (resetBlock s).done = false := by simp [resetBlock]
@[simp] theorem resetBlock_error : (resetBlock s).error = false := by simp [resetBlock]
@[simp] theorem resetBlock_errCode : (resetBlock s).errCode = 0 := by simp [resetBlock]
@[simp] theorem resetBlock_cmd : (resetBlock s).cmd = 0 := by simp [resetBlock]
@[simp] theorem resetBlock_srcAddr : (resetBlock s).srcAddr = 0 := by simp [resetBlock]
@[simp] theorem resetBlock_srcLen : (resetBlock s).srcLen = 0 := by simp [resetBlock]
@[simp] theorem resetBlock_dstAddr : (resetBlock s).dstAddr = 0 := by simp [resetBlock]
@[simp] theorem resetBlock_dstCap : (resetBlock s).dstCap = 0 := by simp [resetBlock]
@[simp] theorem resetBlock_outLen : (resetBlock s).outLen = 0 := by simp [resetBlock]
@[simp] theorem resetBlock_errInfo : (resetBlock s).errInfo = 0 := by simp [resetBlock]
@[simp] theorem resetBlock_phase : (resetBlock s).phase = .idle := by simp [resetBlock]
@[simp] theorem resetBlock_mem : (resetBlock s).mem = (abort s).mem := by simp [resetBlock]
@[simp] theorem resetBlock_host : (resetBlock s).host = { s.host with owned := [] } := by simp [resetBlock]
@[simp] theorem resetBlock_inputs : (resetBlock s).inputs = s.inputs := by simp [resetBlock]

end Sys2Proof.Machine
end

