-- ==== Sys2Proof/Laws/Prims.lean ====
section
/-! SUPPORT. How a command's computation is reasoned about: `Post` says what holds of its result and of its error, and
the primitives In, Fetch, FetchLE, Emit and EmitLE each have one lemma that says everything they can do. -/

namespace Sys2Proof.Machine

/-! ### Results and errors -/

/-- A result satisfies `Q`, an error satisfies `E`. -/
def Post {α : Type} (Q : α → Prop) (E : Raise → Prop) : Except Raise α → Prop
  | .ok a => Q a
  | .error x => E x

@[simp] theorem post_ok {α : Type} (Q : α → Prop) (E : Raise → Prop) (a : α) : Post Q E (.ok a) = Q a := rfl

@[simp] theorem post_pure {α : Type} (Q : α → Prop) (E : Raise → Prop) (a : α) :
    Post Q E (pure a : Except Raise α) = Q a := rfl

@[simp] theorem post_error {α : Type} (Q : α → Prop) (E : Raise → Prop) (x : Raise) :
    Post Q E (.error x : Except Raise α) = E x := rfl

/-- The rule for one computation after another. -/
theorem Post.bind {α β : Type} {Q : α → Prop} {Q' : β → Prop} {E : Raise → Prop} {x : Except Raise α}
    {f : α → Except Raise β} (hx : Post Q E x) (hf : ∀ a, Q a → Post Q' E (f a)) : Post Q' E (x >>= f) := by
  cases x with
  | ok a => exact hf a hx
  | error r => exact hx

theorem Post.mono {α : Type} {Q Q' : α → Prop} {E E' : Raise → Prop} {x : Except Raise α} (hx : Post Q E x)
    (hq : ∀ a, Q a → Q' a) (he : ∀ r, E r → E' r) : Post Q' E' x := by
  cases x with
  | ok a => exact hq a hx
  | error r => exact he r hx

theorem Post.imp {α : Type} {Q Q' : α → Prop} {E : Raise → Prop} {x : Except Raise α} (hx : Post Q E x)
    (hq : ∀ a, Q a → Q' a) : Post Q' E x := hx.mono hq fun _ h => h

theorem bind_eq_ok {α β : Type} {x : Except Raise α} {f : α → Except Raise β} {b : β} :
    (x >>= f) = .ok b ↔ ∃ a, x = .ok a ∧ f a = .ok b := by
  cases x <;> simp [Bind.bind, Except.bind]

theorem bind_eq_error {α β : Type} {x : Except Raise α} {f : α → Except Raise β} {z : Raise} :
    (x >>= f) = .error z ↔ x = .error z ∨ ∃ a, x = .ok a ∧ f a = .error z := by
  cases x <;> simp [Bind.bind, Except.bind]

@[simp] theorem ok_bind {α β : Type} (a : α) (f : α → Except Raise β) : (Except.ok a >>= f) = f a := rfl

@[simp] theorem error_bind {α β : Type} (z : Raise) (f : α → Except Raise β) :
    ((Except.error z : Except Raise α) >>= f) = .error z := rfl

/-! ### What a running command keeps, and how it can fail -/

/-- The output fits its region and the cursor is inside the input (10_state R59). -/
structure Fits (e : Env) (r : Run) : Prop where
  out : r.out.length ≤ e.cap
  ip  : r.ip ≤ e.len

/-- An error of one of the kinds `ks`: BUS_ERROR carries an address of the command's regions that BUS_OK rejects, every
other error an input offset (60_exceptions R413, 20_memory R84). -/
structure FailsAs (e : Env) (ks : List ErrKind) (x : Raise) : Prop where
  kind : x.kind ∈ ks
  bus  : x.kind = .busError → e.cfg.busOk x.info = false ∧
    ((e.src ≤ x.info ∧ x.info < e.src + e.len) ∨ (e.dst ≤ x.info ∧ x.info < e.dst + e.cap))
  info : x.kind ≠ .busError → x.info ≤ e.len

theorem FailsAs.mono {e : Env} {ks ks' : List ErrKind} {x : Raise} (h : FailsAs e ks x) (hk : ∀ k ∈ ks, k ∈ ks') :
    FailsAs e ks' x := ⟨hk _ h.kind, h.bus, h.info⟩

/-- The same result with more errors allowed. -/
theorem Post.errs {α : Type} {Q : α → Prop} {e : Env} {ks ks' : List ErrKind} {x : Except Raise α}
    (h : Post Q (FailsAs e ks) x) (hk : ∀ k ∈ ks, k ∈ ks' := by simp) : Post Q (FailsAs e ks') x :=
  h.mono (fun _ h => h) fun _ h => h.mono hk

/-- An error that is no bus error, at an input offset. -/
theorem FailsAs.data {e : Env} {ks : List ErrKind} {k : ErrKind} {n : Nat} (hk : k ∈ ks) (hb : k ≠ .busError)
    (hn : n ≤ e.len) : FailsAs e ks ⟨k, n⟩ :=
  ⟨hk, fun h => absurd h hb, fun _ => hn⟩

/-! ### The primitives -/

theorem input_spec {e : Env} {i : Nat} (hi : i < e.len) :
    Post (fun b => b = e.byte i) (FailsAs e [.busError]) (input e i) := by
  unfold input
  split
  · rfl
  · next h =>
    refine ⟨by simp, fun _ => ⟨by simpa using h, .inl ⟨by simp, by simpa using hi⟩⟩, fun h => absurd rfl h⟩

theorem fetch_spec {e : Env} {r : Run} (hr : Fits e r) :
    Post (fun p => r.ip < e.len ∧ p.1 = e.byte r.ip ∧ p.2 = { r with ip := r.ip + 1 })
      (FailsAs e [.truncatedStream, .busError]) (fetch e r) := by
  unfold fetch
  split
  · exact .data (by simp) (by simp) hr.ip
  · next h =>
    have hi : r.ip < e.len := by omega
    refine (input_spec hi).errs.bind fun b hb => ?_
    exact ⟨hi, hb, rfl⟩

/-- A fetch below L_LEN never truncates (41_huffman_encoder R200). -/
theorem fetch_spec_inside {e : Env} {r : Run} (hi : r.ip < e.len) :
    Post (fun p => p.1 = e.byte r.ip ∧ p.2 = { r with ip := r.ip + 1 })
      (FailsAs e [.busError]) (fetch e r) := by
  unfold fetch
  split
  · omega
  · exact (input_spec hi).bind fun b hb => ⟨hb, rfl⟩

theorem fits_fetched {e : Env} {r : Run} (hr : Fits e r) (hi : r.ip < e.len) : Fits e { r with ip := r.ip + 1 } :=
  ⟨hr.out, hi⟩

theorem fetchLE_spec {e : Env} : ∀ {n : Nat} {r : Run}, Fits e r →
    Post (fun p => p.2 = { r with ip := r.ip + n } ∧ r.ip + n ≤ e.len)
      (FailsAs e [.truncatedStream, .busError]) (fetchLE e n r)
  | 0, r, hr => ⟨rfl, hr.ip⟩
  | n + 1, r, hr => by
    refine (fetch_spec hr).bind ?_
    rintro ⟨b, r1⟩ ⟨hi, -, rfl⟩
    refine (fetchLE_spec (n := n) (fits_fetched hr hi)).bind ?_
    rintro ⟨v, r2⟩ ⟨rfl, hq⟩
    simp only [post_pure, Run.mk.injEq, and_true] at hq ⊢
    omega

theorem emit_spec {e : Env} {b : Byte} {info : Nat} {r : Run} (hr : Fits e r) (hn : info ≤ e.len) :
    Post (fun r' => r' = { r with out := r.out ++ [b] } ∧ Fits e r') (FailsAs e encoderErrors) (emit e b info r) := by
  unfold emit
  split
  · exact .data (by simp) (by simp) hn
  · next h =>
    have h' : r.out.length < e.cap := by simpa [Run.op] using h
    split
    · exact ⟨rfl, ⟨by simp; omega, hr.ip⟩⟩
    · next hb =>
      refine ⟨by simp, fun _ => ⟨by simpa using hb, .inr ⟨by simp, ?_⟩⟩, fun h => absurd rfl h⟩
      simpa [Run.op] using h'

/-- Emitting changes the output alone. -/
def SameButOut (r r' : Run) : Prop := r'.ip = r.ip ∧ r'.u = r.u

theorem SameButOut.rfl' {r : Run} : SameButOut r r := ⟨rfl, rfl⟩

theorem SameButOut.trans {r r' r'' : Run} (h : SameButOut r r') (h' : SameButOut r' r'') : SameButOut r r'' :=
  ⟨h'.1.trans h.1, h'.2.trans h.2⟩

theorem emit_post {e : Env} {b : Byte} {info : Nat} {r : Run} (hr : Fits e r) (hn : info ≤ e.len) :
    Post (fun r' => SameButOut r r' ∧ Fits e r') (FailsAs e encoderErrors) (emit e b info r) :=
  (emit_spec hr hn).imp fun r' h => ⟨by rw [h.1]; exact ⟨rfl, rfl⟩, h.2⟩

theorem emitLE_post {e : Env} {info : Nat} (hn : info ≤ e.len) : ∀ {n v : Nat} {r : Run}, Fits e r →
    Post (fun r' => SameButOut r r' ∧ Fits e r') (FailsAs e encoderErrors) (emitLE e info n v r)
  | 0, _, _, hr => ⟨.rfl', hr⟩
  | _ + 1, _, _, hr =>
    (emit_post hr hn).bind fun _ h => (emitLE_post hn h.2).imp fun _ h' => ⟨h.1.trans h'.1, h'.2⟩

theorem emitRep_post {e : Env} {b : Byte} {info : Nat} (hn : info ≤ e.len) : ∀ {n : Nat} {r : Run}, Fits e r →
    Post (fun r' => SameButOut r r' ∧ Fits e r') (FailsAs e encoderErrors) (emitRep e b info n r)
  | 0, _, hr => ⟨.rfl', hr⟩
  | _ + 1, _, hr =>
    (emit_post hr hn).bind fun _ h => (emitRep_post hn h.2).imp fun _ h' => ⟨h.1.trans h'.1, h'.2⟩

end Sys2Proof.Machine
end

