-- ==== Sys2Proof/Laws/Huffman.lean ====
section
/-! SUPPORT. What the Huffman units can do: that every pass stays in the input and in the output region, and how each unit
can fail. -/

namespace Sys2Proof.Machine

/-! ### huffman_encoder -/

theorem freqLoop_post {e : Env} : ∀ {n : Nat} {r : Run}, Fits e r → r.ip + n ≤ e.len →
    Post (fun r' => Fits e r' ∧ r'.ip = r.ip + n ∧ r'.out = r.out) (FailsAs e encoderErrors) (freqLoop e n r)
  | 0, _, hr, _ => ⟨hr, rfl, rfl⟩
  | n + 1, r, hr, hn => by
    unfold freqLoop
    refine (fetch_spec_inside (by omega)).errs.bind ?_
    rintro ⟨b, r1⟩ ⟨-, rfl⟩
    dsimp only
    refine (freqLoop_post (r := { r with ip := r.ip + 1, u := { r.u with freq := _ } }) ⟨hr.out, by simp; omega⟩
      (by simp; omega)).imp fun r' h => ⟨h.1, ?_, h.2.2⟩
    have := h.2.1
    simp only at this
    omega

theorem freqCount_post {e : Env} {r : Run} (hr : Fits e r) :
    Post (fun r' => Fits e r' ∧ r'.ip = e.len ∧ r'.out = r.out) (FailsAs e encoderErrors) (freqCount e r) :=
  (freqLoop_post (r := { r with ip := 0, u := { r.u with freq := _ } }) ⟨hr.out, Nat.zero_le _⟩ (by simp)).imp
    fun r' h => ⟨h.1, by simpa using h.2.1, h.2.2⟩

theorem putBit_post {e : Env} {x : Bool} {info : Nat} {r : Run} (hr : Fits e r) (hn : info ≤ e.len) :
    Post (fun r' => Fits e r' ∧ r'.ip = r.ip) (FailsAs e encoderErrors) (putBit e x info r) := by
  unfold putBit
  dsimp only
  split
  · exact (emit_post hr hn).bind fun r1 h => ⟨⟨h.2.out, h.2.ip⟩, h.1.1⟩
  · exact ⟨⟨hr.out, hr.ip⟩, rfl⟩

theorem putBits_post {e : Env} {info : Nat} (hn : info ≤ e.len) : ∀ {xs : List Bool} {r : Run}, Fits e r →
    Post (fun r' => Fits e r' ∧ r'.ip = r.ip) (FailsAs e encoderErrors) (putBits e info xs r)
  | [], _, hr => ⟨hr, rfl⟩
  | _ :: _, _, hr =>
    (putBit_post hr hn).bind fun _ h => (putBits_post hn h.1).imp fun _ h' => ⟨h'.1, h'.2.trans h.2⟩

theorem flushBits_post {e : Env} {info : Nat} {r : Run} (hr : Fits e r) (hn : info ≤ e.len) :
    Post (Fits e) (FailsAs e encoderErrors) (flushBits e info r) := by
  unfold flushBits
  split
  · exact (emit_post hr hn).bind fun r1 h => ⟨h.2.out, h.2.ip⟩
  · exact hr

theorem payloadLoop_post {e : Env} : ∀ {n : Nat} {r : Run}, Fits e r → r.ip + n ≤ e.len →
    Post (Fits e) (FailsAs e encoderErrors) (payloadLoop e n r)
  | 0, _, hr, _ => hr
  | n + 1, r, hr, hn => by
    unfold payloadLoop
    refine (fetch_spec_inside (by omega)).errs.bind ?_
    rintro ⟨b, r1⟩ ⟨-, rfl⟩
    have hf : Fits e { r with ip := r.ip + 1 } := fits_fetched hr (by omega)
    dsimp only
    refine (putBits_post hf.ip hf).bind fun r2 h => payloadLoop_post h.1 ?_
    have := h.2
    simp only at this
    omega

theorem payloadPass_post {e : Env} {r : Run} (hr : Fits e r) :
    Post (Fits e) (FailsAs e encoderErrors) (payloadPass e r) :=
  (payloadLoop_post (r := { r with ip := 0, u := { r.u with acc := 0, packCnt := 0 } }) ⟨hr.out, Nat.zero_le _⟩
    (by simp)).bind fun _ h => flushBits_post h h.ip

theorem writePairs_post {e : Env} : ∀ {bs : List Byte} {r : Run}, Fits e r →
    Post (fun r' => SameButOut r r' ∧ Fits e r') (FailsAs e encoderErrors) (writePairs e bs r)
  | [], _, hr => ⟨.rfl', hr⟩
  | _ :: _, _, hr =>
    (emit_post hr hr.ip).bind fun _ h1 => (emitLE_post h1.2.ip h1.2).bind fun _ h2 =>
      (writePairs_post h2.2).imp fun _ h3 => ⟨h1.1.trans (h2.1.trans h3.1), h3.2⟩

theorem writeHeader_post {e : Env} {syms : List Byte} {total : Nat} {r : Run} (hr : Fits e r) :
    Post (fun r' => SameButOut r r' ∧ Fits e r') (FailsAs e encoderErrors) (writeHeader e syms total r) :=
  (emitLE_post hr.ip hr).bind fun _ h1 => (writePairs_post h1.2).bind fun _ h2 =>
    (emitLE_post h2.2.ip h2.2).imp fun _ h3 => ⟨h1.1.trans (h2.1.trans h3.1), h3.2⟩

/-- huffman_encoder stays in its regions and fails only with OUTPUT_OVERFLOW or BUS_ERROR (41_huffman_encoder R210). -/
theorem huffEncUnit_post {e : Env} {r : Run} (hr : Fits e r) :
    Post (Fits e) (FailsAs e encoderErrors) (huffEncUnit e r) := by
  unfold huffEncUnit
  refine (freqCount_post hr).bind fun r1 h => ?_
  dsimp only
  split
  · exact (emitLE_post h.1.ip h.1).bind fun r2 h2 => (emitLE_post h2.2.ip h2.2).imp fun _ h3 => h3.2
  · exact (writeHeader_post (r := genCodes (buildTreeRun _ r1)) ⟨h.1.out, h.1.ip⟩).bind fun r2 h2 =>
      payloadPass_post h2.2

/-! ### huffman_decoder -/

theorem readCount_post {e : Env} {r : Run} (hr : Fits e r) :
    Post (fun p => p.2 = { r with ip := r.ip + 8 } ∧ Fits e p.2 ∧ p.1 ≤ 256) (FailsAs e huffDecErrors)
      (readCount e r) := by
  unfold readCount
  refine (fetchLE_spec (n := 8) hr).errs.bind ?_
  rintro ⟨d, r1⟩ ⟨rfl, h⟩
  dsimp only
  split
  · exact .data (by simp) (by simp) (Nat.zero_le _)
  · next hd => exact ⟨rfl, ⟨hr.out, h⟩, not_lt.mp hd⟩

theorem readPairs_post {e : Env} : ∀ {n k : Nat} {prev : Option Byte} {r : Run}, Fits e r → r.ip = 8 + 5 * k →
    Post (fun p => Fits e p.2) (FailsAs e huffDecErrors) (readPairs e n k prev r)
  | 0, _, _, _, hr, _ => hr
  | n + 1, k, prev, r, hr, hk => by
    unfold readPairs
    refine (fetch_spec hr).errs.bind ?_
    rintro ⟨b, r1⟩ ⟨hi, -, rfl⟩
    refine (fetchLE_spec (n := 4) (fits_fetched hr hi)).errs.bind ?_
    rintro ⟨f, r2⟩ ⟨rfl, h⟩
    dsimp only at h ⊢
    split
    · exact .data (by simp) (by simp) (by omega)
    · refine (readPairs_post (r := { r with ip := r.ip + 1 + 4, u := { r.u with freq := _ } }) ⟨hr.out, h⟩
        (by simp; omega)).bind ?_
      rintro ⟨syms, r3⟩ h3
      exact h3

theorem loadByte_post {e : Env} {r : Run} (hr : Fits e r) :
    Post (Fits e) (FailsAs e huffDecErrors) (loadByte e r) := by
  unfold loadByte
  split
  · refine (fetch_spec hr).errs.bind ?_
    rintro ⟨b, r1⟩ ⟨hi, -, rfl⟩
    exact ⟨hr.out, hi⟩
  · exact hr

theorem getBit_post {e : Env} {r : Run} (hr : Fits e r) :
    Post (fun p => Fits e p.2) (FailsAs e huffDecErrors) (getBit e r) := by
  unfold getBit
  split
  · exact .data (by simp) (by simp) hr.ip
  · exact (loadByte_post hr).bind fun r1 h => ⟨h.out, h.ip⟩

theorem walkSymbol_post {e : Env} : ∀ {n x : Nat} {r : Run}, Fits e r →
    Post (fun p => Fits e p.2) (FailsAs e huffDecErrors) (walkSymbol e n x r)
  | 0, _, _, hr => hr
  | n + 1, x, r, hr => by
    unfold walkSymbol
    split
    · exact hr
    · exact (getBit_post hr).bind fun p h => walkSymbol_post h
    · exact hr

theorem decodeSymbols_post {e : Env} : ∀ {n : Nat} {r : Run}, Fits e r →
    Post (Fits e) (FailsAs e huffDecErrors) (decodeSymbols e n r)
  | 0, _, hr => hr
  | n + 1, r, hr => by
    unfold decodeSymbols
    refine (walkSymbol_post hr).bind ?_
    rintro ⟨s, r1⟩ h1
    exact (emit_post h1 h1.ip).errs.bind fun r2 h2 => decodeSymbols_post h2.2

theorem huffDecBody_post {e : Env} {syms : List Byte} {r : Run} (hr : Fits e r) :
    Post (Fits e) (FailsAs e huffDecErrors) (huffDecBody e syms r) := by
  unfold huffDecBody
  split
  · exact hr
  · exact (emitRep_post hr.ip hr).errs.imp fun _ h => h.2
  · exact decodeSymbols_post ⟨hr.out, hr.ip⟩

/-- huffman_decoder stays in its regions and fails only as 42_huffman_decoder R247 lists. -/
theorem huffDecUnit_post {e : Env} {r : Run} (hr : Fits e r) :
    Post (Fits e) (FailsAs e huffDecErrors) (huffDecUnit e r) := by
  unfold huffDecUnit
  refine (readCount_post (r := { r with ip := 0 }) ⟨hr.out, Nat.zero_le _⟩).bind ?_
  rintro ⟨d, r1⟩ ⟨rfl, h1, -⟩
  refine (readPairs_post h1 rfl).bind ?_
  rintro ⟨syms, r2⟩ h2
  unfold readTotalBits
  refine Post.bind (Q := Fits e) ?_ fun r3 h3 => huffDecBody_post h3
  refine (fetchLE_spec (n := 8) h2).errs.bind ?_
  rintro ⟨t, r3⟩ ⟨rfl, h3⟩
  exact ⟨h2.out, h3⟩

end Sys2Proof.Machine
end

