-- ==== Sys2Proof/Laws/Rle.lean ====
section
/-! SUPPORT. What the RLE units can do: the run classifier's result, and for each loop that it stays in the input and in
the output region, and how it can fail. -/

namespace Sys2Proof.Machine

/-! ### rle_encoder -/

/-- A run from `r` on: its bytes equal byte i, it ends inside the input, and it is as long as 45_rle_encoder R350 lets
it be. -/
theorem runLengthFrom_spec {e : Env} {i : Nat} (hi : i < e.len) : ∀ {n r : Nat}, i + r ≤ e.len →
    (∀ t, t < r → e.byte (i + t) = e.byte i) →
    Post (fun k => r ≤ k ∧ k ≤ r + n ∧ i + k ≤ e.len ∧ (∀ t, t < k → e.byte (i + t) = e.byte i) ∧
        (k < r + n → i + k < e.len → e.byte (i + k) ≠ e.byte i))
      (FailsAs e [.busError]) (runLengthFrom e i n r)
  | 0, r, hr, hb => ⟨le_refl r, le_refl r, hr, hb, fun h => absurd h (lt_irrefl r)⟩
  | n + 1, r, hr, hb => by
    unfold runLengthFrom
    split
    · next hlt =>
      refine (input_spec hlt).bind ?_
      rintro a rfl
      refine (input_spec hi).bind ?_
      rintro b rfl
      split
      · next heq =>
        refine (runLengthFrom_spec hi (by omega) fun t ht => ?_).imp fun k h => ?_
        · rcases Nat.lt_succ_iff_lt_or_eq.mp ht with h | rfl
          · exact hb t h
          · exact heq
        · obtain ⟨h1, h2, h3, h4, h5⟩ := h
          exact ⟨by omega, by omega, h3, h4, fun h => h5 (by omega)⟩
      · next hne => exact ⟨le_refl r, by omega, hr, hb, fun _ _ => hne⟩
    · next hge => exact ⟨le_refl r, by omega, hr, hb, fun _ h => absurd h hge⟩

/-- RUN_LENGTH measures the run at i, capped at 127 (45_rle_encoder R350). -/
theorem runLength_spec {e : Env} {i : Nat} (hi : i < e.len) :
    Post (fun k => 1 ≤ k ∧ k ≤ 127 ∧ i + k ≤ e.len ∧ (∀ t, t < k → e.byte (i + t) = e.byte i) ∧
        (k < 127 → i + k < e.len → e.byte (i + k) ≠ e.byte i))
      (FailsAs e [.busError]) (runLength e i) :=
  (runLengthFrom_spec hi (n := 126) (r := 1) hi fun t ht => by
    have : t = 0 := by omega
    simp [this]).imp fun _ h => h

theorem rawSpanEndFrom_spec {e : Env} : ∀ {n j : Nat}, j ≤ e.len →
    Post (fun k => j ≤ k ∧ k ≤ j + n ∧ k ≤ e.len ∧ (∀ t, j ≤ t → t < k → t + 1 < e.len → e.byte t ≠ e.byte (t + 1)))
      (FailsAs e [.busError]) (rawSpanEndFrom e n j)
  | 0, j, hj => ⟨le_refl j, le_refl j, hj, fun t h h' => by omega⟩
  | n + 1, j, hj => by
    unfold rawSpanEndFrom
    split
    · next hlt =>
      split
      · next hlt1 =>
        refine (input_spec hlt).bind ?_
        rintro a rfl
        refine (input_spec hlt1).bind ?_
        rintro b rfl
        split
        · exact ⟨le_refl j, by omega, hj, fun t h h' => by omega⟩
        · next hne =>
          refine (rawSpanEndFrom_spec (by omega)).imp fun k h => ?_
          obtain ⟨h1, h2, h3, h4⟩ := h
          refine ⟨by omega, by omega, h3, fun t ht ht' hl => ?_⟩
          rcases Nat.eq_or_lt_of_le ht with rfl | hlt'
          · exact hne
          · exact h4 t hlt' ht' hl
      · next hge =>
        refine (rawSpanEndFrom_spec (by omega)).imp fun k h => ?_
        obtain ⟨h1, h2, h3, h4⟩ := h
        exact ⟨by omega, by omega, h3, fun t ht ht' hl => by omega⟩
    · exact ⟨le_refl j, by omega, hj, fun t h h' => by omega⟩

/-- RAW_SPAN_END: 1 to 128 bytes, and no byte after the first equals the one after it (45_rle_encoder R351). -/
theorem rawSpanEnd_spec {e : Env} {i : Nat} (hi : i < e.len) :
    Post (fun j => i + 1 ≤ j ∧ j ≤ i + 128 ∧ j ≤ e.len ∧
        (∀ t, i + 1 ≤ t → t < j → t + 1 < e.len → e.byte t ≠ e.byte (t + 1)))
      (FailsAs e [.busError]) (rawSpanEnd e i) :=
  (rawSpanEndFrom_spec (n := 127) hi).imp fun _ h => ⟨h.1, by have := h.2.1; omega, h.2.2⟩

theorem emitInput_post {e : Env} {info : Nat} (hn : info ≤ e.len) : ∀ {n k : Nat} {r : Run}, Fits e r →
    k + n ≤ e.len →
    Post (fun r' => SameButOut r r' ∧ Fits e r') (FailsAs e encoderErrors) (emitInput e info n k r)
  | 0, _, _, hr, _ => ⟨.rfl', hr⟩
  | n + 1, k, r, hr, hk => by
    refine (input_spec (by omega)).errs.bind fun b _ => ?_
    exact (emit_post hr hn).bind fun _ h =>
      (emitInput_post hn h.2 (by omega)).imp fun _ h' => ⟨h.1.trans h'.1, h'.2⟩

/-- One span of RLE_ENC covers at least one byte and stays in the input and the output region. -/
theorem rleEncSpan_post {e : Env} {r : Run} (hr : Fits e r) (hi : r.u.rleI < e.len) :
    Post (fun r' => Fits e r' ∧ r.u.rleI < r'.u.rleI ∧ r'.u.rleI ≤ e.len) (FailsAs e encoderErrors)
      (rleEncSpan e r) := by
  unfold rleEncSpan
  refine (runLength_spec hi).errs.bind fun n hn => ?_
  obtain ⟨hn1, hn2, hn3, -, -⟩ := hn
  dsimp only
  split
  · unfold emitRun
    dsimp only
    refine (emit_post (r := { r with u := { r.u with rleR := n } }) ⟨hr.out, hr.ip⟩ (le_of_lt hi)).bind fun r1 h1 => ?_
    refine (input_spec hi).errs.bind fun b _ => ?_
    refine (emit_post h1.2 (le_of_lt hi)).bind fun r2 h2 => ?_
    obtain ⟨hip, hu⟩ := h1.1.trans h2.1
    refine ⟨⟨h2.2.out, h2.2.ip⟩, ?_, ?_⟩ <;> simp [hu] <;> omega
  · refine (rawSpanEnd_spec hi).errs.bind fun j hj => ?_
    obtain ⟨hj1, hj2, hj3, -⟩ := hj
    unfold emitRaw
    dsimp only
    refine (emit_post (r := { r with u := { r.u with rleR := n, rleJ := j } }) ⟨hr.out, hr.ip⟩
      (le_of_lt hi)).bind fun r1 h1 => ?_
    refine (emitInput_post (le_of_lt hi) h1.2 (by omega)).bind fun r2 h2 => ?_
    exact ⟨⟨h2.2.out, h2.2.ip⟩, by simp; omega, hj3⟩

theorem rleEncLoop_post {e : Env} : ∀ {n : Nat} {r : Run}, Fits e r → r.u.rleI ≤ e.len →
    Post (Fits e) (FailsAs e encoderErrors) (rleEncLoop e n r)
  | 0, _, hr, _ => hr
  | n + 1, r, hr, hi => by
    unfold rleEncLoop
    split
    · next hlt => exact (rleEncSpan_post hr hlt).bind fun r1 h => rleEncLoop_post h.1 h.2.2
    · exact hr

/-- rle_encoder stays in its regions and fails only with OUTPUT_OVERFLOW or BUS_ERROR (45_rle_encoder R354). -/
theorem rleEncUnit_post {e : Env} {r : Run} (hr : Fits e r) :
    Post (Fits e) (FailsAs e encoderErrors) (rleEncUnit e r) :=
  rleEncLoop_post ⟨hr.out, hr.ip⟩ (Nat.zero_le _)

/-! ### rle_decoder -/

theorem copyBytes_post {e : Env} : ∀ {n : Nat} {r : Run}, Fits e r → r.ip + n ≤ e.len →
    Post (fun r' => Fits e r' ∧ r'.ip = r.ip + n) (FailsAs e encoderErrors) (copyBytes e n r)
  | 0, _, hr, _ => ⟨hr, rfl⟩
  | n + 1, r, hr, hn => by
    refine (fetch_spec_inside (r := r) (by omega)).errs.bind ?_
    rintro ⟨b, r1⟩ ⟨-, rfl⟩
    refine (emit_post (fits_fetched hr (by omega)) (by simp; omega)).bind fun r2 h => ?_
    have hip : r2.ip = r.ip + 1 := h.1.1
    refine (copyBytes_post h.2 (by omega)).imp fun r3 h3 => ⟨h3.1, by omega⟩

theorem expandRaw_post {e : Env} {c : Byte} {t : Nat} {r : Run} (hr : Fits e r) (ht : t ≤ e.len) :
    Post (Fits e) (FailsAs e rleDecErrors) (expandRaw e c t r) := by
  unfold expandRaw
  dsimp only
  split
  · exact .data (by simp) (by simp) ht
  · next h =>
    have := hr.ip
    refine (copyBytes_post ?_ ?_).errs.imp fun _ h => h.1
    · exact ⟨hr.out, hr.ip⟩
    · show r.ip + _ ≤ _
      omega

theorem expandRun_post {e : Env} {c : Byte} {t : Nat} {r : Run} (hr : Fits e r) (ht : t ≤ e.len) :
    Post (Fits e) (FailsAs e rleDecErrors) (expandRun e c t r) := by
  unfold expandRun
  split
  · exact .data (by simp) (by simp) ht
  · next h =>
    have hi : r.ip < e.len := by omega
    dsimp only
    refine (fetch_spec_inside (r := { r with u := { r.u with rleCnt := c.toNat % 128 } }) hi).errs.bind ?_
    rintro ⟨b, r1⟩ ⟨-, rfl⟩
    refine (emitRep_post hi ?_).errs.imp fun _ h => h.2
    exact ⟨hr.out, hi⟩

theorem rleDecSpan_post {e : Env} {r : Run} (hr : Fits e r) (hi : r.ip < e.len) :
    Post (Fits e) (FailsAs e rleDecErrors) (rleDecSpan e r) := by
  unfold rleDecSpan
  dsimp only
  refine (fetch_spec_inside hi).errs.bind ?_
  rintro ⟨b, r1⟩ ⟨-, rfl⟩
  have hf : Fits e { r with ip := r.ip + 1, u := { r.u with rleC := b } } := ⟨hr.out, hi⟩
  dsimp only
  split
  · exact expandRun_post hf hr.ip
  · exact expandRaw_post hf hr.ip

theorem rleDecLoop_post {e : Env} : ∀ {n : Nat} {r : Run}, Fits e r →
    Post (Fits e) (FailsAs e rleDecErrors) (rleDecLoop e n r)
  | 0, _, hr => hr
  | n + 1, r, hr => by
    unfold rleDecLoop
    split
    · next hlt => exact (rleDecSpan_post hr hlt).bind fun r1 h => rleDecLoop_post h
    · exact hr

/-- rle_decoder stays in its regions and fails only as 46_rle_decoder R382 lists. -/
theorem rleDecUnit_post {e : Env} {r : Run} (hr : Fits e r) :
    Post (Fits e) (FailsAs e rleDecErrors) (rleDecUnit e r) :=
  rleDecLoop_post ⟨hr.out, Nat.zero_le _⟩

end Sys2Proof.Machine
end

