-- ==== Sys2Proof/Laws/Lz77.lean ====
section
/-! SUPPORT. What the LZ77 units can do: where a match lies, that every loop stays in the input and in the output region,
and how each unit can fail. -/

namespace Sys2Proof.Machine

/-! ### lz77_encoder -/

theorem matchLengthFrom_spec {e : Env} {cur off : Nat} : ∀ {n len : Nat}, cur + len + n < e.len →
    Post (fun k => len ≤ k ∧ k ≤ len + n) (FailsAs e [.busError]) (matchLengthFrom e cur off n len)
  | 0, len, _ => ⟨le_refl len, le_refl len⟩
  | n + 1, len, h => by
    unfold matchLengthFrom
    refine (input_spec (by omega)).bind fun a _ => ?_
    refine (input_spec (by omega)).bind fun b _ => ?_
    split
    · exact (matchLengthFrom_spec (by omega)).imp fun k h => ⟨by omega, by omega⟩
    · exact ⟨le_refl len, by omega⟩

/-- A match lies in the window and leaves a byte for nextLiteral, or there is none (43_lz77_encoder R281). -/
def MatchBounds (cur maxlen top : Nat) (best : Nat × Nat) : Prop :=
  best = (0, 0) ∨ (1 ≤ best.1 ∧ best.1 ≤ top ∧ 1 ≤ best.2 ∧ best.2 ≤ maxlen ∧ best.1 ≤ cur)

theorem findMatchFrom_spec {e : Env} {cur maxlen top : Nat} (hm : cur + maxlen < e.len) (ht : top ≤ cur) :
    ∀ {n off : Nat} {best : Nat × Nat}, 1 ≤ off → off + n = top + 1 → MatchBounds cur maxlen top best →
    Post (MatchBounds cur maxlen top) (FailsAs e [.busError]) (findMatchFrom e cur maxlen n off best)
  | 0, _, _, _, _, hb => hb
  | n + 1, off, best, ho, hn, hb => by
    refine (matchLengthFrom_spec (by omega)).bind fun len hl => ?_
    refine findMatchFrom_spec hm ht (by omega) (by omega) ?_
    split
    · exact .inr ⟨ho, by omega, by simp; omega, by simp; omega, by simp; omega⟩
    · exact hb

theorem findMatch_spec {e : Env} {cur : Nat} (hc : cur < e.len) :
    Post (MatchBounds cur (min e.cfg.maxMatchLen (e.len - 1 - cur)) (min cur e.cfg.windowSize))
      (FailsAs e [.busError]) (findMatch e cur) :=
  findMatchFrom_spec (by omega) (by omega) (le_refl 1) (by omega) (.inl rfl)

theorem storeBytes_post {e : Env} : ∀ {n i : Nat} {r : Run}, Fits e r → i + n ≤ e.len →
    Post (Fits e) (FailsAs e encoderErrors) (storeBytes e n i r)
  | 0, _, _, hr, _ => hr
  | n + 1, i, r, hr, hi => by
    refine (input_spec (by omega)).errs.bind fun b _ => ?_
    exact (emit_post hr (by omega)).bind fun r1 h => storeBytes_post h.2 (by omega)

theorem storeRaw_post {e : Env} {r : Run} (hr : Fits e r) :
    Post (Fits e) (FailsAs e encoderErrors) (storeRaw e r) :=
  (emit_post hr (Nat.zero_le _)).bind fun _ h => storeBytes_post h.2 (by omega)

/-- One token moves the cursor forward and stays in the input and the output region (43_lz77_encoder R282). -/
theorem lz77EncToken_post {e : Env} {r : Run} (hr : Fits e r) (hc : r.u.lzCur < e.len) :
    Post (fun r' => Fits e r' ∧ r.u.lzCur < r'.u.lzCur ∧ r'.u.lzCur ≤ e.len) (FailsAs e encoderErrors)
      (lz77EncToken e r) := by
  unfold lz77EncToken
  refine (findMatch_spec hc).errs.bind ?_
  rintro ⟨off, len⟩ hm
  have hlen : r.u.lzCur + len < e.len := by
    rcases hm with h | h
    · have : len = 0 := congrArg Prod.snd h
      omega
    · have := h.2.2.2.1
      simp only at this
      omega
  have hl := le_of_lt hc
  unfold emitToken
  dsimp only
  split
  · refine (emitLE_post hl (r := { r with u := { r.u with bestOff := off, bestLen := len } }) ⟨hr.out, hr.ip⟩).bind
      fun r1 h1 => ?_
    refine (emitLE_post hl h1.2).bind fun r2 h2 => ?_
    refine (input_spec hlen).errs.bind fun b _ => ?_
    refine (emit_post h2.2 hl).bind fun r3 h3 => ?_
    exact ⟨⟨h3.2.out, h3.2.ip⟩, by dsimp only; omega, by dsimp only; omega⟩
  · refine (emitLE_post hl (r := { r with u := { r.u with bestOff := off, bestLen := len } }) ⟨hr.out, hr.ip⟩).bind
      fun r1 h1 => ?_
    refine (emitLE_post hl h1.2).bind fun r2 h2 => ?_
    refine (input_spec hc).errs.bind fun b _ => ?_
    refine (emit_post h2.2 hl).bind fun r3 h3 => ?_
    exact ⟨⟨h3.2.out, h3.2.ip⟩, by dsimp only; omega, by dsimp only; omega⟩

theorem lz77EncLoop_post {e : Env} : ∀ {n : Nat} {r : Run}, Fits e r →
    Post (Fits e) (FailsAs e encoderErrors) (lz77EncLoop e n r)
  | 0, _, hr => hr
  | n + 1, r, hr => by
    unfold lz77EncLoop
    split
    · next hlt => exact (lz77EncToken_post hr hlt).bind fun r1 h => lz77EncLoop_post h.1
    · exact hr

/-- lz77_encoder stays in its regions and fails only with OUTPUT_OVERFLOW or BUS_ERROR (43_lz77_encoder R284). -/
theorem lz77EncUnit_post {e : Env} {r : Run} (hr : Fits e r) :
    Post (Fits e) (FailsAs e encoderErrors) (lz77EncUnit e r) := by
  unfold lz77EncUnit
  split
  · exact storeRaw_post hr
  · exact (emit_post hr (Nat.zero_le _)).bind fun r1 h => lz77EncLoop_post ⟨h.2.out, h.2.ip⟩

/-! ### lz77_decoder -/

theorem readToken_post {e : Env} {r : Run} (hr : Fits e r) :
    Post (fun p => p.2 = { r with ip := r.ip + 5 } ∧ Fits e p.2 ∧
        (0 < p.1.len → 1 ≤ p.1.off ∧ p.1.off ≤ min r.op e.cfg.windowSize))
      (FailsAs e lz77DecErrors) (readToken e r) := by
  unfold readToken
  split
  · exact .data (by simp) (by simp) hr.ip
  · next h =>
    dsimp only
    refine (fetchLE_spec (n := 2) hr).errs.bind ?_
    rintro ⟨off, r1⟩ ⟨rfl, h1⟩
    refine (fetchLE_spec (n := 2) (r := { r with ip := r.ip + 2 }) ⟨hr.out, h1⟩).errs.bind ?_
    rintro ⟨len, r2⟩ ⟨rfl, h2⟩
    refine (fetch_spec (r := { r with ip := r.ip + 2 + 2 }) ⟨hr.out, h2⟩).errs.bind ?_
    rintro ⟨lit, r3⟩ ⟨h3, -, rfl⟩
    dsimp only at h3 ⊢
    split
    · exact .data (by simp) (by simp) hr.ip
    · next hv =>
      refine ⟨rfl, ⟨hr.out, h3⟩, fun hl => ?_⟩
      rw [not_and_or, not_or] at hv
      rcases hv with hv | hv
      · exact absurd hl hv
      · exact ⟨Nat.pos_of_ne_zero hv.1, not_lt.mp hv.2⟩

theorem histPush_fits {e : Env} {b : Byte} {r : Run} (hr : Fits e r) : Fits e (histPush e b r) := ⟨hr.out, hr.ip⟩

theorem copyBack_post {e : Env} {off : Nat} : ∀ {n : Nat} {r : Run}, Fits e r →
    Post (Fits e) (FailsAs e encoderErrors) (copyBack e off n r)
  | 0, _, hr => hr
  | n + 1, r, hr => by
    unfold copyBack
    exact (emit_post hr hr.ip).bind fun r1 h => copyBack_post (histPush_fits h.2)

theorem reconstruct_post {e : Env} {t : Token} {r : Run} (hr : Fits e r) :
    Post (Fits e) (FailsAs e encoderErrors) (reconstruct e t r) := by
  unfold reconstruct
  exact (copyBack_post hr).bind fun r1 h1 => (emit_post h1 h1.ip).bind fun r2 h2 => histPush_fits h2.2

theorem lz77DecLoop_post {e : Env} : ∀ {n : Nat} {r : Run}, Fits e r →
    Post (Fits e) (FailsAs e lz77DecErrors) (lz77DecLoop e n r)
  | 0, _, hr => hr
  | n + 1, r, hr => by
    unfold lz77DecLoop
    split
    · refine (readToken_post hr).bind ?_
      rintro ⟨t, r1⟩ ⟨-, h1, -⟩
      exact (reconstruct_post h1).errs.bind fun r2 h2 => lz77DecLoop_post h2
    · exact hr

/-- lz77_decoder stays in its regions and fails only as 44_lz77_decoder R325 lists. -/
theorem lz77DecUnit_post {e : Env} {r : Run} (hr : Fits e r) :
    Post (Fits e) (FailsAs e lz77DecErrors) (lz77DecUnit e r) := by
  unfold lz77DecUnit readMarker
  dsimp only
  split
  · exact .data (by simp) (by simp) (Nat.zero_le _)
  · refine (fetch_spec_inside (by simp; omega)).errs.bind ?_
    rintro ⟨m, r1⟩ ⟨-, rfl⟩
    have hf : Fits e { ip := 0 + 1, out := r.out, u := { r.u with hist := [] } } := ⟨hr.out, by simp; omega⟩
    dsimp only
    split
    · refine (copyBytes_post hf ?_).errs.imp fun _ h => h.1
      simp; omega
    · split
      · exact lz77DecLoop_post hf
      · exact .data (by simp) (by simp) (Nat.zero_le _)

end Sys2Proof.Machine
end

