-- ==== Sys2Proof/Laws/Region.lean ====
section
/-! SUPPORT. The tests on address ranges as arithmetic. -/

namespace Sys2Proof.Region

theorem contains_iff {r : Region} {a : Nat} : r.contains a = true ↔ r.base ≤ a ∧ a < r.base + r.size := by
  simp [contains]

theorem wraps_iff {r : Region} : r.wraps = true ↔ 2 ^ 32 < r.base + r.size := by
  simp [wraps]

/-- Two regions meet exactly when they share an address. -/
theorem meets_iff {r q : Region} : r.meets q = true ↔ ∃ a, r.contains a = true ∧ q.contains a = true := by
  simp only [meets, Bool.and_eq_true, decide_eq_true_eq, contains_iff]
  constructor
  · intro h
    exact ⟨max r.base q.base, by omega, by omega⟩
  · rintro ⟨a, h1, h2⟩
    omega

/-- What is left of `r` without `q`. -/
theorem minus_contains {r q : Region} {a : Nat} :
    (∃ p ∈ r.minus q, p.contains a = true) ↔ r.contains a = true ∧ q.contains a = false := by
  simp only [minus, List.mem_cons, List.not_mem_nil, or_false, exists_eq_or_imp, exists_eq_left, ← Bool.not_eq_true,
    contains_iff]
  omega

end Sys2Proof.Region
end

