-- ==== Sys2Proof/Laws/Step.lean ====
section
/-! SUPPORT. What a step can do: the six commands as one shared run of a unit, that run's possible outcomes, and the step
taken apart by what reaches the block next. -/

namespace Sys2Proof.Machine

/-! ### The start checks -/

/-- The start checks pass exactly when the word selects a command and the two regions neither wrap nor overlap
(40_command_sequencer R158). -/
theorem startChecks_eq_none {l : Latch} :
    startChecks l = none ↔ (decodeCommand l.cmd).isSome ∧ l.input.base + l.input.size ≤ 2 ^ 32 ∧
      l.output.base + l.output.size ≤ 2 ^ 32 ∧ l.input.meets l.output = false := by
  unfold startChecks
  cases decodeCommand l.cmd <;> simp [Region.wraps]
  split <;> simp_all
  omega

/-- A failed start check is BAD_COMMAND(0) or RANGE_ERROR(0). -/
theorem startChecks_eq_some {l : Latch} {r : Raise} (h : startChecks l = some r) :
    (r = ⟨.badCommand, 0⟩ ∧ decodeCommand l.cmd = none) ∨ (r = ⟨.rangeError, 0⟩ ∧ (decodeCommand l.cmd).isSome) := by
  unfold startChecks at h
  cases hc : decodeCommand l.cmd with
  | none =>
    simp only [hc, Option.isNone_none, if_true] at h
    exact .inl ⟨(Option.some.inj h).symm, rfl⟩
  | some i =>
    simp only [hc, Option.isNone_some, Bool.false_eq_true, if_false] at h
    refine .inr ⟨?_, rfl⟩
    split at h
    · exact (Option.some.inj h).symm
    · split at h
      · exact (Option.some.inj h).symm
      · cases h

/-! ### A command's run -/

/-- Where the command begins, it fits. -/
theorem begin_fits (s : State) : Fits s.env s.begin := ⟨Nat.zero_le _, Nat.zero_le _⟩

/-- Everything a command can do when it answers a next state. -/
theorem runCommand_next {u : Env → Run → Except Raise Run} {s t : State} (h : runCommand u s = .next t) :
    (s.phase = .idle ∧ t = s) ∨
    (s.phase = .run ∧ ∃ r, startChecks s.latch = some r ∧ t = takeError r s) ∨
    (s.phase = .run ∧ startChecks s.latch = none ∧ ∃ r, u s.env s.begin = .ok r ∧
      t = succeed r.out s) ∨
    (s.phase = .run ∧ startChecks s.latch = none ∧ ∃ r, u s.env s.begin = .error r ∧
      t = takeError r (scrambleOutput s)) := by
  unfold runCommand at h
  cases hp : s.phase with
  | idle =>
    simp only [hp] at h
    exact .inl ⟨rfl, (Host.Outcome.next.inj h).symm⟩
  | run =>
    simp only [hp] at h
    cases hc : startChecks s.latch with
    | some r =>
      simp only [hc] at h
      exact .inr (.inl ⟨rfl, r, rfl, (Host.Outcome.next.inj h).symm⟩)
    | none =>
      simp only [hc] at h
      cases hu : u s.env s.begin with
      | ok r =>
        simp only [hu] at h
        exact .inr (.inr (.inl ⟨rfl, rfl, r, rfl, (Host.Outcome.next.inj h).symm⟩))
      | error r =>
        simp only [hu] at h
        exact .inr (.inr (.inr ⟨rfl, rfl, r, rfl, (Host.Outcome.next.inj h).symm⟩))

/-- An idle block runs nothing. -/
theorem runCommand_idle (u : Env → Run → Except Raise Run) {s : State} (hp : s.phase = .idle) :
    runCommand u s = .next s := by simp [runCommand, hp]

/-- A failed start check completes the command with its error. -/
theorem runCommand_checks (u : Env → Run → Except Raise Run) {s : State} {r : Raise} (hp : s.phase = .run)
    (hc : startChecks s.latch = some r) : runCommand u s = .next (takeError r s) := by simp [runCommand, hp, hc]

/-- A run whose unit succeeds. -/
theorem runCommand_ok {u : Env → Run → Except Raise Run} {s : State} {r : Run} (hp : s.phase = .run)
    (hc : startChecks s.latch = none) (hu : u s.env s.begin = .ok r) :
    runCommand u s = .next (succeed r.out s) := by
  simp [runCommand, hp, hc, hu]

/-- A run whose unit raises. -/
theorem runCommand_error {u : Env → Run → Except Raise Run} {s : State} {r : Raise} (hp : s.phase = .run)
    (hc : startChecks s.latch = none) (hu : u s.env s.begin = .error r) :
    runCommand u s = .next (takeError r (scrambleOutput s)) := by
  simp [runCommand, hp, hc, hu]

/-- A command always answers a next state: it never faults and is never refused. -/
theorem runCommand_isNext (u : Env → Run → Except Raise Run) (s : State) : ∃ t, runCommand u s = .next t := by
  unfold runCommand
  repeat' split
  all_goals exact ⟨_, rfl⟩

/-! ### START -/

/-- A START breaks no duty exactly when it is dutiful (70_reset_and_hazards R461). -/
theorem dutyBreach_eq_none {s : State} : dutyBreach s = none ↔ s.Dutiful := by
  unfold dutyBreach State.Dutiful
  constructor
  · intro h
    split at h
    · cases h
    · next h1 =>
      split at h
      · cases h
      · next h2 =>
        split at h
        · cases h
        · next h3 =>
          split at h
          · cases h
          · next h4 =>
            refine ⟨⟨by simpa using h1, by simpa using h2⟩, by simpa using h3, ?_⟩
            cases hd : s.cfg.dmaCoherent with
            | true => exact .inl rfl
            | false => exact .inr (by simpa [hd] using h4)
  · rintro ⟨⟨h1, h2⟩, h3, h4⟩
    rw [if_neg (by simpa using h1), if_neg (by simpa using h2), if_neg (by simpa using h3), if_neg]
    rcases h4 with h4 | h4
    · simp [h4]
    · simpa using fun _ => h4

/-- Everything a START can do when it answers a next state. -/
theorem execStart_next {ie : Bool} {s t : State} (h : execStart ie s = .next t) :
    (s.busy = true ∧ t = setIe ie s) ∨ (s.busy = false ∧ s.Dutiful ∧ t = acceptStart (setIe ie s)) := by
  unfold execStart at h
  cases hb : s.busy with
  | true =>
    simp only [hb, if_true] at h
    exact .inl ⟨rfl, (Host.Outcome.next.inj h).symm⟩
  | false =>
    simp only [hb, Bool.false_eq_true, if_false] at h
    cases hd : dutyBreach s with
    | some w => simp only [hd] at h; cases h
    | none =>
      simp only [hd] at h
      exact .inr ⟨rfl, dutyBreach_eq_none.mp hd, (Host.Outcome.next.inj h).symm⟩

/-- An idle block accepts a dutiful START. -/
theorem execStart_idle {ie : Bool} {s : State} (hb : s.busy = false) (hd : s.Dutiful) :
    execStart ie s = .next (acceptStart (setIe ie s)) := by
  simp [execStart, hb, dutyBreach_eq_none.mpr hd]

/-- A busy block takes IE of a START alone. -/
theorem execStart_busy {ie : Bool} {s : State} (hb : s.busy = true) : execStart ie s = .next (setIe ie s) := by
  simp [execStart, hb]

/-- The unit of each command. -/
def unitOf : Instr → Option (Env → Run → Except Raise Run)
  | .huffEnc => some huffEncUnit
  | .huffDec => some huffDecUnit
  | .lz77Enc => some lz77EncUnit
  | .lz77Dec => some lz77DecUnit
  | .rleEnc => some rleEncUnit
  | .rleDec => some rleDecUnit
  | .start _ _ => none
  | .softReset _ _ => none
  | .doneClear _ _ => none

/-- A command is the shared run of its unit. -/
theorem exec_of_unit {i : Instr} {u : Env → Run → Except Raise Run} (h : unitOf i = some u) (s : State) :
    exec i s = runCommand u s := by
  cases i <;> simp only [unitOf, Option.some.injEq, reduceCtorEq] at h <;> subst h <;> rfl

/-- Every unit stays in its regions and fails only as its command may. -/
theorem unit_post {i : Instr} {u : Env → Run → Except Raise Run} (h : unitOf i = some u) {e : Env} {r : Run}
    (hr : Fits e r) : Post (Fits e) (FailsAs e (errorsOf i)) (u e r) := by
  cases i <;> simp only [unitOf, Option.some.injEq, reduceCtorEq] at h <;> subst h
  · exact huffEncUnit_post hr
  · exact huffDecUnit_post hr
  · exact lz77EncUnit_post hr
  · exact lz77DecUnit_post hr
  · exact rleEncUnit_post hr
  · exact rleDecUnit_post hr

/-- The output of a successful unit fits the output region. -/
theorem unit_out_le {i : Instr} {u : Env → Run → Except Raise Run} (h : unitOf i = some u) {s : State} {r : Run}
    (hu : u s.env s.begin = .ok r) : r.out.length ≤ s.latch.cap.toNat := by
  have := unit_post h (begin_fits s)
  rw [hu] at this
  exact this.out

/-- An instruction of the CMD register has a unit. -/
theorem unitOf_of_port {i : Instr} (h : i.port = .cmd) : ∃ u, unitOf i = some u := by
  cases i <;> simp_all [unitOf, Instr.port]

/-- A word that selects a command selects one with a unit. -/
theorem unitOf_of_decode {w : Word} {i : Instr} (h : decodeCommand w = some i) : ∃ u, unitOf i = some u := by
  rcases decodeCommand_eq_some h with ⟨-, rfl⟩ | ⟨-, rfl⟩ | ⟨-, rfl⟩ | ⟨-, rfl⟩ | ⟨-, rfl⟩ | ⟨-, rfl⟩ <;> exact ⟨_, rfl⟩

/-! ### The step -/

/-- The outcome of what `fetchNext` finds. -/
def Fetched.outcome : Fetched → Host.Outcome State Fault Refusal
  | .run i t => exec i t
  | .done o => o

/-- A step runs what `fetchNext` finds. -/
theorem step_eq (s : State) : step s = (fetchNext s).outcome := by
  unfold step Fetched.outcome
  rfl

/-- With no input left, a step is the block's turn. -/
theorem step_nil {s : State} (hc : s.cfg.wellFormed = true) (h : s.inputs = []) :
    step s = (blockTurn s).outcome := by
  simp [step_eq, fetchNext, hc, h]

/-- With an input, a step takes it. -/
theorem step_cons {s : State} {x : Input} {rest : List Input} (hc : s.cfg.wellFormed = true)
    (h : s.inputs = x :: rest) : step s = (takeInput x { s with inputs := rest }).outcome := by
  simp [step_eq, fetchNext, hc, h]

/-- A configuration out of range is refused. -/
theorem step_bad_config {s : State} (hc : s.cfg.wellFormed = false) : step s = .refused .configOutOfRange := by
  simp [step_eq, fetchNext, hc, Fetched.outcome]

/-- Everything a step can come from. -/
theorem step_cases (s : State) :
    (s.cfg.wellFormed = false ∧ step s = .refused .configOutOfRange) ∨
    (s.cfg.wellFormed = true ∧ s.inputs = [] ∧ step s = (blockTurn s).outcome) ∨
    (s.cfg.wellFormed = true ∧ ∃ x rest, s.inputs = x :: rest ∧
      step s = (takeInput x { s with inputs := rest }).outcome) := by
  cases hc : s.cfg.wellFormed with
  | false => exact .inl ⟨rfl, step_bad_config hc⟩
  | true =>
    cases hi : s.inputs with
    | nil => exact .inr (.inl ⟨rfl, rfl, step_nil hc hi⟩)
    | cons x rest => exact .inr (.inr ⟨rfl, x, rest, rfl, step_cons hc hi⟩)

/-- The block's turn: nothing while idle, else the latched command, or BAD_COMMAND. -/
theorem blockTurn_outcome (s : State) :
    (s.phase = .idle ∧ (blockTurn s).outcome = .next s) ∨
    (s.phase = .run ∧ ∃ i, decodeCommand s.latch.cmd = some i ∧ (blockTurn s).outcome = exec i s) ∨
    (s.phase = .run ∧ decodeCommand s.latch.cmd = none ∧
      (blockTurn s).outcome = .next (takeError ⟨.badCommand, 0⟩ s)) := by
  unfold blockTurn
  cases hp : s.phase with
  | idle => exact .inl ⟨rfl, rfl⟩
  | run =>
    simp only [decode_wordBytes_nil, decodeWord]
    cases hd : decodeCommand s.latch.cmd with
    | some i => exact .inr (.inl ⟨trivial, i, rfl, rfl⟩)
    | none => exact .inr (.inr ⟨trivial, rfl, rfl⟩)

/-- A register write: refused in a wrong form, a control action if its word requests one, a plain write otherwise. -/
theorem busWrite_outcome (bits : Nat) (off : BitVec 8) (v : Word) (s : State) :
    (accessFormOk bits off = false ∧ (busWrite bits off v s).outcome = .refused .registerAccessForm) ∨
    (accessFormOk bits off = true ∧ off = 0x08 ∧ ∃ i, decodeCtrl v = some i ∧
      (busWrite bits off v s).outcome = exec i s) ∨
    (accessFormOk bits off = true ∧ off = 0x0C ∧ ∃ i, decodeStatus v = some i ∧
      (busWrite bits off v s).outcome = exec i s) ∨
    (accessFormOk bits off = true ∧ (off = 0x08 → decodeCtrl v = none) ∧ (off = 0x0C → decodeStatus v = none) ∧
      (busWrite bits off v s).outcome = .next (writeReg s off v)) := by
  unfold busWrite hostRegWrite
  cases hf : accessFormOk bits off with
  | false => exact .inl ⟨rfl, rfl⟩
  | true =>
    right
    simp only [if_true]
    by_cases h8 : off = 0x08
    · have hw : writePort off = some .ctrl := by rw [h8]; rfl
      simp only [hw, decode_wordBytes_nil, decodeWord]
      cases hd : decodeCtrl v with
      | some i => exact .inl ⟨trivial, h8, i, rfl, rfl⟩
      | none => exact .inr (.inr ⟨trivial, fun _ => rfl, fun h => absurd (h8.symm.trans h) (by decide), rfl⟩)
    · by_cases hC : off = 0x0C
      · have hw : writePort off = some .status := by rw [hC]; rfl
        simp only [hw, decode_wordBytes_nil, decodeWord]
        cases hd : decodeStatus v with
        | some i => exact .inr (.inl ⟨trivial, hC, i, rfl, rfl⟩)
        | none => exact .inr (.inr ⟨trivial, fun h => absurd h h8, fun _ => rfl, rfl⟩)
      · have hw : writePort off = none := by unfold writePort; rw [if_neg h8, if_neg hC]
        simp only [hw]
        exact .inr (.inr ⟨trivial, fun h => absurd h h8, fun h => absurd h hC, rfl⟩)

end Sys2Proof.Machine
end

