-- ==== Sys2Proof/Laws/Exact.lean ====
section
/-! SUPPORT. The primitives' exact results where no error is raised, where the output region is full and where the input
ends; and how a unit's result becomes a command's (40_command_sequencer R160 to R166). -/

namespace Sys2Proof.Machine

/-! ### Reading the input -/

theorem input_ok {e : Env} {i : Nat} (h : e.cfg.busOk (e.src + i) = true) : input e i = .ok (e.byte i) := by
  simp [input, h, Env.byte]

theorem fetch_ok {e : Env} {r : Run} (hi : r.ip < e.len) (h : e.cfg.busOk (e.src + r.ip) = true) :
    fetch e r = .ok (e.byte r.ip, { r with ip := r.ip + 1 }) := by
  unfold fetch
  rw [if_neg (by omega), input_ok h]
  rfl

theorem fetch_end {e : Env} {r : Run} (hi : e.len ≤ r.ip) : fetch e r = .error ⟨.truncatedStream, r.ip⟩ := by
  unfold fetch
  rw [if_pos hi]

/-- The little-endian number of `n` input bytes from index `i` on. -/
def Env.leValue (e : Env) : Nat → Nat → Nat
  | 0, _ => 0
  | n + 1, i => (e.byte i).toNat + 256 * e.leValue n (i + 1)

theorem fetchLE_ok {e : Env} (hb : ∀ i, i < e.len → e.cfg.busOk (e.src + i) = true) : ∀ {n : Nat} {r : Run},
    r.ip + n ≤ e.len → fetchLE e n r = .ok (e.leValue n r.ip, { r with ip := r.ip + n })
  | 0, _, _ => rfl
  | n + 1, r, h => by
    unfold fetchLE
    rw [fetch_ok (by omega) (hb _ (by omega))]
    simp only [ok_bind]
    rw [fetchLE_ok hb (show r.ip + 1 + n ≤ e.len by omega)]
    simp only [ok_bind, Env.leValue, Nat.add_assoc, Nat.add_comm 1 n]
    rfl

theorem fetchLE_end {e : Env} (hb : ∀ i, i < e.len → e.cfg.busOk (e.src + i) = true) : ∀ {n : Nat} {r : Run},
    r.ip ≤ e.len → e.len < r.ip + n → fetchLE e n r = .error ⟨.truncatedStream, e.len⟩
  | 0, _, h, h' => by omega
  | n + 1, r, h, h' => by
    unfold fetchLE
    rcases Nat.eq_or_lt_of_le h with he | hl
    · rw [fetch_end (Nat.le_of_eq he.symm), he]
      rfl
    · rw [fetch_ok hl (hb _ hl)]
      simp only [ok_bind]
      rw [fetchLE_end hb (by show r.ip + 1 ≤ e.len; omega) (by show e.len < r.ip + 1 + n; omega)]
      rfl

/-- `n` bytes of `v` in the input read as `v` modulo 256^n. -/
theorem leValue_of_leBytes {e : Env} : ∀ {n v i : Nat}, (∀ k, (hk : k < n) → e.byte (i + k) = BitVec.ofNat 8 (v / 256 ^ k)) →
    e.leValue n i = v % 256 ^ n
  | 0, v, _, _ => by simp [Env.leValue, Nat.mod_one]
  | n + 1, v, i, h => by
    have h0 := h 0 (by omega)
    simp only [Nat.add_zero, pow_zero, Nat.div_one] at h0
    have hn := leValue_of_leBytes (e := e) (n := n) (v := v / 256) (i := i + 1) fun k hk => by
      rw [show i + 1 + k = i + (k + 1) by omega, h (k + 1) (by omega), pow_succ', Nat.div_div_eq_div_mul]
    unfold Env.leValue
    rw [h0, hn, BitVec.toNat_ofNat, show (2 : Nat) ^ 8 = 256 from rfl, pow_succ', Nat.mod_mul]

/-! ### Writing the output -/

/-- Room for `n` more output bytes, each on the bus. -/
def Room (e : Env) (r : Run) (n : Nat) : Prop :=
  r.out.length + n ≤ e.cap ∧ ∀ k, k < e.cap → e.cfg.busOk (e.dst + k) = true

theorem Room.mono {e : Env} {r : Run} {m n : Nat} (h : Room e r n) (hm : m ≤ n) : Room e r m :=
  ⟨by have := h.1; omega, h.2⟩

/-- Room after `bs` were emitted. -/
theorem Room.after {e : Env} {r r' : Run} {m n : Nat} {bs : List Byte} (h : Room e r (m + n)) (hl : bs.length = m)
    (ho : r'.out = r.out ++ bs) : Room e r' n := by
  refine ⟨?_, h.2⟩
  have := h.1
  rw [ho, List.length_append]
  omega

theorem emit_ok {e : Env} {b : Byte} {info : Nat} {r : Run} (h : Room e r 1) :
    emit e b info r = .ok { r with out := r.out ++ [b] } := by
  unfold emit
  have := h.1
  rw [if_neg (by simp only [Run.op]; omega), if_pos (h.2 _ (by simp only [Run.op]; omega))]

theorem emit_full {e : Env} {b : Byte} {info : Nat} {r : Run} (h : e.cap ≤ r.out.length) :
    emit e b info r = .error ⟨.outputOverflow, info⟩ := by
  unfold emit
  exact if_pos h

@[simp] theorem leBytes_length : ∀ n v : Nat, (leBytes n v).length = n
  | 0, _ => rfl
  | n + 1, v => by simp [leBytes, leBytes_length n]

theorem emitLE_ok {e : Env} {info : Nat} : ∀ {n v : Nat} {r : Run}, Room e r n →
    emitLE e info n v r = .ok { r with out := r.out ++ leBytes n v }
  | 0, _, _, _ => by simp [emitLE, leBytes]
  | n + 1, v, r, h => by
    unfold emitLE
    rw [emit_ok (h.mono (by omega))]
    simp only [ok_bind]
    rw [emitLE_ok (Room.after (m := 1) (by rwa [Nat.add_comm 1 n]) rfl rfl)]
    simp [leBytes]

/-- Emitting a number into a region too short for it overflows. -/
theorem emitLE_full {e : Env} {info : Nat} (hb : ∀ k, k < e.cap → e.cfg.busOk (e.dst + k) = true) :
    ∀ {n v : Nat} {r : Run}, r.out.length ≤ e.cap → e.cap < r.out.length + n →
    emitLE e info n v r = .error ⟨.outputOverflow, info⟩
  | 0, _, _, h, h' => by omega
  | n + 1, v, r, h, h' => by
    unfold emitLE
    rcases Nat.eq_or_lt_of_le h with he | hl
    · rw [emit_full (Nat.le_of_eq he.symm)]
      rfl
    · rw [emit_ok ⟨hl, hb⟩]
      simp only [ok_bind]
      exact emitLE_full hb (by simp; omega) (by simp; omega)

theorem emitRep_ok {e : Env} {b : Byte} {info : Nat} : ∀ {n : Nat} {r : Run}, Room e r n →
    emitRep e b info n r = .ok { r with out := r.out ++ List.replicate n b }
  | 0, _, _ => by simp [emitRep]
  | n + 1, r, h => by
    unfold emitRep
    rw [emit_ok (h.mono (by omega))]
    simp only [ok_bind]
    rw [emitRep_ok (Room.after (m := 1) (by rwa [Nat.add_comm 1 n]) rfl rfl)]
    simp [List.replicate_succ]

/-! ### Copying input to output -/

/-- The `n` input bytes from index `i` on. -/
def Env.span (e : Env) (i n : Nat) : List Byte := (List.range n).map fun k => e.byte (i + k)

@[simp] theorem span_length (e : Env) (i n : Nat) : (e.span i n).length = n := by simp [Env.span]

theorem span_succ (e : Env) (i n : Nat) : e.span i (n + 1) = e.byte i :: e.span (i + 1) n := by
  simp only [Env.span, List.range_succ_eq_map, List.map_cons, Nat.add_zero, List.map_map, List.cons.injEq, true_and]
  apply List.map_congr_left
  intro k _
  show e.byte (i + (k + 1)) = e.byte (i + 1 + k)
  rw [Nat.add_assoc, Nat.add_comm 1 k]

/-- The whole input is the span of L_LEN bytes. -/
theorem bytes_eq_span (e : Env) : e.bytes = e.span 0 e.len := by simp [Env.bytes, Env.span]

theorem span_add (e : Env) (i : Nat) : ∀ m n : Nat, e.span i (m + n) = e.span i m ++ e.span (i + m) n
  | 0, n => by simp [Env.span]
  | m + 1, n => by
    rw [show m + 1 + n = (m + n) + 1 by omega, span_succ, span_add e (i + 1) m n, span_succ,
      show i + 1 + m = i + (m + 1) by omega]
    rfl

theorem copyBytes_ok {e : Env} (hb : ∀ i, i < e.len → e.cfg.busOk (e.src + i) = true) : ∀ {n : Nat} {r : Run},
    r.ip + n ≤ e.len → Room e r n →
    copyBytes e n r = .ok { r with ip := r.ip + n, out := r.out ++ e.span r.ip n }
  | 0, _, _, _ => by simp [copyBytes, Env.span]
  | n + 1, r, hi, h => by
    unfold copyBytes
    rw [fetch_ok (by omega) (hb _ (by omega))]
    simp only [ok_bind]
    rw [emit_ok (show Room e { r with ip := r.ip + 1 } 1 from h.mono (by omega))]
    simp only [ok_bind]
    rw [copyBytes_ok hb (show r.ip + 1 + n ≤ e.len by omega) (Room.after (m := 1) (by rwa [Nat.add_comm 1 n]) rfl rfl)]
    simp [span_succ, Nat.add_assoc, Nat.add_comm 1 n]

theorem emitInput_ok {e : Env} (hb : ∀ i, i < e.len → e.cfg.busOk (e.src + i) = true) {info : Nat} :
    ∀ {n k : Nat} {r : Run}, k + n ≤ e.len → Room e r n →
    emitInput e info n k r = .ok { r with out := r.out ++ e.span k n }
  | 0, _, _, _, _ => by simp [emitInput, Env.span]
  | n + 1, k, r, hk, h => by
    unfold emitInput
    rw [input_ok (hb _ (by omega))]
    simp only [ok_bind]
    rw [emit_ok (h.mono (by omega))]
    simp only [ok_bind]
    rw [emitInput_ok hb (by omega) (Room.after (m := 1) (by rwa [Nat.add_comm 1 n]) rfl rfl)]
    simp [span_succ]

theorem storeBytes_ok {e : Env} (hb : ∀ i, i < e.len → e.cfg.busOk (e.src + i) = true) :
    ∀ {n k : Nat} {r : Run}, k + n ≤ e.len → Room e r n →
    storeBytes e n k r = .ok { r with out := r.out ++ e.span k n }
  | 0, _, _, _, _ => by simp [storeBytes, Env.span]
  | n + 1, k, r, hk, h => by
    unfold storeBytes
    rw [input_ok (hb _ (by omega))]
    simp only [ok_bind]
    rw [emit_ok (h.mono (by omega))]
    simp only [ok_bind]
    rw [storeBytes_ok hb (by omega) (Room.after (m := 1) (by rwa [Nat.add_comm 1 n]) rfl rfl)]
    simp [span_succ]

/-! ### From a unit's result to the command's -/

/-- A unit that succeeds inside the output region makes its command succeed. -/
theorem runCommand_succeeded {u : Env → Run → Except Raise Run} {s : State} {r : Run} (h : s.Running)
    (hm : Memory.wf s.mem = true) (hu : u s.env s.begin = .ok r) (hl : r.out.length ≤ s.latch.cap.toNat) :
    ∃ t, runCommand u s = .next t ∧ Succeeded s t r.out := by
  refine ⟨_, runCommand_ok h.phase h.checks hu, ?_⟩
  have hc := s.latch.cap.isLt
  constructor
  · simp
  · simp
  · simp
  · simp only [succeed_outLen, BitVec.toNat_ofNat]
    omega
  · intro k hk
    exact Memory.read_writeBytes_at r.out _ k hm hk
  · intro a ha
    exact Memory.read_writeBytes_other r.out _ a hm ha

/-- A unit that raises makes its command fail. -/
theorem runCommand_failed {u : Env → Run → Except Raise Run} {s : State} {k : ErrKind} {n : Nat} (h : s.Running)
    (hu : u s.env s.begin = .error ⟨k, n⟩) : ∃ t, runCommand u s = .next t ∧ FailedWith t k n :=
  ⟨_, runCommand_error h.phase h.checks hu, ⟨by simp, by simp, by simp, by simp, by simp⟩⟩

/-- Where a command begins, the whole output region is room. -/
theorem begin_room {s : State} (h : s.env.BusFine) {n : Nat} (hn : n ≤ s.latch.cap.toNat) : Room s.env s.begin n :=
  ⟨by simpa [State.begin, State.env] using hn, h.2⟩

end Sys2Proof.Machine
end

