-- ==== Sys2Proof/Laws/PerInstr.lean ====
section
/-! SUPPORT. One statement for each instruction: its word has the bits its row of spec/opcode_table.json fixes. -/

namespace Sys2Proof.Laws

/-- The "match" of the instruction's row in spec/opcode_table.json (30_encoding R111, R116). -/
def TableRow.value : Instr → Word
  | .huffEnc => 0x00000001
  | .huffDec => 0x00000002
  | .lz77Enc => 0x00000003
  | .lz77Dec => 0x00000004
  | .rleEnc => 0x00000005
  | .rleDec => 0x00000006
  | .start _ _ => 0x00000001
  | .softReset _ _ => 0x00000002
  | .doneClear _ _ => 0x00000002

/-- The "mask" of the instruction's row in spec/opcode_table.json. -/
def TableRow.mask : Instr → Word
  | .huffEnc => 0xFFFFFFFF
  | .huffDec => 0xFFFFFFFF
  | .lz77Enc => 0xFFFFFFFF
  | .lz77Dec => 0xFFFFFFFF
  | .rleEnc => 0xFFFFFFFF
  | .rleDec => 0xFFFFFFFF
  | .start _ _ => 0x00000003
  | .softReset _ _ => 0x00000002
  | .doneClear _ _ => 0x00000002

/-- The word of `i` has the fixed bits of its row, whatever its other fields hold, and `i` is well-formed. -/
def TableRow.Statement (i : Instr) : Prop :=
  encodeWord i &&& TableRow.mask i = TableRow.value i ∧ i.wellFormed = true

theorem TableRow.huffEnc : TableRow.Statement .huffEnc := ⟨by decide, rfl⟩

theorem TableRow.huffDec : TableRow.Statement .huffDec := ⟨by decide, rfl⟩

theorem TableRow.lz77Enc : TableRow.Statement .lz77Enc := ⟨by decide, rfl⟩

theorem TableRow.lz77Dec : TableRow.Statement .lz77Dec := ⟨by decide, rfl⟩

theorem TableRow.rleEnc : TableRow.Statement .rleEnc := ⟨by decide, rfl⟩

theorem TableRow.rleDec : TableRow.Statement .rleDec := ⟨by decide, rfl⟩

theorem TableRow.start (ie : Bool) (ignored : BitVec 29) : TableRow.Statement (.start ie ignored) := by
  refine ⟨?_, rfl⟩
  apply BitVec.eq_of_getElem_eq
  intro k hk
  simp only [encodeWord, TableRow.mask, TableRow.value, BitVec.getElem_and, BitVec.getElem_append]
  interval_cases k <;> simp

theorem TableRow.softReset (bit0 : Bool) (ignored : BitVec 30) : TableRow.Statement (.softReset bit0 ignored) := by
  refine ⟨?_, rfl⟩
  apply BitVec.eq_of_getElem_eq
  intro k hk
  simp only [encodeWord, TableRow.mask, TableRow.value, BitVec.getElem_and, BitVec.getElem_append]
  interval_cases k <;> simp

theorem TableRow.doneClear (bit0 : Bool) (ignored : BitVec 30) : TableRow.Statement (.doneClear bit0 ignored) := by
  refine ⟨?_, rfl⟩
  apply BitVec.eq_of_getElem_eq
  intro k hk
  simp only [encodeWord, TableRow.mask, TableRow.value, BitVec.getElem_and, BitVec.getElem_append]
  interval_cases k <;> simp

end Sys2Proof.Laws
end

