-- ==== Sys2Proof/Tests/Slice0.lean ====
section
/-! SUPPORT. Tests from the spec's own examples and test vectors, the refusals of ill-formed terms, and for every statement
with hypotheses a concrete state that meets them. -/

namespace Sys2Proof.Tests

open Sys2Proof.Machine

/-! ### Small states -/

/-- Idle, with the accesses `xs` to come. -/
def idleWith (xs : List Input) : State := { State.reset with inputs := xs }

/-- A command `w` runs on the bytes `bs` at 0x1000, with `cap` bytes of output region at 0x2000. -/
def ready (w : Word) (bs : List Byte) (cap : Nat) : State :=
  { State.reset with
    busy := true
    phase := .run
    latch := ⟨w, 0x1000, BitVec.ofNat 32 bs.length, 0x2000, BitVec.ofNat 32 cap⟩
    mem := Memory.writeBytes [] 0x1000 bs
    host := { HostView.fresh with owned := [⟨⟨0x1000, bs.length⟩, ⟨0x2000, cap⟩⟩] } }

/-- The same on a machine whose BUS_OK rejects address `a`. -/
def readyRejecting (a : Nat) (w : Word) (bs : List Byte) (cap : Nat) : State :=
  { ready w bs cap with cfg := { Config.default with busFail := [⟨a, 1⟩] } }

/-- The same where that is the first input address. -/
def readyNoBus : Word → List Byte → Nat → State := readyRejecting 0x1000

/-- The same on a machine with other LZ77 parameters. -/
def readyTuned (w : Word) (bs : List Byte) (cap threshold window : Nat) : State :=
  { ready w bs cap with cfg := { Config.default with lzStoreThreshold := threshold, windowSize := window } }

/-- What a command wrote, if it succeeded. -/
def written (o : Host.Outcome State Fault Refusal) : Option (List Byte) :=
  match o with
  | .next t => if t.error then none else
      some ((List.range t.outLen.toNat).map fun k => Memory.read t.mem (0x2000 + k))
  | .fault _ => none
  | .refused _ => none

/-- ERR_CODE and ERR_INFO of a command that failed. -/
def failed (o : Host.Outcome State Fault Refusal) : Option (Nat × Nat) :=
  match o with
  | .next t => if t.error then some (t.errCode.toNat, t.errInfo.toNat) else none
  | .fault _ => none
  | .refused _ => none

/-- The word the host reads at `off` after a step. -/
def readAfter (o : Host.Outcome State Fault Refusal) (off : BitVec 8) : Option Word :=
  match o with
  | .next t => some (readReg t off)
  | .fault _ => none
  | .refused _ => none

/-- The refusal a step ends in. -/
def refusal (o : Host.Outcome State Fault Refusal) : Option Refusal :=
  match o with
  | .next _ => none
  | .fault _ => none
  | .refused r => some r

/-- The output of a unit that succeeds. -/
def outOf (x : Except Raise Run) : Option (List Byte) :=
  match x with
  | .ok r => some r.out
  | .error _ => none

/-! ### Ill-formed terms are refused -/

theorem test_wf_width : (Input.write 16 0x10 0).wellFormed = false := by decide

theorem test_wf_alignment : (Input.read 32 0x0E).wellFormed = false := by decide

theorem test_wf_address : (Input.memWrite (2 ^ 32) 0).wellFormed = false ∧ (Input.memRead (2 ^ 32)).wellFormed = false := by
  decide

theorem test_wf_top_address : (Input.memRead (2 ^ 32 - 1)).wellFormed = true := by decide

theorem test_wf_min_zero : Config.wellFormed { Config.default with minMatchLen := 0 } = false := by decide

theorem test_wf_min_above_max : Config.wellFormed { Config.default with minMatchLen := 19 } = false := by decide

theorem test_wf_max_256 : Config.wellFormed { Config.default with maxMatchLen := 256 } = false := by decide

theorem test_wf_window_zero : Config.wellFormed { Config.default with windowSize := 0 } = false := by decide

theorem test_wf_window_65536 : Config.wellFormed { Config.default with windowSize := 65536 } = false := by decide

theorem test_wf_threshold : Config.wellFormed { Config.default with lzStoreThreshold := 65536 } = false := by decide

theorem test_wf_bounds_in : Config.wellFormed
    { Config.default with minMatchLen := 1, maxMatchLen := 255, windowSize := 65535, lzStoreThreshold := 0 } = true := by
  decide

theorem test_step_refuses_width :
    refusal (step (idleWith [.write 16 0x10 0])) = some .registerAccessForm := by decide

theorem test_step_refuses_alignment :
    refusal (step (idleWith [.read 32 0x0E])) = some .registerAccessForm := by decide

theorem test_step_faults_address :
    (match step (idleWith [.memRead (2 ^ 32)]) with
      | .fault f => some f
      | .next _ => none
      | .refused _ => none) = some Fault.noSuchAddress := by decide

/-! ### Words written out from the spec's encodings (30_encoding R110, R111, R114, R116) -/

theorem test_decode_huffEnc : decode .cmd [0x01, 0x00, 0x00, 0x00] = .ok (.huffEnc, []) := rfl

theorem test_decode_huffDec : decode .cmd [0x02, 0x00, 0x00, 0x00] = .ok (.huffDec, []) := rfl

theorem test_decode_lz77Enc : decode .cmd [0x03, 0x00, 0x00, 0x00] = .ok (.lz77Enc, []) := rfl

theorem test_decode_lz77Dec : decode .cmd [0x04, 0x00, 0x00, 0x00] = .ok (.lz77Dec, []) := rfl

theorem test_decode_rleEnc : decode .cmd [0x05, 0x00, 0x00, 0x00] = .ok (.rleEnc, []) := rfl

theorem test_decode_rleDec : decode .cmd [0x06, 0x00, 0x00, 0x00] = .ok (.rleDec, []) := rfl

theorem test_decode_start : decode .ctrl [0x05, 0x00, 0x00, 0x00] = .ok (.start true 0, []) := rfl

theorem test_decode_softReset : decode .ctrl [0x03, 0x00, 0x00, 0x00] = .ok (.softReset true 0, []) := rfl

theorem test_decode_doneClear : decode .status [0x02, 0x00, 0x00, 0x00] = .ok (.doneClear false 0, []) := rfl

theorem test_decode_reserved_bit : decode .cmd [0x01, 0x00, 0x00, 0x80] = .error .noCommand := rfl

theorem test_decode_op_7 : decode .cmd [0x07, 0x00, 0x00, 0x00] = .error .noCommand := rfl

theorem test_decode_ie_only : decode .ctrl [0x04, 0x00, 0x00, 0x00] = .error .noAction := rfl

theorem test_decode_short : decode .cmd [0x01, 0x00, 0x00] = .error .short := rfl

/-! ### The interface of the table words -/

theorem test_fetch_word_rleEnc : decodeTableWord 32 0x5 = some .rleEnc := by decide

theorem test_fetch_word_runs :
    readAfter (step (State.withFetchWord State.reset 32 0x1)) 0x0C = some 0x00000806 := by decide +kernel

theorem test_fetch_word_rleDec_runs :
    readAfter (step (State.withFetchWord State.reset 32 0x6)) 0x0C = some 0x00000002 := by decide

/-! ### The control actions (40_command_sequencer R150 to R156) -/

theorem test_id : readReg State.reset 0x00 = 0x0000CCB1 := by decide

theorem test_param_lz : readReg State.reset 0x2C = 0x03121000 := by decide

theorem test_start_busy :
    readAfter (step { idleWith [.write 32 0x08 0x1] with cmd := 0x5 }) 0x0C = some 0x00000001 := by decide

theorem test_start_sets_ie : readAfter (step (idleWith [.write 32 0x08 0x5])) 0x08 = some 0x00000004 := by decide

theorem test_soft_reset : readAfter (step { ready 0x2 [] 0 with inputs := [.write 32 0x08 0x2] }) 0x0C = some 0 := by decide

theorem test_soft_reset_is_no_start :
    readAfter (step { idleWith [.write 32 0x08 0x3] with cmd := 0x5 }) 0x10 = some 0 := by decide

theorem test_done_clear :
    readAfter (step { idleWith [.write 32 0x0C 0x2] with done := true, error := true, errCode := 8 }) 0x0C =
      some 0x00000804 := by decide

theorem test_status_write_bit0_only :
    readAfter (step { idleWith [.write 32 0x0C 0xFFFFFFFD] with done := true }) 0x0C = some 0x00000002 := by decide

/-! ### The commands, on the examples of the spec -/

/-- 41_huffman_encoder R210, the example "aab". -/
theorem test_huff_enc_aab : written (exec .huffEnc (ready 1 [0x61, 0x61, 0x62] 64)) =
    some [0x02, 0, 0, 0, 0, 0, 0, 0, 0x61, 0x02, 0, 0, 0, 0x62, 0x01, 0, 0, 0, 0x03, 0, 0, 0, 0, 0, 0, 0, 0xC0] := by
  decide

/-- 41_huffman_encoder R211: in the header OUTPUT_OVERFLOW carries L_LEN. -/
theorem test_huff_enc_overflow : failed (exec .huffEnc (ready 1 [0x61, 0x61, 0x62] 10)) = some (8, 3) := by decide

/-- 42_huffman_decoder R247, the example "aab". -/
theorem test_huff_dec_aab : written (exec .huffDec (ready 2
    [0x02, 0, 0, 0, 0, 0, 0, 0, 0x61, 0x02, 0, 0, 0, 0x62, 0x01, 0, 0, 0, 0x03, 0, 0, 0, 0, 0, 0, 0, 0xC0] 3)) =
    some [0x61, 0x61, 0x62] := by decide

/-- 42_huffman_decoder R241: a descending pair. -/
theorem test_huff_dec_corrupt : failed (exec .huffDec (ready 2
    [0x02, 0, 0, 0, 0, 0, 0, 0, 0x62, 0x02, 0, 0, 0, 0x61, 0x01, 0, 0, 0, 0x03, 0, 0, 0, 0, 0, 0, 0, 0xC0] 3)) =
    some (3, 13) := by decide

/-- 43_lz77_encoder R284, the example of 64 bytes 'a'. -/
theorem test_lz77_enc_64a : written (exec .lz77Enc (ready 3 (List.replicate 64 0x61) 64)) =
    some [0x43, 0, 0, 0, 0, 0x61, 1, 0, 0x12, 0, 0x61, 1, 0, 0x12, 0, 0x61, 1, 0, 0x12, 0, 0x61, 1, 0, 5, 0, 0x61] := by
  decide +kernel

/-- 43_lz77_encoder R283, the example "ABABAB". -/
theorem test_lz77_enc_stored : written (exec .lz77Enc (ready 3 [0x41, 0x42, 0x41, 0x42, 0x41, 0x42] 7)) =
    some [0x55, 0x41, 0x42, 0x41, 0x42, 0x41, 0x42] := by decide

/-- 44_lz77_decoder R324, the example "AAAAAAB": the copy overlaps itself. -/
theorem test_lz77_dec_overlap :
    written (exec .lz77Dec (ready 4 [0x43, 0, 0, 0, 0, 0x41, 1, 0, 5, 0, 0x42] 7)) =
      some [0x41, 0x41, 0x41, 0x41, 0x41, 0x41, 0x42] := by decide

/-- 44_lz77_decoder R323, the example with nothing produced. -/
theorem test_lz77_dec_offset : failed (exec .lz77Dec (ready 4 [0x43, 1, 0, 3, 0, 0x41] 7)) = some (4, 1) := by decide

/-- 45_rle_encoder R354, the example of 10 bytes 'a'. -/
theorem test_rle_enc_run : written (exec .rleEnc (ready 5 (List.replicate 10 0x61) 2)) = some [0x8A, 0x61] := by decide

/-- 45_rle_encoder R351, the example "abcdd". -/
theorem test_rle_enc_raw : written (exec .rleEnc (ready 5 [0x61, 0x62, 0x63, 0x64, 0x64] 16)) =
    some [0x02, 0x61, 0x62, 0x63, 0x82, 0x64] := by decide

/-- 46_rle_decoder R382, the example `8A 61`. -/
theorem test_rle_dec_run : written (exec .rleDec (ready 6 [0x8A, 0x61] 10)) = some (List.replicate 10 0x61) := by decide

/-- 60_exceptions R412, the example: truncation comes before overflow. -/
theorem test_rle_dec_priority : failed (exec .rleDec (ready 6 [0x8A] 0)) = some (2, 0) := by decide

/-! ### Concrete states that meet the hypotheses of the statements -/

/-- A unit that succeeds on a defined run gives the command's next state. -/
theorem next_of_out {i : Instr} {u : Env → Run → Except Raise Run} {s : State} {out : List Byte} (hu : unitOf i = some u)
    (hs : s.Running) (ho : outOf (u s.env s.begin) = some out) :
    ∃ t, exec i s = .next t ∧ t.error = false ∧ t.outLen = BitVec.ofNat 32 out.length ∧
      t.mem = Memory.writeBytes s.mem s.latch.dst.toNat out ∧ t.cfg = s.cfg := by
  cases h : u s.env s.begin with
  | error r => rw [h] at ho; cases ho
  | ok r =>
    rw [h] at ho
    obtain rfl : r.out = out := Option.some.inj ho
    exact ⟨_, by rw [exec_of_unit hu, runCommand_ok hs.phase hs.checks h], by simp [succeed, complete, forgetInternals, flagsComplete]⟩

/-- The states `ready` builds on the default machine reach every address. -/
theorem ready_bus (w : Word) (bs : List Byte) (cap : Nat) : (ready w bs cap).env.BusFine :=
  ⟨fun _ _ => rfl, fun _ _ => rfl⟩

theorem tuned_bus (w : Word) (bs : List Byte) (cap a b : Nat) : (readyTuned w bs cap a b).env.BusFine :=
  ⟨fun _ _ => rfl, fun _ _ => rfl⟩

theorem test_witness_StepRunsLatchedCommand : (ready 5 [] 0).cfg.wellFormed = true ∧ (ready 5 [] 0).phase = .run ∧
    decode .cmd (wordBytes (ready 5 [] 0).latch.cmd) = .ok (.rleEnc, []) ∧ (ready 5 [] 0).inputs = [] ∧
    ({ ready 5 [] 0 with inputs := [.blockTurn] } : State).inputs = .blockTurn :: [] := ⟨by decide, rfl, rfl, rfl, rfl⟩

theorem test_witness_StepRunsControlAction : (idleWith [.write 32 0x08 0x5]).cfg.wellFormed = true ∧
    (idleWith [.write 32 0x08 0x5]).inputs = .write 32 0x08 0x5 :: [] ∧ writePort 0x08 = some .ctrl ∧
    decode .ctrl (wordBytes 0x5) = .ok (.start true 0, []) ∧ writePort 0x0C = some .status ∧
    decode .status (wordBytes 0x2) = .ok (.doneClear false 0, []) ∧
    decode .ctrl (wordBytes 0x2) = .ok (.softReset false 0, []) := ⟨by decide, rfl, rfl, rfl, rfl, rfl, rfl⟩

/-- Each bound of 00_scope R11, just outside. -/
theorem test_witness_ConfigurationRefused :
    ({ Config.default with minMatchLen := 0 } : Config).minMatchLen = 0 ∧
    ({ Config.default with minMatchLen := 19 } : Config).maxMatchLen < 19 ∧
    255 < ({ Config.default with maxMatchLen := 256 } : Config).maxMatchLen ∧
    ({ Config.default with windowSize := 0 } : Config).windowSize = 0 ∧
    65535 < ({ Config.default with windowSize := 65536 } : Config).windowSize := by decide

theorem test_witness_ConfigurationFixed : step State.reset = .next State.reset := rfl

theorem test_witness_IdleBlockDoesNothing : State.reset.cfg.wellFormed = true ∧ State.reset.phase = .idle ∧
    State.reset.inputs = [] ∧ (idleWith [.blockTurn]).inputs = .blockTurn :: [] := by decide

/-- Each register of 10_state section 1, and both ends of the reserved offsets. -/
theorem test_witness_RegisterRead :
    ∀ off ∈ ([0x00, 0x04, 0x08, 0x0C, 0x10, 0x14, 0x18, 0x1C, 0x20, 0x24, 0x28, 0x2C, 0x30, 0x34, 0xFC] : List (BitVec 8)),
      off.toNat % 4 = 0 ∧ (idleWith [.read 32 off]).cfg.wellFormed = true ∧
      (idleWith [.read 32 off]).inputs = .read 32 off :: [] ∧ (off = 0x34 ∨ off = 0xFC → 0x34 ≤ off.toNat) := by decide

/-- Register accesses of a wrong width and of a wrong alignment; the first address past the space, and the first and last
byte of the block's window. -/
theorem test_witness_AccessFormRefused : (16 ≠ 32 ∨ (0x10 : BitVec 8).toNat % 4 ≠ 0) ∧
    (32 ≠ 32 ∨ (0x11 : BitVec 8).toNat % 4 ≠ 0) ∧ (idleWith [.write 16 0x10 0]).inputs = .write 16 0x10 0 :: [] ∧
    (idleWith [.read 32 0x11]).inputs = .read 32 0x11 :: [] ∧ (idleWith [.read 32 0x11]).cfg.wellFormed = true ∧
    (idleWith [.memWrite (2 ^ 32) 0]).inputs = .memWrite (2 ^ 32) 0 :: [] ∧
    (∀ a ∈ [0x40000000, 0x400000FF], a < 2 ^ 32 ∧ (∃ d ∈ Config.deviceRegions State.reset.cfg, d.contains a = true) ∧
      (idleWith [.memRead a]).inputs = .memRead a :: []) := by decide

theorem test_witness_OperandWriteStores :
    ∀ off ∈ ([0x10, 0x14, 0x18, 0x1C, 0x20] : List (BitVec 8)), (idleWith [.write 32 off 0xFFFFFFFF]).busy = false ∧
      (idleWith [.write 32 off 0xFFFFFFFF]).cfg.wellFormed = true ∧
      (idleWith [.write 32 off 0xFFFFFFFF]).inputs = .write 32 off 0xFFFFFFFF :: [] := by decide

theorem test_witness_WritesWhileBusy :
    ∀ off ∈ ([0x10, 0x14, 0x18, 0x1C, 0x20, 0x08, 0x0C] : List (BitVec 8)),
      ({ ready 5 [] 0 with inputs := [.write 32 off 0x2] } : State).busy = true ∧
      ({ ready 5 [] 0 with inputs := [.write 32 off 0x2] } : State).cfg.wellFormed = true ∧
      (0x2 : Word).getLsbD 1 = true ∧ (0x5 : Word).getLsbD 1 = false := by decide

theorem test_witness_ReadOnlyWritesIgnored :
    ∀ off ∈ ([0x00, 0x04, 0x24, 0x28, 0x2C, 0x30, 0x34, 0xFC] : List (BitVec 8)), off.toNat % 4 = 0 ∧
      (off = 0x00 ∨ off = 0x04 ∨ off = 0x24 ∨ off = 0x28 ∨ off = 0x2C ∨ off = 0x30 ∨ 0x34 ≤ off.toNat) ∧
      (idleWith [.write 32 off 1]).inputs = .write 32 off 1 :: [] ∧
      (idleWith [.write 32 off 1]).cfg.wellFormed = true := by decide

theorem test_witness_CtrlWriteDecoding : (0x2 : Word).getLsbD 1 = true ∧ (0x1 : Word).getLsbD 1 = false ∧
    (0x1 : Word).getLsbD 0 = true ∧ (0x4 : Word).getLsbD 1 = false ∧ (0x4 : Word).getLsbD 0 = false ∧
    (idleWith [.write 32 0x08 0x4]).inputs = .write 32 0x08 0x4 :: [] ∧
    (idleWith [.write 32 0x08 0x4]).cfg.wellFormed = true := by decide

theorem test_witness_StatusWriteAndReservedBits : (0x2 : Word).getLsbD 1 = true ∧ (0xFFFFFFFD : Word).getLsbD 1 = false ∧
    (idleWith [.write 32 0x0C 0x2]).inputs = .write 32 0x0C 0x2 :: [] ∧
    (idleWith [.write 32 0x0C 0x2]).cfg.wellFormed = true := by decide

/-- Idle, with an RLE_ENC of the byte 0x61 at 0x1000 into four bytes at 0x2000 to be started, on a machine and with a host
the given functions change. -/
def armed (c : Config → Config) (h : HostView → HostView) : State :=
  { State.reset with
    cfg := c State.reset.cfg
    host := h State.reset.host
    cmd := 5
    srcAddr := 0x1000
    srcLen := 1
    dstAddr := 0x2000
    dstCap := 4 }

theorem armed_dutiful : (armed id id).Dutiful := ⟨by decide, by decide⟩

/-- Busy; idle with the duties kept; idle with a command word that selects nothing and empty regions. -/
theorem test_witness_StartEffect : (ready 5 [] 0).busy = true ∧ (armed id id).busy = false ∧ (armed id id).Dutiful ∧
    State.reset.busy = false ∧ State.reset.Dutiful := ⟨rfl, rfl, armed_dutiful, rfl, ⟨by decide, by decide⟩⟩

/-- 70_reset_and_hazards R461: an accepted START, one refused for each duty, and one whose word selects no command. -/
theorem test_start_duties :
    refusal (exec (.start false 0) (armed id id)) = none ∧
    refusal (exec (.start false 0) (armed (fun c => { c with devices := [⟨0x2003, 1⟩] }) id)) = some .regionOverDevice ∧
    refusal (exec (.start false 0) (armed (fun c => { c with sideEffectMem := [⟨0x1000, 1⟩] }) id)) =
      some .inputNotIdempotent ∧
    refusal (exec (.start false 0) (armed id fun h => { h with unfenced := [0x1000] })) = some .inputStoreUnordered ∧
    refusal (exec (.start false 0) { armed (fun c => { c with devices := [⟨0x2003, 1⟩] }) id with cmd := 0 }) =
      some .regionOverDevice ∧
    refusal (exec (.start false 0) (armed (fun c => { c with dmaCoherent := false }) fun h =>
      { h with dirty := [0x1000] })) = some .inputCacheUnclean := by decide

/-- 70_reset_and_hazards R461 duty 1: a START before the last command's DONE was seen keeps that command's regions. -/
theorem test_second_start_keeps_duties : (match exec (.start false 0)
      { armed id (fun h => { h with owned := [⟨⟨0x5000, 1⟩, ⟨0x6000, 1⟩⟩] }) with done := true } with
    | .next t => commandOwns t 0x5000 && commandOwns t 0x6000 && commandOwns t 0x1000 && !commandOwns t 0x5001
    | .fault _ => false
    | .refused _ => false) = true := by decide

/-- 20_memory R96, 70_reset_and_hazards R461 duty 7: also after BAD_COMMAND the output waits for the sight of DONE and a
fence. -/
theorem test_bad_command_output_waits : (match step (ready 7 [] 4) with
    | .next t => t.host.outUnordered == [(⟨0x2000, 4⟩, false)] && t.host.outCached == [⟨0x2000, 4⟩]
    | .fault _ => false
    | .refused _ => false) = true := by decide

/-- 40_command_sequencer R153, 93_implementation_defined 2: an abort of a command with a wrapping region writes no address
past the space. -/
theorem test_abort_wrapping : (match exec (.softReset false 0)
      { ready 5 [] 0 with latch := ⟨5, 0x1000, 0, 0xFFFFFFFF, 9⟩ } with
    | .next t => Memory.read t.mem (2 ^ 32) = Memory.unlisted ∧ Memory.read t.mem 0xFFFFFFFE = Memory.unlisted
    | .fault _ => False
    | .refused _ => False) := by
  refine ⟨?_, ?_⟩ <;> exact Memory.read_write_other _ rfl (by decide)

theorem test_witness_SoftResetEffect : Memory.wf (ready 5 [1, 2] 4).mem = true ∧ State.reset.phase = .idle ∧
    1 < (ready 5 [1, 2] 4).latch.len.toNat ∧
    (ready 5 [1, 2] 4).latch.input.meets (ready 5 [1, 2] 4).latch.output = false := by decide

theorem test_witness_SoftResetIsHardwareReset : (0x3 : Word).getLsbD 1 = true ∧
    ({ ready 5 [] 0 with inputs := [.write 32 0x08 0x3] } : State).inputs = .write 32 0x08 0x3 :: [] ∧
    ({ ready 5 [] 0 with inputs := [.write 32 0x08 0x3] } : State).cfg.wellFormed = true := by decide

/-- A running state with the invariant. -/
theorem ready_inv : (ready 5 [0x61] 4).Inv := by
  refine ⟨?_, ?_, ?_, ?_, ?_, ?_, ?_, ?_, ?_, ?_, ?_⟩ <;> decide

theorem test_witness_DoneClearEffect : (ready 5 [0x61] 4).Inv ∧ (ready 5 [0x61] 4).busy = true := ⟨ready_inv, rfl⟩

theorem rle_running : (ready 5 [0x61, 0x61] 4).Running := ⟨rfl, by decide, by decide⟩

theorem test_witness_InterruptLine : Instr.rleEnc.port = .cmd ∧
    (∃ t, exec .rleEnc (ready 5 [0x61, 0x61] 4) = .next t) ∧
    (idleWith [.write 32 0x08 0x4]).inputs = .write 32 0x08 0x4 :: [] ∧ (0x4 : Word).getLsbD 1 = false ∧
    (0x4 : Word).getLsbD 0 = false ∧ (armed id id).busy = false ∧ (armed id id).Dutiful :=
  ⟨rfl, (next_of_out (i := .rleEnc) (out := [0x82, 0x61]) rfl rle_running (by decide)).imp fun _ h => h.1, rfl, rfl, rfl, rfl, armed_dutiful⟩

theorem test_witness_BadCommand : (ready 0 [] 0).latch.cmd = 0 ∧ 7 ≤ (ready 7 [] 0).latch.cmd.toNat ∧
    7 ≤ (ready 0x11 [] 0).latch.cmd.toNat ∧ (ready 7 [] 0).phase = .run ∧ (ready 7 [] 0).inputs = [] ∧
    ({ ready 7 [] 0 with inputs := [.blockTurn] } : State).inputs = .blockTurn :: [] ∧
    (ready 7 [] 0).cfg.wellFormed = true := by decide

/-- A region that ends one byte past the space, and two regions that share one byte. -/
theorem test_witness_RangeError :
    2 ^ 32 < (0xFFFFFFFF : Word).toNat + (2 : Word).toNat ∧
    decode .cmd (wordBytes 0x5) = .ok (.rleEnc, []) ∧
    (∃ a, (0x10 : Word).toNat ≤ a ∧ a < (0x10 : Word).toNat + (2 : Word).toNat ∧ (0x11 : Word).toNat ≤ a ∧
      a < (0x11 : Word).toNat + (1 : Word).toNat) := ⟨by decide, rfl, 0x11, by decide⟩

theorem test_witness_CommandCompletes : Instr.rleEnc.port = .cmd ∧ (ready 5 [0x61, 0x61] 4).phase = .run := by decide

theorem test_witness_CommandLeavesUnchanged : Instr.rleEnc.port = .cmd ∧ (ready 5 [0x61, 0x61] 4).phase = .run ∧
    Memory.wf (ready 5 [0x61, 0x61] 4).mem = true ∧
    ∃ t, exec .rleEnc (ready 5 [0x61, 0x61] 4) = .next t ∧ t.error = false :=
  ⟨rfl, rfl, by decide, (next_of_out (i := .rleEnc) (out := [0x82, 0x61]) rfl rle_running (by decide)).imp fun _ h => ⟨h.1, h.2.1⟩⟩

/-- A step of a running block that ends with an error. -/
theorem test_witness_ErrorsOfEachCommand : (ready 7 [] 0).cfg.wellFormed = true ∧ (ready 7 [] 0).inputs = [] ∧
    (ready 7 [] 0).phase = .run ∧ (∃ t, step (ready 7 [] 0) = .next t ∧ t.error = true) ∧
    (∃ t, step { ready 7 [] 0 with inputs := [.blockTurn, .fence] } = .next t ∧ t.error = true) ∧
    (∃ t, step (ready 5 [0x61] 0) = .next t ∧ t.error = true) ∧
    decode .cmd (wordBytes (ready 5 [0x61] 0).latch.cmd) = .ok (.rleEnc, []) :=
  ⟨by decide, rfl, rfl, ⟨_, rfl, rfl⟩, ⟨_, rfl, rfl⟩, ⟨_, rfl, rfl⟩, rfl⟩

/-- The three clauses of 60_exceptions R413. -/
theorem test_witness_ErrInfo : failed (step (readyNoBus 6 [0x8A, 0x61] 4)) = some (9, 0x1000) ∧
    failed (step (ready 7 [] 0)) = some (6, 0) ∧ failed (step (ready 5 [0x61] 0)) = some (8, 0) := by decide

/-- 60_exceptions R409: RLE_ENC of "aa" and LZ77_ENC of "a" where the second output byte or the last input byte is
rejected. -/
theorem test_bus_errors : failed (step (readyRejecting 0x2001 5 [0x61, 0x61] 4)) = some (9, 0x2001) ∧
    failed (step (readyRejecting 0x1001 5 [0x61, 0x61] 4)) = some (9, 0x1001) ∧
    failed (step (readyRejecting 0x2001 3 [0x61] 4)) = some (9, 0x2001) ∧
    failed (step (readyNoBus 3 [0x61] 4)) = some (9, 0x1000) := by decide

/-- A command that succeeds on a clear bus, with its last output byte rejected, with its first input byte rejected, and
with a byte of the output region rejected that it does not write. -/
theorem test_witness_BusErrors : (readyRejecting 0x2001 5 [0x61, 0x61] 4).Running ∧
    (∃ t0, exec .rleEnc (readyRejecting 0x2001 5 [0x61, 0x61] 4).busClear = .next t0 ∧ t0.error = false ∧
      t0.outLen = 2) ∧
    (readyRejecting 0x2001 5 [0x61, 0x61] 4).env.FirstBadOut 1 ∧ (readyNoBus 5 [0x61, 0x61] 4).env.FirstBadIn 0 ∧
    (readyNoBus 6 [0x8A, 0x61] 4).Running ∧ (readyNoBus 6 [0x8A, 0x61] 4).env.FirstBadIn 0 ∧
    (readyRejecting 0x2002 5 [0x61, 0x61] 4).env.FirstBadOut 2 := by
  refine ⟨⟨rfl, by decide, by decide⟩, ?_, ⟨by decide, by decide, by decide⟩, ⟨by decide, by decide, by decide⟩,
    ⟨rfl, by decide, by decide⟩, ⟨by decide, by decide, by decide⟩, ⟨by decide, by decide, by decide⟩⟩
  exact (next_of_out (i := .rleEnc) (out := [0x82, 0x61]) rfl
    ⟨rfl, by decide, by decide⟩ (by decide)).imp fun _ h => ⟨h.1, h.2.1, h.2.2.1⟩

/-- Each duty of the statement, kept and broken; the last address of the output region, and one of the block's own
window. -/
theorem test_witness_DutiesRefused : (armed id id).busy = false ∧
    (∃ d ∈ Config.deviceRegions (armed (fun c => { c with devices := [⟨0x2003, 1⟩] }) id).cfg,
      d.meets (armed id id).operands.output = true) ∧
    (∃ d ∈ Config.deviceRegions (armed (fun c => { c with base := 0x00000F01 }) id).cfg,
      d.meets (armed id id).operands.input = true) ∧
    (∃ m ∈ (armed (fun c => { c with sideEffectMem := [⟨0x1000, 1⟩] }) id).cfg.sideEffectMem,
      m.meets (armed id id).operands.input = true) ∧
    (∃ a ∈ (armed id fun h => { h with unfenced := [0x1000] }).host.unfenced,
      (armed id id).srcAddr.toNat ≤ a ∧ a < (armed id id).srcAddr.toNat + (armed id id).srcLen.toNat) ∧
    OnMemory (armed id id).cfg (armed id id).operands ∧ StoresReach (armed id id) (armed id id).operands := by decide

/-- An output whose DONE was seen and one whose was not; a store inside the cleaned range and one outside. -/
theorem test_witness_FenceAndClean : (idleWith [.fence]).inputs = .fence :: [] ∧
    (idleWith [.fence]).cfg.wellFormed = true ∧
    (idleWith [.cacheClean ⟨0x1000, 1⟩]).inputs = .cacheClean ⟨0x1000, 1⟩ :: [] ∧
    (⟨0x1000, 1⟩ : Region).contains 0x1000 = true ∧ (⟨0x1000, 1⟩ : Region).contains 0x1001 = false := by decide

/-- The lowest and the highest address. -/
theorem test_witness_HostStore : ∀ a ∈ [0, 2 ^ 32 - 1], a < 2 ^ 32 ∧
    (∀ d ∈ Config.deviceRegions State.reset.cfg, d.contains a = false) ∧ commandOwns State.reset a = false ∧
    Memory.wf State.reset.mem = true := by decide

theorem test_witness_HostAccessWhileRunning :
    (∀ d ∈ Config.deviceRegions (ready 5 [0x61] 4).cfg, d.contains 0x2003 = false) ∧
    (ready 5 [0x61] 4).phase = .run ∧ (ready 5 [0x61] 4).latch.output.contains 0x2003 = true ∧
    (ready 5 [0x61] 4).latch.input.contains 0x1000 = true ∧
    ⟨⟨0x1000, 1⟩, ⟨0x2000, 4⟩⟩ ∈ (ready 5 [0x61] 4).host.owned := by decide

theorem test_witness_DoneThenFenceOrders :
    ({ idleWith [.read 32 0x0C, .fence] with done := true } : State).done = true ∧
    ({ idleWith [.read 32 0x0C, .fence] with done := true } : State).cfg.wellFormed = true ∧
    (idleWith [.read 32 0x0C, .fence]).inputs = .read 32 0x0C :: .fence :: [] := by decide

/-- An output whose DONE was not seen, one not invalidated, and plain memory. -/
theorem test_witness_HostLoad : (idleWith [.memRead 0x2000]).cfg.wellFormed = true ∧
    (∀ d ∈ Config.deviceRegions State.reset.cfg, d.contains 0x2000 = false) ∧ State.reset.phase = .idle ∧
    (∃ p ∈ [((⟨0x2000, 1⟩ : Region), false)], p.1.contains 0x2000 = true) ∧
    (∃ r ∈ [(⟨0x2000, 1⟩ : Region)], r.contains 0x2000 = true) ∧
    State.reset.host.owned = [] ∧ State.reset.host.outUnordered = [] ∧ State.reset.cfg.dmaCoherent = true ∧
    refusal (step { idleWith [.memRead 0x2000] with
      host := { HostView.fresh with outUnordered := [(⟨0x2000, 1⟩, false)] } }) = some .outputReadUnordered ∧
    refusal (step { idleWith [.memRead 0x2000] with
      cfg := { Config.default with dmaCoherent := false }
      host := { HostView.fresh with outCached := [⟨0x2000, 1⟩] } }) = some .outputCacheStale := by decide

/-- Half of an output invalidated; the interrupt at the wired input, at another one and while IRQ is 0. -/
theorem test_witness_InvalidateAndInterrupt :
    (idleWith [.cacheInvalidate ⟨0x2000, 2⟩]).inputs = .cacheInvalidate ⟨0x2000, 2⟩ :: [] ∧
    (idleWith [.cacheInvalidate ⟨0x2000, 2⟩]).cfg.wellFormed = true ∧
    (⟨0x2000, 4⟩ : Region).minus ⟨0x2000, 2⟩ = [⟨0x2000, 0⟩, ⟨0x2002, 2⟩] ∧
    ({ idleWith [.takeIrq 0] with done := true, ie := true } : State).irq = true ∧
    (idleWith [.takeIrq 0]).cfg.irqInput = some 0 ∧ (idleWith [.takeIrq 1]).cfg.irqInput ≠ some 1 ∧
    (idleWith [.takeIrq 0]).irq = false := by decide

theorem test_witness_StepKeepsInv : (ready 5 [0x61] 4).Inv ∧ ∃ t, step (ready 5 [0x61] 4) = .next t :=
  ⟨ready_inv, _, rfl⟩

/-- As `ready 5 [0x61, 0x61] 4`, with other registers, cursors and memory elsewhere. -/
def rleOther : State :=
  { ready 5 [0x61, 0x61] 4 with
    ie := true
    srcLen := 9
    op := 7
    mem := Memory.write (ready 5 [0x61, 0x61] 4).mem 0x3000 1 }

/-- Two states that agree on what a command may use and differ in internal state, registers and other memory. -/
theorem test_witness_ResultIsAFunction : (ready 5 [0x61, 0x61] 4).Running ∧
    rleOther.Running ∧
    rleOther.env.bytes =
      (ready 5 [0x61, 0x61] 4).env.bytes ∧
    (∃ t, exec .rleEnc (ready 5 [0x61, 0x61] 4) = .next t ∧ t.error = false) :=
  ⟨rle_running, ⟨rfl, by decide, by decide⟩, by decide,
    (next_of_out (i := .rleEnc) (out := [0x82, 0x61]) rfl rle_running (by decide)).imp fun _ h => ⟨h.1, h.2.1⟩⟩

theorem huff_running : (ready 1 [0x61] 21).Running := ⟨rfl, by decide, by decide⟩

theorem huff_out : outOf (huffEncUnit (ready 1 [0x61] 21).env (ready 1 [0x61] 21).begin) =
    some [1, 0, 0, 0, 0, 0, 0, 0, 0x61, 1, 0, 0, 0, 0, 0, 0, 0, 0, 0, 0, 0] := by decide

theorem test_witness_HuffResultIsAFunction : (ready 1 [0x61] 21).Running ∧
    ({ ready 1 [0x61] 21 with op := 7 } : State).Running ∧
    (∃ t, exec .huffEnc (ready 1 [0x61] 21) = .next t ∧ t.error = false) :=
  ⟨huff_running, ⟨rfl, by decide, by decide⟩, (next_of_out (i := .huffEnc) rfl huff_running huff_out).imp fun _ h => ⟨h.1, h.2.1⟩⟩

/-- One span, into a region that holds it and into one that does not. -/
theorem test_witness_RleEncWritesSpans : (ready 5 [0x61, 0x61] 4).Running ∧ (ready 5 [0x61, 0x61] 4).env.BusFine ∧
    Memory.wf (ready 5 [0x61, 0x61] 4).mem = true ∧
    RleEncoding 0 (ready 5 [0x61, 0x61] 4).env.bytes [(0, [0x82, 0x61])] ∧
    (recordBytes [(0, [(0x82 : Byte), 0x61])]).length ≤ (ready 5 [0x61, 0x61] 4).latch.cap.toNat ∧
    (ready 5 [0x61, 0x61] 1).latch.cap.toNat < (recordBytes []).length + [(0x82 : Byte), 0x61].length ∧
    failed (exec .rleEnc (ready 5 [0x61, 0x61] 1)) = some (8, 0) := by
  refine ⟨rle_running, ready_bus _ _ _, by decide, ?_, by decide, by decide, by decide⟩
  exact RleEncoding.run 0 0x61 2 (rest := []) (by decide) (by decide) (by simp) (.nil 2)

/-- A run and a raw span, into a region that holds them; the run too long by one, and the raw span too long by one. -/
theorem test_witness_RleDecExpands : (ready 6 [0x82, 0x61, 0x00, 0x62] 3).Running ∧
    (ready 6 [0x82, 0x61, 0x00, 0x62] 3).env.BusFine ∧
    RleArtifact (ready 6 [0x82, 0x61, 0x00, 0x62] 3).env.bytes [0x61, 0x61, 0x62] ∧
    [0x61, 0x61, 0x62].length ≤ (ready 6 [0x82, 0x61, 0x00, 0x62] 3).latch.cap.toNat ∧
    failed (exec .rleDec (ready 6 [0x82, 0x61, 0x00, 0x62] 1)) = some (8, 2) ∧
    failed (exec .rleDec (ready 6 [0x82, 0x61, 0x00, 0x62] 2)) = some (8, 4) := by
  refine ⟨⟨rfl, by decide, by decide⟩, ready_bus _ _ _, ?_, by decide, by decide, by decide⟩
  exact RleArtifact.run 0x82 0x61 rfl (RleArtifact.raw 0x00 [0x62] rfl rfl .nil)

/-- A run without its value byte, and a raw span of one byte that ends before it. -/
theorem test_witness_RleDecTruncated : (ready 6 [0x85] 0).Running ∧ (ready 6 [0x85] 0).env.BusFine ∧ RleArtifact [] [] ∧
    (ready 6 [0x85] 0).env.bytes = [] ++ 0x85 :: [] ∧ (0x85 : Byte).getLsbD 7 = true ∧
    (ready 6 [0x00] 0).env.bytes = [] ++ 0x00 :: [] ∧ (0x00 : Byte).getLsbD 7 = false ∧
    ([] : List Byte).length < (0x00 : Byte).toNat % 128 + 1 :=
  ⟨⟨rfl, by decide, by decide⟩, ready_bus _ _ _, .nil, by decide, rfl, by decide, rfl, by decide⟩

/-- An encoder's run and the decoder's run of its output. -/
theorem test_witness_RleRoundTrip : ∃ t s' : State, (ready 5 [0x61, 0x61] 4).Running ∧
    exec .rleEnc (ready 5 [0x61, 0x61] 4) = .next t ∧ t.error = false ∧ s'.Running ∧ s'.env.BusFine ∧ s'.mem = t.mem ∧
    s'.latch.src = (ready 5 [0x61, 0x61] 4).latch.dst ∧ s'.latch.len = t.outLen ∧
    (ready 5 [0x61, 0x61] 4).latch.len.toNat ≤ s'.latch.cap.toNat := by
  obtain ⟨t, h, he, hl, hm, hc⟩ := next_of_out (i := .rleEnc) (out := [0x82, 0x61]) rfl rle_running (by decide)
  refine ⟨t, { State.reset with phase := .run, mem := t.mem, latch := ⟨6, 0x2000, t.outLen, 0x3000, 2⟩ },
    rle_running, h, he, ⟨rfl, ?_, ?_⟩, ⟨fun _ _ => rfl, fun _ _ => rfl⟩, rfl, rfl, rfl, le_refl _⟩
  · rw [hl]; exact (by decide : startChecks ⟨6, 0x2000, BitVec.ofNat 32 2, 0x3000, 2⟩ = none)
  · rw [hl]; exact (by decide : OnMemory Config.default ⟨6, 0x2000, BitVec.ofNat 32 2, 0x3000, 2⟩)

/-- The shortest region that holds the artifact, and one byte less at each place. -/
theorem test_witness_Lz77StoresShortInput : (ready 3 [0x41, 0x42] 3).Running ∧ (ready 3 [0x41, 0x42] 3).env.BusFine ∧
    (ready 3 [0x41, 0x42] 3).latch.len.toNat < (ready 3 [0x41, 0x42] 3).cfg.lzStoreThreshold ∧
    1 + (ready 3 [0x41, 0x42] 3).latch.len.toNat ≤ (ready 3 [0x41, 0x42] 3).latch.cap.toNat ∧
    (ready 3 [0x41, 0x42] 0).latch.cap.toNat = 0 ∧ (ready 3 [0x41, 0x42] 2).latch.cap.toNat = 1 + 1 ∧
    (ready 3 [0x41, 0x42] 1).latch.cap.toNat = 1 + 0 :=
  ⟨⟨rfl, by decide, by decide⟩, ready_bus _ _ _, by decide, by decide, by decide, by decide, by decide⟩

theorem lz_running : (readyTuned 3 [0x41, 0x41] 11 2 1).Running := ⟨rfl, by decide, by decide⟩

/-- Two bytes 'A' on a machine with a window of one byte: a region that holds both tokens, none, and one token short. -/
theorem test_witness_Lz77EncWritesTokens : (readyTuned 3 [0x41, 0x41] 11 2 1).Running ∧
    (readyTuned 3 [0x41, 0x41] 11 2 1).env.BusFine ∧ (readyTuned 3 [0x41, 0x41] 11 2 1).cfg.wellFormed = true ∧
    (readyTuned 3 [0x41, 0x41] 11 2 1).cfg.lzStoreThreshold ≤ (readyTuned 3 [0x41, 0x41] 11 2 1).latch.len.toNat ∧
    written (exec .lz77Enc (readyTuned 3 [0x41, 0x41] 11 2 1)) = some [0x43, 0, 0, 0, 0, 0x41, 0, 0, 0, 0, 0x41] ∧
    failed (exec .lz77Enc (readyTuned 3 [0x41, 0x41] 0 2 1)) = some (8, 0) ∧
    failed (exec .lz77Enc (readyTuned 3 [0x41, 0x41] 10 2 1)) = some (8, 1) :=
  ⟨lz_running, tuned_bus _ _ _ _ _, by decide, by decide, by decide, by decide, by decide⟩

theorem test_witness_Lz77DecReconstructs : (ready 4 [0x43, 0, 0, 0, 0, 0x41, 1, 0, 1, 0, 0x42] 3).Running ∧
    (ready 4 [0x43, 0, 0, 0, 0, 0x41, 1, 0, 1, 0, 0x42] 3).env.BusFine ∧
    LzArtifact 4096 (ready 4 [0x43, 0, 0, 0, 0, 0x41, 1, 0, 1, 0, 0x42] 3).env.bytes [0x41, 0x41, 0x42] ∧
    [0x41, 0x41, 0x42].length ≤ (ready 4 [0x43, 0, 0, 0, 0, 0x41, 1, 0, 1, 0, 0x42] 3).latch.cap.toNat ∧
    failed (exec .lz77Dec (ready 4 [0x43, 0, 0, 0, 0, 0x41, 1, 0, 1, 0, 0x42] 2)) = some (8, 11) ∧
    failed (exec .lz77Dec (ready 4 [0x55, 0x41, 0x42] 1)) = some (8, 3) := by
  refine ⟨⟨rfl, by decide, by decide⟩, ready_bus _ _ _, ?_, by decide, by decide, by decide⟩
  exact LzArtifact.tokens (LzTokens.token [] 0 0 0 0 0x41 (.inl rfl)
    (LzTokens.token [0x41] 1 0 1 0 0x42 (.inr (by decide)) (LzTokens.nil _)))

theorem test_witness_Lz77DecMarker : (ready 4 [0x58] 3).Running ∧ (ready 4 [0x58] 3).env.bytes = 0x58 :: [] ∧
    (0x58 : Byte) ≠ 0x55 ∧ (0x58 : Byte) ≠ 0x43 ∧ (ready 4 [] 3).Running ∧ (ready 4 [] 3).env.bytes = [] ∧
    (ready 4 [] 3).env.BusFine :=
  ⟨⟨rfl, by decide, by decide⟩, by decide, by decide, by decide, ⟨rfl, by decide, by decide⟩, by decide, ready_bus _ _ _⟩

/-- A record of one byte and of four; an offset of 0 and one above what was produced. -/
theorem test_witness_Lz77DecTokenErrors : (ready 4 [0x43, 0, 0, 0, 0, 0x41, 9] 3).Running ∧
    (ready 4 [0x43, 0, 0, 0, 0, 0x41, 9] 3).env.BusFine ∧ LzTokens 4096 [] [0, 0, 0, 0, 0x41] [0x41] ∧
    (ready 4 [0x43, 0, 0, 0, 0, 0x41, 9] 3).env.bytes = 0x43 :: [0, 0, 0, 0, 0x41] ++ [9] ∧
    (ready 4 [0x43, 0, 0, 0, 0, 0x41, 1, 2, 3, 4] 3).env.bytes = 0x43 :: [0, 0, 0, 0, 0x41] ++ [1, 2, 3, 4] ∧
    0 < pairValue 1 0 ∧ pairValue 0 0 = 0 ∧ min [(0x41 : Byte)].length 4096 < pairValue 2 0 := by
  refine ⟨⟨rfl, by decide, by decide⟩, ready_bus _ _ _, ?_, by decide, by decide, by decide, by decide, by decide⟩
  exact LzTokens.token [] 0 0 0 0 0x41 (.inl rfl) (LzTokens.nil _)

theorem test_witness_Lz77RoundTrip : ∃ t s' : State, (ready 3 [0x41, 0x42] 11).Running ∧
    (ready 3 [0x41, 0x42] 11).cfg.wellFormed = true ∧
    1 + 5 * (ready 3 [0x41, 0x42] 11).latch.len.toNat ≤ (ready 3 [0x41, 0x42] 11).latch.cap.toNat ∧
    exec .lz77Enc (ready 3 [0x41, 0x42] 11) = .next t ∧ t.error = false ∧ s'.Running ∧ s'.env.BusFine ∧
    s'.mem = t.mem ∧ s'.cfg = (ready 3 [0x41, 0x42] 11).cfg ∧ s'.latch.src = (ready 3 [0x41, 0x42] 11).latch.dst ∧
    s'.latch.len = t.outLen ∧ (ready 3 [0x41, 0x42] 11).latch.len.toNat ≤ s'.latch.cap.toNat := by
  have hr : (ready 3 [0x41, 0x42] 11).Running := ⟨rfl, by decide, by decide⟩
  obtain ⟨t, h, he, hl, hm, hc⟩ := next_of_out (i := .lz77Enc) (out := [0x55, 0x41, 0x42]) rfl hr (by decide)
  refine ⟨t, { State.reset with phase := .run, mem := t.mem, latch := ⟨4, 0x2000, t.outLen, 0x3000, 2⟩ },
    hr, by decide, by decide, h, he, ⟨rfl, ?_, ?_⟩, ⟨fun _ _ => rfl, fun _ _ => rfl⟩, rfl, rfl, rfl, rfl, le_refl _⟩
  · rw [hl]; exact (by decide : startChecks ⟨4, 0x2000, BitVec.ofNat 32 3, 0x3000, 2⟩ = none)
  · rw [hl]; exact (by decide : OnMemory Config.default ⟨4, 0x2000, BitVec.ofNat 32 3, 0x3000, 2⟩)

/-- The frequencies of "aab". -/
def freqAab : List Nat := List.replicate 97 0 ++ [2, 1] ++ List.replicate 157 0

theorem test_witness_TreeShape : 2 ≤ (symbols freqAab).length := by decide

theorem test_witness_CodesPrefixFree : 2 ≤ (symbols freqAab).length := by decide

/-- Seven bits into one byte, and eight. -/
theorem test_witness_BitPacking : (ready 1 [] 1).begin.u.acc = 0 ∧ (ready 1 [] 1).begin.u.packCnt = 0 ∧
    (ready 1 [] 1).begin.out.length + (7 + 7) / 8 ≤ (ready 1 [] 1).env.cap ∧
    (ready 1 [] 1).begin.out.length + (8 + 7) / 8 ≤ (ready 1 [] 1).env.cap ∧
    (ready 1 [] 1).env.cfg.busOk ((ready 1 [] 1).env.dst + 0) = true := by decide

theorem test_witness_HuffEncWritesArtifact : (ready 1 [0x61] 21).Running ∧ (ready 1 [0x61] 21).env.BusFine ∧
    Memory.wf (ready 1 [0x61] 21).mem = true ∧
    (huffArtifact (ready 1 [0x61] 21).env.bytes).length ≤ (ready 1 [0x61] 21).latch.cap.toNat ∧
    (ready 1 [0x61] 20).latch.cap.toNat < (huffArtifact (ready 1 [0x61] 20).env.bytes).length ∧
    failed (exec .huffEnc (ready 1 [0x61, 0x61, 0x62] 26)) = some (8, 3) :=
  ⟨huff_running, ready_bus _ _ _, by decide, by decide +kernel, by decide +kernel, by decide +kernel⟩

theorem test_witness_HuffEncDegenerate : (ready 1 [] 16).Running ∧ (ready 1 [] 16).latch.len = 0 ∧
    16 ≤ (ready 1 [] 16).latch.cap.toNat ∧ (ready 1 [0x61] 21).Running ∧ 1 ≤ (ready 1 [0x61] 21).latch.len.toNat ∧
    (ready 1 [0x61] 21).env.bytes = List.replicate (ready 1 [0x61] 21).latch.len.toNat 0x61 ∧
    21 ≤ (ready 1 [0x61] 21).latch.cap.toNat :=
  ⟨⟨rfl, by decide, by decide⟩, rfl, by decide, huff_running, by decide, by decide, by decide⟩

theorem test_witness_HuffDecDegenerate :
    (ready 2 (leBytes 8 0 ++ leBytes 8 (2 ^ 64 - 1) ++ [9]) 0).env.bytes =
      leBytes 8 0 ++ leBytes 8 (2 ^ 64 - 1) ++ [9] ∧
    (ready 2 (leBytes 8 0 ++ leBytes 8 (2 ^ 64 - 1) ++ [9]) 0).Running ∧
    (ready 2 (leBytes 8 1 ++ 0x41 :: leBytes 4 1 ++ leBytes 8 0 ++ []) 1).env.bytes =
      leBytes 8 1 ++ 0x41 :: leBytes 4 1 ++ leBytes 8 0 ++ [] ∧
    (ready 2 (leBytes 8 1 ++ 0x41 :: leBytes 4 1 ++ leBytes 8 0 ++ []) 1).Running ∧
    failed (exec .huffDec (ready 2 (leBytes 8 1 ++ 0x41 :: leBytes 4 1 ++ leBytes 8 0 ++ []) 0)) = some (8, 21) :=
  ⟨by decide, ⟨rfl, by decide, by decide⟩, by decide, ⟨rfl, by decide, by decide⟩, by decide⟩

/-- The first count too large, and an artifact one byte too short. -/
theorem test_witness_HuffDecCount : (ready 2 (leBytes 8 257 ++ []) 0).env.bytes = leBytes 8 257 ++ [] ∧
    (ready 2 (leBytes 8 257 ++ []) 0).Running ∧ (ready 2 [0, 0, 0, 0, 0, 0, 0] 0).latch.len.toNat < 8 ∧
    (ready 2 [0, 0, 0, 0, 0, 0, 0] 0).Running :=
  ⟨by decide, ⟨rfl, by decide, by decide⟩, by decide, ⟨rfl, by decide, by decide⟩⟩

/-- A zero first frequency, a repeated byte, a pair cut short and a totalBits cut short. -/
theorem test_witness_HuffDecPairs :
    (ready 2 (leBytes 8 1 ++ pairBytes [] ++ 0x61 :: leBytes 4 0 ++ []) 0).Running ∧
    (ready 2 (leBytes 8 1 ++ pairBytes [] ++ 0x61 :: leBytes 4 0 ++ []) 0).env.bytes =
      leBytes 8 1 ++ pairBytes [] ++ (0x61 :: leBytes 4 0 ++ []) ∧ PairsFine [] ∧ PairsFine [(0x61, 1)] ∧
    (∃ p, [((0x61 : Byte), 1)].getLast? = some p ∧ (0x61 : Byte).toNat ≤ p.1.toNat) ∧
    (ready 2 (leBytes 8 1 ++ pairBytes [] ++ [0x61, 1, 0, 0]) 0).env.bytes =
      leBytes 8 1 ++ pairBytes [] ++ [0x61, 1, 0, 0] ∧
    (ready 2 (leBytes 8 1 ++ pairBytes [(0x61, 1)] ++ [0, 0, 0, 0, 0, 0, 0]) 0).env.bytes =
      leBytes 8 1 ++ pairBytes [(0x61, 1)] ++ [0, 0, 0, 0, 0, 0, 0] := by
  refine ⟨⟨rfl, by decide, by decide⟩, by decide, ⟨List.isChain_nil, by simp⟩, ⟨List.isChain_singleton _, by simp⟩,
    ⟨(0x61, 1), rfl, by decide⟩, by decide, by decide⟩

/-- "aab" with two bits and a byte more than its payload needs. -/
theorem test_witness_HuffDecDecodes :
    freqAab.length = 256 ∧ (∀ f ∈ freqAab, f < 2 ^ 32) ∧ 2 ≤ (symbols freqAab).length ∧
    [(0x61 : Byte), 0x61, 0x62].length = freqAab.sum ∧ (∀ b ∈ [(0x61 : Byte), 0x61, 0x62], 0 < freqOf freqAab b) ∧
    ([(0x61 : Byte), 0x61, 0x62].flatMap (codeOf (codesFor freqAab))).length ≤ 5 ∧
    [(0x61 : Byte), 0x61, 0x62].flatMap (codeOf (codesFor freqAab)) <+: unpackBits [0xC0, 9] ∧
    (ready 2 (huffHeader freqAab (symbols freqAab) 5 ++ [0xC0, 9]) 3).env.bytes =
      huffHeader freqAab (symbols freqAab) 5 ++ [0xC0, 9] ∧
    (ready 2 (huffHeader freqAab (symbols freqAab) 5 ++ [0xC0, 9]) 3).Running ∧
    failed (exec .huffDec (ready 2 (huffHeader freqAab (symbols freqAab) 5 ++ [0xC0, 9]) 1)) = some (8, 27) :=
  ⟨by decide +kernel, by decide +kernel, by decide +kernel, by decide +kernel, by decide +kernel, by decide +kernel, by decide +kernel, by decide +kernel,
    ⟨rfl, by decide +kernel, by decide +kernel⟩, by decide +kernel⟩

/-- "aab" with one totalBits too few, and with no payload byte; a region with room for two of the three bytes. -/
theorem test_witness_HuffDecTruncated :
    min 2 (8 * [(0xC0 : Byte)].length) < ([(0x61 : Byte), 0x61, 0x62].flatMap (codeOf (codesFor freqAab))).length ∧
    ([(0x61 : Byte), 0x61, 0x62].flatMap (codeOf (codesFor freqAab))).take (min 2 (8 * [(0xC0 : Byte)].length)) <+:
      unpackBits [0xC0] ∧
    min 3 (8 * ([] : List Byte).length) < ([(0x61 : Byte), 0x61, 0x62].flatMap (codeOf (codesFor freqAab))).length ∧
    (ready 2 (huffHeader freqAab (symbols freqAab) 2 ++ [0xC0]) 2).env.bytes =
      huffHeader freqAab (symbols freqAab) 2 ++ [0xC0] ∧
    (∀ k, k ≤ [(0x61 : Byte), 0x61, 0x62].length →
      (([(0x61 : Byte), 0x61, 0x62].take k).flatMap (codeOf (codesFor freqAab))).length ≤
        min 2 (8 * [(0xC0 : Byte)].length) →
      k ≤ (ready 2 (huffHeader freqAab (symbols freqAab) 2 ++ [0xC0]) 2).latch.cap.toNat) ∧
    (ready 2 (huffHeader freqAab (symbols freqAab) 2 ++ [0xC0]) 2).Running :=
  ⟨by decide +kernel, by decide +kernel, by decide +kernel, by decide +kernel, by decide +kernel, ⟨rfl, by decide +kernel, by decide +kernel⟩⟩

theorem test_witness_HuffRoundTrip : ∃ t s' : State, (ready 1 [0x61] 21).Running ∧
    (huffArtifact (ready 1 [0x61] 21).env.bytes).length ≤ (ready 1 [0x61] 21).latch.cap.toNat ∧
    exec .huffEnc (ready 1 [0x61] 21) = .next t ∧ t.error = false ∧ s'.Running ∧ s'.env.BusFine ∧ s'.mem = t.mem ∧
    s'.latch.src = (ready 1 [0x61] 21).latch.dst ∧ s'.latch.len = t.outLen ∧
    (ready 1 [0x61] 21).latch.len.toNat ≤ s'.latch.cap.toNat := by
  obtain ⟨t, h, he, hl, hm, hc⟩ := next_of_out (i := .huffEnc) rfl huff_running huff_out
  refine ⟨t, { State.reset with phase := .run, mem := t.mem, latch := ⟨2, 0x2000, t.outLen, 0x3000, 1⟩ },
    huff_running, by decide +kernel, h, he, ⟨rfl, ?_, ?_⟩, ⟨fun _ _ => rfl, fun _ _ => rfl⟩, rfl, rfl, rfl, le_refl _⟩
  · rw [hl]; exact (by decide : startChecks ⟨2, 0x2000, BitVec.ofNat 32 21, 0x3000, 1⟩ = none)
  · rw [hl]; exact (by decide : OnMemory Config.default ⟨2, 0x2000, BitVec.ofNat 32 21, 0x3000, 1⟩)

end Sys2Proof.Tests
end

/-! PROOFS. The configuration: one outside its bounds is refused, and no step changes it (00_scope R10, R11). -/

namespace Sys2Proof.Machine

/-! ### A configuration outside its bounds -/

/-- A well-formed configuration is inside every bound of 00_scope R10 and R11. -/
theorem wellFormed_bounds {c : Config} (h : c.wellFormed = true) :
    1 ≤ c.minMatchLen ∧ c.minMatchLen ≤ c.maxMatchLen ∧ c.maxMatchLen ≤ 255 ∧ 1 ≤ c.windowSize ∧
      c.windowSize ≤ 65535 := by
  simp only [Config.wellFormed, Bool.and_eq_true, decide_eq_true_eq] at h
  omega

/-! ### The configuration stays -/

theorem runCommand_cfg {u : Env → Run → Except Raise Run} {s t : State} (h : runCommand u s = .next t) :
    t.cfg = s.cfg := by
  obtain ⟨-, rfl⟩ | ⟨-, r, -, rfl⟩ | ⟨-, -, r, -, rfl⟩ | ⟨-, -, r, -, rfl⟩ := runCommand_next h <;> rfl

theorem execStart_cfg {ie : Bool} {s t : State} (h : execStart ie s = .next t) : t.cfg = s.cfg := by
  obtain ⟨-, rfl⟩ | ⟨-, -, rfl⟩ := execStart_next h <;> rfl

theorem exec_cfg {i : Instr} {s t : State} (h : exec i s = .next t) : t.cfg = s.cfg := by
  cases i with
  | huffEnc | huffDec | lz77Enc | lz77Dec | rleEnc | rleDec => exact runCommand_cfg h
  | start ie _ => exact execStart_cfg h
  | softReset _ _ => cases h; exact resetBlock_cfg s
  | doneClear _ _ => cases h; exact acknowledge_cfg s

@[simp] theorem writeReg_cfg (s : State) (off : BitVec 8) (v : Word) : (writeReg s off v).cfg = s.cfg := by
  unfold writeReg
  repeat' split
  all_goals rfl

theorem hostRegRead_cfg {bits : Nat} {off : BitVec 8} {s t : State} (h : hostRegRead bits off s = .next t) :
    t.cfg = s.cfg := by
  unfold hostRegRead at h
  split at h
  · cases h; rfl
  · cases h

theorem hostMemWrite_cfg {a : Nat} {b : Byte} {s t : State} (h : hostMemWrite a b s = .next t) : t.cfg = s.cfg := by
  unfold hostMemWrite at h
  repeat' split at h
  all_goals cases h
  rfl

theorem hostMemRead_cfg {a : Nat} {s t : State} (h : hostMemRead a s = .next t) : t.cfg = s.cfg := by
  unfold hostMemRead at h
  repeat' split at h
  all_goals cases h
  all_goals rfl

@[simp] theorem hostTakeIrq_cfg (line : Nat) (s : State) : (hostTakeIrq line s).cfg = s.cfg := by
  unfold hostTakeIrq
  split <;> rfl

theorem blockTurn_cfg {s t : State} (h : (blockTurn s).outcome = .next t) : t.cfg = s.cfg := by
  obtain ⟨-, ho⟩ | ⟨-, i, -, ho⟩ | ⟨-, -, ho⟩ := blockTurn_outcome s <;> rw [ho] at h
  · cases h; rfl
  · exact exec_cfg h
  · cases h; rfl

theorem busWrite_cfg {bits : Nat} {off : BitVec 8} {v : Word} {s t : State}
    (h : (busWrite bits off v s).outcome = .next t) : t.cfg = s.cfg := by
  obtain ⟨-, ho⟩ | ⟨-, -, i, -, ho⟩ | ⟨-, -, i, -, ho⟩ | ⟨-, -, -, ho⟩ := busWrite_outcome bits off v s <;> rw [ho] at h
  · cases h
  · exact exec_cfg h
  · exact exec_cfg h
  · cases h; exact writeReg_cfg s off v

theorem takeInput_cfg {x : Input} {s t : State} (h : (takeInput x s).outcome = .next t) : t.cfg = s.cfg := by
  cases x with
  | write bits off v => exact busWrite_cfg h
  | read bits off => exact hostRegRead_cfg h
  | memWrite a b => exact hostMemWrite_cfg h
  | memRead a => exact hostMemRead_cfg h
  | fence | cacheClean r | cacheInvalidate r => cases h; rfl
  | takeIrq line => cases h; exact hostTakeIrq_cfg line s
  | hwReset => cases h; exact resetBlock_cfg s
  | blockTurn => exact blockTurn_cfg h

/-- Settles O6: none of these configurations is well-formed, and every step of one that is not is refused. -/
theorem configurationRefused : Obligations.ConfigurationRefused := by
  unfold Obligations.ConfigurationRefused
  intro s hbad
  cases hc : s.cfg.wellFormed with
  | false => exact step_bad_config hc
  | true =>
    have := wellFormed_bounds hc
    omega

/-- Settles O7, by what the step comes from: the block's turn or an input, each of which keeps the configuration. -/
theorem configurationFixed : Obligations.ConfigurationFixed := by
  unfold Obligations.ConfigurationFixed
  intro s t h
  obtain ⟨-, ho⟩ | ⟨-, -, ho⟩ | ⟨-, x, rest, -, ho⟩ := step_cases s <;> rw [ho] at h
  · cases h
  · exact blockTurn_cfg h
  · exact (takeInput_cfg h).trans rfl

end Sys2Proof.Machine

/-! ### Two runs that end alike

A command's result is a function of its operands, input bytes and configuration (00_scope R13, 10_state R64). The proof
compares two runs of one unit, one in the environment `e` and one in `e.onMem m`, whose memory `m` holds the same input
bytes. `Alike R` relates their results, `SameRun W` their states: cursor and output are equal, and `W` says which of the
working values the rest of the unit still reads. -/

namespace Sys2Proof.Machine

/-- Both computations succeed, with results related by `R`, or both raise the same error. -/
def Alike {α : Type} (R : α → α → Prop) : Except Raise α → Except Raise α → Prop
  | .ok a, .ok b => R a b
  | .error x, .error y => x = y
  | .ok _, .error _ => False
  | .error _, .ok _ => False

theorem Alike.refl {α : Type} : ∀ x : Except Raise α, Alike Eq x x
  | .ok _ => rfl
  | .error _ => rfl

/-- The rule for one computation after another. -/
theorem Alike.bind {α β : Type} {R : α → α → Prop} {S : β → β → Prop} {x y : Except Raise α}
    {f g : α → Except Raise β} (hx : Alike R x y) (hf : ∀ a b, R a b → Alike S (f a) (g b)) :
    Alike S (x >>= f) (y >>= g) := by
  match x, y, hx with
  | .ok a, .ok b, h => exact hf a b h
  | .error _, .error _, h => exact h

theorem Alike.mono {α : Type} {R S : α → α → Prop} {x y : Except Raise α} (hx : Alike R x y)
    (hRS : ∀ a b, R a b → S a b) : Alike S x y := by
  match x, y, hx with
  | .ok a, .ok b, h => exact hRS a b h
  | .error _, .error _, h => exact h

/-- What the first computation's result satisfies may be used. -/
theorem Alike.and_post {α : Type} {R : α → α → Prop} {Q : α → Prop} {E : Raise → Prop} {x y : Except Raise α}
    (hx : Alike R x y) (hq : Post Q E x) : Alike (fun a b => R a b ∧ Q a) x y := by
  match x, y, hx with
  | .ok _, .ok _, h => exact ⟨h, hq⟩
  | .error _, .error _, h => exact h

/-- The rule for a choice both computations make. -/
theorem Alike.ite {α : Type} {R : α → α → Prop} {c : Prop} [Decidable c] {x x' y y' : Except Raise α}
    (hx : c → Alike R x x') (hy : ¬c → Alike R y y') : Alike R (if c then x else y) (if c then x' else y') := by
  split
  · next hc => exact hx hc
  · next hc => exact hy hc

/-- One computation, run twice. -/
theorem Alike.of_post {α : Type} {Q : α → Prop} {E : Raise → Prop} {x : Except Raise α} (hq : Post Q E x) :
    Alike (fun a b => a = b ∧ Q a) x x := (Alike.refl x).and_post hq

/-- Two running commands at the same cursor with the same output, their working values related by `W`. -/
inductive SameRun (W : Work → Work → Prop) : Run → Run → Prop where
  | mk {ip : Nat} {out : List Byte} {u u' : Work} : W u u' → SameRun W ⟨ip, out, u⟩ ⟨ip, out, u'⟩

/-- The same value read, and the same run after it. -/
inductive SameRead {α : Type} (W : Work → Work → Prop) : α × Run → α × Run → Prop where
  | mk (a : α) {r r' : Run} : SameRun W r r' → SameRead W (a, r) (a, r')

/-- The working values agree in `f`. -/
def Agree {β : Type} (f : Work → β) (u u' : Work) : Prop := f u = f u'

/-- Any working values. -/
def AnyWork (_ _ : Work) : Prop := True

theorem SameRun.mono {W W' : Work → Work → Prop} {r r' : Run} (h : SameRun W r r') (hW : ∀ u u', W u u' → W' u u') :
    SameRun W' r r' := by
  obtain ⟨h⟩ := h
  exact ⟨hW _ _ h⟩

theorem SameRun.any {W : Work → Work → Prop} {r r' : Run} (h : SameRun W r r') : SameRun AnyWork r r' :=
  h.mono fun _ _ _ => trivial

/-- Ending alike, when nothing reads the working values any more. -/
theorem Alike.any {W : Work → Work → Prop} {x y : Except Raise Run} (h : Alike (SameRun W) x y) :
    Alike (SameRun AnyWork) x y := h.mono fun _ _ => SameRun.any

/-- The environment `e` on another memory. -/
def Env.onMem (e : Env) (m : Memory) : Env := { e with mem := m }

/-- `m` holds the input bytes of `e`. -/
def Env.InputIn (e : Env) (m : Memory) : Prop := ∀ i, i < e.len → (e.onMem m).byte i = e.byte i

section
variable {e : Env} {m : Memory} {W : Work → Work → Prop}

/-! ### The primitives -/

theorem input_onMem (hm : e.InputIn m) {i : Nat} (hi : i < e.len) : input (e.onMem m) i = input e i := by
  have hb : m.read (e.src + i) = e.mem.read (e.src + i) := hm i hi
  simp [input, Env.onMem, hb]

theorem fetch_alike (hm : e.InputIn m) {r r' : Run} (h : SameRun W r r') :
    Alike (SameRead W) (fetch e r) (fetch (e.onMem m) r') := by
  obtain ⟨h⟩ := h
  refine .ite (fun _ => rfl) fun hi => ?_
  rw [input_onMem hm (not_le.mp hi)]
  refine (Alike.refl _).bind ?_
  rintro b _ rfl
  exact .mk b ⟨h⟩

theorem fetchLE_alike (hm : e.InputIn m) : ∀ {n : Nat} {r r' : Run}, SameRun W r r' →
    Alike (SameRead W) (fetchLE e n r) (fetchLE (e.onMem m) n r')
  | 0, _, _, h => .mk 0 h
  | n + 1, _, _, h => by
    refine (fetch_alike hm h).bind ?_
    rintro _ _ ⟨b, h1⟩
    refine (fetchLE_alike hm h1).bind ?_
    rintro _ _ ⟨v, h2⟩
    exact .mk _ h2

theorem emit_alike {b : Byte} {info : Nat} {r r' : Run} (h : SameRun W r r') :
    Alike (SameRun W) (emit e b info r) (emit (e.onMem m) b info r') := by
  obtain ⟨h⟩ := h
  exact .ite (fun _ => rfl) fun _ => .ite (fun _ => ⟨h⟩) fun _ => rfl

theorem emitLE_alike {info : Nat} : ∀ {n v : Nat} {r r' : Run}, SameRun W r r' →
    Alike (SameRun W) (emitLE e info n v r) (emitLE (e.onMem m) info n v r')
  | 0, _, _, _, h => h
  | _ + 1, _, _, _, h => (emit_alike h).bind fun _ _ h1 => emitLE_alike h1

theorem emitRep_alike {b : Byte} {info : Nat} : ∀ {n : Nat} {r r' : Run}, SameRun W r r' →
    Alike (SameRun W) (emitRep e b info n r) (emitRep (e.onMem m) b info n r')
  | 0, _, _, h => h
  | _ + 1, _, _, h => (emit_alike h).bind fun _ _ h1 => emitRep_alike h1

theorem copyBytes_alike (hm : e.InputIn m) : ∀ {n : Nat} {r r' : Run}, SameRun W r r' →
    Alike (SameRun W) (copyBytes e n r) (copyBytes (e.onMem m) n r')
  | 0, _, _, h => h
  | n + 1, _, _, h => by
    refine (fetch_alike hm h).bind ?_
    rintro _ _ ⟨b, ⟨h1⟩⟩
    exact (emit_alike ⟨h1⟩).bind fun _ _ h2 => copyBytes_alike hm h2

/-! ### rle_encoder -/

theorem runLengthFrom_onMem (hm : e.InputIn m) {i : Nat} (hi : i < e.len) : ∀ n r : Nat,
    runLengthFrom (e.onMem m) i n r = runLengthFrom e i n r
  | 0, _ => rfl
  | n + 1, r => by
    unfold runLengthFrom
    refine ite_congr rfl (fun hlt => ?_) fun _ => rfl
    rw [input_onMem hm hlt, input_onMem hm hi, runLengthFrom_onMem hm hi n]

theorem rawSpanEndFrom_onMem (hm : e.InputIn m) : ∀ n j : Nat,
    rawSpanEndFrom (e.onMem m) n j = rawSpanEndFrom e n j
  | 0, _ => rfl
  | n + 1, j => by
    unfold rawSpanEndFrom
    rw [rawSpanEndFrom_onMem hm n]
    refine ite_congr rfl (fun hj => ite_congr rfl (fun hj1 => ?_) fun _ => rfl) fun _ => rfl
    rw [input_onMem hm hj, input_onMem hm hj1]

theorem emitInput_alike (hm : e.InputIn m) {info : Nat} : ∀ {n k : Nat} {r r' : Run}, k + n ≤ e.len → SameRun W r r' →
    Alike (SameRun W) (emitInput e info n k r) (emitInput (e.onMem m) info n k r')
  | 0, _, _, _, _, h => h
  | n + 1, k, r, r', hk, h => by
    unfold emitInput
    rw [input_onMem hm (by omega)]
    refine (Alike.refl _).bind ?_
    rintro b _ rfl
    exact (emit_alike h).bind fun _ _ h1 => emitInput_alike hm (by omega) h1

theorem emitRun_alike (hm : e.InputIn m) {r r' : Run} (hi : r.u.rleI < e.len)
    (h : SameRun (Agree fun u => (u.rleI, u.rleR)) r r') :
    Alike (SameRun (Agree Work.rleI)) (emitRun e r) (emitRun (e.onMem m) r') := by
  have hu : r'.u.rleI = r.u.rleI ∧ r'.u.rleR = r.u.rleR := by
    obtain ⟨h⟩ := h
    simpa [Agree, eq_comm] using h
  unfold emitRun
  simp only [hu]
  refine (emit_alike h).bind fun r1 r1' h1 => ?_
  rw [input_onMem hm hi]
  refine (Alike.refl _).bind ?_
  rintro b _ rfl
  refine (emit_alike h1).bind ?_
  rintro _ _ ⟨h2⟩
  exact ⟨congrArg (_ + ·) (congrArg Prod.snd h2)⟩

theorem emitRaw_alike (hm : e.InputIn m) {r r' : Run} (hi : r.u.rleI ≤ r.u.rleJ) (hj : r.u.rleJ ≤ e.len)
    (h : SameRun (Agree fun u => (u.rleI, u.rleJ)) r r') :
    Alike (SameRun (Agree Work.rleI)) (emitRaw e r) (emitRaw (e.onMem m) r') := by
  have hu : r'.u.rleI = r.u.rleI ∧ r'.u.rleJ = r.u.rleJ := by
    obtain ⟨h⟩ := h
    simpa [Agree, eq_comm] using h
  unfold emitRaw
  simp only [hu]
  refine (emit_alike h).bind fun r1 r1' h1 => ?_
  refine (emitInput_alike hm (by omega) h1).bind ?_
  rintro _ _ ⟨-⟩
  exact ⟨rfl⟩

theorem rleEncSpan_alike (hm : e.InputIn m) {r r' : Run} (hi : r.u.rleI < e.len)
    (h : SameRun (Agree Work.rleI) r r') :
    Alike (SameRun (Agree Work.rleI)) (rleEncSpan e r) (rleEncSpan (e.onMem m) r') := by
  obtain ⟨h⟩ := h
  rename_i ip out u u'
  have hu : u.rleI = u'.rleI := h
  unfold rleEncSpan runLength rawSpanEnd
  simp only [← hu, runLengthFrom_onMem hm hi, rawSpanEndFrom_onMem hm]
  refine (Alike.refl _).bind ?_
  rintro n _ rfl
  refine .ite (fun _ => emitRun_alike hm hi ⟨by simp [Agree, hu]⟩) fun _ => ?_
  refine (Alike.of_post (rawSpanEnd_spec hi)).bind ?_
  rintro j _ ⟨rfl, hj1, -, hj2, -⟩
  exact emitRaw_alike hm (Nat.le_of_succ_le hj1) hj2 ⟨by simp [Agree, hu]⟩

theorem rleEncLoop_alike (hm : e.InputIn m) : ∀ {n : Nat} {r r' : Run}, SameRun (Agree Work.rleI) r r' →
    Alike (SameRun (Agree Work.rleI)) (rleEncLoop e n r) (rleEncLoop (e.onMem m) n r')
  | 0, _, _, h => h
  | n + 1, r, r', h => by
    have hu : r'.u.rleI = r.u.rleI := by
      obtain ⟨h⟩ := h
      exact h.symm
    unfold rleEncLoop
    rw [hu]
    exact .ite (fun hi => (rleEncSpan_alike hm hi h).bind fun _ _ h1 => rleEncLoop_alike hm h1) fun _ => h

theorem rleEncUnit_alike (hm : e.InputIn m) {r r' : Run} (h : SameRun AnyWork r r') :
    Alike (SameRun AnyWork) (rleEncUnit e r) (rleEncUnit (e.onMem m) r') := by
  obtain ⟨-⟩ := h
  exact (rleEncLoop_alike hm ⟨by rfl⟩).any

/-! ### rle_decoder -/

theorem expandRaw_alike (hm : e.InputIn m) {c : Byte} {t : Nat} {r r' : Run} (h : SameRun AnyWork r r') :
    Alike (SameRun AnyWork) (expandRaw e c t r) (expandRaw (e.onMem m) c t r') := by
  obtain ⟨-⟩ := h
  exact .ite (fun _ => rfl) fun _ => copyBytes_alike hm ⟨trivial⟩

theorem expandRun_alike (hm : e.InputIn m) {c : Byte} {t : Nat} {r r' : Run} (h : SameRun AnyWork r r') :
    Alike (SameRun AnyWork) (expandRun e c t r) (expandRun (e.onMem m) c t r') := by
  obtain ⟨-⟩ := h
  refine .ite (fun _ => rfl) fun _ => (fetch_alike (W := AnyWork) hm ⟨trivial⟩).bind ?_
  rintro _ _ ⟨v, ⟨-⟩⟩
  exact emitRep_alike ⟨trivial⟩

theorem rleDecSpan_alike (hm : e.InputIn m) {r r' : Run} (h : SameRun AnyWork r r') :
    Alike (SameRun AnyWork) (rleDecSpan e r) (rleDecSpan (e.onMem m) r') := by
  obtain ⟨-⟩ := h
  refine (fetch_alike (W := AnyWork) hm ⟨trivial⟩).bind ?_
  rintro _ _ ⟨c, ⟨-⟩⟩
  exact .ite (fun _ => expandRun_alike hm ⟨trivial⟩) fun _ => expandRaw_alike hm ⟨trivial⟩

theorem rleDecLoop_alike (hm : e.InputIn m) : ∀ {n : Nat} {r r' : Run}, SameRun AnyWork r r' →
    Alike (SameRun AnyWork) (rleDecLoop e n r) (rleDecLoop (e.onMem m) n r')
  | 0, _, _, h => h
  | _ + 1, _, _, ⟨h⟩ =>
    .ite (fun _ => (rleDecSpan_alike hm ⟨h⟩).bind fun _ _ h1 => rleDecLoop_alike hm h1) fun _ => ⟨h⟩

theorem rleDecUnit_alike (hm : e.InputIn m) {r r' : Run} (h : SameRun AnyWork r r') :
    Alike (SameRun AnyWork) (rleDecUnit e r) (rleDecUnit (e.onMem m) r') := by
  obtain ⟨-⟩ := h
  exact rleDecLoop_alike hm ⟨trivial⟩

/-! ### lz77_encoder -/

theorem matchLengthFrom_onMem (hm : e.InputIn m) {cur off : Nat} : ∀ n len : Nat, cur + len + n < e.len →
    matchLengthFrom (e.onMem m) cur off n len = matchLengthFrom e cur off n len
  | 0, _, _ => rfl
  | n + 1, len, h => by
    unfold matchLengthFrom
    rw [input_onMem hm (by omega), input_onMem hm (by omega), matchLengthFrom_onMem hm n (len + 1) (by omega)]

theorem findMatchFrom_onMem (hm : e.InputIn m) {cur maxlen : Nat} (h : cur + maxlen < e.len) :
    ∀ (n off : Nat) (best : Nat × Nat),
    findMatchFrom (e.onMem m) cur maxlen n off best = findMatchFrom e cur maxlen n off best
  | 0, _, _ => rfl
  | n + 1, off, best => by
    unfold findMatchFrom
    simp only [matchLengthFrom_onMem hm maxlen 0 h, findMatchFrom_onMem hm h n]

theorem findMatch_onMem (hm : e.InputIn m) {cur : Nat} (h : cur < e.len) :
    findMatch (e.onMem m) cur = findMatch e cur :=
  findMatchFrom_onMem hm (show cur + min e.cfg.maxMatchLen (e.len - 1 - cur) < e.len by omega) _ _ _

/-- A match leaves a byte of the input for nextLiteral (43_lz77_encoder R281). -/
theorem findMatch_inside {e : Env} {cur : Nat} (h : cur < e.len) :
    Post (fun p => cur + p.2 < e.len) (FailsAs e [.busError]) (findMatch e cur) := by
  refine (findMatch_spec h).imp ?_
  rintro p (rfl | ⟨-, -, -, hlen, -⟩)
  · exact h
  · omega

/-- A token record: two numbers, then input byte `i`; the cursor moves to `next`. -/
def emitRecord (e : Env) (info off len i next : Nat) (r : Run) : Except Raise Run := do
  let r ← emitLE e info 2 off r
  let r ← emitLE e info 2 len r
  let b ← input e i
  let r ← emit e b info r
  return { r with u := { r.u with lzCur := next } }

/-- EMIT_TOKEN writes one record, of the match or of the byte at the cursor (43_lz77_encoder R282). -/
theorem emitToken_eq_emitRecord (e : Env) (r : Run) : emitToken e r =
    if e.cfg.minMatchLen ≤ r.u.bestLen then
      emitRecord e r.u.lzCur r.u.bestOff r.u.bestLen (r.u.lzCur + r.u.bestLen) (r.u.lzCur + r.u.bestLen + 1) r
    else emitRecord e r.u.lzCur 0 0 r.u.lzCur (r.u.lzCur + 1) r := rfl

theorem emitRecord_alike (hm : e.InputIn m) {info off len i next : Nat} (hi : i < e.len) {r r' : Run}
    (h : SameRun W r r') :
    Alike (SameRun (Agree Work.lzCur)) (emitRecord e info off len i next r)
      (emitRecord (e.onMem m) info off len i next r') := by
  unfold emitRecord
  refine (emitLE_alike h).bind fun _ _ h1 => ?_
  refine (emitLE_alike h1).bind fun _ _ h2 => ?_
  rw [input_onMem hm hi]
  refine (Alike.refl _).bind ?_
  rintro b _ rfl
  refine (emit_alike h2).bind ?_
  rintro _ _ ⟨-⟩
  exact ⟨rfl⟩

theorem emitToken_alike (hm : e.InputIn m) {r r' : Run} (hi : r.u.lzCur + r.u.bestLen < e.len)
    (h : SameRun (Agree fun u => (u.lzCur, u.bestOff, u.bestLen)) r r') :
    Alike (SameRun (Agree Work.lzCur)) (emitToken e r) (emitToken (e.onMem m) r') := by
  have hu : r'.u.lzCur = r.u.lzCur ∧ r'.u.bestOff = r.u.bestOff ∧ r'.u.bestLen = r.u.bestLen := by
    obtain ⟨h⟩ := h
    simpa [Agree, eq_comm] using h
  simp only [emitToken_eq_emitRecord, hu]
  exact .ite (fun _ => emitRecord_alike hm hi h) fun _ => emitRecord_alike hm (by omega) h

theorem lz77EncToken_alike (hm : e.InputIn m) {r r' : Run} (hi : r.u.lzCur < e.len)
    (h : SameRun (Agree Work.lzCur) r r') :
    Alike (SameRun (Agree Work.lzCur)) (lz77EncToken e r) (lz77EncToken (e.onMem m) r') := by
  obtain ⟨h⟩ := h
  rename_i ip out u u'
  have hu : u.lzCur = u'.lzCur := h
  unfold lz77EncToken
  simp only [← hu, findMatch_onMem hm hi]
  refine (Alike.of_post (findMatch_inside hi)).bind ?_
  rintro ⟨off, len⟩ _ ⟨rfl, hlen⟩
  exact emitToken_alike hm hlen ⟨by simp [Agree, hu]⟩

theorem lz77EncLoop_alike (hm : e.InputIn m) : ∀ {n : Nat} {r r' : Run}, SameRun (Agree Work.lzCur) r r' →
    Alike (SameRun (Agree Work.lzCur)) (lz77EncLoop e n r) (lz77EncLoop (e.onMem m) n r')
  | 0, _, _, h => h
  | n + 1, r, r', h => by
    have hu : r'.u.lzCur = r.u.lzCur := by
      obtain ⟨h⟩ := h
      exact h.symm
    unfold lz77EncLoop
    rw [hu]
    exact .ite (fun hi => (lz77EncToken_alike hm hi h).bind fun _ _ h1 => lz77EncLoop_alike hm h1) fun _ => h

theorem storeBytes_alike (hm : e.InputIn m) : ∀ {n i : Nat} {r r' : Run}, i + n ≤ e.len → SameRun W r r' →
    Alike (SameRun W) (storeBytes e n i r) (storeBytes (e.onMem m) n i r')
  | 0, _, _, _, _, h => h
  | n + 1, i, r, r', hi, h => by
    unfold storeBytes
    rw [input_onMem hm (by omega)]
    refine (Alike.refl _).bind ?_
    rintro b _ rfl
    exact (emit_alike h).bind fun _ _ h1 => storeBytes_alike hm (by omega) h1

theorem lz77EncUnit_alike (hm : e.InputIn m) {r r' : Run} (h : SameRun AnyWork r r') :
    Alike (SameRun AnyWork) (lz77EncUnit e r) (lz77EncUnit (e.onMem m) r') := by
  refine .ite (fun _ => ?_) fun _ => ?_
  · exact (emit_alike h).bind fun _ _ h1 => storeBytes_alike hm (by omega) h1
  · refine (emit_alike h).bind ?_
    rintro _ _ ⟨-⟩
    exact (lz77EncLoop_alike hm ⟨by rfl⟩).any

/-! ### lz77_decoder -/

theorem readMarker_alike (hm : e.InputIn m) {r r' : Run} (h : SameRun W r r') :
    Alike (SameRead W) (readMarker e r) (readMarker (e.onMem m) r') := by
  obtain ⟨h⟩ := h
  exact .ite (fun _ => rfl) fun _ => fetch_alike hm ⟨h⟩

theorem readToken_alike (hm : e.InputIn m) {r r' : Run} (h : SameRun W r r') :
    Alike (SameRead W) (readToken e r) (readToken (e.onMem m) r') := by
  obtain ⟨h⟩ := h
  refine .ite (fun _ => rfl) fun _ => ?_
  refine (fetchLE_alike (W := W) hm ⟨h⟩).bind ?_
  rintro _ _ ⟨off, h1⟩
  refine (fetchLE_alike hm h1).bind ?_
  rintro _ _ ⟨len, h2⟩
  refine (fetch_alike hm h2).bind ?_
  rintro _ _ ⟨lit, ⟨h3⟩⟩
  exact .ite (fun _ => rfl) fun _ => .mk _ ⟨h3⟩

theorem histPush_alike {b : Byte} {r r' : Run} (h : SameRun (Agree Work.hist) r r') :
    SameRun (Agree Work.hist) (histPush e b r) (histPush (e.onMem m) b r') := by
  obtain ⟨h⟩ := h
  exact ⟨congrArg (fun l => (b :: l).take e.cfg.windowSize) h⟩

theorem copyBack_alike {off : Nat} : ∀ {n : Nat} {r r' : Run}, SameRun (Agree Work.hist) r r' →
    Alike (SameRun (Agree Work.hist)) (copyBack e off n r) (copyBack (e.onMem m) off n r')
  | 0, _, _, h => h
  | n + 1, _, _, ⟨h⟩ => by
    unfold copyBack
    rw [show Work.hist _ = _ from h]
    exact (emit_alike ⟨h⟩).bind fun _ _ h1 => copyBack_alike (histPush_alike h1)

theorem reconstruct_alike {t : Token} {r r' : Run} (h : SameRun (Agree Work.hist) r r') :
    Alike (SameRun (Agree Work.hist)) (reconstruct e t r) (reconstruct (e.onMem m) t r') := by
  refine (copyBack_alike h).bind ?_
  rintro _ _ ⟨h1⟩
  exact (emit_alike ⟨h1⟩).bind fun _ _ h2 => histPush_alike h2

theorem lz77DecLoop_alike (hm : e.InputIn m) : ∀ {n : Nat} {r r' : Run}, SameRun (Agree Work.hist) r r' →
    Alike (SameRun (Agree Work.hist)) (lz77DecLoop e n r) (lz77DecLoop (e.onMem m) n r')
  | 0, _, _, h => h
  | n + 1, _, _, ⟨h⟩ => by
    refine .ite (fun _ => (readToken_alike hm ⟨h⟩).bind ?_) fun _ => ⟨h⟩
    rintro _ _ ⟨t, h1⟩
    exact (reconstruct_alike h1).bind fun _ _ h2 => lz77DecLoop_alike hm h2

theorem lz77DecUnit_alike (hm : e.InputIn m) {r r' : Run} (h : SameRun AnyWork r r') :
    Alike (SameRun AnyWork) (lz77DecUnit e r) (lz77DecUnit (e.onMem m) r') := by
  obtain ⟨-⟩ := h
  refine (readMarker_alike (W := Agree Work.hist) hm ⟨by rfl⟩).bind ?_
  rintro _ _ ⟨b, ⟨h1⟩⟩
  exact .ite (fun _ => (copyBytes_alike hm ⟨h1⟩).any) fun _ =>
    .ite (fun _ => (lz77DecLoop_alike hm ⟨h1⟩).any) fun _ => rfl

end

end Sys2Proof.Machine

/-! ### Tables over the byte values -/

namespace Sys2Proof.Machine

theorem getD_set_byte {α : Type} {l : List α} (h : l.length = 256) (b c : Byte) (x d : α) :
    (l.set b.toNat x).getD c.toNat d = if c = b then x else l.getD c.toNat d := by
  have hb : b.toNat < l.length := h ▸ b.isLt
  rw [List.getD_eq_getElem?_getD, List.getElem?_set, List.getD_eq_getElem?_getD]
  by_cases hc : c = b
  · simp [hc, hb]
  · have hne : b.toNat ≠ c.toNat := fun hn => hc (BitVec.eq_of_toNat_eq hn.symm)
    simp [hc, hne]

theorem freqOf_set {freq : List Nat} (h : freq.length = 256) (b c : Byte) (f : Nat) :
    freqOf (freq.set b.toNat f) c = if c = b then f else freqOf freq c := getD_set_byte h b c f 0

theorem codeOf_set {codes : List (List Bool)} (h : codes.length = 256) (b c : Byte) (p : List Bool) :
    codeOf (codes.set b.toNat p) c = if c = b then p else codeOf codes c := getD_set_byte h b c p []

theorem mem_symbols {freq : List Nat} {b : Byte} : b ∈ symbols freq ↔ 0 < freqOf freq b := by
  have hb : b ∈ allBytes := List.mem_map.mpr ⟨b.toNat, List.mem_range.mpr b.isLt, BitVec.ofNat_toNat 8 b⟩
  simp [symbols, hb]

theorem totalBitsOf_congr {freq : List Nat} {codes codes' : List (List Bool)} {syms : List Byte}
    (h : ∀ b ∈ syms, codeOf codes b = codeOf codes' b) : totalBitsOf freq codes syms = totalBitsOf freq codes' syms :=
  congrArg List.sum (List.map_congr_left fun b hb => by rw [h b hb])

theorem declaredLength_congr {freq freq' : List Nat} {syms : List Byte}
    (h : ∀ b ∈ syms, freqOf freq b = freqOf freq' b) : declaredLength freq syms = declaredLength freq' syms :=
  congrArg List.sum (List.map_congr_left h)

theorem buildTree_congr {freq freq' : List Nat} {syms : List Byte}
    (h : ∀ b ∈ syms, freqOf freq b = freqOf freq' b) : buildTree syms freq = buildTree syms freq' := by
  have hl : leaves syms freq = leaves syms freq' := List.map_congr_left fun b hb => by rw [h b hb]
  rw [buildTree, buildTree, hl]

/-! ### The tree holds every symbol

GEN_CODES sets the code of a byte value only when it meets its leaf, so a code is independent of what the table held
before only if the tree has that leaf (10_state R53). -/

/-- A leaf of the byte value `b` stands at arena index `x` or below it. -/
inductive HasLeaf (arena : List WNode) (b : Byte) : Nat → Prop where
  | leaf {x w : Nat} : arena[x]? = some (WNode.leaf b w) → HasLeaf arena b x
  | left {x w l r : Nat} : arena[x]? = some (.internal w l r) → HasLeaf arena b l → HasLeaf arena b x
  | right {x w l r : Nat} : arena[x]? = some (.internal w l r) → HasLeaf arena b r → HasLeaf arena b x

theorem getElem?_append_of_some {arena more : List WNode} {x : Nat} {v : WNode} (h : arena[x]? = some v) :
    (arena ++ more)[x]? = some v := by
  obtain ⟨hx, -⟩ := List.getElem?_eq_some_iff.mp h
  rw [List.getElem?_append_left hx, h]

theorem HasLeaf.append {arena : List WNode} {b : Byte} {x : Nat} (h : HasLeaf arena b x) (more : List WNode) :
    HasLeaf (arena ++ more) b x := by
  induction h with
  | leaf hx => exact .leaf (getElem?_append_of_some hx)
  | left hx _ ih => exact .left (getElem?_append_of_some hx) ih
  | right hx _ ih => exact .right (getElem?_append_of_some hx) ih

/-- What BUILD_TREE keeps for the byte values `syms`: children stand before their parents, and the queue's trees hold
a leaf of every byte value (41_huffman_encoder R202). -/
structure Forest (syms : List Byte) (arena : List WNode) (queue : List Nat) : Prop where
  inside : ∀ q ∈ queue, q < arena.length
  down   : ∀ x w l r, arena[x]? = some (WNode.internal w l r) → l < x ∧ r < x
  covers : ∀ b ∈ syms, ∃ q ∈ queue, HasLeaf arena b q

theorem leastKey_mem (arena : List WNode) : ∀ (q : Nat) (qs : List Nat), leastKey arena q qs ∈ q :: qs
  | q, [] => List.mem_singleton.mpr rfl
  | q, p :: qs => by
    unfold leastKey
    split
    · exact List.mem_cons_of_mem q (leastKey_mem arena p qs)
    · rcases List.mem_cons.mp (leastKey_mem arena q qs) with h | h
      · rw [h]
        exact List.mem_cons_self
      · exact List.mem_cons_of_mem q (List.mem_cons_of_mem p h)

/-- One round of BUILD_TREE: two trees become the children of a new node. -/
theorem Forest.join {syms : List Byte} {arena : List WNode} {queue : List Nat} (h : Forest syms arena queue)
    {a c : Nat} (w : Nat) (ha : a ∈ queue) (hc : c ∈ queue.erase a) :
    Forest syms (arena ++ [.internal w a c]) ((queue.erase a).erase c ++ [arena.length]) := by
  have hnew : (arena ++ [WNode.internal w a c])[arena.length]? = some (.internal w a c) := by simp
  constructor
  · intro q hq
    rw [List.length_append, List.length_singleton]
    rcases List.mem_append.mp hq with hq | hq
    · have := h.inside q (List.mem_of_mem_erase (List.mem_of_mem_erase hq))
      omega
    · have := List.mem_singleton.mp hq
      omega
  · intro x w' l r hx
    rcases Nat.lt_trichotomy x arena.length with hlt | rfl | hgt
    · exact h.down x w' l r (by rwa [List.getElem?_append_left hlt] at hx)
    · rw [hnew] at hx
      cases hx
      exact ⟨h.inside a ha, h.inside c (List.mem_of_mem_erase hc)⟩
    · rw [List.getElem?_eq_none (by simp; omega)] at hx
      cases hx
  · intro b hb
    obtain ⟨q, hq, hleaf⟩ := h.covers b hb
    have hleaf := hleaf.append [.internal w a c]
    by_cases hqa : q = a
    · exact ⟨arena.length, by simp, .left hnew (hqa ▸ hleaf)⟩
    · by_cases hqc : q = c
      · exact ⟨arena.length, by simp, .right hnew (hqc ▸ hleaf)⟩
      · refine ⟨q, List.mem_append_left _ ?_, hleaf⟩
        exact (List.mem_erase_of_ne hqc).mpr ((List.mem_erase_of_ne hqa).mpr hq)

/-- The loop of BUILD_TREE joins the trees until at most one is left. -/
theorem buildLoop_forest {syms : List Byte} : ∀ {n : Nat} {arena : List WNode} {queue : List Nat},
    Forest syms arena queue → queue.length ≤ n + 1 →
    Forest syms (buildLoop n arena queue).1 (buildLoop n arena queue).2 ∧ (buildLoop n arena queue).2.length ≤ 1
  | 0, _, _, h, hn => ⟨h, hn⟩
  | n + 1, arena, queue, h, hn => by
    match queue, h, hn with
    | [], h, hn => exact ⟨h, by simp [buildLoop]⟩
    | [q], h, hn => exact ⟨h, by simp [buildLoop]⟩
    | x :: y :: rest, h, hn =>
      have ha := leastKey_mem arena x (y :: rest)
      have hlen := List.length_erase_of_mem ha
      unfold buildLoop
      match hq : (x :: y :: rest).erase (leastKey arena x (y :: rest)) with
      | [] =>
        rw [hq] at hlen
        simp at hlen
      | z :: rest' =>
        have hc := leastKey_mem arena z rest'
        have hj := h.join (weightAt arena (leastKey arena x (y :: rest)) + weightAt arena (leastKey arena z rest'))
          ha (hq ▸ hc)
        rw [hq] at hj hlen
        simp only [hq]
        refine buildLoop_forest hj ?_
        have := List.length_erase_of_mem hc
        simp only [List.length_cons, List.length_append, List.length_nil] at *
        omega

theorem leaves_forest (syms : List Byte) (freq : List Nat) :
    Forest syms (leaves syms freq) (List.range syms.length) := by
  constructor
  · intro q hq
    simpa [leaves] using hq
  · intro x w l r hx
    simp [leaves] at hx
  · intro b hb
    obtain ⟨k, hk, rfl⟩ := List.getElem_of_mem hb
    exact ⟨k, List.mem_range.mpr hk, .leaf (w := freqOf freq syms[k]) (by simp [leaves, hk])⟩

theorem buildTree_forest (syms : List Byte) (freq : List Nat) :
    Forest syms (buildTree syms freq).1 (buildTree syms freq).2 ∧ (buildTree syms freq).2.length ≤ 1 :=
  buildLoop_forest (leaves_forest syms freq) (by simp)

/-- BUILD_TREE's root is an arena index and has a leaf of every byte value the tree was built for. -/
theorem buildTree_root {syms : List Byte} {freq : List Nat} {b : Byte} (hb : b ∈ syms) :
    rootOf (buildTree syms freq).2 < (buildTree syms freq).1.length ∧
      HasLeaf (buildTree syms freq).1 b (rootOf (buildTree syms freq).2) := by
  obtain ⟨hf, hlen⟩ := buildTree_forest syms freq
  obtain ⟨q, hq, hleaf⟩ := hf.covers b hb
  have hroot : rootOf (buildTree syms freq).2 = q := by
    obtain ⟨p, hp⟩ := List.length_eq_one_iff.mp (Nat.le_antisymm hlen (List.length_pos_of_mem hq))
    rw [hp] at hq ⊢
    exact (List.mem_singleton.mp hq).symm
  rw [hroot]
  exact ⟨hf.inside q hq, hleaf⟩

/-! ### The code generator -/

@[simp] theorem walkCodes_length {arena : List WNode} : ∀ {n x : Nat} {p : List Bool} {codes : List (List Bool)},
    (walkCodes arena n x p codes).length = codes.length
  | 0, _, _, _ => rfl
  | n + 1, x, p, codes => by
    unfold walkCodes
    split
    · exact List.length_set
    · rw [walkCodes_length, walkCodes_length]
    · rfl

/-- Two tables that agree on the code of `b` still do after a walk. -/
theorem walkCodes_keeps_agreement {arena : List WNode} {b : Byte} : ∀ {n x : Nat} {p : List Bool}
    {codes codes' : List (List Bool)}, codes.length = 256 → codes'.length = 256 → codeOf codes b = codeOf codes' b →
    codeOf (walkCodes arena n x p codes) b = codeOf (walkCodes arena n x p codes') b
  | 0, _, _, _, _, _, _, h => h
  | n + 1, x, p, codes, codes', hl, hl', h => by
    unfold walkCodes
    cases arena[x]? with
    | none => exact h
    | some v =>
      cases v with
      | leaf sym w => simp only [codeOf_set hl, codeOf_set hl', h]
      | internal w l r =>
        exact walkCodes_keeps_agreement (by simpa) (by simpa) (walkCodes_keeps_agreement hl hl' h)

/-- A walk from above a leaf of `b` sets the code of `b`, whatever the table held. -/
theorem walkCodes_agree_of_hasLeaf {arena : List WNode} {b : Byte}
    (hdown : ∀ x w l r, arena[x]? = some (WNode.internal w l r) → l < x ∧ r < x) : ∀ {n x : Nat} {p : List Bool}
    {codes codes' : List (List Bool)}, codes.length = 256 → codes'.length = 256 → HasLeaf arena b x → x < n →
    codeOf (walkCodes arena n x p codes) b = codeOf (walkCodes arena n x p codes') b
  | n + 1, x, p, codes, codes', hl, hl', hb, hx => by
    unfold walkCodes
    cases hb with
    | leaf ha => simp only [ha, codeOf_set hl, codeOf_set hl', if_true]
    | left ha hb =>
      have hlt := hdown _ _ _ _ ha
      simp only [ha]
      exact walkCodes_keeps_agreement (by simpa) (by simpa)
        (walkCodes_agree_of_hasLeaf hdown hl hl' hb (by omega))
    | right ha hb =>
      have hlt := hdown _ _ _ _ ha
      simp only [ha]
      exact walkCodes_agree_of_hasLeaf hdown (by simpa) (by simpa) hb (by omega)

/-- GEN_CODES gives a symbol of the tree the same code whatever the table held (41_huffman_encoder R204). -/
theorem walkCodes_buildTree {syms : List Byte} {freq : List Nat} {b : Byte} (hb : b ∈ syms)
    {codes codes' : List (List Bool)} (hl : codes.length = 256) (hl' : codes'.length = 256) :
    codeOf (walkCodes (buildTree syms freq).1 (buildTree syms freq).1.length (rootOf (buildTree syms freq).2) [] codes)
        b =
      codeOf (walkCodes (buildTree syms freq).1 (buildTree syms freq).1.length (rootOf (buildTree syms freq).2) []
        codes') b :=
  walkCodes_agree_of_hasLeaf (buildTree_forest syms freq).1.down hl hl' (buildTree_root hb).2 (buildTree_root hb).1

section
variable {e : Env} {m : Memory} {W : Work → Work → Prop}

/-! ### huffman_encoder -/

/-- The code and frequency tables hold an entry for each byte value, as the stored ones do (10_state R50, R53). -/
def FullTables (u u' : Work) : Prop :=
  (u.freq.length = 256 ∧ u'.freq.length = 256) ∧ u.codes.length = 256 ∧ u'.codes.length = 256

/-- Equal counts, and code tables of full length that may differ. -/
def Counted (u u' : Work) : Prop := u.freq = u'.freq ∧ u.codes.length = 256 ∧ u'.codes.length = 256

theorem freqLoop_alike (hm : e.InputIn m) : ∀ {n : Nat} {r r' : Run}, SameRun Counted r r' →
    Alike (SameRun Counted) (freqLoop e n r) (freqLoop (e.onMem m) n r')
  | 0, _, _, h => h
  | n + 1, _, _, h => by
    refine (fetch_alike hm h).bind ?_
    rintro _ _ ⟨b, ⟨hfreq, hcodes⟩⟩
    exact freqLoop_alike hm ⟨by rw [hfreq], hcodes⟩

/-- The loop of FREQ_COUNT counts every input byte it passes and lowers no count. -/
theorem freqLoop_counts : ∀ {n : Nat} {r : Run}, r.u.freq.length = 256 → r.ip + n ≤ e.len →
    Post (fun r' => (∀ b, freqOf r.u.freq b ≤ freqOf r'.u.freq b) ∧
        ∀ i, r.ip ≤ i → i < r.ip + n → 0 < freqOf r'.u.freq (e.byte i))
      (FailsAs e [.busError]) (freqLoop e n r)
  | 0, _, _, _ => ⟨fun _ => le_refl _, fun i h h' => by omega⟩
  | n + 1, r, hl, hn => by
    refine (fetch_spec_inside (by omega)).bind ?_
    rintro ⟨_, _⟩ ⟨rfl, rfl⟩
    refine (freqLoop_counts (by simpa) (by simp only; omega)).imp fun r' h => ?_
    obtain ⟨hmono, hpos⟩ := h
    simp only [freqOf_set hl] at hmono
    refine ⟨fun c => ?_, fun i hi hin => ?_⟩
    · have := hmono c
      split at this
      · next hc => subst hc; omega
      · exact this
    · rcases Nat.eq_or_lt_of_le hi with rfl | hlt
      · have := hmono (e.byte r.ip)
        rw [if_pos rfl] at this
        omega
      · exact hpos i hlt (by simp only; omega)

/-- After FREQ_COUNT the counts agree and every input byte is counted. -/
theorem freqCount_alike (hm : e.InputIn m) {r r' : Run} (h : SameRun FullTables r r') :
    Alike (fun a b => SameRun Counted a b ∧ ∀ i, i < e.len → 0 < freqOf a.u.freq (e.byte i))
      (freqCount e r) (freqCount (e.onMem m) r') := by
  obtain ⟨-, hcodes⟩ := h
  unfold freqCount
  refine ((freqLoop_alike hm ⟨by exact ⟨rfl, hcodes⟩⟩).and_post
    (freqLoop_counts (by exact List.length_replicate) (by simp only; omega))).mono ?_
  rintro a b ⟨hab, -, hpos⟩
  exact ⟨hab, fun i hi => hpos i (Nat.zero_le i) (by simpa using hi)⟩

/-- What WRITE_HEADER and PAYLOAD_PASS read of the tables: the counts, and the codes of the symbols and of the input
bytes. -/
structure EncTables (e : Env) (u u' : Work) : Prop where
  freq    : u.freq = u'.freq
  symbols : ∀ b ∈ symbols u.freq, codeOf u.codes b = codeOf u'.codes b
  input   : ∀ i, i < e.len → codeOf u.codes (e.byte i) = codeOf u'.codes (e.byte i)

theorem genCodes_alike {r r' : Run} (h : SameRun Counted r r') (hpos : ∀ i, i < e.len → 0 < freqOf r.u.freq (e.byte i)) :
    SameRun (EncTables e) (genCodes (buildTreeRun (symbols r.u.freq) r))
      (genCodes (buildTreeRun (symbols r.u.freq) r')) := by
  obtain ⟨hfreq, hl, hl'⟩ := h
  simp only [genCodes, buildTreeRun, ← hfreq]
  exact ⟨rfl, fun b hb => walkCodes_buildTree hb hl hl', fun i hi =>
    walkCodes_buildTree (mem_symbols.mpr (hpos i hi)) hl hl'⟩

/-- TOTAL_BITS reads the codes of the symbols alone. -/
theorem totalBits_alike {r r' : Run} (h : SameRun (EncTables e) r r') :
    totalBitsOf r.u.freq r.u.codes (symbols r.u.freq) = totalBitsOf r'.u.freq r'.u.codes (symbols r.u.freq) := by
  obtain ⟨h⟩ := h
  rw [← h.freq]
  exact totalBitsOf_congr h.symbols

theorem writePairs_alike : ∀ {bs : List Byte} {r r' : Run}, SameRun (EncTables e) r r' →
    Alike (SameRun (EncTables e)) (writePairs e bs r) (writePairs (e.onMem m) bs r')
  | [], _, _, h => h
  | b :: bs, _, _, ⟨h⟩ => by
    refine (emit_alike ⟨h⟩).bind ?_
    rintro _ _ ⟨h1⟩
    rw [← h1.freq]
    exact (emitLE_alike ⟨h1⟩).bind fun _ _ h2 => writePairs_alike h2

theorem writeHeader_alike {syms : List Byte} {total total' : Nat} {r r' : Run} (ht : total = total')
    (h : SameRun (EncTables e) r r') :
    Alike (SameRun (EncTables e)) (writeHeader e syms total r) (writeHeader (e.onMem m) syms total' r') := by
  subst ht
  obtain ⟨h⟩ := h
  refine (emitLE_alike ⟨h⟩).bind fun _ _ h1 => (writePairs_alike h1).bind ?_
  rintro _ _ ⟨h2⟩
  exact emitLE_alike ⟨h2⟩

/-- What PAYLOAD_PASS reads: the codes of the input bytes and the bit packer. -/
structure Packing (e : Env) (u u' : Work) : Prop where
  codes   : ∀ i, i < e.len → codeOf u.codes (e.byte i) = codeOf u'.codes (e.byte i)
  acc     : u.acc = u'.acc
  packCnt : u.packCnt = u'.packCnt

theorem putBit_alike {x : Bool} {info : Nat} {r r' : Run} (h : SameRun (Packing e) r r') :
    Alike (SameRun (Packing e)) (putBit e x info r) (putBit (e.onMem m) x info r') := by
  obtain ⟨h⟩ := h
  unfold putBit
  simp only [← h.acc, ← h.packCnt]
  refine .ite (fun _ => (emit_alike ⟨h⟩).bind ?_) fun _ => ⟨h.codes, rfl, rfl⟩
  rintro _ _ ⟨h1⟩
  exact ⟨h1.codes, rfl, rfl⟩

theorem putBits_alike {info : Nat} : ∀ {xs : List Bool} {r r' : Run}, SameRun (Packing e) r r' →
    Alike (SameRun (Packing e)) (putBits e info xs r) (putBits (e.onMem m) info xs r')
  | [], _, _, h => h
  | _ :: _, _, _, h => (putBit_alike h).bind fun _ _ h1 => putBits_alike h1

theorem flushBits_alike {info : Nat} {r r' : Run} (h : SameRun (Packing e) r r') :
    Alike (SameRun AnyWork) (flushBits e info r) (flushBits (e.onMem m) info r') := by
  obtain ⟨h⟩ := h
  unfold flushBits
  simp only [← h.acc, ← h.packCnt]
  refine .ite (fun _ => (emit_alike ⟨h⟩).bind ?_) fun _ => ⟨trivial⟩
  rintro _ _ ⟨-⟩
  exact ⟨trivial⟩

/-- A fetched byte is an input byte. -/
theorem fetch_isInput {r : Run} : Post (fun p => ∃ i, i < e.len ∧ p.1 = e.byte i) (fun _ => True) (fetch e r) := by
  unfold fetch
  split
  · trivial
  · next hi =>
    have hb := (input_spec (not_le.mp hi)).mono (fun _ h => h) (E' := fun _ => True) fun _ _ => trivial
    exact hb.bind fun b hb => ⟨r.ip, not_le.mp hi, hb⟩

theorem payloadLoop_alike (hm : e.InputIn m) : ∀ {n : Nat} {r r' : Run}, SameRun (Packing e) r r' →
    Alike (SameRun (Packing e)) (payloadLoop e n r) (payloadLoop (e.onMem m) n r')
  | 0, _, _, h => h
  | n + 1, _, _, h => by
    refine ((fetch_alike hm h).and_post fetch_isInput).bind ?_
    rintro _ _ ⟨⟨b, ⟨h1⟩⟩, i, hi, rfl⟩
    dsimp only
    rw [← h1.codes i hi]
    exact (putBits_alike ⟨h1⟩).bind fun _ _ h2 => payloadLoop_alike hm h2

theorem payloadPass_alike (hm : e.InputIn m) {r r' : Run} (h : SameRun (EncTables e) r r') :
    Alike (SameRun AnyWork) (payloadPass e r) (payloadPass (e.onMem m) r') := by
  obtain ⟨h⟩ := h
  refine (payloadLoop_alike hm ⟨by exact ⟨h.input, rfl, rfl⟩⟩).bind ?_
  rintro _ _ ⟨h1⟩
  exact flushBits_alike ⟨h1⟩

theorem huffEncUnit_alike (hm : e.InputIn m) {r r' : Run} (h : SameRun FullTables r r') :
    Alike (SameRun AnyWork) (huffEncUnit e r) (huffEncUnit (e.onMem m) r') := by
  refine (freqCount_alike hm h).bind ?_
  rintro r1 r1' ⟨h1, hpos⟩
  have hfreq : r1'.u.freq = r1.u.freq := by
    obtain ⟨hc⟩ := h1
    exact hc.1.symm
  simp only [hfreq]
  refine .ite (fun _ => ?_) fun _ => ?_
  · obtain ⟨h1⟩ := h1
    refine (emitLE_alike ⟨h1⟩).bind ?_
    rintro _ _ ⟨h2⟩
    exact (emitLE_alike ⟨h2⟩).any
  · have htables := genCodes_alike h1 hpos
    exact (writeHeader_alike (totalBits_alike htables) htables).bind fun _ _ h2 => payloadPass_alike hm h2

/-! ### huffman_decoder -/

theorem readCount_alike (hm : e.InputIn m) {r r' : Run} (h : SameRun W r r') :
    Alike (SameRead W) (readCount e r) (readCount (e.onMem m) r') := by
  refine (fetchLE_alike hm h).bind ?_
  rintro _ _ ⟨d, h1⟩
  exact .ite (fun _ => rfl) fun _ => .mk d h1

/-- Frequency tables of full length that agree on the byte values of `A`. -/
structure FreqsAgree (A : Byte → Prop) (u u' : Work) : Prop where
  length : u.freq.length = 256 ∧ u'.freq.length = 256
  agree  : ∀ b, A b → freqOf u.freq b = freqOf u'.freq b

/-- The tables agree on the byte values READ_PAIRS has read, beside those they agreed on before. -/
theorem readPairs_alike (hm : e.InputIn m) : ∀ {n k : Nat} {prev : Option Byte} {A : Byte → Prop} {r r' : Run},
    SameRun (FreqsAgree A) r r' →
    Alike (fun p p' => p.1 = p'.1 ∧ SameRun (FreqsAgree fun b => A b ∨ b ∈ p.1) p.2 p'.2)
      (readPairs e n k prev r) (readPairs (e.onMem m) n k prev r')
  | 0, _, _, _, _, _, h => ⟨rfl, h.mono fun _ _ hf => ⟨hf.length, fun b hb => hf.agree b (by simpa using hb)⟩⟩
  | n + 1, k, prev, A, _, _, h => by
    refine (fetch_alike hm h).bind ?_
    rintro _ _ ⟨b, h1⟩
    refine (fetchLE_alike hm h1).bind ?_
    rintro _ _ ⟨f, @⟨ip, out, u, u', h2⟩⟩
    obtain ⟨⟨hl, hl'⟩, hagree⟩ := h2
    have hset : ∀ c, A c ∨ c = b → freqOf (u.freq.set b.toNat f) c = freqOf (u'.freq.set b.toNat f) c := by
      intro c hc
      rw [freqOf_set hl, freqOf_set hl']
      split
      · rfl
      · next hne => exact hagree c (hc.resolve_right hne)
    refine .ite (fun _ => rfl) fun _ => ?_
    refine (readPairs_alike hm ⟨by exact ⟨⟨by simpa, by simpa⟩, hset⟩⟩).bind ?_
    rintro ⟨syms, r1⟩ ⟨_, r1'⟩ ⟨rfl, h3⟩
    refine ⟨rfl, h3.mono fun _ _ hf => ⟨hf.length, fun c hc => hf.agree c ?_⟩⟩
    simpa [or_assoc] using hc

/-- What HUFF_DEC reads of its header: the frequencies of its symbols, and T. -/
structure Header (syms : List Byte) (u u' : Work) : Prop where
  freq      : ∀ b ∈ syms, freqOf u.freq b = freqOf u'.freq b
  totalBits : u.totalBits = u'.totalBits

theorem readTotalBits_alike (hm : e.InputIn m) {syms : List Byte} {r r' : Run}
    (h : SameRun (FreqsAgree (· ∈ syms)) r r') :
    Alike (SameRun (Header syms)) (readTotalBits e r) (readTotalBits (e.onMem m) r') := by
  refine (fetchLE_alike hm h).bind ?_
  rintro _ _ ⟨t, ⟨h1⟩⟩
  exact ⟨h1.agree, rfl⟩

/-- What the symbol loop reads: the tree, T, the bit position, and inside a payload byte that byte. -/
structure Decoding (u u' : Work) : Prop where
  arena     : u.arena = u'.arena
  queue     : u.queue = u'.queue
  totalBits : u.totalBits = u'.totalBits
  pos       : u.pos = u'.pos
  cur       : u.pos % 8 ≠ 0 → u.cur = u'.cur

/-- After GET_BIT's second line the payload byte agrees too. -/
theorem loadByte_alike (hm : e.InputIn m) {r r' : Run} (h : SameRun Decoding r r') :
    Alike (SameRun fun u u' => Decoding u u' ∧ u.cur = u'.cur) (loadByte e r) (loadByte (e.onMem m) r') := by
  obtain ⟨h⟩ := h
  unfold loadByte
  simp only [← h.pos]
  refine .ite (fun _ => (fetch_alike hm ⟨h⟩).bind ?_) fun hpos => ⟨h, h.cur hpos⟩
  rintro _ _ ⟨b, ⟨h1⟩⟩
  exact ⟨⟨h1.arena, h1.queue, h1.totalBits, h1.pos, fun _ => rfl⟩, rfl⟩

theorem getBit_alike (hm : e.InputIn m) {r r' : Run} (h : SameRun Decoding r r') :
    Alike (SameRead Decoding) (getBit e r) (getBit (e.onMem m) r') := by
  obtain ⟨h⟩ := h
  unfold getBit
  simp only [← h.pos, ← h.totalBits]
  refine .ite (fun _ => rfl) fun _ => (loadByte_alike hm ⟨h⟩).bind ?_
  rintro _ _ ⟨h1, hcur⟩
  rw [← hcur, ← h1.pos]
  exact .mk _ ⟨⟨h1.arena, h1.queue, h1.totalBits, rfl, fun _ => rfl⟩⟩

theorem walkSymbol_alike (hm : e.InputIn m) : ∀ {n x : Nat} {r r' : Run}, SameRun Decoding r r' →
    Alike (SameRead Decoding) (walkSymbol e n x r) (walkSymbol (e.onMem m) n x r')
  | 0, _, _, _, h => .mk 0 h
  | n + 1, x, _, _, @SameRun.mk _ _ _ u u' h => by
    unfold walkSymbol
    simp only [← h.arena]
    cases u.arena[x]? with
    | none => exact .mk 0 ⟨h⟩
    | some v =>
      cases v with
      | leaf sym w => exact .mk sym ⟨h⟩
      | internal w l r =>
        refine (getBit_alike hm ⟨h⟩).bind ?_
        rintro _ _ ⟨bit, h1⟩
        exact walkSymbol_alike hm h1

theorem decodeSymbols_alike (hm : e.InputIn m) : ∀ {n : Nat} {r r' : Run}, SameRun Decoding r r' →
    Alike (SameRun Decoding) (decodeSymbols e n r) (decodeSymbols (e.onMem m) n r')
  | 0, _, _, h => h
  | n + 1, _, _, ⟨h⟩ => by
    unfold decodeSymbols
    simp only [← h.arena, ← h.queue]
    refine (walkSymbol_alike hm ⟨h⟩).bind ?_
    rintro _ _ ⟨s, ⟨h1⟩⟩
    exact (emit_alike ⟨h1⟩).bind fun _ _ h2 => decodeSymbols_alike hm h2

theorem huffDecBody_alike (hm : e.InputIn m) {syms : List Byte} {r r' : Run} (h : SameRun (Header syms) r r') :
    Alike (SameRun AnyWork) (huffDecBody e syms r) (huffDecBody (e.onMem m) syms r') := by
  obtain ⟨h⟩ := h
  unfold huffDecBody
  match syms, h with
  | [], _ => exact ⟨trivial⟩
  | [b], h =>
    simp only [declaredLength_congr h.freq]
    exact (emitRep_alike ⟨h⟩).any
  | b :: c :: rest, h =>
    simp only [buildTreeRun, declaredLength_congr h.freq, buildTree_congr h.freq]
    exact (decodeSymbols_alike hm ⟨by exact ⟨rfl, rfl, h.totalBits, rfl, fun hpos => absurd rfl hpos⟩⟩).any

theorem huffDecUnit_alike (hm : e.InputIn m) {r r' : Run} (h : SameRun FullTables r r') :
    Alike (SameRun AnyWork) (huffDecUnit e r) (huffDecUnit (e.onMem m) r') := by
  obtain ⟨hfreq, -⟩ := h
  refine (readCount_alike (W := FreqsAgree fun _ => False) hm ⟨⟨hfreq, fun _ hb => hb.elim⟩⟩).bind ?_
  rintro _ _ ⟨d, h1⟩
  refine (readPairs_alike hm h1).bind ?_
  rintro ⟨syms, r2⟩ ⟨_, r2'⟩ ⟨rfl, h2⟩
  refine (readTotalBits_alike (syms := syms) hm (h2.mono fun _ _ hf => ?_)).bind fun _ _ h3 => huffDecBody_alike hm h3
  exact ⟨hf.length, fun b hb => hf.agree b (.inr hb)⟩

end

end Sys2Proof.Machine

/-! ### From a unit's runs to the command's results -/

namespace Sys2Proof.Machine

/-- Commands begin alike: cursor 0, no output, full tables. -/
theorem begin_alike (s s' : State) : SameRun FullTables s.begin s'.begin :=
  ⟨by simp [FullTables, Units.toWork]⟩

/-- A unit whose result is a function of the operands, the input bytes and the configuration. -/
def ResultFromInput (unit : Env → Run → Except Raise Run) : Prop :=
  ∀ (e : Env) (m : Memory) (r r' : Run), e.InputIn m → SameRun FullTables r r' →
    Alike (SameRun AnyWork) (unit e r) (unit (e.onMem m) r')

theorem unit_resultFromInput {i : Instr} {unit : Env → Run → Except Raise Run} (h : unitOf i = some unit) :
    ResultFromInput unit := by
  intro e m r r' hm hr
  cases i with
  | huffEnc => cases h; exact huffEncUnit_alike hm hr
  | huffDec => cases h; exact huffDecUnit_alike hm hr
  | lz77Enc => cases h; exact lz77EncUnit_alike hm hr.any
  | lz77Dec => cases h; exact lz77DecUnit_alike hm hr.any
  | rleEnc => cases h; exact rleEncUnit_alike hm hr.any
  | rleDec => cases h; exact rleDecUnit_alike hm hr.any
  | start _ _ | softReset _ _ | doneClear _ _ => cases h

/-- Two completions report the same result, and on success the same output bytes from `dst` on. -/
def SameCompletion (dst : Nat) (t t' : State) : Prop :=
  t'.error = t.error ∧ t'.errCode = t.errCode ∧ t'.errInfo = t.errInfo ∧ t'.outLen = t.outLen ∧
  (t.error = false → ∀ k, k < t.outLen.toNat → Memory.read t'.mem (dst + k) = Memory.read t.mem (dst + k))

theorem succeed_sameCompletion {s s' : State} (hw : Memory.wf s.mem = true) (hw' : Memory.wf s'.mem = true)
    (hl : s'.latch = s.latch) (out : List Byte) :
    SameCompletion s.latch.dst.toNat (succeed out s) (succeed out s') := by
  refine ⟨rfl, rfl, rfl, rfl, fun _ k hk => ?_⟩
  have hk : k < out.length := by
    rw [succeed_outLen, BitVec.toNat_ofNat] at hk
    exact hk.trans_le (Nat.mod_le _ _)
  rw [succeed_mem, succeed_mem, hl, Memory.read_writeBytes_at out _ k hw' hk, Memory.read_writeBytes_at out _ k hw hk]

theorem takeError_sameCompletion {s s' : State} (dst : Nat) (x : Raise) :
    SameCompletion dst (takeError x s) (takeError x s') :=
  ⟨rfl, rfl, rfl, rfl, fun h => nomatch h⟩

/-- The environment of a command that agrees in operands, input bytes and configuration differs in memory alone, which
holds the same input. -/
theorem env_onMem {s s' : State} (hc : s'.cfg = s.cfg) (hl : s'.latch = s.latch) (hb : s'.env.bytes = s.env.bytes) :
    s'.env = s.env.onMem s'.mem ∧ s.env.InputIn s'.mem := by
  have he : s'.env = s.env.onMem s'.mem := by simp [State.env, Env.onMem, hc, hl]
  refine ⟨he, fun i hi => ?_⟩
  rw [he] at hb
  exact List.map_inj_left.mp hb i (List.mem_range.mpr hi)

/-- A command completes alike in two states that agree on its operands, input bytes and configuration. -/
theorem exec_sameCompletion {i : Instr} (hi : i.port = .cmd) {s s' t t' : State} (hs : s.Running) (hs' : s'.Running)
    (hw : Memory.wf s.mem = true) (hw' : Memory.wf s'.mem = true) (hc : s'.cfg = s.cfg) (hl : s'.latch = s.latch)
    (hb : s'.env.bytes = s.env.bytes) (ht : exec i s = .next t) (ht' : exec i s' = .next t') :
    SameCompletion s.latch.dst.toNat t t' := by
  obtain ⟨unit, hu⟩ := unitOf_of_port hi
  rw [exec_of_unit hu] at ht ht'
  obtain ⟨he, hm⟩ := env_onMem hc hl hb
  have halike := unit_resultFromInput hu _ _ _ _ hm (begin_alike s s')
  rw [← he] at halike
  match hr : unit s.env s.begin, hr' : unit s'.env s'.begin, halike with
  | .ok _, .ok _, .mk _ =>
    rw [runCommand_ok hs.phase hs.checks hr] at ht
    rw [runCommand_ok hs'.phase hs'.checks hr'] at ht'
    cases ht
    cases ht'
    exact succeed_sameCompletion hw hw' hl _
  | .error x, .error _, rfl =>
    rw [runCommand_error hs.phase hs.checks hr] at ht
    rw [runCommand_error hs'.phase hs'.checks hr'] at ht'
    cases ht
    cases ht'
    exact takeError_sameCompletion _ x

/-- Settles O38: an LZ77 or RLE unit reads no working value before it has set it, so two runs on the same input end
alike. -/
theorem resultIsAFunction : Obligations.ResultIsAFunction := by
  unfold Obligations.ResultIsAFunction
  intro s s' t t' i hi hs hs' hw hw' hc hl hb ht ht'
  have hport : i.port = .cmd := by obtain rfl | rfl | rfl | rfl := hi <;> rfl
  exact exec_sameCompletion hport hs hs' hw hw' hc hl hb ht ht'

/-- Settles O39: HUFF_ENC's tree has a leaf, so a fresh code, for every symbol; HUFF_DEC reads the frequencies of its
header's symbols alone, and a payload byte before its bits. -/
theorem huffResultIsAFunction : Obligations.HuffResultIsAFunction := by
  unfold Obligations.HuffResultIsAFunction
  intro s s' t t' i hi hs hs' hw hw' hc hl hb ht ht'
  have hport : i.port = .cmd := by obtain rfl | rfl := hi <;> rfl
  exact exec_sameCompletion hport hs hs' hw hw' hc hl hb ht ht'

end Sys2Proof.Machine

/-! PROOFS. The register writes that request no control action, the interrupt line, and the invariant every step keeps
(10_state R39 to R60, 60_exceptions R416, 70_reset_and_hazards R461, R465). -/

namespace Sys2Proof.Machine

/-! ### A register write that requests no control action (40_command_sequencer R151) -/

theorem writeReg_ctrl (s : State) (v : Word) : writeReg s 0x08 v = setIe (v.getLsbD 2) s := rfl

section
variable {s : State} (hb : s.busy = false) (v : Word)
include hb

theorem writeReg_cmd : writeReg s 0x10 v = { s with cmd := v } := by simp [writeReg, hb]

theorem writeReg_srcAddr : writeReg s 0x14 v = { s with srcAddr := v } := by simp [writeReg, hb]

theorem writeReg_srcLen : writeReg s 0x18 v = { s with srcLen := v } := by simp [writeReg, hb]

theorem writeReg_dstAddr : writeReg s 0x1C v = { s with dstAddr := v } := by simp [writeReg, hb]

theorem writeReg_dstCap : writeReg s 0x20 v = { s with dstCap := v } := by simp [writeReg, hb]

end

/-- A CTRL word with bits 1:0 = 00 requests no action (30_encoding R114). -/
theorem decodeCtrl_eq_none {v : Word} (h1 : v.getLsbD 1 = false) (h0 : v.getLsbD 0 = false) : decodeCtrl v = none := by
  unfold decodeCtrl
  rw [h1, h0]
  rfl

/-- An aligned 32-bit write whose word requests no control action is a plain register write. -/
theorem step_plainWrite {s : State} {off : BitVec 8} {v : Word} {rest : List Input} (hc : s.cfg.wellFormed = true)
    (hi : s.inputs = .write 32 off v :: rest) (hal : off.toNat % 4 = 0) (hctrl : off = 0x08 → decodeCtrl v = none)
    (hstatus : off = 0x0C → decodeStatus v = none) : step s = .next (writeReg { s with inputs := rest } off v) := by
  have hform : accessFormOk 32 off = true := by simp [accessFormOk, hal]
  rw [step_cons hc hi]
  show (busWrite 32 off v { s with inputs := rest }).outcome = _
  obtain ⟨hbad, -⟩ | ⟨-, h8, i, hd, -⟩ | ⟨-, hC, i, hd, -⟩ | ⟨-, -, -, ho⟩ :=
    busWrite_outcome 32 off v { s with inputs := rest }
  · cases hform.symm.trans hbad
  · cases (hctrl h8).symm.trans hd
  · cases (hstatus hC).symm.trans hd
  · exact ho

/-- Settles O11: none of the five offsets is CTRL or STATUS, so each write is plain. -/
theorem operandWriteStores : Obligations.OperandWriteStores := by
  unfold Obligations.OperandWriteStores
  intro s v rest hc hb
  have hb' : ({ s with inputs := rest } : State).busy = false := hb
  have hplain : ∀ off : BitVec 8, off.toNat % 4 = 0 → off ≠ 0x08 → off ≠ 0x0C → s.inputs = .write 32 off v :: rest →
      step s = .next (writeReg { s with inputs := rest } off v) :=
    fun off hal h8 hC hi => step_plainWrite hc hi hal (fun h => absurd h h8) fun h => absurd h hC
  refine ⟨fun hi => ?_, fun hi => ?_, fun hi => ?_, fun hi => ?_, fun hi => ?_⟩ <;>
    rw [hplain _ (by decide) (by decide) (by decide) hi]
  · rw [writeReg_cmd hb']
  · rw [writeReg_srcAddr hb']
  · rw [writeReg_srcLen hb']
  · rw [writeReg_dstAddr hb']
  · rw [writeReg_dstCap hb']

/-! ### The interrupt line (10_state R60) -/

theorem irq_iff {s : State} : s.irq = true ↔ s.done = true ∧ s.ie = true := by
  simp [State.irq]

theorem irq_of_not_done {s : State} (h : s.done = false) : s.irq = false := by
  simp [State.irq, h]

/-- A running command completes: DONE is set and IE stays (40_command_sequencer R166). -/
theorem runCommand_completes {u : Env → Run → Except Raise Run} {s t : State} (hp : s.phase = .run)
    (h : runCommand u s = .next t) : t.done = true ∧ t.ie = s.ie := by
  obtain ⟨hidle, -⟩ | ⟨-, r, -, rfl⟩ | ⟨-, -, r, -, rfl⟩ | ⟨-, -, r, -, rfl⟩ := runCommand_next h
  · cases hp.symm.trans hidle
  all_goals exact ⟨rfl, rfl⟩

theorem exec_completes {i : Instr} {s t : State} (hi : i.port = .cmd) (hp : s.phase = .run) (h : exec i s = .next t) :
    t.done = true ∧ t.ie = s.ie := by
  obtain ⟨u, hu⟩ := unitOf_of_port hi
  rw [exec_of_unit hu] at h
  exact runCommand_completes hp h

/-- Settles O20: a completion sets DONE and keeps IE, a CTRL write without an action sets IE alone, and each of the three
actions clears DONE. -/
theorem interruptLine : Obligations.InterruptLine := by
  unfold Obligations.InterruptLine
  intro s t
  refine ⟨irq_iff, fun i hi hp h => ?_, fun v rest hc hin h1 h0 => ?_, fun ie x hb hd => ?_, fun b x => ?_, fun b x => ?_⟩
  · obtain ⟨hdone, hie⟩ := exec_completes hi hp h
    simp [State.irq, hdone, hie]
  · refine ⟨_, step_plainWrite hc hin (by decide) (fun _ => decodeCtrl_eq_none h1 h0)
      (fun hC => absurd hC (by decide)), ?_⟩
    rw [writeReg_ctrl]
    rfl
  · exact ⟨_, execStart_idle hb hd, irq_of_not_done rfl⟩
  · exact ⟨_, rfl, irq_of_not_done rfl⟩
  · exact ⟨_, rfl, irq_of_not_done (resetBlock_done s)⟩

/-! ### What the host's accesses do when they answer a next state -/

theorem hostRegRead_next {bits : Nat} {off : BitVec 8} {s t : State} (h : hostRegRead bits off s = .next t) :
    accessFormOk bits off = true ∧ t = { s with host :=
      { (if off = 0x0C ∧ s.done then s.host.sawDone else s.host) with readData := readReg s off } } := by
  unfold hostRegRead at h
  split at h
  · next hform => cases h; exact ⟨hform, rfl⟩
  · cases h

theorem hostMemWrite_next {a : Nat} {b : Byte} {s t : State} (h : hostMemWrite a b s = .next t) :
    a < 2 ^ 32 ∧ (∀ d ∈ Config.deviceRegions s.cfg, d.contains a = false) ∧ commandOwns s a = false ∧ t = { s with
      mem := Memory.write s.mem a b
      host := { s.host with unfenced := a :: s.host.unfenced, dirty := a :: s.host.dirty } } := by
  unfold hostMemWrite at h
  split at h
  · cases h
  · next ha =>
    split at h
    · cases h
    · next hdev =>
      split at h
      · cases h
      · next hown =>
        cases h
        exact ⟨by simpa [addressOk] using ha, by simpa using hdev, by simpa using hown, rfl⟩

/-- Whatever byte it gives, a host load changes the value read alone, and the draws where the byte is free. -/
theorem hostMemRead_next {a : Nat} {s t : State} (h : hostMemRead a s = .next t) :
    ∃ w n, t = { s with host := { s.host with readData := w }, draws := n } := by
  unfold hostMemRead at h
  repeat' split at h
  all_goals cases h
  · exact ⟨_, _, rfl⟩
  · exact ⟨_, s.draws, rfl⟩

/-! ### Memory stays canonical and inside the space -/

/-- Memory as the invariant has it: in its canonical form, every listed address one of the 2^32 (20_memory R80). -/
structure Memory.Sound (m : Memory) : Prop where
  wf    : Memory.wf m = true
  space : Memory.inSpace m = true

theorem State.Inv.sound {s : State} (h : s.Inv) : Memory.Sound s.mem := ⟨h.mem_wf, h.mem_space⟩

theorem Memory.Sound.write {m : Memory} (h : Memory.Sound m) {a : Nat} (b : Byte) (ha : a < 2 ^ 32) :
    Memory.Sound (Memory.write m a b) :=
  ⟨Memory.wf_write a b h.wf, Memory.inSpace_write b ha h.space⟩

/-- A success writes inside the output region, which the start checks found inside the space. -/
theorem succeed_sound {s : State} (hm : Memory.Sound s.mem) {out : List Byte} (hc : startChecks s.latch = none)
    (hout : out.length ≤ s.latch.cap.toNat) : Memory.Sound (succeed out s).mem := by
  obtain ⟨-, -, hfit, -⟩ := startChecks_eq_none.mp hc
  have hend : s.latch.dst.toNat + s.latch.cap.toNat ≤ 2 ^ 32 := hfit
  exact ⟨Memory.wf_writeBytes out _ hm.wf, Memory.inSpace_writeBytes out _ (by omega) hm.space⟩

/-- Freeing the output region stops at the end of the space, whether or not the region does. -/
theorem scrambleOutput_sound {s : State} (hm : Memory.Sound s.mem) : Memory.Sound (scrambleOutput s).mem := by
  have hdst := s.latch.dst.isLt
  exact ⟨Memory.wf_fill _ _ _ hm.wf, Memory.inSpace_fill _ _ _ (by omega) hm.space⟩

theorem abort_sound {s : State} (hm : Memory.Sound s.mem) : Memory.Sound (abort s).mem := by
  unfold abort
  split
  · exact scrambleOutput_sound hm
  · exact hm

/-! ### What keeps the invariant -/

theorem State.Inv.withInputs {s : State} (hs : s.Inv) (rest : List Input) : State.Inv { s with inputs := rest } :=
  { hs with }

/-- The invariant allows the host's side to change but for the regions it owns, and those too once DONE is set: a command
with DONE no longer runs. -/
theorem State.Inv.withHost {s : State} (hs : s.Inv) {h : HostView} (n : Nat)
    (howned : s.done = true ∨ h.owned = s.host.owned) : State.Inv { s with host := h, draws := n } :=
  { hs with
    owned_run := fun hb => by
      obtain hd | ho := howned
      · exact absurd ⟨hb, hd⟩ hs.exclusive
      · show h.owned.head? = _
        rw [ho]
        exact hs.owned_run hb }

theorem setIe_inv {s : State} (hs : s.Inv) (ie : Bool) : (setIe ie s).Inv := { hs with }

theorem acknowledge_inv {s : State} (hs : s.Inv) : (acknowledge s).Inv :=
  { hs with exclusive := fun h => nomatch h.2 }

theorem writeReg_inv {s : State} (hs : s.Inv) (off : BitVec 8) (v : Word) : (writeReg s off v).Inv := by
  unfold writeReg
  repeat' split
  all_goals exact { hs with }

/-- A block at rest owes the invariant only its result registers and its memory. -/
theorem State.Inv.of_idle {t : State} (hb : t.busy = false) (hp : t.phase = .idle)
    (herr : t.errCode ≠ 0 ↔ t.error = true) (hcode : t.errCode = 0 ∨ 2 ≤ t.errCode.toNat ∧ t.errCode.toNat ≤ 9)
    (hlen : t.error = true → t.outLen = 0) (hinfo : t.error = false → t.errInfo = 0) (hm : Memory.Sound t.mem) :
    t.Inv where
  busy_iff := by simp [hb, hp]
  exclusive := by simp [hb]
  error_iff := herr
  code_legal := hcode
  busy_clear := by simp [hb]
  error_len := hlen
  success_info := hinfo
  owned_run := by simp [hb]
  on_memory := by simp [hb]
  mem_wf := hm.wf
  mem_space := hm.space

/-- Every error a command raises has one of the codes 2 to 9 (60_exceptions R400, R410). -/
theorem ErrKind.code_bounds (k : ErrKind) : k.code ≠ 0 ∧ 2 ≤ k.code.toNat ∧ k.code.toNat ≤ 9 := by
  cases k <;> decide

theorem takeError_inv {s : State} (hm : Memory.Sound s.mem) (r : Raise) : (takeError r s).Inv :=
  have ⟨hne, hlegal⟩ := r.kind.code_bounds
  .of_idle rfl rfl (iff_of_true hne rfl) (.inr hlegal) (fun _ => rfl) (fun h => nomatch h) hm

theorem succeed_inv {s : State} {out : List Byte} (hm : Memory.Sound (succeed out s).mem) : (succeed out s).Inv :=
  .of_idle rfl rfl (iff_of_false (absurd rfl) Bool.false_ne_true) (.inl rfl) (fun h => nomatch h) (fun _ => rfl) hm

theorem resetBlock_inv {s : State} (hm : Memory.Sound s.mem) : (resetBlock s).Inv :=
  .of_idle (by simp) (by simp) (by simp) (by simp) (by simp) (by simp) (by simpa using abort_sound hm)

/-- A START that keeps the host's duties latches regions on plain memory and makes them the host's duty. -/
theorem acceptStart_inv {s : State} (hd : s.Dutiful) (hm : Memory.Sound s.mem) : (acceptStart s).Inv where
  busy_iff := by simp
  exclusive := by simp
  error_iff := by simp
  code_legal := by simp
  busy_clear := by simp
  error_len := by simp
  success_info := by simp
  owned_run := fun _ => rfl
  on_memory := fun _ => hd.1
  mem_wf := hm.wf
  mem_space := hm.space

/-! ### Every step keeps it -/

theorem execStart_inv {ie : Bool} {s t : State} (hs : s.Inv) (h : execStart ie s = .next t) : t.Inv := by
  obtain ⟨-, rfl⟩ | ⟨-, hd, rfl⟩ := execStart_next h
  · exact setIe_inv hs ie
  · exact acceptStart_inv hd hs.sound

theorem exec_command_inv {i : Instr} {s t : State} (hs : s.Inv) (h : exec i s = .next t) (hi : i.port = .cmd) :
    t.Inv := by
  obtain ⟨u, hu⟩ := unitOf_of_port hi
  rw [exec_of_unit hu] at h
  obtain ⟨-, rfl⟩ | ⟨-, r, -, rfl⟩ | ⟨-, hc, r, hok, rfl⟩ | ⟨-, -, r, -, rfl⟩ := runCommand_next h
  · exact hs
  · exact takeError_inv hs.sound r
  · exact succeed_inv (succeed_sound hs.sound hc (unit_out_le hu hok))
  · exact takeError_inv (scrambleOutput_sound hs.sound) r

theorem exec_inv {i : Instr} {s t : State} (hs : s.Inv) (h : exec i s = .next t) : t.Inv := by
  cases i with
  | huffEnc | huffDec | lz77Enc | lz77Dec | rleEnc | rleDec => exact exec_command_inv hs h rfl
  | start ie _ => exact execStart_inv hs h
  | softReset _ _ => cases h; exact resetBlock_inv hs.sound
  | doneClear _ _ => cases h; exact acknowledge_inv hs

theorem hostRegRead_inv {bits : Nat} {off : BitVec 8} {s t : State} (hs : s.Inv)
    (h : hostRegRead bits off s = .next t) : t.Inv := by
  obtain ⟨-, rfl⟩ := hostRegRead_next h
  refine hs.withHost s.draws ?_
  split
  · next hseen => exact .inl hseen.2
  · exact .inr rfl

theorem hostMemWrite_inv {a : Nat} {b : Byte} {s t : State} (hs : s.Inv) (h : hostMemWrite a b s = .next t) :
    t.Inv := by
  obtain ⟨ha, -, -, rfl⟩ := hostMemWrite_next h
  have hm := hs.sound.write b ha
  exact { hs with mem_wf := hm.wf, mem_space := hm.space }

theorem hostMemRead_inv {a : Nat} {s t : State} (hs : s.Inv) (h : hostMemRead a s = .next t) : t.Inv := by
  obtain ⟨w, n, rfl⟩ := hostMemRead_next h
  exact hs.withHost n (.inr rfl)

theorem hostTakeIrq_inv {s : State} (hs : s.Inv) (line : Nat) : (hostTakeIrq line s).Inv := by
  unfold hostTakeIrq
  split
  · next hirq => exact hs.withHost s.draws (.inl (irq_iff.mp hirq.2).1)
  · exact hs

theorem blockTurn_inv {s t : State} (hs : s.Inv) (h : (blockTurn s).outcome = .next t) : t.Inv := by
  obtain ⟨-, ho⟩ | ⟨-, i, -, ho⟩ | ⟨-, -, ho⟩ := blockTurn_outcome s <;> rw [ho] at h
  · cases h; exact hs
  · exact exec_inv hs h
  · cases h; exact takeError_inv hs.sound _

theorem busWrite_inv {bits : Nat} {off : BitVec 8} {v : Word} {s t : State} (hs : s.Inv)
    (h : (busWrite bits off v s).outcome = .next t) : t.Inv := by
  obtain ⟨-, ho⟩ | ⟨-, -, i, -, ho⟩ | ⟨-, -, i, -, ho⟩ | ⟨-, -, -, ho⟩ := busWrite_outcome bits off v s <;> rw [ho] at h
  · cases h
  · exact exec_inv hs h
  · exact exec_inv hs h
  · cases h; exact writeReg_inv hs off v

theorem takeInput_inv {x : Input} {s t : State} (hs : s.Inv) (h : (takeInput x s).outcome = .next t) : t.Inv := by
  cases x with
  | write bits off v => exact busWrite_inv hs h
  | read bits off => exact hostRegRead_inv hs h
  | memWrite a b => exact hostMemWrite_inv hs h
  | memRead a => exact hostMemRead_inv hs h
  | fence | cacheClean r | cacheInvalidate r => cases h; exact hs.withHost s.draws (.inr rfl)
  | takeIrq line => cases h; exact hostTakeIrq_inv hs line
  | hwReset => cases h; exact resetBlock_inv hs.sound
  | blockTurn => exact blockTurn_inv hs h

/-- Settles O35, by what the step comes from: the block's turn or an input, each of which keeps the invariant. -/
theorem stepKeepsInv : Obligations.StepKeepsInv := by
  unfold Obligations.StepKeepsInv
  intro s t hs h
  obtain ⟨-, ho⟩ | ⟨-, -, ho⟩ | ⟨-, x, rest, -, ho⟩ := step_cases s <;> rw [ho] at h
  · cases h
  · exact blockTurn_inv hs h
  · exact takeInput_inv (hs.withInputs rest) h

end Sys2Proof.Machine

/-! PROOFS. The host and the memory: what a host access is refused for, what a load, a fence, cache maintenance and the
interrupt do, and what a command leaves unchanged (20_memory R80 to R102, 60_exceptions R416, R423,
70_reset_and_hazards R461). -/

namespace Sys2Proof.Machine

/-! ### What a command leaves unchanged (10_state R61, 20_memory R84) -/

/-- A completion keeps the frame when the memory it stands on differs from the command's inside the output region
alone. -/
theorem complete_frame {s : State} (err : Option ErrKind) (outLen errInfo : Word) {m : Memory} {n : Nat}
    (hm : ∀ a, (a < s.latch.dst.toNat ∨ s.latch.dst.toNat + s.latch.cap.toNat ≤ a) →
      Memory.read m a = Memory.read s.mem a) :
    CommandFrame s (complete err outLen errInfo { s with mem := m, draws := n }) where
  cfg := complete_cfg _ err outLen errInfo
  ie := complete_ie _ err outLen errInfo
  cmd := complete_cmd _ err outLen errInfo
  operands := by simp
  inputs := complete_inputs _ err outLen errInfo
  host := complete_host _ err outLen errInfo
  memory := by simpa using hm

theorem takeError_frame (s : State) (r : Raise) : CommandFrame s (takeError r s) :=
  complete_frame (some r.kind) 0 _ fun _ _ => rfl

theorem takeError_scrambleOutput_frame {s : State} (hw : Memory.wf s.mem = true) (r : Raise) :
    CommandFrame s (takeError r (scrambleOutput s)) :=
  complete_frame (some r.kind) 0 _ fun a ha => Memory.read_fill_other _ _ _ a hw (by omega)

theorem succeed_frame {s : State} (hw : Memory.wf s.mem = true) {out : List Byte}
    (hout : out.length ≤ s.latch.cap.toNat) : CommandFrame s (succeed out s) :=
  complete_frame none _ 0 fun a ha => Memory.read_writeBytes_other out _ a hw (by omega)

/-- An output that fits its region is counted exactly: L_CAP is a 32-bit number. -/
theorem succeed_outLen_toNat {s : State} {out : List Byte} (hout : out.length ≤ s.latch.cap.toNat) :
    (succeed out s).outLen.toNat = out.length := by
  have hcap := s.latch.cap.isLt
  rw [succeed_outLen, BitVec.toNat_ofNat, Nat.mod_eq_of_lt (by omega)]

/-- Settles O24, by the three ways a running command ends: a failed start check touches no memory, an error of the unit
frees the output region, a success writes its output, which fits the region. -/
theorem commandLeavesUnchanged : Obligations.CommandLeavesUnchanged := by
  unfold Obligations.CommandLeavesUnchanged
  intro s t i hi hp hw h
  obtain ⟨u, hu⟩ := unitOf_of_port hi
  rw [exec_of_unit hu] at h
  obtain ⟨hidle, -⟩ | ⟨-, r, -, rfl⟩ | ⟨-, -, r, hok, rfl⟩ | ⟨-, -, r, -, rfl⟩ := runCommand_next h
  · cases hp.symm.trans hidle
  · exact ⟨takeError_frame s r, fun he => nomatch he⟩
  · have hout := unit_out_le hu hok
    refine ⟨succeed_frame hw hout, fun _ => ?_⟩
    rw [succeed_outLen_toNat hout]
    exact ⟨hout, fun a ha => Memory.read_writeBytes_other r.out _ a hw ha⟩
  · exact ⟨takeError_scrambleOutput_frame hw r, fun he => nomatch he⟩

/-! ### The step at a host access to memory -/

theorem step_memRead {s : State} {a : Nat} {rest : List Input} (hc : s.cfg.wellFormed = true)
    (hi : s.inputs = .memRead a :: rest) : step s = hostMemRead a { s with inputs := rest } := step_cons hc hi

theorem step_memWrite {s : State} {a : Nat} {b : Byte} {rest : List Input} (hc : s.cfg.wellFormed = true)
    (hi : s.inputs = .memWrite a b :: rest) : step s = hostMemWrite a b { s with inputs := rest } := step_cons hc hi

/-! ### A byte access to an address that takes none (20_memory R80, R89, R93) -/

theorem addressOk_of_lt {a : Nat} (ha : a < 2 ^ 32) : addressOk a = true := decide_eq_true ha

theorem addressOk_of_ge {a : Nat} (ha : 2 ^ 32 ≤ a) : addressOk a = false := decide_eq_false (not_lt.mpr ha)

section
variable {s : State} {a : Nat}

theorem hostMemWrite_outside (b : Byte) (ha : 2 ^ 32 ≤ a) : hostMemWrite a b s = .fault .noSuchAddress := by
  simp [hostMemWrite, addressOk_of_ge ha]

theorem hostMemRead_outside (ha : 2 ^ 32 ≤ a) : hostMemRead a s = .fault .noSuchAddress := by
  simp [hostMemRead, addressOk_of_ge ha]

theorem hostMemWrite_device (b : Byte) (ha : a < 2 ^ 32)
    (hdev : ∃ d ∈ Config.deviceRegions s.cfg, d.contains a = true) :
    hostMemWrite a b s = .refused .hostByteAccessToDevice := by
  simp [hostMemWrite, addressOk_of_lt ha, List.any_eq_true.mpr hdev]

theorem hostMemRead_device (ha : a < 2 ^ 32) (hdev : ∃ d ∈ Config.deviceRegions s.cfg, d.contains a = true) :
    hostMemRead a s = .refused .hostByteAccessToDevice := by
  simp [hostMemRead, addressOk_of_lt ha, List.any_eq_true.mpr hdev]

end

theorem accessFormOk_eq_false {bits : Nat} {off : BitVec 8} (h : bits ≠ 32 ∨ off.toNat % 4 ≠ 0) :
    accessFormOk bits off = false := by
  simpa [accessFormOk, imp_iff_not_or] using h

theorem hostRegRead_refused {bits : Nat} {off : BitVec 8} (s : State) (h : accessFormOk bits off = false) :
    hostRegRead bits off s = .refused .registerAccessForm := by
  simp [hostRegRead, h]

theorem busWrite_refused {bits : Nat} {off : BitVec 8} (v : Word) (s : State) (h : accessFormOk bits off = false) :
    (busWrite bits off v s).outcome = .refused .registerAccessForm := by
  simp [busWrite, h, Fetched.outcome]

/-- Settles O10: the form is checked before the register, the address before the memory. -/
theorem accessFormRefused : Obligations.AccessFormRefused := by
  unfold Obligations.AccessFormRefused
  intro s bits off v rest hc
  constructor
  · intro hform hi
    have hbad := accessFormOk_eq_false hform
    obtain hi | hi := hi <;> rw [step_cons hc hi]
    · exact busWrite_refused v _ hbad
    · exact hostRegRead_refused _ hbad
  · intro a b hi
    obtain hi | hi := hi
    · rw [step_memWrite hc hi]
      exact ⟨hostMemWrite_outside b, hostMemWrite_device (s := { s with inputs := rest }) b⟩
    · rw [step_memRead hc hi]
      exact ⟨hostMemRead_outside, hostMemRead_device (s := { s with inputs := rest })⟩

/-! ### A byte access to ordinary memory (20_memory R96, R98, R102) -/

/-- A started command's output is the host's duty, or a completed one's is not ordered yet (20_memory R96). -/
def OutputUnordered (s : State) (a : Nat) : Prop :=
  (∃ o ∈ s.host.owned, o.output.contains a = true) ∨ ∃ p ∈ s.host.outUnordered, p.1.contains a = true

/-- The host's caches may hold an output byte the DMA has replaced (20_memory R102). -/
def OutputStale (s : State) (a : Nat) : Prop :=
  s.cfg.dmaCoherent = false ∧ ∃ r ∈ s.host.outCached, r.contains a = true

theorem outputUnordered_iff {s : State} {a : Nat} : OutputUnordered s a ↔
    ((s.host.owned.any fun o => o.output.contains a) || s.host.outUnordered.any fun p => p.1.contains a) = true := by
  simp only [OutputUnordered, Bool.or_eq_true, List.any_eq_true]

theorem outputStale_iff {s : State} {a : Nat} : OutputStale s a ↔
    (!s.cfg.dmaCoherent && s.host.outCached.any fun r => r.contains a) = true := by
  simp only [OutputStale, Bool.and_eq_true, Bool.not_eq_true', List.any_eq_true]

section
variable {s : State} {a : Nat} (ha : a < 2 ^ 32) (hdev : ∀ d ∈ Config.deviceRegions s.cfg, d.contains a = false)
include ha hdev

theorem hostMemWrite_owned (b : Byte) (hown : commandOwns s a = true) :
    hostMemWrite a b s = .refused .hostWroteCommandRegion := by
  simp [hostMemWrite, addressOk_of_lt ha, List.any_eq_false.mpr (by simpa using hdev), hown]

/-- In memory that is no running command's output, a load is decided by what the host has ordered, then by what it has
invalidated. -/
theorem hostMemRead_memory (hrun : ¬(s.phase = .run ∧ s.latch.output.contains a = true)) : hostMemRead a s =
    if (s.host.owned.any fun o => o.output.contains a) || s.host.outUnordered.any (fun p => p.1.contains a) then
      .refused .outputReadUnordered
    else if !s.cfg.dmaCoherent && s.host.outCached.any (fun r => r.contains a) then .refused .outputCacheStale
    else .next { s with host := { s.host with readData := (Memory.read s.mem a).setWidth 32 } } := by
  unfold hostMemRead
  rw [if_neg (by simp [addressOk_of_lt ha]), if_neg (by simpa using hdev), if_neg hrun]

/-- The output of a running command reads as a free byte (93_implementation_defined 8). -/
theorem hostMemRead_running (hp : s.phase = .run) (hout : s.latch.output.contains a = true) :
    hostMemRead a s = .next { s with
      host := { s.host with readData := (Config.freeByte s.draws a).setWidth 32 }, draws := s.draws + 1 } := by
  unfold hostMemRead
  rw [if_neg (by simp [addressOk_of_lt ha]), if_neg (by simpa using hdev), if_pos ⟨hp, hout⟩]

section
variable (hrun : ¬(s.phase = .run ∧ s.latch.output.contains a = true))
include hrun

theorem hostMemRead_unordered (hu : OutputUnordered s a) : hostMemRead a s = .refused .outputReadUnordered := by
  rw [hostMemRead_memory ha hdev hrun, if_pos (outputUnordered_iff.mp hu)]

theorem hostMemRead_stale (hu : ¬OutputUnordered s a) (hst : OutputStale s a) :
    hostMemRead a s = .refused .outputCacheStale := by
  rw [hostMemRead_memory ha hdev hrun, if_neg (hu ∘ outputUnordered_iff.mpr), if_pos (outputStale_iff.mp hst)]

theorem hostMemRead_ordered (hu : ¬OutputUnordered s a) (hst : ¬OutputStale s a) : hostMemRead a s =
    .next { s with host := { s.host with readData := (Memory.read s.mem a).setWidth 32 } } := by
  rw [hostMemRead_memory ha hdev hrun, if_neg (hu ∘ outputUnordered_iff.mpr), if_neg (hst ∘ outputStale_iff.mpr)]

end
end

theorem commandOwns_of_running {s : State} {a : Nat} (hp : s.phase = .run)
    (h : s.latch.input.contains a = true ∨ s.latch.output.contains a = true) : commandOwns s a = true := by
  simp [commandOwns, hp, h]

theorem commandOwns_of_owned {s : State} {a : Nat} {o : Owned} (ho : o ∈ s.host.owned)
    (h : o.input.contains a = true ∨ o.output.contains a = true) : commandOwns s a = true := by
  rw [commandOwns, Bool.or_eq_true]
  exact .inr (List.any_eq_true.mpr ⟨o, ho, by simpa using h⟩)

/-- Settles O31: the running command's output is looked at before what is ordered, and a store is refused in every
region a command owns. -/
theorem hostAccessWhileRunning : Obligations.HostAccessWhileRunning := by
  unfold Obligations.HostAccessWhileRunning
  intro s a b rest hc ha hdev
  refine ⟨fun hp hout hi => ?_, fun hp hreg hi => ?_, fun o ho hreg hi => ?_⟩
  · rw [step_memRead hc hi]
    refine ⟨_, _, hostMemRead_running ha hdev hp hout, ?_⟩
    rw [BitVec.toNat_setWidth_of_le (by decide)]
    exact BitVec.isLt _
  · rw [step_memWrite hc hi]
    exact hostMemWrite_owned (s := { s with inputs := rest }) ha hdev b (commandOwns_of_running hp hreg)
  · rw [step_memWrite hc hi]
    exact hostMemWrite_owned (s := { s with inputs := rest }) ha hdev b (commandOwns_of_owned ho hreg)

/-- Settles O33, by the three answers a load of memory outside a running command's output can have. -/
theorem hostLoad : Obligations.HostLoad := by
  unfold Obligations.HostLoad
  intro s a rest hc hi ha hdev hrun unordered stale
  rw [step_memRead hc hi]
  exact ⟨hostMemRead_unordered (s := { s with inputs := rest }) ha hdev hrun,
    hostMemRead_stale (s := { s with inputs := rest }) ha hdev hrun,
    fun hu hst => ⟨_, hostMemRead_ordered ha hdev hrun hu hst, BitVec.toNat_setWidth_of_le (by decide)⟩⟩

/-! ### Fence, cache maintenance and sight of a completion (20_memory R95, R96, R102) -/

theorem step_fence {s : State} {rest : List Input} (hc : s.cfg.wellFormed = true) (hi : s.inputs = .fence :: rest) :
    step s = .next (hostFence { s with inputs := rest }) := step_cons hc hi

/-- Settles O29: both keep a part of what was pending by a filter. -/
theorem fenceAndClean : Obligations.FenceAndClean := by
  unfold Obligations.FenceAndClean
  intro s r rest hc
  refine ⟨fun hi => ⟨_, step_fence hc hi, fun p => ?_⟩, fun hi => ⟨_, step_cons hc hi, fun a => ?_⟩⟩ <;>
    simp only [List.mem_filter, Bool.not_eq_true']

/-- A STATUS read that shows DONE = 1 tells the host of the completion. -/
theorem step_statusRead_done {s : State} {rest : List Input} (hc : s.cfg.wellFormed = true) (hd : s.done = true)
    (hi : s.inputs = .read 32 0x0C :: rest) :
    step s = .next { s with inputs := rest, host := { s.host.sawDone with readData := s.statusWord } } := by
  rw [step_cons hc hi]
  show hostRegRead 32 0x0C { s with inputs := rest } = _
  unfold hostRegRead
  rw [if_pos (by decide), if_pos ⟨rfl, hd⟩]
  rfl

/-- Once DONE was seen, every output waits for the fence alone. -/
theorem sawDone_seen (h : HostView) : ∀ p ∈ h.sawDone.outUnordered, p.2 = true := by
  simp [HostView.sawDone]

theorem sawDone_regions (h : HostView) : h.sawDone.outUnordered.map Prod.fst = h.outUnordered.map Prod.fst := by
  simp [HostView.sawDone]

/-- Settles O32: the read marks every output as seen and ends the duties, the fence drops every output seen. -/
theorem doneThenFenceOrders : Obligations.DoneThenFenceOrders := by
  unfold Obligations.DoneThenFenceOrders
  intro s rest hc hd hi
  refine ⟨_, _, step_statusRead_done hc hd hi, step_fence (by exact hc) rfl, ?_, rfl, rfl, rfl, rfl⟩
  refine List.filter_eq_nil_iff.mpr fun p hp => ?_
  simp [sawDone_seen s.host p hp]

/-- Taking a range from every region leaves the addresses outside it. -/
theorem flatMap_minus_contains {qs : List Region} {r : Region} {a : Nat} :
    (∃ p ∈ qs.flatMap fun q => q.minus r, p.contains a = true) ↔
      (∃ q ∈ qs, q.contains a = true) ∧ r.contains a = false := by
  calc (∃ p ∈ qs.flatMap fun q => q.minus r, p.contains a = true)
      ↔ ∃ q ∈ qs, ∃ p ∈ q.minus r, p.contains a = true := by simp only [List.mem_flatMap]; tauto
    _ ↔ ∃ q ∈ qs, q.contains a = true ∧ r.contains a = false := by simp only [Region.minus_contains]
    _ ↔ (∃ q ∈ qs, q.contains a = true) ∧ r.contains a = false := by tauto

theorem hostTakeIrq_wired {s : State} {line : Nat} (hw : s.cfg.irqInput = some line) (hirq : s.irq = true) :
    hostTakeIrq line s = { s with host := s.host.sawDone } := if_pos ⟨hw, hirq⟩

theorem hostTakeIrq_elsewhere {s : State} {line : Nat} (h : s.cfg.irqInput ≠ some line ∨ s.irq = false) :
    hostTakeIrq line s = s :=
  if_neg fun ⟨hw, hirq⟩ => h.elim (· hw) fun h0 => nomatch h0.symm.trans hirq

theorem step_takeIrq {s : State} {line : Nat} {rest : List Input} (hc : s.cfg.wellFormed = true)
    (hi : s.inputs = .takeIrq line :: rest) : step s = .next (hostTakeIrq line { s with inputs := rest }) :=
  step_cons hc hi

/-- Settles O34: an invalidate takes its range from each region, and the interrupt counts at its input alone, where it
shows DONE to the host. -/
theorem invalidateAndInterrupt : Obligations.InvalidateAndInterrupt := by
  unfold Obligations.InvalidateAndInterrupt
  intro s r line rest hc
  refine ⟨fun hi => ⟨_, step_cons hc hi, fun a => flatMap_minus_contains⟩, fun hi hw hirq => ?_, fun hi h => ?_⟩
  · refine ⟨_, ?_, sawDone_regions s.host, sawDone_seen s.host⟩
    rw [step_takeIrq hc hi, hostTakeIrq_wired (by exact hw) (by exact hirq)]
    rfl
  · rw [step_takeIrq hc hi, hostTakeIrq_elsewhere (by exact h)]

end Sys2Proof.Machine

/-! PROOFS. Encoding: the decoder and the encoder are inverse on the bytes of the bus (30_encoding R110 to R117, 20_memory
R87), and what a CTRL, a STATUS and a memory write of the host do (30_encoding R114, R115, R135). -/

namespace Sys2Proof

/-! ### The bytes of a word -/

theorem wordBytes_wordOfBytes (b0 b1 b2 b3 : Byte) : wordBytes (wordOfBytes b0 b1 b2 b3) = [b0, b1, b2, b3] := by
  have h0 : (b3 ++ b2 ++ b1 ++ b0).extractLsb' 0 8 = b0 := BitVec.extractLsb'_append_eq_right
  have h1 : (b3 ++ b2 ++ b1 ++ b0).extractLsb' 8 8 = b1 := by
    rw [BitVec.extractLsb'_append_eq_of_le (by decide)]
    exact BitVec.extractLsb'_append_eq_right
  have h2 : (b3 ++ b2 ++ b1 ++ b0).extractLsb' 16 8 = b2 := by
    rw [BitVec.extractLsb'_append_eq_of_le (by decide), BitVec.extractLsb'_append_eq_of_le (by decide)]
    exact BitVec.extractLsb'_append_eq_right
  have h3 : (b3 ++ b2 ++ b1 ++ b0).extractLsb' 24 8 = b3 := by
    rw [BitVec.extractLsb'_append_eq_of_le (by decide), BitVec.extractLsb'_append_eq_of_le (by decide)]
    exact BitVec.extractLsb'_append_eq_left
  rw [wordBytes, wordOfBytes, h0, h1, h2, h3]

/-- The decoder reads the four bytes of one word off the front. -/
theorem decode_eq_ok_iff {p : Port} {bs rest : List Byte} {i : Instr} :
    decode p bs = .ok (i, rest) ↔ ∃ w, bs = wordBytes w ++ rest ∧ decodeWord p w = .ok i := by
  constructor
  · intro h
    match bs, h with
    | b0 :: b1 :: b2 :: b3 :: more, h =>
      have hbs : b0 :: b1 :: b2 :: b3 :: more = wordBytes (wordOfBytes b0 b1 b2 b3) ++ more := by
        rw [wordBytes_wordOfBytes]
        rfl
      rw [hbs, decode_wordBytes] at h
      cases hw : decodeWord p (wordOfBytes b0 b1 b2 b3) with
      | ok j =>
        rw [hw] at h
        cases h
        exact ⟨_, hbs, hw⟩
      | error x =>
        rw [hw] at h
        cases h
  · rintro ⟨w, rfl, hw⟩
    rw [decode_wordBytes, hw]

/-- A word with no bytes after it. -/
theorem decode_wordBytes_eq_ok {p : Port} {w : Word} {i : Instr} :
    decode p (wordBytes w) = .ok (i, []) ↔ decodeWord p w = .ok i := by
  rw [decode_wordBytes_nil]
  cases decodeWord p w <;> simp

/-! ### The control words (30_encoding R114 to R116) -/

/-- A word with bit 1 set is its bits 31:2, that bit and its bit 0. -/
theorem word_of_bit1 {w : Word} (h1 : w.getLsbD 1 = true) :
    w.extractLsb' 2 30 ++ 0b1#1 ++ BitVec.ofBool (w.getLsbD 0) = w := by
  refine BitVec.eq_of_getLsbD_eq fun k hk => ?_
  simp only [BitVec.getLsbD_append, BitVec.getLsbD_extractLsb']
  match k with
  | 0 => simp
  | 1 => simpa using h1
  | k + 2 => simp [Nat.add_comm, show k < 30 by omega]

/-- A word with bits 1:0 = 01 is its bits 31:3, its bit 2 and those. -/
theorem word_of_bits01 {w : Word} (h1 : w.getLsbD 1 = false) (h0 : w.getLsbD 0 = true) :
    w.extractLsb' 3 29 ++ BitVec.ofBool (w.getLsbD 2) ++ 0b01#2 = w := by
  refine BitVec.eq_of_getLsbD_eq fun k hk => ?_
  simp only [BitVec.getLsbD_append, BitVec.getLsbD_extractLsb']
  match k with
  | 0 => simpa using h0
  | 1 => simpa using h1
  | 2 => simp
  | k + 3 => simp [Nat.add_comm, show k < 29 by omega]

theorem top_of_bit1 (x : BitVec 30) (b : Bool) : (x ++ 0b1#1 ++ BitVec.ofBool b).extractLsb' 2 30 = x := by
  rw [BitVec.extractLsb'_append_eq_of_le (by decide)]
  exact BitVec.extractLsb'_append_eq_left

theorem top_of_bits01 (x : BitVec 29) (b : Bool) : (x ++ BitVec.ofBool b ++ 0b01#2).extractLsb' 3 29 = x := by
  rw [BitVec.extractLsb'_append_eq_of_le (by decide)]
  exact BitVec.extractLsb'_append_eq_left

theorem decodeCtrl_of_bit1 {w : Word} (h1 : w.getLsbD 1 = true) :
    decodeCtrl w = some (.softReset (w.getLsbD 0) (w.extractLsb' 2 30)) := if_pos h1

theorem decodeCtrl_of_bits01 {w : Word} (h1 : w.getLsbD 1 = false) (h0 : w.getLsbD 0 = true) :
    decodeCtrl w = some (.start (w.getLsbD 2) (w.extractLsb' 3 29)) := by
  simp only [decodeCtrl, h1, h0, Bool.false_eq_true, if_false, if_true]

theorem decodeStatus_of_bit1 {w : Word} (h1 : w.getLsbD 1 = true) :
    decodeStatus w = some (.doneClear (w.getLsbD 0) (w.extractLsb' 2 30)) := if_pos h1

theorem decodeCtrl_softReset (b : Bool) (x : BitVec 30) :
    decodeCtrl (encodeWord (.softReset b x)) = some (.softReset b x) := by
  simp only [decodeCtrl, encodeWord, BitVec.getLsbD_append, top_of_bit1]
  simp

theorem decodeCtrl_start (ie : Bool) (x : BitVec 29) :
    decodeCtrl (encodeWord (.start ie x)) = some (.start ie x) := by
  simp only [decodeCtrl, encodeWord, BitVec.getLsbD_append, top_of_bits01]
  simp

theorem decodeStatus_doneClear (b : Bool) (x : BitVec 30) :
    decodeStatus (encodeWord (.doneClear b x)) = some (.doneClear b x) := by
  simp only [decodeStatus, encodeWord, BitVec.getLsbD_append, top_of_bit1]
  simp

theorem decodeStatus_eq_none {w : Word} (h1 : w.getLsbD 1 = false) : decodeStatus w = none :=
  if_neg (by rw [h1]; decide)

/-- A CTRL word that requests an action is the word of that action. -/
theorem decodeCtrl_eq_some {w : Word} {i : Instr} (h : decodeCtrl w = some i) : i.port = .ctrl ∧ w = encodeWord i := by
  cases h1 : w.getLsbD 1 with
  | true =>
    cases (decodeCtrl_of_bit1 h1).symm.trans h
    exact ⟨rfl, (word_of_bit1 h1).symm⟩
  | false =>
    cases h0 : w.getLsbD 0 with
    | true =>
      cases (decodeCtrl_of_bits01 h1 h0).symm.trans h
      exact ⟨rfl, (word_of_bits01 h1 h0).symm⟩
    | false => cases (Machine.decodeCtrl_eq_none h1 h0).symm.trans h

/-- A STATUS word that requests an action is the word of DONE-clear. -/
theorem decodeStatus_eq_some {w : Word} {i : Instr} (h : decodeStatus w = some i) :
    i.port = .status ∧ w = encodeWord i := by
  cases h1 : w.getLsbD 1 with
  | true =>
    cases (decodeStatus_of_bit1 h1).symm.trans h
    exact ⟨rfl, (word_of_bit1 h1).symm⟩
  | false => cases (decodeStatus_eq_none h1).symm.trans h

/-! ### Words and instructions -/

theorem Instr.wellFormed_eq_true (i : Instr) : i.wellFormed = true := by cases i <;> rfl

theorem decodeWord_cmd {w : Word} {i : Instr} : decodeWord .cmd w = .ok i ↔ decodeCommand w = some i := by
  rw [decodeWord]
  cases decodeCommand w <;> simp

theorem decodeWord_ctrl {w : Word} {i : Instr} : decodeWord .ctrl w = .ok i ↔ decodeCtrl w = some i := by
  rw [decodeWord]
  cases decodeCtrl w <;> simp

theorem decodeWord_status {w : Word} {i : Instr} : decodeWord .status w = .ok i ↔ decodeStatus w = some i := by
  rw [decodeWord]
  cases decodeStatus w <;> simp

/-- The word an instruction decodes from is its own, in its register. -/
theorem decodeWord_eq_ok {p : Port} {w : Word} {i : Instr} (h : decodeWord p w = .ok i) :
    i.port = p ∧ w = encodeWord i := by
  cases p with
  | cmd =>
    obtain ⟨rfl, rfl⟩ | ⟨rfl, rfl⟩ | ⟨rfl, rfl⟩ | ⟨rfl, rfl⟩ | ⟨rfl, rfl⟩ | ⟨rfl, rfl⟩ :=
      decodeCommand_eq_some (decodeWord_cmd.mp h) <;> exact ⟨rfl, rfl⟩
  | ctrl => exact decodeCtrl_eq_some (decodeWord_ctrl.mp h)
  | status => exact decodeStatus_eq_some (decodeWord_status.mp h)

/-- An instruction's word decodes to it in its register, no field lost. -/
theorem decodeWord_encodeWord (i : Instr) : decodeWord i.port (encodeWord i) = .ok i := by
  cases i with
  | huffEnc | huffDec | lz77Enc | lz77Dec | rleEnc | rleDec => rfl
  | start ie x => exact decodeWord_ctrl.mpr (decodeCtrl_start ie x)
  | softReset b x => exact decodeWord_ctrl.mpr (decodeCtrl_softReset b x)
  | doneClear b x => exact decodeWord_status.mpr (decodeStatus_doneClear b x)

/-- Settles O2: the decoder reads one word off the front, and a word decodes to an instruction exactly when it is the
instruction's own. -/
theorem decodeEncodeAgree : Obligations.DecodeEncodeAgree := by
  unfold Obligations.DecodeEncodeAgree
  intro p i bs rest
  rw [decode_eq_ok_iff]
  constructor
  · rintro ⟨w, hbs, hw⟩
    obtain ⟨hport, rfl⟩ := decodeWord_eq_ok hw
    exact ⟨i.wellFormed_eq_true, hport, hbs⟩
  · rintro ⟨-, rfl, hbs⟩
    exact ⟨encodeWord i, hbs, decodeWord_encodeWord i⟩

/-- Settles O1: a word with no bytes after it decodes in CMD exactly when it selects a command. -/
theorem commandWords : Obligations.CommandWords := by
  unfold Obligations.CommandWords
  intro w i
  rw [decode_wordBytes_eq_ok, decodeWord_cmd]
  refine ⟨decodeCommand_eq_some, ?_⟩
  rintro (⟨rfl, rfl⟩ | ⟨rfl, rfl⟩ | ⟨rfl, rfl⟩ | ⟨rfl, rfl⟩ | ⟨rfl, rfl⟩ | ⟨rfl, rfl⟩) <;> rfl

/-- Settles O3: the decoder, run on the words. -/
theorem writtenOutWords : Obligations.WrittenOutWords := by
  unfold Obligations.WrittenOutWords
  exact ⟨rfl, rfl, rfl, rfl, rfl, rfl, rfl, rfl, rfl, rfl, rfl, rfl, rfl, rfl, rfl, rfl⟩

end Sys2Proof

namespace Sys2Proof.Machine

/-! ### CTRL and STATUS writes (30_encoding R114, R115) -/

/-- A register write whose word requests a control action is that action. -/
theorem step_actionWrite {s : State} {off : BitVec 8} {p : Port} {v : Word} {i : Instr} {rest : List Input}
    (hc : s.cfg.wellFormed = true) (hi : s.inputs = .write 32 off v :: rest) (hp : writePort off = some p)
    (hd : decode p (wordBytes v) = .ok (i, [])) : step s = exec i { s with inputs := rest } := by
  have hform : accessFormOk 32 off = true := by
    unfold writePort at hp
    split at hp
    · next h8 => rw [h8]; rfl
    · split at hp
      · next hC => rw [hC]; rfl
      · cases hp
  rw [step_cons hc hi]
  simp only [takeInput, busWrite, hform, hp, hd, if_true, Fetched.outcome]

section
variable {s : State} {v : Word} {rest : List Input} (hc : s.cfg.wellFormed = true)
include hc

theorem step_ctrlAction {i : Instr} (hi : s.inputs = .write 32 0x08 v :: rest) (hd : decodeCtrl v = some i) :
    step s = exec i { s with inputs := rest } :=
  step_actionWrite hc hi rfl (decode_wordBytes_eq_ok.mpr (decodeWord_ctrl.mpr hd))

theorem step_statusAction {i : Instr} (hi : s.inputs = .write 32 0x0C v :: rest) (hd : decodeStatus v = some i) :
    step s = exec i { s with inputs := rest } :=
  step_actionWrite hc hi rfl (decode_wordBytes_eq_ok.mpr (decodeWord_status.mpr hd))

end

/-- Settles O14: bit 1 decides first, then bit 0; exec reads of the word no other bit than IE. -/
theorem ctrlWriteDecoding : Obligations.CtrlWriteDecoding := by
  unfold Obligations.CtrlWriteDecoding
  intro s v rest hc hi
  refine ⟨fun h1 => ?_, fun h1 h0 => ?_, fun h1 h0 => ?_⟩
  · rw [step_ctrlAction hc hi (decodeCtrl_of_bit1 h1)]
    rfl
  · rw [step_ctrlAction hc hi (decodeCtrl_of_bits01 h1 h0)]
    rfl
  · rw [step_plainWrite hc hi (by decide) (fun _ => decodeCtrl_eq_none h1 h0) (fun hC => absurd hC (by decide)),
      writeReg_ctrl]
    rfl

theorem writeReg_status (s : State) (v : Word) : writeReg s 0x0C v = s := by
  simp [writeReg]

/-- The reserved bits of STATUS are written as zeros (10_state R42). -/
theorem statusWord_reserved (s : State) {k : Nat} (hk : (3 ≤ k ∧ k ≤ 7) ∨ (12 ≤ k ∧ k ≤ 31)) :
    s.statusWord.getLsbD k = false := by
  simp only [State.statusWord, BitVec.getLsbD_append]
  rw [if_neg (by omega), if_neg (by omega), if_neg (by omega)]
  obtain h | h := hk
  · rw [if_pos (by omega)]
    exact BitVec.getLsbD_zero
  · rw [if_neg (by omega), if_neg (by omega)]
    exact BitVec.getLsbD_zero

/-- Settles O15: a word with bit 1 set is DONE-clear, any other is a plain write, which STATUS ignores. -/
theorem statusWriteAndReservedBits : Obligations.StatusWriteAndReservedBits := by
  unfold Obligations.StatusWriteAndReservedBits
  intro s v rest hc hi
  refine ⟨fun h1 => ?_, fun h1 => ?_, fun k hk => ?_⟩
  · rw [step_statusAction hc hi (decodeStatus_of_bit1 h1)]
    rfl
  · rw [step_plainWrite hc hi (by decide) (fun h8 => absurd h8 (by decide)) (fun _ => decodeStatus_eq_none h1),
      writeReg_status]
  · exact statusWord_reserved s hk

/-! ### A host store to ordinary memory -/

/-- An address that is no device's and no command's takes the store. -/
theorem hostMemWrite_memory {s : State} {a : Nat} (b : Byte) (ha : a < 2 ^ 32)
    (hdev : ∀ d ∈ Config.deviceRegions s.cfg, d.contains a = false) (hown : commandOwns s a = false) :
    hostMemWrite a b s = .next { s with
      mem := Memory.write s.mem a b
      host := { s.host with unfenced := a :: s.host.unfenced, dirty := a :: s.host.dirty } } := by
  unfold hostMemWrite
  rw [if_neg (by simp [addressOk_of_lt ha]), if_neg (by simpa using hdev), if_neg (by simp [hown])]

/-- Settles O30, by the laws of a write to canonical memory. -/
theorem hostStore : Obligations.HostStore := by
  unfold Obligations.HostStore
  intro s a b rest hc hi ha hdev hown hw
  rw [step_memWrite hc hi]
  exact ⟨_, hostMemWrite_memory b ha hdev hown, Memory.read_write_same a b hw,
    fun x hx => Memory.read_write_other b hw hx, Memory.wf_write a b hw⟩

end Sys2Proof.Machine

/-! PROOFS. HUFF_ENC up to its payload: FREQ_COUNT counts the input, WRITE_HEADER writes the header, and with at most one
symbol that is the whole artifact (30_encoding R122, 41_huffman_encoder R200 to R211). -/

namespace Sys2Proof.Machine

/-! ### FREQ_COUNT counts the input (41_huffman_encoder R200, R201) -/

/-- One byte counted. -/
def countByte (freq : List Nat) (b : Byte) : List Nat := freq.set b.toNat (freqOf freq b + 1)

@[simp] theorem countByte_length (freq : List Nat) (b : Byte) : (countByte freq b).length = freq.length :=
  List.length_set

theorem foldl_countByte_length : ∀ (bs : List Byte) (freq : List Nat),
    (bs.foldl countByte freq).length = freq.length
  | [], _ => rfl
  | b :: bs, freq => by rw [List.foldl_cons, foldl_countByte_length, countByte_length]

theorem freqOf_foldl_countByte (c : Byte) : ∀ {bs : List Byte} {freq : List Nat}, freq.length = 256 →
    freqOf (bs.foldl countByte freq) c = freqOf freq c + bs.count c
  | [], _, _ => by simp
  | b :: bs, freq, hl => by
    rw [List.foldl_cons, freqOf_foldl_countByte c (by simpa using hl), countByte, freqOf_set hl, List.count_cons]
    by_cases hcb : c = b
    · subst hcb
      rw [if_pos rfl, if_pos (beq_self_eq_true c)]
      omega
    · simp [hcb, Ne.symm hcb]

@[simp] theorem countsOf_length (bs : List Byte) : (countsOf bs).length = 256 := by simp [countsOf, allBytes]

@[simp] theorem freqOf_countsOf (bs : List Byte) (c : Byte) : freqOf (countsOf bs) c = bs.count c := by
  have hc : c.toNat < 256 := c.isLt
  simp [freqOf, countsOf, allBytes, hc]

/-- Frequency tables with the same count for each byte value are equal. -/
theorem freq_ext {freq freq' : List Nat} (hl : freq.length = 256) (hl' : freq'.length = 256)
    (h : ∀ c, freqOf freq c = freqOf freq' c) : freq = freq' := by
  refine List.ext_getElem (hl.trans hl'.symm) fun k hk hk' => ?_
  have := h (BitVec.ofNat 8 k)
  rw [hl] at hk
  simpa [freqOf, Nat.mod_eq_of_lt hk, hl, hl', hk] using this

theorem foldl_countByte_zero (bs : List Byte) : bs.foldl countByte (List.replicate 256 0) = countsOf bs := by
  refine freq_ext (by rw [foldl_countByte_length, List.length_replicate]) (countsOf_length bs) fun c => ?_
  rw [freqOf_foldl_countByte c List.length_replicate, freqOf_countsOf, freqOf, List.getD_replicate,
    Nat.zero_add]
  exact c.isLt

theorem freqLoop_ok {e : Env} (hb : ∀ i, i < e.len → e.cfg.busOk (e.src + i) = true) : ∀ {n : Nat} {r : Run},
    r.ip + n ≤ e.len →
    freqLoop e n r = .ok { r with ip := r.ip + n, u := { r.u with freq := (e.span r.ip n).foldl countByte r.u.freq } }
  | 0, _, _ => by simp [freqLoop, Env.span]
  | n + 1, r, h => by
    unfold freqLoop
    rw [fetch_ok (by omega) (hb _ (by omega)), ok_bind]
    dsimp only
    rw [freqLoop_ok hb (by simp only; omega), span_succ, List.foldl_cons]
    simp only [countByte, Nat.add_assoc, Nat.add_comm 1 n]

/-- FREQ_COUNT leaves the input's counts, whatever the table held. -/
theorem freqCount_ok {e : Env} (hb : ∀ i, i < e.len → e.cfg.busOk (e.src + i) = true) (r : Run) :
    freqCount e r = .ok { r with ip := e.len, u := { r.u with freq := countsOf e.bytes } } := by
  unfold freqCount
  rw [freqLoop_ok hb (by simp)]
  simp only [Nat.zero_add, ← bytes_eq_span, foldl_countByte_zero]

theorem allBytes_nodup : allBytes.Nodup := by
  refine List.nodup_range.map_on fun x hx y hy hxy => ?_
  have := congrArg BitVec.toNat hxy
  simpa [Nat.mod_eq_of_lt (List.mem_range.mp hx), Nat.mod_eq_of_lt (List.mem_range.mp hy)] using this

/-- One byte value alone is the only symbol. -/
theorem symbols_countsOf_replicate {n : Nat} (hn : 0 < n) (c : Byte) :
    symbols (countsOf (List.replicate n c)) = [c] := by
  have hmem : c ∈ allBytes := List.mem_map.mpr ⟨c.toNat, List.mem_range.mpr c.isLt, BitVec.ofNat_toNat 8 c⟩
  calc symbols (countsOf (List.replicate n c))
      = allBytes.filter (· == c) := List.filter_congr fun b _ => by
        rw [freqOf_countsOf, List.count_replicate, Bool.beq_comm]
        cases b == c <;> simp [hn]
    _ = List.replicate (allBytes.count c) c := List.filter_beq c
    _ = [c] := by rw [List.count_eq_one_of_mem allBytes_nodup hmem]; rfl

/-! ### WRITE_HEADER (41_huffman_encoder R211) -/

theorem writePairs_ok {e : Env} : ∀ {syms : List Byte} {r : Run}, Room e r (5 * syms.length) →
    writePairs e syms r =
      .ok { r with out := r.out ++ syms.flatMap fun b => b :: leBytes 4 (freqOf r.u.freq b) }
  | [], r, _ => by simp [writePairs]
  | b :: bs, r, h => by
    rw [List.length_cons] at h
    unfold writePairs
    rw [emit_ok (h.mono (by omega)), ok_bind, emitLE_ok (Room.after (m := 1) (h.mono (by omega)) rfl rfl), ok_bind]
    rw [writePairs_ok (Room.after (m := 5) (bs := b :: leBytes 4 (freqOf r.u.freq b)) (h.mono (by omega)) (by simp)
      (by simp))]
    simp

theorem writeHeader_ok {e : Env} {syms : List Byte} {total : Nat} {r : Run} (h : Room e r (16 + 5 * syms.length)) :
    writeHeader e syms total r = .ok { r with out := r.out ++ huffHeader r.u.freq syms total } := by
  unfold writeHeader
  rw [emitLE_ok (h.mono (by omega)), ok_bind,
    writePairs_ok (Room.after (m := 8) (h.mono (by omega)) (leBytes_length 8 _) rfl), ok_bind]
  rw [emitLE_ok (Room.after (m := 8 + 5 * syms.length)
    (bs := leBytes 8 syms.length ++ syms.flatMap fun b => b :: leBytes 4 (freqOf r.u.freq b)) (h.mono (by omega))
    (by simp [List.length_flatMap, Nat.mul_comm]) (by simp))]
  simp [huffHeader]

/-! ### A payload without bits -/

/-- PAYLOAD_PASS over bytes whose codes are empty writes nothing. -/
theorem payloadLoop_of_empty_codes {e : Env} (hb : ∀ i, i < e.len → e.cfg.busOk (e.src + i) = true) :
    ∀ {n : Nat} {r : Run}, r.ip + n ≤ e.len → (∀ i, i < e.len → codeOf r.u.codes (e.byte i) = []) →
    payloadLoop e n r = .ok { r with ip := r.ip + n }
  | 0, _, _, _ => rfl
  | n + 1, r, h, hcode => by
    unfold payloadLoop
    rw [fetch_ok (by omega) (hb _ (by omega)), ok_bind]
    dsimp only
    rw [hcode _ (by omega), putBits, ok_bind,
      payloadLoop_of_empty_codes (r := { r with ip := r.ip + 1 }) hb (by simp only; omega) hcode]
    simp only [Nat.add_assoc, Nat.add_comm 1 n]

theorem payloadPass_of_empty_codes {e : Env} (hb : ∀ i, i < e.len → e.cfg.busOk (e.src + i) = true) {r : Run}
    (hcode : ∀ i, i < e.len → codeOf r.u.codes (e.byte i) = []) :
    payloadPass e r = .ok { r with ip := e.len, u := { r.u with acc := 0, packCnt := 0 } } := by
  unfold payloadPass
  rw [payloadLoop_of_empty_codes (r := { r with ip := 0, u := { r.u with acc := 0, packCnt := 0 } }) hb (by simp) hcode]
  simp [flushBits]

/-! ### HUFF_ENC with at most one symbol (41_huffman_encoder R210) -/

/-- The tree of one symbol is its leaf, whose code is empty (41_huffman_encoder R204). -/
theorem codeOf_one_symbol {r : Run} (hl : r.u.codes.length = 256) (c : Byte) :
    codeOf (genCodes (buildTreeRun [c] r)).u.codes c = [] := by
  show codeOf (r.u.codes.set c.toNat []) c = []
  rw [codeOf_set hl, if_pos rfl]

theorem huffEncUnit_empty {e : Env} {r : Run} (hlen : e.len = 0) (hroom : Room e r 16) :
    ∃ r', huffEncUnit e r = .ok r' ∧ r'.out = r.out ++ List.replicate 16 0 := by
  have hbytes : e.bytes = [] := by simp [Env.bytes, hlen]
  have hsyms : symbols (countsOf []) = [] := by simp [symbols]
  unfold huffEncUnit
  rw [freqCount_ok (by omega), ok_bind]
  simp only [hbytes, hsyms, List.length_nil, if_true]
  rw [emitLE_ok, ok_bind, emitLE_ok]
  · exact ⟨_, rfl, List.append_assoc _ _ _⟩
  · exact Room.after (m := 8) hroom (leBytes_length 8 0) rfl
  · exact hroom.mono (by decide)

theorem huffEncUnit_one_symbol {e : Env} {r : Run} {c : Byte}
    (hb : ∀ i, i < e.len → e.cfg.busOk (e.src + i) = true) (hcodes : r.u.codes.length = 256) (hlen : 1 ≤ e.len)
    (hbytes : e.bytes = List.replicate e.len c) (hroom : Room e r 21) :
    ∃ r', huffEncUnit e r = .ok r' ∧ r'.out = r.out ++ huffHeader (countsOf e.bytes) [c] 0 := by
  have hsyms : symbols (countsOf e.bytes) = [c] := by rw [hbytes]; exact symbols_countsOf_replicate hlen c
  have hbyte : ∀ i, i < e.len → e.byte i = c := by
    intro i hi
    refine List.eq_of_mem_replicate (n := e.len) ?_
    rw [← hbytes]
    exact List.mem_map.mpr ⟨i, List.mem_range.mpr hi, rfl⟩
  unfold huffEncUnit
  rw [freqCount_ok hb, ok_bind]
  simp only [hsyms, List.length_singleton, one_ne_zero, if_false]
  rw [writeHeader_ok, ok_bind, payloadPass_of_empty_codes hb]
  · refine ⟨_, rfl, ?_⟩
    simp only [totalBitsOf, List.map_singleton, List.sum_singleton]
    rw [codeOf_one_symbol]
    · rfl
    · exact hcodes
  · intro i hi
    rw [hbyte i hi]
    exact codeOf_one_symbol hcodes c
  · exact hroom

theorem huffHeader_one_symbol (n : Nat) (c : Byte) :
    huffHeader (countsOf (List.replicate n c)) [c] 0 = leBytes 8 1 ++ [c] ++ leBytes 4 n ++ leBytes 8 0 := by
  simp [huffHeader]

/-- The code table a command starts with has an entry for each byte value (10_state R53). -/
theorem begin_codes_length (s : State) : s.begin.u.codes.length = 256 := Vector.length_toList

/-- A command whose unit writes `out` into a region that holds it succeeds with `out`. -/
theorem exec_succeeded {i : Instr} {u : Env → Run → Except Raise Run} {s : State} {out : List Byte}
    (hu : unitOf i = some u) (hs : s.Running) (hw : Memory.wf s.mem = true)
    (h : ∃ r, u s.env s.begin = .ok r ∧ r.out = out) (hl : out.length ≤ s.latch.cap.toNat) :
    ∃ t, exec i s = .next t ∧ Succeeded s t out := by
  obtain ⟨r, hr, rfl⟩ := h
  rw [exec_of_unit hu]
  exact runCommand_succeeded hs hw hr hl

/-- Settles O54: with no symbol only two zero counts are written, with one its code is empty, so the header is all. -/
theorem huffEncDegenerate : Obligations.HuffEncDegenerate := by
  unfold Obligations.HuffEncDegenerate
  intro s hs hbus hw
  refine ⟨fun hlen hcap => ?_, fun c hlen hbytes hcap => ?_⟩
  · have hlen' : s.env.len = 0 := congrArg BitVec.toNat hlen
    exact exec_succeeded rfl hs hw (huffEncUnit_empty hlen' (begin_room hbus hcap)) hcap
  · have hunit := huffEncUnit_one_symbol hbus.1 (begin_codes_length s) hlen hbytes (begin_room hbus hcap)
    rw [hbytes, huffHeader_one_symbol] at hunit
    exact exec_succeeded rfl hs hw hunit hcap

end Sys2Proof.Machine

/-! PROOFS. The command sequencer: register accesses while idle and while busy, the three control actions, the step that
runs a latched word, and the completion of a command (40_command_sequencer R150 to R159, R166). -/

namespace Sys2Proof.Machine

/-! ### The values of the fields a register packs (10_state R33 to R45) -/

/-- A concatenation as a number: the left part counts in units of the right part's range. -/
theorem toNat_append_eq_add {m n : Nat} (x : BitVec m) (y : BitVec n) : (x ++ y).toNat = x.toNat * 2 ^ n + y.toNat := by
  rw [BitVec.toNat_append, ← Nat.shiftLeft_add_eq_or_of_lt y.isLt, Nat.shiftLeft_eq]

theorem ctrlWord_toNat (s : State) : s.ctrlWord.toNat = 4 * s.ie.toNat := by
  simp only [State.ctrlWord, toNat_append_eq_add, BitVec.toNat_ofBool, BitVec.toNat_ofNat]
  omega

theorem statusWord_toNat (s : State) : s.statusWord.toNat =
    s.busy.toNat + 2 * s.done.toNat + 4 * s.error.toNat + 256 * s.errCode.toNat := by
  simp only [State.statusWord, toNat_append_eq_add, BitVec.toNat_ofBool, BitVec.toNat_ofNat]
  omega

/-- The fields of PARAM_LZ are wide enough for every well-formed configuration (00_scope R10). -/
theorem paramLz_toNat {c : Config} (hc : c.wellFormed = true) :
    (Config.paramLz c).toNat = c.minMatchLen * 2 ^ 24 + c.maxMatchLen * 2 ^ 16 + c.windowSize := by
  have hbounds := wellFormed_bounds hc
  simp only [Config.paramLz, toNat_append_eq_add, BitVec.toNat_ofNat]
  omega

theorem paramStore_toNat {c : Config} (hc : c.wellFormed = true) :
    (Config.paramStore c).toNat = c.lzStoreThreshold := by
  have hbound : c.lzStoreThreshold ≤ 65535 := by
    simp only [Config.wellFormed, Bool.and_eq_true, decide_eq_true_eq] at hc
    omega
  simp only [Config.paramStore, toNat_append_eq_add, BitVec.toNat_ofNat]
  omega

/-! ### Reading a register (40_command_sequencer R150) -/

/-- From 0x34 on no register stands (10_state R49). -/
theorem readReg_reserved (s : State) {off : BitVec 8} (h : 0x34 ≤ off.toNat) : readReg s off = 0 := by
  have hne : ∀ k : BitVec 8, k.toNat < 0x34 → off ≠ k := by
    rintro k hk rfl
    omega
  simp (disch := decide) only [readReg, hne, if_false]

theorem readReg_id (s : State) : readReg s 0x00 = 0x0000CCB1 := rfl

theorem readReg_version (s : State) : readReg s 0x04 = 0x00000001 := rfl

theorem readReg_paramLz (s : State) : readReg s 0x2C = Config.paramLz s.cfg := rfl

theorem readReg_paramStore (s : State) : readReg s 0x30 = Config.paramStore s.cfg := rfl

/-- A register read at a word offset answers. -/
theorem step_registerRead {s : State} {off : BitVec 8} {rest : List Input} (hc : s.cfg.wellFormed = true)
    (hal : off.toNat % 4 = 0) (hi : s.inputs = .read 32 off :: rest) :
    step s = .next { s with inputs := rest, host :=
      { (if off = 0x0C ∧ s.done then s.host.sawDone else s.host) with readData := readReg s off } } :=
  (step_cons hc hi).trans (if_pos (by simp [accessFormOk, hal]))

/-- Settles O9: the read answers with `readReg`, which is the register's value at each offset; the host's side sees DONE
only in a STATUS read. -/
theorem registerRead : Obligations.RegisterRead := by
  unfold Obligations.RegisterRead
  intro s off rest hc hal hi
  refine ⟨_, step_registerRead hc hal hi, fun hoff hd => ?_, fun hnd => ?_, ?_⟩
  · rw [if_pos ⟨hoff, hd⟩]
    rfl
  · rw [if_neg hnd]
  refine ⟨?_, ?_, ?_, ?_, ?_, ?_, ?_, ?_, ?_, ?_, ?_, ?_, ?_, readReg_reserved s⟩ <;> rintro rfl
  · exact readReg_id s
  · exact readReg_version s
  · exact ctrlWord_toNat s
  · exact statusWord_toNat s
  iterate 7 · rfl
  · exact paramLz_toNat hc
  · exact paramStore_toNat hc

/-! ### Writes to read-only registers (40_command_sequencer R155) -/

/-- Below CTRL, and from OUT_LEN on, no register takes a write. -/
theorem writeReg_readOnly (s : State) {off : BitVec 8} (v : Word) (h : off.toNat < 0x08 ∨ 0x24 ≤ off.toNat) :
    writeReg s off v = s := by
  have hne : ∀ k : BitVec 8, 0x08 ≤ k.toNat → k.toNat < 0x24 → off ≠ k := by
    rintro k hlo hhi rfl
    omega
  simp (disch := decide) only [writeReg, hne, if_false, ite_self]

/-- Settles O13: none of these offsets is CTRL or STATUS, so the write is plain, and no register there takes it. -/
theorem readOnlyWritesIgnored : Obligations.ReadOnlyWritesIgnored := by
  unfold Obligations.ReadOnlyWritesIgnored
  intro s off v rest hc hi hal hoff
  have hrange : off.toNat < 0x08 ∨ 0x24 ≤ off.toNat := by
    obtain rfl | rfl | rfl | rfl | rfl | rfl | h := hoff
    case inr.inr.inr.inr.inr.inr => omega
    all_goals decide
  have hne : ∀ k : BitVec 8, ¬(k.toNat < 0x08 ∨ 0x24 ≤ k.toNat) → off ≠ k := by
    rintro k hk rfl
    exact hk hrange
  rw [step_plainWrite hc hi hal (fun h => absurd h (hne _ (by decide))) (fun h => absurd h (hne _ (by decide))),
    writeReg_readOnly _ v hrange]

/-! ### The control actions (40_command_sequencer R152 to R154) -/

/-- Settles O16: a busy block takes IE alone, an idle one accepts the dutiful START. -/
theorem startEffect : Obligations.StartEffect := by
  unfold Obligations.StartEffect
  exact fun s ie ignored => ⟨execStart_busy, execStart_idle⟩

/-- A reset leaves every register at its reset value (40_command_sequencer R153). -/
theorem resetBlock_atReset (s : State) : AtReset (resetBlock s) := by
  constructor <;> simp [State.irq]

/-- An abort changes memory inside the running command's output region alone (70_reset_and_hazards R451). -/
theorem read_abort_outside {s : State} (hw : Memory.wf s.mem = true) {a : Nat}
    (ha : a < s.latch.dst.toNat ∨ s.latch.dst.toNat + s.latch.cap.toNat ≤ a) :
    Memory.read (abort s).mem a = Memory.read s.mem a := by
  unfold abort
  split
  · exact Memory.read_fill_other _ _ _ a hw (by omega)
  · rfl

theorem abort_of_idle {s : State} (hp : s.phase = .idle) : abort s = s := by simp [abort, hp]

/-- An input byte stands outside the output region when the two regions do not meet. -/
theorem input_outside_output {l : Latch} (h : l.input.meets l.output = false) {k : Nat} (hk : k < l.len.toNat) :
    l.src.toNat + k < l.dst.toNat ∨ l.dst.toNat + l.cap.toNat ≤ l.src.toNat + k := by
  have hin : l.input.contains (l.src.toNat + k) = true :=
    Region.contains_iff.mpr ⟨Nat.le_add_right _ k, Nat.add_lt_add_left hk _⟩
  by_contra hinside
  have hout : l.output.contains (l.src.toNat + k) = true :=
    Region.contains_iff.mpr (by simp only [Latch.output]; omega)
  cases h.symm.trans (Region.meets_iff.mpr ⟨_, hin, hout⟩)

/-- Settles O17: the reset aborts first, and an abort writes the output region alone. -/
theorem softResetEffect : Obligations.SoftResetEffect := by
  unfold Obligations.SoftResetEffect
  intro s bit0 ignored hw
  refine ⟨_, rfl, resetBlock_atReset s, resetBlock_cfg s, resetBlock_inputs s, resetBlock_host s, ?_, fun hp => ?_,
    fun a ha => ?_, fun hmeet k hk => ?_⟩
  · rintro off (rfl | rfl | rfl | rfl)
    · rw [readReg_id, readReg_id]
    · rw [readReg_version, readReg_version]
    · rw [readReg_paramLz, readReg_paramLz, resetBlock_cfg]
    · rw [readReg_paramStore, readReg_paramStore, resetBlock_cfg]
  · rw [resetBlock_mem, abort_of_idle hp]
  · rw [resetBlock_mem, read_abort_outside hw ha]
  · rw [resetBlock_mem, read_abort_outside hw (input_outside_output hmeet hk)]

theorem acknowledge_of_not_done {s : State} (h : s.done = false) : acknowledge s = s := by
  show { s with done := false } = s
  rw [← h]

/-- Settles O19: while BUSY = 1 the invariant has DONE clear already. -/
theorem doneClearEffect : Obligations.DoneClearEffect := by
  unfold Obligations.DoneClearEffect
  intro s bit0 ignored
  refine ⟨rfl, fun hinv hb => ?_⟩
  have hd : s.done = false := Bool.eq_false_iff.mpr fun hd => hinv.exclusive ⟨hb, hd⟩
  exact congrArg Host.Outcome.next (acknowledge_of_not_done hd)

/-! ### Writes while BUSY = 1 (40_command_sequencer R156) -/

/-- While BUSY = 1 a plain write stores IE alone. -/
theorem writeReg_busy {s : State} {off : BitVec 8} (v : Word) (hb : s.busy = true) (h8 : off ≠ 0x08) :
    writeReg s off v = s := by
  simp only [writeReg, hb, h8, if_false, if_true]

/-- Settles O12: a write to CMD or an operand register is plain and stores nothing, a START sets IE alone, and
SOFT_RESET and DONE-clear act as ever. -/
theorem writesWhileBusy : Obligations.WritesWhileBusy := by
  unfold Obligations.WritesWhileBusy
  intro s off v rest hc hb hi
  refine ⟨fun hoff => ?_, ?_, ?_, ?_⟩
  · have hoff' : off.toNat % 4 = 0 ∧ off ≠ 0x08 ∧ off ≠ 0x0C := by
      obtain rfl | rfl | rfl | rfl | rfl := hoff <;> decide
    obtain ⟨hal, h8, hC⟩ := hoff'
    rw [step_plainWrite hc hi hal (fun h => absurd h h8) (fun h => absurd h hC), writeReg_busy v (by exact hb) h8]
  · rintro rfl h1
    obtain ⟨-, hstart, hplain⟩ := ctrlWriteDecoding s v rest hc hi
    cases h0 : v.getLsbD 0 with
    | false => exact hplain h1 h0
    | true => exact (hstart h1 h0).trans (execStart_busy hb)
  · rintro rfl h1
    exact ⟨_, (ctrlWriteDecoding s v rest hc hi).1 h1, resetBlock_atReset _⟩
  · rintro rfl h1
    exact (statusWriteAndReservedBits s v rest hc hi).1 h1

/-! ### Running a command (40_command_sequencer R157, R159, R166) -/

/-- On the block's turn a running command's latched word is run. -/
theorem blockTurn_running {s : State} {i : Instr} (hp : s.phase = .run)
    (hd : decode .cmd (wordBytes s.latch.cmd) = .ok (i, [])) : (blockTurn s).outcome = exec i s := by
  simp only [blockTurn, hp, hd, Fetched.outcome]

/-- Settles O4: with no input left and at a blockTurn entry the step is the block's turn. -/
theorem stepRunsLatchedCommand : Obligations.StepRunsLatchedCommand := by
  unfold Obligations.StepRunsLatchedCommand
  intro s i hc hp hd
  refine ⟨fun hi => ?_, fun rest hi => ?_⟩
  · exact (step_nil hc hi).trans (blockTurn_running hp hd)
  · exact (step_cons hc hi).trans (blockTurn_running (s := { s with inputs := rest }) hp hd)

/-- Settles O5: a write whose word requests a control action is that action. -/
theorem stepRunsControlAction : Obligations.StepRunsControlAction := by
  unfold Obligations.StepRunsControlAction
  exact fun s off p v i rest hc hi hp hd => step_actionWrite hc hi hp hd

/-- Settles O23, by the three ways a running command ends: a failed start check, a success and an error of the unit. -/
theorem commandCompletes : Obligations.CommandCompletes := by
  unfold Obligations.CommandCompletes
  intro s i hi hp
  obtain ⟨u, hu⟩ := unitOf_of_port hi
  obtain ⟨t, ht⟩ := runCommand_isNext u s
  refine ⟨t, (exec_of_unit hu s).trans ht, ?_⟩
  obtain ⟨hidle, -⟩ | ⟨-, r, -, rfl⟩ | ⟨-, -, r, -, rfl⟩ | ⟨-, -, r, -, rfl⟩ := runCommand_next ht
  · cases hp.symm.trans hidle
  · exact ⟨rfl, rfl, rfl, fun _ => ⟨rfl, r.kind.code_bounds.2⟩, fun h => nomatch h⟩
  · exact ⟨rfl, rfl, rfl, fun h => (nomatch h), fun _ => ⟨rfl, rfl⟩⟩
  · exact ⟨rfl, rfl, rfl, fun _ => ⟨rfl, r.kind.code_bounds.2⟩, fun h => nomatch h⟩

end Sys2Proof.Machine

/-! PROOFS. The bit packer: PUT_BIT and FLUSH append the packed bits, and stop where the output region is full
(41_huffman_encoder R207, R208). -/

namespace Sys2Proof.Machine

/-! ### Packed bits (30_encoding R124) -/

/-- The number a bit string writes, its first bit the highest. -/
def bitsValue (bits : List Bool) : Nat := bits.foldl (fun a x => 2 * a + x.toNat) 0

theorem bitsValue_concat (bits : List Bool) (x : Bool) : bitsValue (bits ++ [x]) = bitsValue bits * 2 + x.toNat := by
  simp [bitsValue, Nat.mul_comm]

theorem bitsValue_lt (bits : List Bool) : bitsValue bits < 2 ^ bits.length := by
  induction bits using List.reverseRecOn with
  | nil => exact Nat.one_pos
  | append_singleton bits x ih =>
    have hx := x.toNat_lt
    rw [bitsValue_concat, List.length_append, List.length_singleton, pow_succ]
    omega

theorem bitsValue_append_zeros (bits : List Bool) (n : Nat) :
    bitsValue (bits ++ List.replicate n false) = bitsValue bits * 2 ^ n := by
  induction n with
  | zero => simp
  | succ n ih => rw [List.replicate_succ', ← List.append_assoc, bitsValue_concat, ih, Bool.toNat_false, pow_succ,
      Nat.add_zero, Nat.mul_assoc]

/-- A byte of at most eight bits, padded with zero bits. -/
def paddedByte (bits : List Bool) : Byte := BitVec.ofNat 8 (bitsValue bits * 2 ^ (8 - bits.length))

theorem packBits_cons {n : Nat} {bits : List Bool} (h : bits ≠ []) :
    packBits (n + 1) bits = paddedByte (bits.take 8) :: packBits n (bits.drop 8) := by
  cases bits with
  | nil => exact absurd rfl h
  | cons x xs =>
    rw [packBits, paddedByte, ← bitsValue_append_zeros]
    rfl

@[simp] theorem packBits_nil (n : Nat) : packBits n [] = [] := by cases n <;> rfl

theorem packBits_length : ∀ (n : Nat) (bits : List Bool), (packBits n bits).length = min n ((bits.length + 7) / 8)
  | 0, _ => by simp [packBits]
  | n + 1, [] => by simp
  | n + 1, x :: xs => by
    rw [packBits_cons (List.cons_ne_nil x xs), List.length_cons, packBits_length n, List.length_drop, List.length_cons]
    omega

/-- More bytes than the bits need are not written. -/
theorem packBits_of_enough {m : Nat} : ∀ {n : Nat} {bits : List Bool}, bits.length ≤ 8 * n → n ≤ m →
    packBits m bits = packBits n bits := by
  induction m with
  | zero => intro n bits _ hn; rw [Nat.le_zero.mp hn]
  | succ m ih =>
    intro n bits h hn
    by_cases hb : bits = []
    · simp [hb]
    · have hpos := List.length_pos_iff.mpr hb
      obtain ⟨n, rfl⟩ : ∃ k, n = k + 1 := ⟨n - 1, by omega⟩
      rw [packBits_cons hb, packBits_cons hb, ih (n := n) (by rw [List.length_drop]; omega) (by omega)]

/-- Whole bytes do not change when bits are appended. -/
theorem packBits_append : ∀ {n : Nat} {bits more : List Bool}, 8 * n ≤ bits.length →
    packBits n (bits ++ more) = packBits n bits
  | 0, _, _, _ => rfl
  | n + 1, bits, more, h => by
    have hb : bits ≠ [] := List.ne_nil_of_length_pos (by omega)
    rw [packBits_cons hb, packBits_cons (List.append_ne_nil_of_left_ne_nil hb more),
      List.take_append_of_le_length (by omega), List.drop_append_of_le_length (by omega),
      packBits_append (by rw [List.length_drop]; omega)]

/-- The byte after the first `n` holds the bits after the first `8 * n`. -/
theorem packBits_succ : ∀ {n : Nat} {bits : List Bool}, 8 * n < bits.length →
    packBits (n + 1) bits = packBits n bits ++ [paddedByte ((bits.drop (8 * n)).take 8)]
  | 0, bits, h => by
    rw [packBits_cons (List.ne_nil_of_length_pos h)]
    rfl
  | n + 1, bits, h => by
    have hb : bits ≠ [] := List.ne_nil_of_length_pos (by omega)
    rw [packBits_cons hb, packBits_succ (by rw [List.length_drop]; omega), List.drop_drop, packBits_cons hb,
      show 8 + 8 * n = 8 * (n + 1) by omega]
    rfl

/-! ### PUT_BIT and FLUSH (41_huffman_encoder R207, R208) -/

/-- The bits after the last whole byte. -/
def pendingBits (bits : List Bool) : List Bool := bits.drop (8 * (bits.length / 8))

theorem pendingBits_length (bits : List Bool) : (pendingBits bits).length = bits.length % 8 := by
  rw [pendingBits, List.length_drop]
  omega

theorem pendingBits_append (bits : List Bool) (x : Bool) :
    (bits ++ [x]).drop (8 * (bits.length / 8)) = pendingBits bits ++ [x] :=
  List.drop_append_of_le_length (by omega)

/-- `r` after the output `o` and the bits `bits`: their whole bytes are emitted, the packer holds the others. -/
def Run.packed (r : Run) (o : List Byte) (bits : List Bool) : Run :=
  { r with
    out := o ++ packBits (bits.length / 8) bits
    u := { r.u with acc := bitsValue (pendingBits bits), packCnt := bits.length % 8 } }

theorem packed_out_length (r : Run) (o : List Byte) (bits : List Bool) :
    (r.packed o bits).out.length = o.length + bits.length / 8 := by
  simp only [Run.packed, List.length_append, packBits_length]
  omega

/-- A run whose packer is empty. -/
theorem packed_nil {r : Run} (hacc : r.u.acc = 0) (hcnt : r.u.packCnt = 0) : r.packed r.out [] = r := by
  obtain ⟨ip, out, u⟩ := r
  cases u
  cases hacc
  cases hcnt
  simp [Run.packed, pendingBits, bitsValue]

/-- The `n` output bytes from index `a` on are inside the region and on the bus. -/
def Writable (e : Env) (a n : Nat) : Prop :=
  a + n ≤ e.cap ∧ ∀ k, a ≤ k → k < a + n → e.cfg.busOk (e.dst + k) = true

theorem Writable.mono {e : Env} {a m n : Nat} (h : Writable e a n) (hm : m ≤ n) : Writable e a m := by
  obtain ⟨hcap, hbus⟩ := h
  exact ⟨by omega, fun k hk hkn => hbus k hk (by omega)⟩

/-- On a bus that rejects no write the region alone bounds the output. -/
theorem writable_of_bus {e : Env} {a n : Nat} (hb : ∀ k, k < e.cap → e.cfg.busOk (e.dst + k) = true)
    (h : a + n ≤ e.cap) : Writable e a n :=
  ⟨h, fun k _ hk => hb k (by omega)⟩

theorem emit_writable {e : Env} {b : Byte} {info : Nat} {r : Run} {a n : Nat} (h : Writable e a n)
    (ha : a ≤ r.out.length) (hn : r.out.length < a + n) : emit e b info r = .ok { r with out := r.out ++ [b] } := by
  obtain ⟨hcap, hbus⟩ := h
  unfold emit
  rw [if_neg (by simp only [Run.op]; omega), Run.op, if_pos (hbus _ ha hn)]

section
variable {e : Env} {info : Nat} {r : Run} {o : List Byte} {bits : List Bool} {x : Bool}

/-- A bit that completes no byte is added to the packer. -/
theorem putBit_pending (h : bits.length % 8 + 1 ≠ 8) :
    putBit e x info (r.packed o bits) = .ok (r.packed o (bits ++ [x])) := by
  have hdiv : (bits.length + 1) / 8 = bits.length / 8 := by omega
  have hmod : (bits.length + 1) % 8 = bits.length % 8 + 1 := by omega
  have hpend : pendingBits (bits ++ [x]) = pendingBits bits ++ [x] := by
    rw [pendingBits, List.length_append, List.length_singleton, hdiv, pendingBits_append]
  have hlen : (pendingBits bits ++ [x]).length ≤ 8 := by
    rw [List.length_append, pendingBits_length, List.length_singleton]
    omega
  have hlt : bitsValue (pendingBits bits ++ [x]) < 256 :=
    (bitsValue_lt _).trans_le (Nat.pow_le_pow_right two_pos hlen)
  unfold putBit Run.packed
  simp only [h, if_false, List.length_append, List.length_singleton, hdiv, hmod, hpend, ← bitsValue_concat,
    Nat.mod_eq_of_lt hlt]
  rw [packBits_append (by omega)]

/-- The eighth bit completes a byte. -/
theorem putBit_eighth (h : bits.length % 8 + 1 = 8) :
    putBit e x info (r.packed o bits) =
      emit e (paddedByte (pendingBits bits ++ [x])) info (r.packed o bits) >>= fun r' =>
        pure { r' with u := { r'.u with acc := 0, packCnt := 0 } } := by
  have hlen : (pendingBits bits ++ [x]).length = 8 := by
    rw [List.length_append, pendingBits_length]
    exact h
  have hlt : bitsValue (pendingBits bits ++ [x]) < 256 := (bitsValue_lt _).trans_eq (congrArg (2 ^ ·) hlen)
  have hbyte : paddedByte (pendingBits bits ++ [x]) =
      BitVec.ofNat 8 (((r.packed o bits).u.acc * 2 + x.toNat) % 256) := by
    rw [paddedByte, hlen, Nat.sub_self, pow_zero, Nat.mul_one]
    show _ = BitVec.ofNat 8 ((bitsValue (pendingBits bits) * 2 + x.toNat) % 256)
    rw [← bitsValue_concat, Nat.mod_eq_of_lt hlt]
  unfold putBit
  rw [hbyte]
  exact if_pos h

theorem putBit_ok (hw : Writable e o.length ((bits.length + 1) / 8)) :
    putBit e x info (r.packed o bits) = .ok (r.packed o (bits ++ [x])) := by
  by_cases h : bits.length % 8 + 1 = 8
  · have hdiv : (bits.length + 1) / 8 = bits.length / 8 + 1 := by omega
    have hmod : (bits.length + 1) % 8 = 0 := by omega
    have hlen := packed_out_length r o bits
    have hpack : packBits (bits.length / 8 + 1) (bits ++ [x]) =
        packBits (bits.length / 8) bits ++ [paddedByte (pendingBits bits ++ [x])] := by
      rw [packBits_succ (by rw [List.length_append, List.length_singleton]; omega), packBits_append (by omega),
        pendingBits_append, List.take_of_length_le (by simp [pendingBits_length]; omega)]
    have hpend : pendingBits (bits ++ [x]) = [] := by
      rw [← List.length_eq_zero_iff, pendingBits_length, List.length_append, List.length_singleton, hmod]
    rw [putBit_eighth h, emit_writable hw (by omega) (by omega), ok_bind]
    simp only [Run.packed, List.length_append, List.length_singleton, hdiv, hmod, hpack, hpend, List.append_assoc]
    rfl
  · exact putBit_pending h

theorem putBits_ok : ∀ {xs : List Bool} {bits : List Bool}, Writable e o.length ((bits.length + xs.length) / 8) →
    putBits e info xs (r.packed o bits) = .ok (r.packed o (bits ++ xs))
  | [], bits, _ => by rw [List.append_nil]; rfl
  | x :: xs, bits, h => by
    rw [List.length_cons] at h
    rw [putBits, putBit_ok (h.mono (by omega)), ok_bind,
      putBits_ok (by rw [List.length_append, List.length_singleton]; exact h.mono (by omega)), List.append_assoc]
    rfl

/-- The bits whose byte does not fit overflow the region. -/
theorem putBits_full (hb : ∀ k, k < e.cap → e.cfg.busOk (e.dst + k) = true) : ∀ {xs : List Bool} {bits : List Bool},
    o.length + bits.length / 8 ≤ e.cap → e.cap < o.length + (bits.length + xs.length) / 8 →
    putBits e info xs (r.packed o bits) = .error ⟨.outputOverflow, info⟩
  | [], bits, h, h' => by simp at h'; omega
  | x :: xs, bits, h, h' => by
    rw [List.length_cons] at h'
    rw [putBits]
    by_cases hx : o.length + (bits.length + 1) / 8 ≤ e.cap
    · rw [putBit_ok (writable_of_bus hb hx), ok_bind,
        putBits_full hb (by rw [List.length_append]; exact hx)
          (by rw [List.length_append, List.length_singleton]; omega)]
    · have hout := packed_out_length r o bits
      rw [putBit_eighth (by omega), emit_full (by omega)]
      rfl

/-- FLUSH with an empty packer writes nothing. -/
theorem flushBits_empty (h : bits.length % 8 = 0) : flushBits e info (r.packed o bits) = .ok (r.packed o bits) :=
  if_neg (by simp [Run.packed, h])

/-- FLUSH writes the pending bits as one byte. -/
theorem flushBits_pending (h : 0 < bits.length % 8) :
    flushBits e info (r.packed o bits) =
      emit e (paddedByte (pendingBits bits)) info (r.packed o bits) >>= fun r' =>
        pure { r' with u := { r'.u with acc := 0, packCnt := 0 } } := by
  have hbyte : paddedByte (pendingBits bits) =
      BitVec.ofNat 8 (bitsValue (pendingBits bits) * 2 ^ (8 - bits.length % 8) % 256) := by
    rw [paddedByte, pendingBits_length]
    exact BitVec.eq_of_toNat_eq (by simp)
  unfold flushBits
  rw [hbyte]
  exact if_pos h

/-- FLUSH appends what is missing of the packed bits. -/
theorem flushBits_ok (hw : Writable e o.length ((bits.length + 7) / 8)) :
    flushBits e info (r.packed o bits) =
      .ok { r with out := o ++ packBits bits.length bits, u := { r.u with acc := 0, packCnt := 0 } } := by
  by_cases h : bits.length % 8 = 0
  · have hpend : pendingBits bits = [] := by rw [← List.length_eq_zero_iff, pendingBits_length, h]
    rw [flushBits_empty h, packBits_of_enough (n := bits.length / 8) (by omega) (by omega)]
    simp only [Run.packed, hpend, h]
    rfl
  · have hlen := packed_out_length r o bits
    have hpack : packBits bits.length bits =
        packBits (bits.length / 8) bits ++ [paddedByte (pendingBits bits)] := by
      rw [packBits_of_enough (n := bits.length / 8 + 1) (by omega) (by omega), packBits_succ (by omega)]
      rw [← pendingBits, List.take_of_length_le (by rw [pendingBits_length]; omega)]
    rw [flushBits_pending (by omega), emit_writable hw (by omega) (by omega), ok_bind, hpack]
    simp only [Run.packed, List.append_assoc]
    rfl

/-- FLUSH of a byte that does not fit overflows the region. -/
theorem flushBits_full (h : o.length + bits.length / 8 ≤ e.cap) (h' : e.cap < o.length + (bits.length + 7) / 8) :
    flushBits e info (r.packed o bits) = .error ⟨.outputOverflow, info⟩ := by
  have hout := packed_out_length r o bits
  rw [flushBits_pending (by omega), emit_full (by omega)]
  rfl

end

/-- Settles O52: PUT_BIT keeps the whole bytes emitted and the others pending, FLUSH emits these padded. -/
theorem bitPacking : Obligations.BitPacking := by
  unfold Obligations.BitPacking
  intro e info bits r hacc hcnt hcap hbus
  have hw : Writable e r.out.length ((bits.length + 7) / 8) := ⟨hcap, hbus⟩
  have hput : putBits e info bits r = .ok (r.packed r.out bits) := by
    have h := putBits_ok (info := info) (r := r) (xs := bits) (bits := []) (hw.mono (by rw [List.length_nil]; omega))
    rwa [packed_nil hacc hcnt] at h
  rw [hput, ok_bind]
  exact ⟨_, flushBits_ok hw, rfl, rfl, rfl⟩

end Sys2Proof.Machine

/-! PROOFS. HUFF_ENC writes its input's artifact or overflows (41_huffman_encoder R206, R209 to R211, 60_exceptions
R408). -/

namespace Sys2Proof.Machine

/-! ### TOTAL_BITS counts the payload's bits (41_huffman_encoder R206) -/

theorem symbols_nodup (freq : List Nat) : (symbols freq).Nodup := allBytes_nodup.filter _

theorem mem_symbols_countsOf {bs : List Byte} {b : Byte} : b ∈ symbols (countsOf bs) ↔ b ∈ bs := by
  rw [mem_symbols, freqOf_countsOf, List.count_pos_iff]

/-- The codes of all bytes together are as long as the sum of frequency times code length says. -/
theorem length_flatMap_codeOf (bs : List Byte) (codes : List (List Bool)) :
    (bs.flatMap (codeOf codes)).length = totalBitsOf (countsOf bs) codes (symbols (countsOf bs)) := by
  have hsyms : (symbols (countsOf bs)).toFinset = bs.toFinset := by
    ext b
    rw [List.mem_toFinset, List.mem_toFinset, mem_symbols_countsOf]
  calc (bs.flatMap (codeOf codes)).length
      = (bs.map fun b => (codeOf codes b).length).sum := List.length_flatMap
    _ = ∑ b ∈ bs.toFinset, bs.count b • (codeOf codes b).length := Finset.sum_list_map_count bs _
    _ = ∑ b ∈ (symbols (countsOf bs)).toFinset, freqOf (countsOf bs) b * (codeOf codes b).length := by
      simp only [hsyms, freqOf_countsOf, smul_eq_mul]
    _ = totalBitsOf (countsOf bs) codes (symbols (countsOf bs)) := List.sum_toFinset _ (symbols_nodup _)

/-! ### The artifact's length -/

theorem huffHeader_length (freq : List Nat) (syms : List Byte) (total : Nat) :
    (huffHeader freq syms total).length = 16 + 5 * syms.length := by
  simp [huffHeader, List.length_flatMap]
  omega

theorem packBits_length_self (bits : List Bool) : (packBits bits.length bits).length = (bits.length + 7) / 8 := by
  rw [packBits_length]
  omega

theorem huffArtifact_length (bs : List Byte) :
    (huffArtifact bs).length = 16 + 5 * (symbols (countsOf bs)).length +
      ((bs.flatMap (codeOf (codesFor (countsOf bs)))).length + 7) / 8 := by
  rw [huffArtifact, List.length_append, huffHeader_length, packBits_length_self]

/-! ### WRITE_HEADER into a region too short for it -/

section
variable {e : Env} (hout : ∀ k, k < e.cap → e.cfg.busOk (e.dst + k) = true)
include hout

theorem writePairs_full : ∀ {syms : List Byte} {r : Run}, r.out.length ≤ e.cap →
    e.cap < r.out.length + 5 * syms.length → writePairs e syms r = .error ⟨.outputOverflow, r.ip⟩
  | [], r, h, h' => by
    rw [List.length_nil] at h'
    omega
  | b :: bs, r, h, h' => by
    rw [List.length_cons] at h'
    rw [writePairs]
    by_cases h0 : r.out.length = e.cap
    · rw [emit_full (Nat.le_of_eq h0.symm)]
      rfl
    rw [emit_ok ⟨by omega, hout⟩, ok_bind]
    by_cases h4 : r.out.length + 5 ≤ e.cap
    · rw [emitLE_ok ⟨by simp; omega, hout⟩, ok_bind, writePairs_full (by simp; omega) (by simp; omega)]
    · rw [emitLE_full hout (by simp; omega) (by simp; omega)]
      rfl

theorem writeHeader_full {syms : List Byte} {total : Nat} {r : Run} (h : r.out.length ≤ e.cap)
    (h' : e.cap < r.out.length + (16 + 5 * syms.length)) :
    writeHeader e syms total r = .error ⟨.outputOverflow, r.ip⟩ := by
  unfold writeHeader
  by_cases h8 : r.out.length + 8 ≤ e.cap
  · rw [emitLE_ok ⟨h8, hout⟩, ok_bind]
    by_cases hp : r.out.length + 8 + 5 * syms.length ≤ e.cap
    · rw [writePairs_ok ⟨by simp; omega, hout⟩, ok_bind]
      exact emitLE_full hout (by simp [List.length_flatMap]; omega) (by simp [List.length_flatMap]; omega)
    · rw [writePairs_full hout (by simp; omega) (by simp; omega)]
      rfl
  · rw [emitLE_full hout h (by omega)]
    rfl

end

/-! ### PAYLOAD_PASS (41_huffman_encoder R209) -/

/-- The payload's bits of the `n` input bytes from index `i` on. -/
def Env.codeBits (e : Env) (codes : List (List Bool)) (i n : Nat) : List Bool := (e.span i n).flatMap (codeOf codes)

theorem codeBits_zero (e : Env) (codes : List (List Bool)) (i : Nat) : e.codeBits codes i 0 = [] := rfl

theorem codeBits_succ (e : Env) (codes : List (List Bool)) (i n : Nat) :
    e.codeBits codes i (n + 1) = codeOf codes (e.byte i) ++ e.codeBits codes (i + 1) n := by
  rw [Env.codeBits, span_succ, List.flatMap_cons]
  rfl

theorem codeBits_succ' (e : Env) (codes : List (List Bool)) (i n : Nat) :
    e.codeBits codes i (n + 1) = e.codeBits codes i n ++ codeOf codes (e.byte (i + n)) := by
  rw [Env.codeBits, span_add, List.flatMap_append]
  simp [Env.span, Env.codeBits]

/-- The bits of the first `n` input bytes. -/
theorem codeBits_eq_take {e : Env} {codes : List (List Bool)} {n : Nat} (hn : n ≤ e.len) :
    e.codeBits codes 0 n = (e.bytes.take n).flatMap (codeOf codes) := by
  rw [Env.codeBits, bytes_eq_span, ← Nat.add_sub_cancel' hn, span_add, List.take_append_of_le_length (by simp),
    List.take_of_length_le (by simp)]

/-- PAYLOAD_PASS over `k + m` bytes is over `k`, then over `m`. -/
theorem payloadLoop_add (e : Env) : ∀ (k m : Nat) (r : Run),
    payloadLoop e (k + m) r = payloadLoop e k r >>= payloadLoop e m
  | 0, m, r => by rw [Nat.zero_add]; rfl
  | k + 1, m, r => by
    rw [Nat.add_right_comm, payloadLoop, payloadLoop]
    simp only [payloadLoop_add e k m, bind_assoc]

section
variable {e : Env} (hin : ∀ i, i < e.len → e.cfg.busOk (e.src + i) = true) {o : List Byte}
include hin

/-- The loop of PAYLOAD_PASS puts the codes of the bytes it fetches. -/
theorem payloadLoop_succ {n : Nat} {r : Run} {bits : List Bool} (hr : r.ip < e.len) :
    payloadLoop e (n + 1) (r.packed o bits) =
      putBits e (r.ip + 1) (codeOf r.u.codes (e.byte r.ip)) ({ r with ip := r.ip + 1 }.packed o bits) >>=
        payloadLoop e n := by
  rw [payloadLoop, fetch_ok (r := r.packed o bits) hr (hin _ hr), ok_bind]
  rfl

theorem payloadLoop_ok : ∀ {n : Nat} {r : Run} {bits : List Bool}, r.ip + n ≤ e.len →
    Writable e o.length ((bits.length + (e.codeBits r.u.codes r.ip n).length) / 8) →
    payloadLoop e n (r.packed o bits) =
      .ok ({ r with ip := r.ip + n }.packed o (bits ++ e.codeBits r.u.codes r.ip n))
  | 0, r, bits, _, _ => by
    rw [codeBits_zero, List.append_nil]
    rfl
  | n + 1, r, bits, hr, hw => by
    rw [codeBits_succ, List.length_append] at hw
    rw [payloadLoop_succ hin (by omega), putBits_ok (hw.mono (by omega)), ok_bind]
    rw [payloadLoop_ok (by simp only; omega) (by rw [List.length_append]; exact hw.mono (by simp only; omega))]
    rw [codeBits_succ, List.append_assoc, Nat.add_assoc, Nat.add_comm 1 n]

/-- The loop stops at the byte whose code completes a byte that does not fit, with the offset after it. -/
theorem payloadLoop_full (hout : ∀ k, k < e.cap → e.cfg.busOk (e.dst + k) = true) {k m : Nat} {r : Run}
    {bits : List Bool} (hr : r.ip + k < e.len)
    (hfit : o.length + (bits ++ e.codeBits r.u.codes r.ip k).length / 8 ≤ e.cap)
    (hover : e.cap < o.length + (bits ++ e.codeBits r.u.codes r.ip (k + 1)).length / 8) :
    payloadLoop e (k + (m + 1)) (r.packed o bits) = .error ⟨.outputOverflow, r.ip + k + 1⟩ := by
  rw [codeBits_succ', ← List.append_assoc, List.length_append] at hover
  rw [payloadLoop_add, payloadLoop_ok hin (by omega)
    (writable_of_bus hout (by rwa [← List.length_append])), ok_bind,
    payloadLoop_succ hin (by exact hr), putBits_full hout hfit hover]
  rfl

end


/-- The payload's bits of the whole input. -/
def Env.payloadBits (e : Env) (codes : List (List Bool)) : List Bool := e.bytes.flatMap (codeOf codes)

theorem codeBits_len (e : Env) (codes : List (List Bool)) : e.codeBits codes 0 e.len = e.payloadBits codes := by
  rw [Env.codeBits, ← bytes_eq_span]
  rfl

/-- PAYLOAD_PASS begins with an empty packer. -/
theorem payloadPass_eq (e : Env) (r : Run) : payloadPass e r =
    payloadLoop e e.len ({ r with ip := 0 }.packed r.out []) >>= fun r' => flushBits e r'.ip r' := by
  have hempty : { r with ip := 0 }.packed r.out [] =
      { r with ip := 0, u := { r.u with acc := 0, packCnt := 0 } } := by simp [Run.packed, pendingBits, bitsValue]
  rw [hempty]
  rfl

section
variable {e : Env} (hbus : e.BusFine) {r : Run}
include hbus

/-- The loop of PAYLOAD_PASS over the whole input, when its whole bytes fit. -/
theorem payloadPass_flushes (h : r.out.length + (e.payloadBits r.u.codes).length / 8 ≤ e.cap) :
    payloadPass e r = flushBits e e.len ({ r with ip := e.len }.packed r.out (e.payloadBits r.u.codes)) := by
  have hloop := payloadLoop_ok hbus.1 (o := r.out) (n := e.len) (r := { r with ip := 0 }) (bits := [])
    (by simp only; omega)
    (by rw [List.length_nil, Nat.zero_add, codeBits_len]; exact writable_of_bus hbus.2 h)
  rw [payloadPass_eq, hloop, ok_bind, codeBits_len, List.nil_append]
  simp only [Nat.zero_add]
  rfl

theorem payloadPass_ok (h : r.out.length + ((e.payloadBits r.u.codes).length + 7) / 8 ≤ e.cap) :
    ∃ r', payloadPass e r = .ok r' ∧
      r'.out = r.out ++ packBits (e.payloadBits r.u.codes).length (e.payloadBits r.u.codes) := by
  rw [payloadPass_flushes hbus (by omega), flushBits_ok (writable_of_bus hbus.2 h)]
  exact ⟨_, rfl, rfl⟩

theorem payloadPass_full_at_flush (h : r.out.length + (e.payloadBits r.u.codes).length / 8 ≤ e.cap)
    (h' : e.cap < r.out.length + ((e.payloadBits r.u.codes).length + 7) / 8) :
    payloadPass e r = .error ⟨.outputOverflow, e.len⟩ := by
  rw [payloadPass_flushes hbus h, flushBits_full h h']

theorem payloadPass_full_at_byte {k : Nat} (hk : k < e.len)
    (hfit : r.out.length + (e.codeBits r.u.codes 0 k).length / 8 ≤ e.cap)
    (hover : e.cap < r.out.length + (e.codeBits r.u.codes 0 (k + 1)).length / 8) :
    payloadPass e r = .error ⟨.outputOverflow, k + 1⟩ := by
  obtain ⟨m, hm⟩ : ∃ m, e.len = k + (m + 1) := ⟨e.len - k - 1, by omega⟩
  have hloop := payloadLoop_full hbus.1 hbus.2 (m := m) (r := { r with ip := 0 }) (bits := [])
    (by simp only; omega) hfit hover
  rw [payloadPass_eq, hm, hloop, error_bind, Nat.zero_add]

end

/-! ### HUFF_ENC (41_huffman_encoder R210) -/

/-- Without a symbol the input is empty. -/
theorem bytes_eq_nil {bs : List Byte} (h : symbols (countsOf bs) = []) : bs = [] :=
  List.eq_nil_iff_forall_not_mem.mpr fun b hb => by simpa [h] using mem_symbols_countsOf.mpr hb

theorem huffArtifact_nil : huffArtifact [] = List.replicate 16 0 := by
  have hsyms : symbols (countsOf []) = [] := by simp [symbols]
  rw [huffArtifact, hsyms]
  rfl

/-- The run after FREQ_COUNT, BUILD_TREE and GEN_CODES. -/
def Run.coded (r : Run) (e : Env) : Run :=
  genCodes (buildTreeRun (symbols (countsOf e.bytes))
    { r with ip := e.len, u := { r.u with freq := countsOf e.bytes } })

/-- GEN_CODES gives each input byte the code of the code table of the input's counts, whatever the table held before. -/
theorem codeOf_coded {e : Env} {r : Run} (hl : r.u.codes.length = 256) {b : Byte} (hb : b ∈ e.bytes) :
    codeOf (r.coded e).u.codes b = codeOf (codesFor (countsOf e.bytes)) b :=
  walkCodes_buildTree (mem_symbols_countsOf.mpr hb) hl List.length_replicate

theorem codeBits_coded {e : Env} {r : Run} (hl : r.u.codes.length = 256) {n : Nat} (hn : n ≤ e.len) :
    e.codeBits (r.coded e).u.codes 0 n = (e.bytes.take n).flatMap (codeOf (codesFor (countsOf e.bytes))) := by
  rw [codeBits_eq_take hn]
  exact List.flatMap_congr fun b hb => codeOf_coded hl (List.mem_of_mem_take hb)

theorem payloadBits_coded {e : Env} {r : Run} (hl : r.u.codes.length = 256) :
    e.payloadBits (r.coded e).u.codes = e.payloadBits (codesFor (countsOf e.bytes)) :=
  List.flatMap_congr fun _ hb => codeOf_coded hl hb

/-- The run after WRITE_HEADER. -/
def Run.headed (r : Run) (e : Env) : Run :=
  { r.coded e with
    out := huffHeader (countsOf e.bytes) (symbols (countsOf e.bytes))
      (e.payloadBits (codesFor (countsOf e.bytes))).length }

theorem headed_out_length (r : Run) (e : Env) :
    (r.headed e).out.length = 16 + 5 * (symbols (countsOf e.bytes)).length := huffHeader_length _ _ _

theorem headed_bits {e : Env} {r : Run} (hl : r.u.codes.length = 256) :
    e.payloadBits (r.headed e).u.codes = e.payloadBits (codesFor (countsOf e.bytes)) := payloadBits_coded hl

section
variable {e : Env} (hbus : e.BusFine) {r : Run}
include hbus

/-- Without a symbol HUFF_ENC writes a header alone. -/
theorem huffEncUnit_of_no_symbol (h : symbols (countsOf e.bytes) = []) :
    huffEncUnit e r =
      writeHeader e [] 0 { r with ip := e.len, u := { r.u with freq := countsOf e.bytes } } := by
  rw [huffEncUnit, freqCount_ok hbus.1, ok_bind]
  simp only [h]
  rfl

/-- With a symbol it writes the header, then the payload. -/
theorem huffEncUnit_of_symbols (hl : r.u.codes.length = 256) (h : symbols (countsOf e.bytes) ≠ []) :
    huffEncUnit e r =
      writeHeader e (symbols (countsOf e.bytes)) (e.payloadBits (codesFor (countsOf e.bytes))).length (r.coded e) >>=
        payloadPass e := by
  have htotal : (e.payloadBits (codesFor (countsOf e.bytes))).length =
      totalBitsOf (r.coded e).u.freq (r.coded e).u.codes (symbols (countsOf e.bytes)) := by
    rw [← payloadBits_coded hl]
    exact length_flatMap_codeOf _ _
  rw [htotal, huffEncUnit, freqCount_ok hbus.1, ok_bind]
  exact if_neg (by rwa [List.length_eq_zero_iff])

variable (hl : r.u.codes.length = 256) (hr : r.out = [])
include hl hr

theorem huffEncUnit_header_full (h : e.cap < 16 + 5 * (symbols (countsOf e.bytes)).length) :
    huffEncUnit e r = .error ⟨.outputOverflow, e.len⟩ := by
  by_cases hs : symbols (countsOf e.bytes) = []
  · rw [hs] at h
    rw [huffEncUnit_of_no_symbol hbus hs, writeHeader_full hbus.2 (by simp [hr]) (by simpa [hr] using h)]
  · have hout : (r.coded e).out = [] := hr
    rw [huffEncUnit_of_symbols hbus hl hs, writeHeader_full hbus.2 (by simp [hout]) (by simpa [hout] using h)]
    rfl

theorem huffEncUnit_of_header (hs : symbols (countsOf e.bytes) ≠ [])
    (h : 16 + 5 * (symbols (countsOf e.bytes)).length ≤ e.cap) : huffEncUnit e r = payloadPass e (r.headed e) := by
  have hout : (r.coded e).out = [] := hr
  rw [huffEncUnit_of_symbols hbus hl hs, writeHeader_ok ⟨by simpa [hout] using h, hbus.2⟩, ok_bind, hout]
  rfl

theorem huffEncUnit_ok (h : (huffArtifact e.bytes).length ≤ e.cap) :
    ∃ r', huffEncUnit e r = .ok r' ∧ r'.out = huffArtifact e.bytes := by
  by_cases hs : symbols (countsOf e.bytes) = []
  · have hbytes := bytes_eq_nil hs
    have hlen : e.len = 0 := by simpa [Env.bytes] using hbytes
    rw [hbytes, huffArtifact_nil] at h ⊢
    simpa [hr] using huffEncUnit_empty (r := r) hlen ⟨by simpa [hr] using h, hbus.2⟩
  · rw [huffArtifact_length] at h
    rw [huffEncUnit_of_header hbus hl hr hs (by omega)]
    have hpay := payloadPass_ok hbus (r := r.headed e)
    rw [headed_bits hl, headed_out_length] at hpay
    exact hpay h

/-- The whole bytes fit, FLUSH's byte does not. -/
theorem huffEncUnit_full_at_flush
    (h : 16 + 5 * (symbols (countsOf e.bytes)).length +
      (e.payloadBits (codesFor (countsOf e.bytes))).length / 8 ≤ e.cap)
    (h' : e.cap < (huffArtifact e.bytes).length) :
    huffEncUnit e r = .error ⟨.outputOverflow, e.len⟩ := by
  have hs : symbols (countsOf e.bytes) ≠ [] := fun hs => by
    rw [bytes_eq_nil hs, huffArtifact_nil] at h'
    rw [List.length_replicate] at h'
    omega
  rw [huffArtifact_length] at h'
  rw [huffEncUnit_of_header hbus hl hr hs (by omega)]
  exact payloadPass_full_at_flush hbus (by rwa [headed_bits hl, headed_out_length])
    (by rwa [headed_bits hl, headed_out_length])

/-- The code of input byte `k` completes the first byte that does not fit. -/
theorem huffEncUnit_full_at_byte {k : Nat} (hk : k < e.len)
    (h : 16 + 5 * (symbols (countsOf e.bytes)).length +
      ((e.bytes.take k).flatMap (codeOf (codesFor (countsOf e.bytes)))).length / 8 ≤ e.cap)
    (h' : e.cap < 16 + 5 * (symbols (countsOf e.bytes)).length +
      ((e.bytes.take (k + 1)).flatMap (codeOf (codesFor (countsOf e.bytes)))).length / 8) :
    huffEncUnit e r = .error ⟨.outputOverflow, k + 1⟩ := by
  have hs : symbols (countsOf e.bytes) ≠ [] := fun hs => by
    have hlen : e.len = 0 := by simpa [Env.bytes] using bytes_eq_nil hs
    omega
  rw [huffEncUnit_of_header hbus hl hr hs (by omega)]
  refine payloadPass_full_at_byte hbus hk ?_ ?_
  · rw [headed_out_length]
    exact (codeBits_coded hl (Nat.le_of_lt hk)).symm ▸ h
  · rw [headed_out_length]
    exact (codeBits_coded hl hk).symm ▸ h'

end

/-- Settles O53: the header fits or not, then the whole payload bytes, then FLUSH's. -/
theorem huffEncWritesArtifact : Obligations.HuffEncWritesArtifact := by
  unfold Obligations.HuffEncWritesArtifact
  intro s hs hbus hw syms bitsOf head
  have hl := begin_codes_length s
  refine ⟨huffArtifact_length _, length_flatMap_codeOf _ _,
    fun hfit => exec_succeeded rfl hs hw (huffEncUnit_ok hbus hl rfl hfit) hfit, fun hover => ?_⟩
  have hheader : s.latch.cap.toNat < head → huffEncUnit s.env s.begin = .error ⟨.outputOverflow, s.latch.len.toNat⟩ :=
    huffEncUnit_header_full hbus hl rfl
  have hbyte : ∀ k, k < s.latch.len.toNat → head + (bitsOf (s.env.bytes.take k)).length / 8 ≤ s.latch.cap.toNat →
      s.latch.cap.toNat < head + (bitsOf (s.env.bytes.take (k + 1))).length / 8 →
      huffEncUnit s.env s.begin = .error ⟨.outputOverflow, k + 1⟩ :=
    fun k => huffEncUnit_full_at_byte hbus hl rfl
  have hflush : head + (bitsOf s.env.bytes).length / 8 ≤ s.latch.cap.toNat →
      huffEncUnit s.env s.begin = .error ⟨.outputOverflow, s.latch.len.toNat⟩ :=
    fun h => huffEncUnit_full_at_flush hbus hl rfl h hover
  obtain ⟨info, herr⟩ : ∃ info, huffEncUnit s.env s.begin = .error ⟨.outputOverflow, info⟩ := by
    by_cases hh : s.latch.cap.toNat < head
    · exact ⟨_, hheader hh⟩
    by_cases hp : head + (bitsOf s.env.bytes).length / 8 ≤ s.latch.cap.toNat
    · exact ⟨_, hflush hp⟩
    obtain ⟨k, hfit, hk, hfull⟩ := Nat.exists_not_and_succ_of_not_zero_of_exists
      (p := fun k => k ≤ s.latch.len.toNat ∧
        s.latch.cap.toNat < head + (bitsOf (s.env.bytes.take k)).length / 8)
      (by simpa [bitsOf] using hh)
      ⟨s.latch.len.toNat, le_rfl, by
        rw [List.take_of_length_le (by simp [Env.bytes, State.env])]
        exact not_le.mp hp⟩
    exact ⟨_, hbyte k hk (not_lt.mp fun h => hfit ⟨Nat.le_of_lt hk, h⟩) hfull⟩
  have hinfo : ∀ {n}, huffEncUnit s.env s.begin = .error ⟨.outputOverflow, n⟩ → info = n := fun h => by
    cases herr.symm.trans h
    rfl
  obtain ⟨t, ht, hf⟩ := runCommand_failed hs herr
  exact ⟨t, info, ht, hf, fun h => hinfo (hheader h), fun h =>
    ⟨fun k hk h1 h2 => hinfo (hbyte k hk (by omega) (by omega)), fun h1 => hinfo (hflush (by omega))⟩⟩

end Sys2Proof.Machine

/-! PROOFS. The tree of HUFF_ENC and the codes along its paths (41_huffman_encoder R202 to R205). -/

namespace Sys2Proof.Machine

/-! ### The two least keys (41_huffman_encoder R202) -/

theorem keyLess_iff {arena : List WNode} {p q : Nat} : keyLess arena p q = true ↔ KeyBelow arena p q := by
  simp [keyLess, KeyBelow]

theorem KeyBelow.not_trans {arena : List WNode} {p q m : Nat} (h : ¬KeyBelow arena p q) (h' : ¬KeyBelow arena q m) :
    ¬KeyBelow arena p m := by
  unfold KeyBelow at *
  omega

theorem KeyBelow.of_not {arena : List WNode} {p q : Nat} (h : ¬KeyBelow arena p q) (hne : p ≠ q) :
    KeyBelow arena q p := by
  unfold KeyBelow at *
  omega

theorem not_keyBelow_leastKey (arena : List WNode) : ∀ (q : Nat) (qs : List Nat),
    ∀ y ∈ q :: qs, ¬KeyBelow arena y (leastKey arena q qs)
  | q, [], y, hy => by
    rw [List.mem_singleton.mp hy, leastKey]
    simp [KeyBelow]
  | q, p :: qs, y, hy => by
    unfold leastKey
    split
    · next h =>
      have hqp : ¬KeyBelow arena q p := by
        have := keyLess_iff.mp h
        unfold KeyBelow at *
        omega
      have ih := not_keyBelow_leastKey arena p qs
      obtain rfl | hy := List.mem_cons.mp hy
      · exact KeyBelow.not_trans hqp (ih p List.mem_cons_self)
      · exact ih y hy
    · next h =>
      have ih := not_keyBelow_leastKey arena q qs
      obtain rfl | hy := List.mem_cons.mp hy
      · exact ih y List.mem_cons_self
      obtain rfl | hy := List.mem_cons.mp hy
      · exact KeyBelow.not_trans (fun hb => h (keyLess_iff.mpr hb)) (ih q List.mem_cons_self)
      · exact ih y (List.mem_cons_of_mem q hy)

/-- `leastKey` finds the element whose key is below the keys of all others. -/
theorem leastKey_below {arena : List WNode} {q : Nat} {qs : List Nat} {y : Nat} (hy : y ∈ q :: qs)
    (hne : y ≠ leastKey arena q qs) : KeyBelow arena (leastKey arena q qs) y :=
  .of_not (not_keyBelow_leastKey arena q qs y hy) hne

/-- Of the queue `a :: c :: rest`, in some order, `a` has the least key and `c` the next one. -/
structure TwoLeast (arena : List WNode) (queue : List Nat) (a c : Nat) (rest : List Nat) : Prop where
  perm  : queue.Perm (a :: c :: rest)
  least : ∀ y ∈ queue, y ≠ a → KeyBelow arena a y
  next  : ∀ y ∈ c :: rest, y ≠ c → KeyBelow arena c y

/-- The node that joins `a` and `c`. -/
abbrev joinNode (arena : List WNode) (a c : Nat) : WNode := .internal (weightAt arena a + weightAt arena c) a c

/-- One round of BUILD_TREE joins the two least. -/
theorem buildLoop_joins {n : Nat} {arena : List WNode} {queue : List Nat} (h : 2 ≤ queue.length) :
    ∃ a c rest, TwoLeast arena queue a c rest ∧
      buildLoop (n + 1) arena queue = buildLoop n (arena ++ [joinNode arena a c]) (rest ++ [arena.length]) := by
  match queue, h with
  | x :: y :: more, _ =>
    have ha := leastKey_mem arena x (y :: more)
    have hperm := List.perm_cons_erase ha
    match hq : (x :: y :: more).erase (leastKey arena x (y :: more)) with
    | [] =>
      rw [hq] at hperm
      simpa using hperm.length_eq
    | z :: rest' =>
      rw [hq] at hperm
      have hperm' := List.perm_cons_erase (leastKey_mem arena z rest')
      refine ⟨_, leastKey arena z rest', _, ⟨hperm.trans (hperm'.cons _), fun _ => leastKey_below,
        fun y hy => leastKey_below (hperm'.mem_iff.mpr hy)⟩, ?_⟩
      rw [buildLoop]
      simp only [hq]

/-! ### What stays when the arena grows -/

section
variable {arena : List WNode} (more : List WNode) {d x y : Nat}

theorem weightAt_append (hy : y < arena.length) : weightAt (arena ++ more) y = weightAt arena y := by
  rw [weightAt, weightAt, List.getElem?_append_left hy]

theorem keyBelow_append (hx : x < arena.length) (hy : y < arena.length) :
    KeyBelow (arena ++ more) x y ↔ KeyBelow arena x y := by
  rw [KeyBelow, KeyBelow, weightAt_append more hx, weightAt_append more hy]

theorem waits_append (hx : x ≤ arena.length) : Waits (arena ++ more) d x y ↔ Waits arena d x y := by
  refine and_congr_right fun _ => forall_congr' fun z => ?_
  refine forall₄_congr fun w l r hd => forall_congr' fun hz => ?_
  rw [List.getElem?_append_left (by omega)]

end

/-- Node `x` joins, of the nodes that wait, the one with the least key and the next one (41_huffman_encoder R202). -/
def JoinsLeast (arena : List WNode) (d x : Nat) : Prop :=
  ∃ w l r, arena[x]? = some (WNode.internal w l r) ∧
    w = weightAt arena l + weightAt arena r ∧ l ≠ r ∧ Waits arena d x l ∧ Waits arena d x r ∧
    (∀ y, Waits arena d x y → y ≠ l → KeyBelow arena l y) ∧
    (∀ y, Waits arena d x y → y ≠ l → y ≠ r → KeyBelow arena r y)

theorem JoinsLeast.append {arena : List WNode} {d x : Nat} (h : JoinsLeast arena d x) (more : List WNode) :
    JoinsLeast (arena ++ more) d x := by
  obtain ⟨w, l, r, hx, hw, hne, hl, hr, hleast, hnext⟩ := h
  obtain ⟨hlen, -⟩ := List.getElem?_eq_some_iff.mp hx
  have hlt : ∀ {y}, Waits arena d x y → y < arena.length := fun hy => hy.1.trans hlen
  have hwaits : ∀ {y}, Waits (arena ++ more) d x y ↔ Waits arena d x y := waits_append more hlen.le
  refine ⟨w, l, r, getElem?_append_of_some hx, ?_, hne, hwaits.mpr hl, hwaits.mpr hr, fun y hy hyl => ?_,
    fun y hy hyl hyr => ?_⟩
  · rw [weightAt_append more (hlt hl), weightAt_append more (hlt hr), hw]
  · have hy := hwaits.mp hy
    exact (keyBelow_append more (hlt hl) (hlt hy)).mpr (hleast y hy hyl)
  · have hy := hwaits.mp hy
    exact (keyBelow_append more (hlt hr) (hlt hy)).mpr (hnext y hy hyl hyr)

/-! ### The leaves below a node, with their paths (41_huffman_encoder R204) -/

/-- The byte values of the leaves at and below node `x`, each with its path from `x`. The first argument bounds the
depth. -/
def pathsFrom (arena : List WNode) : Nat → Nat → List (Byte × List Bool)
  | 0, _ => []
  | n + 1, x =>
    match arena[x]? with
    | some (.leaf sym _) => [(sym, [])]
    | some (.internal _ l r) =>
      (pathsFrom arena n l).map (Prod.map id (false :: ·)) ++ (pathsFrom arena n r).map (Prod.map id (true :: ·))
    | none => []

/-- Internal nodes stand from index `d` on, above their children. -/
def ChildrenBelow (d : Nat) (arena : List WNode) : Prop :=
  ∀ x w l r, arena[x]? = some (WNode.internal w l r) → d ≤ x ∧ l < x ∧ r < x

section
variable {arena : List WNode} {d : Nat}

theorem ChildrenBelow.join (hd : ChildrenBelow d arena) {a c : Nat} (w : Nat) (hge : d ≤ arena.length)
    (ha : a < arena.length) (hc : c < arena.length) : ChildrenBelow d (arena ++ [.internal w a c]) := by
  intro x w' l r hx
  obtain ⟨hlen, -⟩ := List.getElem?_eq_some_iff.mp hx
  rw [List.length_append, List.length_singleton] at hlen
  obtain hlt | rfl := Nat.lt_or_eq_of_le (Nat.le_of_lt_succ hlen)
  · exact hd x w' l r (by rwa [List.getElem?_append_left hlt] at hx)
  · rw [List.getElem?_concat_length] at hx
    cases hx
    exact ⟨hge, ha, hc⟩

/-- After node `n` is made it waits, and its children wait no more. -/
theorem waits_succ (hd : ChildrenBelow d arena) {n w l r y : Nat} (hn : arena[n]? = some (WNode.internal w l r)) :
    Waits arena d (n + 1) y ↔ (Waits arena d n y ∨ y = n) ∧ y ≠ l ∧ y ≠ r := by
  constructor
  · rintro ⟨hy, hall⟩
    refine ⟨?_, hall n w l r (hd n w l r hn).1 (Nat.lt_succ_self n) hn⟩
    obtain hlt | heq := Nat.lt_or_eq_of_le (Nat.le_of_lt_succ hy)
    · exact .inl ⟨hlt, fun z w' l' r' hz hzn => hall z w' l' r' hz (by omega)⟩
    · exact .inr heq
  · rintro ⟨hy, hne⟩
    refine ⟨by obtain ⟨hlt, -⟩ | rfl := hy <;> omega, fun z w' l' r' hz hzn hx => ?_⟩
    obtain hlt | rfl := Nat.lt_or_eq_of_le (Nat.le_of_lt_succ hzn)
    · obtain ⟨-, hall⟩ | rfl := hy
      · exact hall z w' l' r' hz hlt hx
      · have := hd z w' l' r' hx
        omega
    · cases hn.symm.trans hx
      exact hne

theorem pathsFrom_leaf {n x w : Nat} {b : Byte} (h : arena[x]? = some (WNode.leaf b w)) :
    pathsFrom arena (n + 1) x = [(b, [])] := by simp only [pathsFrom, h]

theorem pathsFrom_internal {n x w l r : Nat} (h : arena[x]? = some (WNode.internal w l r)) :
    pathsFrom arena (n + 1) x =
      (pathsFrom arena n l).map (Prod.map id (false :: ·)) ++ (pathsFrom arena n r).map (Prod.map id (true :: ·)) := by
  simp only [pathsFrom, h]

/-- The paths depend neither on the bound, where it suffices, nor on later nodes. -/
theorem pathsFrom_append (hd : ChildrenBelow d arena) (more : List WNode) : ∀ {m n x : Nat}, x < arena.length →
    x < m → x < n → pathsFrom (arena ++ more) m x = pathsFrom arena n x
  | m + 1, n + 1, x, hx, hm, hn => by
    have hget : (arena ++ more)[x]? = some arena[x] := by rw [List.getElem?_append_left hx, List.getElem?_eq_getElem hx]
    have hget' : arena[x]? = some arena[x] := List.getElem?_eq_getElem hx
    cases harena : arena[x] with
    | leaf b w => rw [pathsFrom_leaf (harena ▸ hget), pathsFrom_leaf (harena ▸ hget')]
    | internal w l r =>
      rw [harena] at hget hget'
      obtain ⟨-, hl, hr⟩ := hd x w l r hget'
      rw [pathsFrom_internal hget, pathsFrom_internal hget',
        pathsFrom_append (n := n) hd more (hl.trans hx) (by omega) (by omega),
        pathsFrom_append (n := n) hd more (hr.trans hx) (by omega) (by omega)]

/-- The first bit of a path that leads somewhere leads to a child. -/
theorem followCode_cons_eq_some {x : Nat} {bit : Bool} {q : List Bool} {v : WNode} :
    followCode arena x (bit :: q) = some v ↔ ∃ w l r, arena[x]? = some (WNode.internal w l r) ∧
      followCode arena (if bit then r else l) q = some v := by
  rw [followCode]
  match arena[x]? with
  | none => simp
  | some (.leaf c w) => simp
  | some (.internal w l r) => simp

/-- A path leads to its leaf. -/
theorem followCode_of_mem_pathsFrom {b : Byte} : ∀ {n x : Nat} {q : List Bool}, (b, q) ∈ pathsFrom arena n x →
    ∃ w, followCode arena x q = some (.leaf b w)
  | n + 1, x, q, h => by
    match hx : arena[x]? with
    | none => simp [pathsFrom, hx] at h
    | some (.leaf c w) =>
      rw [pathsFrom_leaf hx, List.mem_singleton] at h
      cases h
      exact ⟨w, hx⟩
    | some (.internal w l r) =>
      simp only [pathsFrom_internal hx, List.mem_append, List.mem_map, Prod.exists, Prod.map_apply, id_eq,
        Prod.mk.injEq] at h
      obtain ⟨_, q, hq, rfl, rfl⟩ | ⟨_, q, hq, rfl, rfl⟩ := h <;>
        obtain ⟨w', hw'⟩ := followCode_of_mem_pathsFrom hq <;>
        exact ⟨w', followCode_cons_eq_some.mpr ⟨w, l, r, hx, hw'⟩⟩

/-- A path is no longer than the internal nodes up to its start are many. -/
theorem length_le_of_followCode (hd : ChildrenBelow d arena) {b : Byte} {w : Nat} : ∀ {q : List Bool} {x : Nat},
    followCode arena x q = some (.leaf b w) → q.length ≤ x + 1 - d
  | [], _, _ => Nat.zero_le _
  | bit :: q, x, h => by
    obtain ⟨w, l, r, hx, h⟩ := followCode_cons_eq_some.mp h
    obtain ⟨hdx, hl, hr⟩ := hd x w l r hx
    have := length_le_of_followCode hd h
    rw [List.length_cons]
    split at this <;> omega

/-- Where a path ends a node stands. -/
theorem exists_of_followCode {v : WNode} : ∀ {q : List Bool} {x : Nat}, followCode arena x q = some v →
    ∃ y : Nat, arena[y]? = some v
  | [], x, h => ⟨x, h⟩
  | bit :: q, x, h => by
    obtain ⟨w, l, r, -, h⟩ := followCode_cons_eq_some.mp h
    exact exists_of_followCode h

/-- No path goes on below a leaf. -/
theorem followCode_append_leaf {b : Byte} {w : Nat} {v : WNode} {t : List Bool} : ∀ {q : List Bool} {x : Nat},
    followCode arena x q = some (.leaf b w) → followCode arena x (q ++ t) = some v → t = []
  | [], x, h, h' => by
    cases t with
    | nil => rfl
    | cons bit t =>
      obtain ⟨_, _, _, hx, -⟩ := followCode_cons_eq_some.mp h'
      cases hx.symm.trans h
  | bit :: q, x, h, h' => by
    obtain ⟨_, _, _, hx, h⟩ := followCode_cons_eq_some.mp h
    obtain ⟨_, _, _, hx', h'⟩ := followCode_cons_eq_some.mp h'
    cases hx.symm.trans hx'
    exact followCode_append_leaf h h'

/-- The paths below a node fill the code space (41_huffman_encoder R205). -/
theorem sum_pathsFrom (hd : ChildrenBelow d arena) : ∀ {n x N : Nat}, x < n → x < arena.length → x + 1 ≤ d + N →
    ((pathsFrom arena n x).map fun p => 2 ^ (N - p.2.length)).sum = 2 ^ N
  | n + 1, x, N, hn, hx, hN => by
    have hget : arena[x]? = some arena[x] := List.getElem?_eq_getElem hx
    cases harena : arena[x] with
    | leaf b w => simp [pathsFrom_leaf (harena ▸ hget)]
    | internal w l r =>
      rw [harena] at hget
      obtain ⟨hdx, hl, hr⟩ := hd x w l r hget
      obtain ⟨M, rfl⟩ : ∃ M, N = M + 1 := ⟨N - 1, by omega⟩
      have hsuml := sum_pathsFrom hd (n := n) (x := l) (N := M) (by omega) (by omega) (by omega)
      have hsumr := sum_pathsFrom hd (n := n) (x := r) (N := M) (by omega) (by omega) (by omega)
      rw [pathsFrom_internal hget]
      simp only [List.map_append, List.map_map, List.sum_append, Function.comp_def, Prod.map_snd, List.length_cons,
        Nat.add_sub_add_right, hsuml, hsumr, pow_succ, Nat.mul_two]

/-! ### GEN_CODES sets the paths -/

/-- The code table after the codes `p ++ q` of the pairs `(b, q)` were set. -/
def setCodes (p : List Bool) (paths : List (Byte × List Bool)) (codes : List (List Bool)) : List (List Bool) :=
  paths.foldl (fun cs bq => cs.set bq.1.toNat (p ++ bq.2)) codes

theorem walkCodes_eq_setCodes : ∀ {n x : Nat} {p : List Bool} {codes : List (List Bool)},
    walkCodes arena n x p codes = setCodes p (pathsFrom arena n x) codes
  | 0, _, _, _ => rfl
  | n + 1, x, p, codes => by
    match hx : arena[x]? with
    | none => simp [walkCodes, pathsFrom, setCodes, hx]
    | some (.leaf c w) => simp [walkCodes, pathsFrom, setCodes, hx]
    | some (.internal w l r) =>
      simp only [walkCodes, hx, walkCodes_eq_setCodes (n := n), pathsFrom_internal hx, setCodes, List.foldl_append,
        List.foldl_map, Prod.map_fst, Prod.map_snd, id_eq, List.append_assoc, List.singleton_append]

end

theorem setCodes_length (p : List Bool) : ∀ (paths : List (Byte × List Bool)) (codes : List (List Bool)),
    (setCodes p paths codes).length = codes.length
  | [], _ => rfl
  | _ :: paths, _ => (setCodes_length p paths _).trans List.length_set

theorem codeOf_setCodes_other {p : List Bool} {b : Byte} : ∀ {paths : List (Byte × List Bool)}
    {codes : List (List Bool)}, codes.length = 256 → b ∉ paths.map Prod.fst →
    codeOf (setCodes p paths codes) b = codeOf codes b
  | [], _, _, _ => rfl
  | (c, q) :: paths, codes, hl, hb => by
    rw [List.map_cons, List.mem_cons, not_or] at hb
    obtain ⟨hbc, hb⟩ := hb
    exact (codeOf_setCodes_other (by simpa using hl) hb).trans ((codeOf_set hl c b _).trans (if_neg hbc))

/-- Where no byte value has two paths, its code is the one it has. -/
theorem codeOf_setCodes {p : List Bool} {b : Byte} {q : List Bool} : ∀ {paths : List (Byte × List Bool)}
    {codes : List (List Bool)}, codes.length = 256 → (paths.map Prod.fst).Nodup → (b, q) ∈ paths →
    codeOf (setCodes p paths codes) b = p ++ q
  | (c, q') :: paths, codes, hl, hn, hb => by
    rw [List.map_cons, List.nodup_cons] at hn
    obtain ⟨hc, hn⟩ := hn
    obtain heq | hb := List.mem_cons.mp hb
    · cases heq
      exact (codeOf_setCodes_other (by simpa using hl) hc).trans ((codeOf_set hl b b _).trans (if_pos rfl))
    · exact codeOf_setCodes (codes := codes.set c.toNat (p ++ q')) (by simpa using hl) hn hb

/-! ### BUILD_TREE (41_huffman_encoder R202) -/

/-- The byte values of the leaves at and below node `x`. -/
def symbolsBelow (arena : List WNode) (x : Nat) : List Byte := (pathsFrom arena (x + 1) x).map Prod.fst

/-- What the loop of BUILD_TREE keeps for the byte values `syms`: the leaves stand first, each later node joined the two
least, the queue holds the nodes that wait, and their trees hold all weight and every byte value once. -/
structure Built (syms : List Byte) (freq : List Nat) (arena : List WNode) (queue : List Nat) : Prop where
  leaf    : ∀ k (hk : k < syms.length), arena[k]? = some (WNode.leaf syms[k] (freqOf freq syms[k]))
  joins   : ∀ x, syms.length ≤ x → x < arena.length → JoinsLeast arena syms.length x
  waits   : ∀ y, y ∈ queue ↔ Waits arena syms.length arena.length y
  nodup   : queue.Nodup
  count   : arena.length + queue.length = 2 * syms.length
  weight  : (queue.map (weightAt arena)).sum = (syms.map (freqOf freq)).sum
  symbols : (queue.flatMap (symbolsBelow arena)).Perm syms

section
variable {syms : List Byte} {freq : List Nat} {arena : List WNode} {queue : List Nat}

theorem Built.internal_ge (h : Built syms freq arena queue) {x w l r : Nat}
    (hx : arena[x]? = some (WNode.internal w l r)) : syms.length ≤ x := by
  by_contra hlt
  cases hx.symm.trans (h.leaf x (by omega))

/-- A leaf stands among the first nodes and weighs its byte value's frequency. -/
theorem Built.leaf_weight (h : Built syms freq arena queue) {x w : Nat} {b : Byte}
    (hx : arena[x]? = some (WNode.leaf b w)) : w = freqOf freq b := by
  obtain ⟨hlen, -⟩ := List.getElem?_eq_some_iff.mp hx
  by_cases hk : x < syms.length
  · cases hx.symm.trans (h.leaf x hk)
    rfl
  · obtain ⟨w', l, r, hi, -⟩ := h.joins x (by omega) hlen
    cases hx.symm.trans hi

theorem Built.childrenBelow (h : Built syms freq arena queue) : ChildrenBelow syms.length arena := by
  intro x w l r hx
  have hge := h.internal_ge hx
  obtain ⟨hlen, -⟩ := List.getElem?_eq_some_iff.mp hx
  obtain ⟨w', l', r', hx', -, -, hl, hr, -⟩ := h.joins x hge hlen
  cases hx.symm.trans hx'
  exact ⟨hge, hl.1, hr.1⟩

theorem Built.length_le (h : Built syms freq arena queue) : syms.length ≤ arena.length := by
  by_contra hlt
  have hk : syms.length - 1 < syms.length := by omega
  obtain ⟨hlen, -⟩ := List.getElem?_eq_some_iff.mp (h.leaf (syms.length - 1) hk)
  omega

theorem symbolsBelow_append (hd : ChildrenBelow syms.length arena) (more : List WNode) {x : Nat}
    (hx : x < arena.length) : symbolsBelow (arena ++ more) x = symbolsBelow arena x := by
  rw [symbolsBelow, pathsFrom_append hd more hx (Nat.lt_succ_self x) (Nat.lt_succ_self x), symbolsBelow]

/-- The new node has the leaves of its two children below it. -/
theorem symbolsBelow_join (hd : ChildrenBelow syms.length arena) {a c w : Nat} (ha : a < arena.length)
    (hc : c < arena.length) : symbolsBelow (arena ++ [.internal w a c]) arena.length =
      symbolsBelow arena a ++ symbolsBelow arena c := by
  rw [symbolsBelow, pathsFrom_internal (w := w) (l := a) (r := c) (by simp),
    pathsFrom_append hd _ ha ha (Nat.lt_succ_self a), pathsFrom_append hd _ hc hc (Nat.lt_succ_self c)]
  simp [symbolsBelow, Function.comp_def]

/-- A round of BUILD_TREE keeps it. -/
theorem Built.join (h : Built syms freq arena queue) {a c : Nat} {rest : List Nat}
    (hj : TwoLeast arena queue a c rest) :
    Built syms freq (arena ++ [joinNode arena a c]) (rest ++ [arena.length]) := by
  have hmem : ∀ {y}, y ∈ queue ↔ y = a ∨ y = c ∨ y ∈ rest := by simp [hj.perm.mem_iff]
  have hlt : ∀ {y}, y ∈ queue → y < arena.length := fun hy => ((h.waits _).mp hy).1
  have ha : a ∈ queue := hmem.mpr (.inl rfl)
  have hc : c ∈ queue := hmem.mpr (.inr (.inl rfl))
  have hrest : ∀ {y}, y ∈ rest → y ∈ queue := fun hy => hmem.mpr (.inr (.inr hy))
  have hnodup := hj.perm.nodup_iff.mp h.nodup
  simp only [List.nodup_cons, List.mem_cons, not_or] at hnodup
  obtain ⟨⟨hac, harest⟩, hcrest, hnodup⟩ := hnodup
  have hnew : (arena ++ [joinNode arena a c])[arena.length]? = some (joinNode arena a c) := by simp
  have hwaits : ∀ {y}, Waits (arena ++ [joinNode arena a c]) syms.length arena.length y ↔ y ∈ queue :=
    fun {y} => (waits_append _ le_rfl).trans (h.waits y).symm
  constructor
  case leaf => exact fun k hk => getElem?_append_of_some (h.leaf k hk)
  case joins =>
    intro x hd hx
    rw [List.length_append, List.length_singleton] at hx
    obtain hx | rfl := Nat.lt_or_eq_of_le (Nat.le_of_lt_succ hx)
    · exact (h.joins x hd hx).append _
    refine ⟨_, a, c, hnew, ?_, hac, hwaits.mpr ha, hwaits.mpr hc, fun y hy hya => ?_, fun y hy hya hyc => ?_⟩
    · rw [weightAt_append _ (hlt ha), weightAt_append _ (hlt hc)]
    · have hy := hwaits.mp hy
      exact (keyBelow_append _ (hlt ha) (hlt hy)).mpr (hj.least y hy hya)
    · have hy := hwaits.mp hy
      have hcr : y ∈ c :: rest := List.mem_cons.mpr ((hmem.mp hy).resolve_left hya)
      exact (keyBelow_append _ (hlt hc) (hlt hy)).mpr (hj.next y hcr hyc)
  case waits =>
    intro y
    have hd := h.childrenBelow.join (weightAt arena a + weightAt arena c) h.length_le (hlt ha) (hlt hc)
    rw [List.length_append, List.length_singleton, waits_succ hd hnew, hwaits, List.mem_append, List.mem_singleton]
    constructor
    · rintro (hy | rfl)
      · exact ⟨.inl (hrest hy), fun hya => harest (hya ▸ hy), fun hyc => hcrest (hyc ▸ hy)⟩
      · exact ⟨.inr rfl, (hlt ha).ne', (hlt hc).ne'⟩
    · rintro ⟨hy, hya, hyc⟩
      exact hy.imp_left fun hy => ((hmem.mp hy).resolve_left hya).resolve_left hyc
  case nodup =>
    refine List.nodup_append.mpr ⟨hnodup, List.nodup_singleton _, fun x hx y hy => ?_⟩
    have := hlt (hrest hx)
    have := List.mem_singleton.mp hy
    omega
  case count =>
    have hcount := h.count
    have hlen := hj.perm.length_eq
    simp only [List.length_append, List.length_cons, List.length_nil] at *
    omega
  case weight =>
    have hold : rest.map (weightAt (arena ++ [joinNode arena a c])) = rest.map (weightAt arena) :=
      List.map_congr_left fun y hy => weightAt_append _ (hlt (hrest hy))
    have hroot : weightAt (arena ++ [joinNode arena a c]) arena.length = weightAt arena a + weightAt arena c := by
      rw [weightAt, hnew]
      rfl
    have hsum := (hj.perm.map (weightAt arena)).sum_eq
    rw [← h.weight, hsum, List.map_append, hold, List.sum_append]
    simp only [List.map_cons, List.map_nil, List.sum_cons, List.sum_nil, hroot]
    omega
  case symbols =>
    have hd := h.childrenBelow
    have hold : rest.flatMap (symbolsBelow (arena ++ [joinNode arena a c])) = rest.flatMap (symbolsBelow arena) :=
      List.flatMap_congr fun y hy => symbolsBelow_append hd _ (hlt (hrest hy))
    have hroot := symbolsBelow_join hd (w := weightAt arena a + weightAt arena c) (hlt ha) (hlt hc)
    rw [List.flatMap_append, hold, List.flatMap_singleton, hroot]
    refine List.perm_append_comm.trans (List.Perm.trans ?_ h.symbols)
    have := hj.perm.symm.flatMap_right (symbolsBelow arena)
    simpa using this

theorem leaves_built (syms : List Byte) (freq : List Nat) :
    Built syms freq (leaves syms freq) (List.range syms.length) := by
  have hlen : (leaves syms freq).length = syms.length := by simp [leaves]
  have hleaf : ∀ k (hk : k < syms.length), (leaves syms freq)[k]? = some (WNode.leaf syms[k] (freqOf freq syms[k])) :=
    fun k hk => by simp [leaves, hk]
  constructor
  case leaf => exact hleaf
  case joins =>
    intro x hd hx
    omega
  case waits =>
    intro y
    rw [List.mem_range, hlen]
    exact ⟨fun hy => ⟨hy, fun z _ _ _ hz hz' => by omega⟩, fun hy => hy.1⟩
  case nodup => exact List.nodup_range
  case count =>
    rw [hlen, List.length_range]
    omega
  case weight =>
    refine congrArg List.sum (List.ext_getElem (by simp) fun k hk _ => ?_)
    have hk : k < syms.length := by simpa using hk
    simp [weightAt, hleaf k hk, WNode.weight]
  case symbols =>
    have hbelow : ∀ k ∈ List.range syms.length, symbolsBelow (leaves syms freq) k = [syms.getD k 0] := fun k hk => by
      have hk := List.mem_range.mp hk
      rw [symbolsBelow, pathsFrom_leaf (hleaf k hk), List.getD_eq_getElem _ _ hk]
      rfl
    have heq : (List.range syms.length).flatMap (symbolsBelow (leaves syms freq)) = syms := by
      rw [List.flatMap_congr hbelow, ← List.map_eq_flatMap]
      exact List.ext_getElem (by simp) fun k hk hk' => by simp [hk']
    rw [heq]

/-- The loop of BUILD_TREE joins until one node waits. -/
theorem buildLoop_built {n : Nat} : ∀ {arena : List WNode} {queue : List Nat}, Built syms freq arena queue →
    1 ≤ queue.length → queue.length ≤ n + 1 →
    Built syms freq (buildLoop n arena queue).1 (buildLoop n arena queue).2 ∧
      (buildLoop n arena queue).2.length = 1 := by
  induction n with
  | zero => exact fun h h1 hn => ⟨h, Nat.le_antisymm hn h1⟩
  | succ n ih =>
    intro arena queue h h1 hn
    obtain h1 | h2 := Nat.eq_or_lt_of_le h1
    · obtain ⟨q, rfl⟩ := List.length_eq_one_iff.mp h1.symm
      exact ⟨h, rfl⟩
    · obtain ⟨a, c, rest, hj, hloop⟩ := buildLoop_joins (n := n) (arena := arena) h2
      have hlen := hj.perm.length_eq
      simp only [List.length_cons] at hlen
      rw [hloop]
      exact ih (h.join hj) (by simp) (by simp; omega)

theorem buildTree_built (hpos : 1 ≤ syms.length) :
    Built syms freq (buildTree syms freq).1 (buildTree syms freq).2 ∧ (buildTree syms freq).2.length = 1 :=
  buildLoop_built (leaves_built syms freq) (by simpa using hpos) (by simp)

theorem buildTree_length (hpos : 1 ≤ syms.length) : (buildTree syms freq).1.length = 2 * syms.length - 1 := by
  obtain ⟨h, hone⟩ := buildTree_built (freq := freq) hpos
  have := h.count
  omega

/-- The last node made is the one that waits at the end. -/
theorem buildTree_queue (hpos : 1 ≤ syms.length) : (buildTree syms freq).2 = [2 * syms.length - 2] := by
  obtain ⟨h, hone⟩ := buildTree_built (freq := freq) hpos
  have hlen := buildTree_length (freq := freq) hpos
  obtain ⟨q, hq⟩ := List.length_eq_one_iff.mp hone
  have hlast : 2 * syms.length - 2 ∈ (buildTree syms freq).2 := (h.waits _).mpr
    ⟨by omega, fun z w l r hz hzn hx => by have := h.childrenBelow z w l r hx; omega⟩
  rw [hq, List.mem_singleton] at hlast
  rw [hq, hlast]

/-! ### Each node but the root has one parent -/

/-- `y` is a child of `z`. -/
def IsChild (arena : List WNode) (y z : Nat) : Prop :=
  ∃ w l r, arena[z]? = some (WNode.internal w l r) ∧ (l = y ∨ r = y)

/-- A child waited when its parent was made, so that no earlier node has it. -/
theorem Built.not_isChild_earlier (h : Built syms freq arena queue) {y z x : Nat} (hzx : z < x)
    (hx : IsChild arena y x) : ¬IsChild arena y z := by
  rintro ⟨w, l, r, hz, hy⟩
  obtain ⟨w', l', r', hx, hy'⟩ := hx
  obtain ⟨hlen, -⟩ := List.getElem?_eq_some_iff.mp hx
  obtain ⟨_, _, _, hx', -, -, hl, hr, -⟩ := h.joins x (h.internal_ge hx) hlen
  cases hx.symm.trans hx'
  have hwait : Waits arena syms.length x y := by
    obtain rfl | rfl := hy'
    · exact hl
    · exact hr
  obtain ⟨hyl, hyr⟩ := hwait.2 z w l r (h.internal_ge hz) hzx hz
  exact hy.elim (fun e => hyl e.symm) fun e => hyr e.symm

theorem Built.parent_unique (h : Built syms freq arena queue) {y z x : Nat} (hz : IsChild arena y z)
    (hx : IsChild arena y x) : z = x := by
  obtain hlt | heq | hgt := Nat.lt_trichotomy z x
  · exact absurd hz (h.not_isChild_earlier hlt hx)
  · exact heq
  · exact absurd hx (h.not_isChild_earlier hgt hz)

/-- A node that waits no more has a parent. -/
theorem Built.exists_parent (h : Built syms freq arena queue) {y : Nat} (hy : y < arena.length) (hq : y ∉ queue) :
    ∃ x, IsChild arena y x := by
  rw [h.waits] at hq
  by_contra hno
  exact hq ⟨hy, fun z w l r _ _ hz => ⟨fun hyl => hno ⟨z, w, l, r, hz, .inl hyl.symm⟩,
    fun hyr => hno ⟨z, w, l, r, hz, .inr hyr.symm⟩⟩⟩

end

/-! ### The codes (41_huffman_encoder R204, R205) -/

theorem symbols_length_le (freq : List Nat) : (symbols freq).length ≤ 256 :=
  (List.length_filter_le _ _).trans_eq (by simp [allBytes])

section
variable {freq : List Nat}

/-- The symbols and their paths from the root. -/
def codePaths (freq : List Nat) : List (Byte × List Bool) :=
  pathsFrom (buildTree (symbols freq) freq).1 (buildTree (symbols freq) freq).1.length
    (rootOf (buildTree (symbols freq) freq).2)

theorem codesFor_eq_setCodes (freq : List Nat) :
    codesFor freq = setCodes [] (codePaths freq) (List.replicate 256 []) := walkCodes_eq_setCodes

variable (hpos : 1 ≤ (symbols freq).length)
include hpos

theorem rootOf_buildTree : rootOf (buildTree (symbols freq) freq).2 = 2 * (symbols freq).length - 2 := by
  rw [buildTree_queue hpos]
  rfl

theorem codePaths_symbols : ((codePaths freq).map Prod.fst).Perm (symbols freq) := by
  obtain ⟨h, -⟩ := buildTree_built (freq := freq) hpos
  have hlen := buildTree_length (freq := freq) hpos
  have hsyms := h.symbols
  rw [buildTree_queue hpos, List.flatMap_singleton] at hsyms
  have hfuel := pathsFrom_append h.childrenBelow [] (m := (buildTree (symbols freq) freq).1.length)
    (n := 2 * (symbols freq).length - 2 + 1) (x := 2 * (symbols freq).length - 2) (by omega) (by omega) (by omega)
  rw [List.append_nil] at hfuel
  rw [codePaths, rootOf_buildTree hpos, hfuel]
  exact hsyms

/-- A symbol's code is its path. -/
theorem codeOf_codesFor {b : Byte} {q : List Bool} (h : (b, q) ∈ codePaths freq) : codeOf (codesFor freq) b = q := by
  rw [codesFor_eq_setCodes, codeOf_setCodes List.length_replicate
    ((codePaths_symbols hpos).nodup_iff.mpr (symbols_nodup freq)) h]
  rfl

theorem mem_codePaths {b : Byte} (hb : b ∈ symbols freq) : (b, codeOf (codesFor freq) b) ∈ codePaths freq := by
  obtain ⟨⟨c, q⟩, hq, rfl⟩ := List.mem_map.mp ((codePaths_symbols hpos).mem_iff.mpr hb)
  rwa [codeOf_codesFor hpos hq]

/-- A symbol's code leads from the root to its leaf. -/
theorem followCode_codeOf {b : Byte} (hb : b ∈ symbols freq) :
    followCode (buildTree (symbols freq) freq).1 (2 * (symbols freq).length - 2) (codeOf (codesFor freq) b) =
      some (.leaf b (freqOf freq b)) := by
  have hmem := mem_codePaths hpos hb
  rw [codePaths, rootOf_buildTree hpos] at hmem
  obtain ⟨w, hw⟩ := followCode_of_mem_pathsFrom hmem
  obtain ⟨x, hx⟩ := exists_of_followCode hw
  rw [hw, (buildTree_built hpos).1.leaf_weight hx]

end

/-- Settles O50: the loop's invariant, at its end, where the last node made alone waits. -/
theorem treeShape : Obligations.TreeShape := by
  unfold Obligations.TreeShape
  intro freq h2 d arena
  have hpos : 1 ≤ (symbols freq).length := by omega
  obtain ⟨h, -⟩ := buildTree_built (freq := freq) hpos
  have hlen : arena.length = 2 * d - 1 := buildTree_length hpos
  have hqueue : (buildTree (symbols freq) freq).2 = [2 * d - 2] := buildTree_queue hpos
  have hinside : ∀ {x}, x ≤ 2 * d - 2 → x < arena.length := by omega
  refine ⟨hqueue, hlen, h.leaf, fun x hd hx => h.joins x hd (hinside hx), fun y hy => ?_, ?_,
    fun b hb => followCode_codeOf hpos hb⟩
  · have hy' : y ∉ (buildTree (symbols freq) freq).2 := by
      rw [hqueue, List.mem_singleton]
      omega
    obtain ⟨x, hx⟩ := h.exists_parent (hinside (Nat.le_of_lt hy)) hy'
    exact ⟨x, fun z => ⟨fun hz => h.parent_unique hz hx, fun hz => hz ▸ hx⟩⟩
  · have hweight := h.weight
    rw [hqueue] at hweight
    simpa using hweight

/-- Settles O51: each code is the path to one leaf; paths go through d - 1 internal nodes at most and end at a leaf. -/
theorem codesPrefixFree : Obligations.CodesPrefixFree := by
  unfold Obligations.CodesPrefixFree
  intro freq h2
  have hpos : 1 ≤ (symbols freq).length := by omega
  obtain ⟨h, -⟩ := buildTree_built (freq := freq) hpos
  have hlen := buildTree_length (freq := freq) hpos
  have hsize : (symbols freq).length ≤ 256 := symbols_length_le freq
  have hmax : ∀ {b}, b ∈ symbols freq → (codeOf (codesFor freq) b).length ≤ (symbols freq).length - 1 := fun hb => by
    have := length_le_of_followCode h.childrenBelow (followCode_codeOf hpos hb)
    omega
  refine ⟨fun b hb => ⟨?_, hmax hb⟩, fun b hb c hc hne hpre => hne ?_, ?_⟩
  · by_contra hzero
    have hnil : codeOf (codesFor freq) b = [] := List.length_eq_zero_iff.mp (by omega)
    have hroot := followCode_codeOf hpos hb
    rw [hnil] at hroot
    obtain ⟨w, l, r, hint, -⟩ := h.joins (2 * (symbols freq).length - 2) (by omega) (by omega)
    cases hint.symm.trans hroot
  · obtain ⟨t, ht⟩ := hpre
    have hb := followCode_codeOf hpos hb
    have hc := followCode_codeOf hpos hc
    rw [← ht] at hc
    rw [followCode_append_leaf hb hc, List.append_nil] at hc
    cases hb.symm.trans hc
    rfl
  · have hpaths : ∀ p ∈ codePaths freq, 2 ^ (255 - (codeOf (codesFor freq) p.1).length) = 2 ^ (255 - p.2.length) :=
      fun p hp => by rw [codeOf_codesFor hpos hp]
    rw [← ((codePaths_symbols hpos).map _).sum_eq, List.map_map]
    refine (congrArg List.sum (List.map_congr_left hpaths)).trans ?_
    rw [codePaths, rootOf_buildTree hpos]
    exact sum_pathsFrom h.childrenBelow (by omega) (by omega) (by omega)

end Sys2Proof.Machine

/-! PROOFS. HUFF_DEC's header: what READ_COUNT, READ_PAIRS and READ_TOTALBITS make of the bytes they read, and the artifacts
that end there or hold at most one symbol (42_huffman_decoder R240 to R242, R248). -/

namespace Sys2Proof.Machine

/-! ### Reading the input as a list -/

@[simp] theorem bytes_length (e : Env) : e.bytes.length = e.len := by simp [Env.bytes]

/-- What follows the part of a list that was read. -/
theorem drop_add_of_append {α : Type} {l xs ys : List α} {i : Nat} (h : l.drop i = xs ++ ys) :
    l.drop (i + xs.length) = ys := by
  rw [← List.drop_drop, h, List.drop_left]

theorem lt_length_of_drop_cons {α : Type} {l xs : List α} {x : α} {i : Nat} (h : l.drop i = x :: xs) :
    i < l.length := by
  by_contra hi
  rw [List.drop_of_length_le (not_lt.mp hi)] at h
  cases h

section
variable {e : Env} (hin : ∀ i, i < e.len → e.cfg.busOk (e.src + i) = true)
include hin

theorem fetch_of_drop {r : Run} {b : Byte} {bs : List Byte} (h : e.bytes.drop r.ip = b :: bs) :
    fetch e r = .ok (b, { r with ip := r.ip + 1 }) := by
  have hlt : r.ip < e.len := bytes_length e ▸ lt_length_of_drop_cons h
  have hb : e.byte r.ip = b := by
    rw [List.drop_eq_getElem_cons (by simpa using hlt)] at h
    simpa [Env.bytes] using (List.cons.inj h).1
  rw [fetch_ok hlt (hin _ hlt), hb]

theorem fetchLE_of_drop : ∀ {n v : Nat} {r : Run} {bs : List Byte}, e.bytes.drop r.ip = leBytes n v ++ bs →
    v < 256 ^ n → fetchLE e n r = .ok (v, { r with ip := r.ip + n })
  | 0, v, r, _, _, hv => by
    rw [pow_zero, Nat.lt_one_iff] at hv
    rw [hv]
    rfl
  | n + 1, v, r, bs, h, hv => by
    have hv' : v / 256 < 256 ^ n := Nat.div_lt_of_lt_mul (by rwa [← pow_succ'])
    have hlow : (BitVec.ofNat 8 v).toNat + 256 * (v / 256) = v := by
      rw [BitVec.toNat_ofNat]
      exact Nat.mod_add_div v 256
    rw [fetchLE, fetch_of_drop hin h, ok_bind]
    dsimp only
    rw [fetchLE_of_drop (r := { r with ip := r.ip + 1 }) (drop_add_of_append (xs := [_]) h) hv', ok_bind]
    simp only [hlow, Nat.add_assoc, Nat.add_comm 1 n]
    rfl

theorem fetchLE_of_short {n : Nat} {r : Run} (hip : r.ip ≤ e.len) (h : (e.bytes.drop r.ip).length < n) :
    fetchLE e n r = .error ⟨.truncatedStream, e.len⟩ := by
  rw [List.length_drop, bytes_length] at h
  exact fetchLE_end hin hip (by omega)

/-! ### READ_COUNT (42_huffman_decoder R240) -/

theorem readCount_ok {r : Run} {d : Nat} {bs : List Byte} (h : e.bytes.drop r.ip = leBytes 8 d ++ bs) (hd : d ≤ 256) :
    readCount e r = .ok (d, { r with ip := r.ip + 8 }) := by
  rw [readCount, fetchLE_of_drop hin h (by omega), ok_bind]
  exact if_neg (not_lt.mpr hd)

theorem readCount_too_large {r : Run} {d : Nat} {bs : List Byte} (h : e.bytes.drop r.ip = leBytes 8 d ++ bs)
    (hd : 256 < d) (hd' : d < 2 ^ 64) : readCount e r = .error ⟨.corruptTree, 0⟩ := by
  rw [readCount, fetchLE_of_drop hin h (by omega), ok_bind]
  exact if_pos hd

theorem readCount_short {r : Run} (hip : r.ip ≤ e.len) (h : (e.bytes.drop r.ip).length < 8) :
    readCount e r = .error ⟨.truncatedStream, e.len⟩ := by
  rw [readCount, fetchLE_of_short hin hip h]
  rfl

end

/-! ### READ_PAIRS (42_huffman_decoder R241) -/

/-- The frequency table after the pairs `ps`. -/
def setFreqs (ps : List (Byte × Nat)) (freq : List Nat) : List Nat := ps.foldl (fun fr p => fr.set p.1.toNat p.2) freq

/-- The byte of the pair before the next one. -/
def lastByte (prev : Option Byte) (ps : List (Byte × Nat)) : Option Byte := ps.foldl (fun _ p => some p.1) prev

/-- The run after the pairs `ps`. -/
def Run.pairsRead (r : Run) (ps : List (Byte × Nat)) : Run :=
  { r with ip := r.ip + 5 * ps.length, u := { r.u with freq := setFreqs ps r.u.freq } }

theorem pairsRead_pairsRead (r : Run) (p : Byte × Nat) (ps : List (Byte × Nat)) :
    (r.pairsRead [p]).pairsRead ps = r.pairsRead (p :: ps) := by
  simp [Run.pairsRead, setFreqs, Nat.mul_succ, Nat.add_assoc, Nat.add_comm 5]

theorem lastByte_of_getLast? {prev : Option Byte} {p : Byte × Nat} {ps : List (Byte × Nat)}
    (h : ps.getLast? = some p) : lastByte prev ps = some p.1 := by
  obtain ⟨ps, rfl⟩ := List.getLast?_eq_some_iff.mp h
  simp [lastByte]

@[simp] theorem pairBytes_length (ps : List (Byte × Nat)) : (pairBytes ps).length = 5 * ps.length := by
  simp [pairBytes, List.length_flatMap, Nat.mul_comm]

section
variable {e : Env} (hin : ∀ i, i < e.len → e.cfg.busOk (e.src + i) = true) {n k : Nat} {prev : Option Byte} {r : Run}
include hin

/-- One pair is read, checked and stored. -/
theorem readPairs_pair {b : Byte} {f : Nat} {bs : List Byte} (h : e.bytes.drop r.ip = b :: leBytes 4 f ++ bs)
    (hf : f < 2 ^ 32) :
    readPairs e (n + 1) k prev r =
      if (prev.any fun p => decide (b.toNat ≤ p.toNat)) || decide (f = 0) then .error ⟨.corruptTree, 8 + 5 * k⟩
      else readPairs e n (k + 1) (some b) (r.pairsRead [(b, f)]) >>= fun p => .ok (b :: p.1, p.2) := by
  rw [readPairs, fetch_of_drop hin h, ok_bind]
  dsimp only
  rw [fetchLE_of_drop hin (drop_add_of_append (xs := [b]) h) (by omega), ok_bind]
  rfl

theorem readPairs_good {b : Byte} {f : Nat} {bs : List Byte} (h : e.bytes.drop r.ip = b :: leBytes 4 f ++ bs)
    (hf : f < 2 ^ 32) (hf0 : f ≠ 0) (hprev : ∀ p ∈ prev, p.toNat < b.toNat) :
    readPairs e (n + 1) k prev r =
      readPairs e n (k + 1) (some b) (r.pairsRead [(b, f)]) >>= fun p => .ok (b :: p.1, p.2) := by
  rw [readPairs_pair hin h hf, if_neg]
  cases prev with
  | none => simpa using hf0
  | some p => simpa [hf0] using hprev p rfl

theorem readPairs_bad {b : Byte} {f : Nat} {bs : List Byte} (h : e.bytes.drop r.ip = b :: leBytes 4 f ++ bs)
    (hf : f < 2 ^ 32) (hbad : f = 0 ∨ ∃ p ∈ prev, b.toNat ≤ p.toNat) :
    readPairs e (n + 1) k prev r = .error ⟨.corruptTree, 8 + 5 * k⟩ := by
  rw [readPairs_pair hin h hf, if_pos]
  obtain hf0 | ⟨p, hp, hb⟩ := hbad
  · simp [hf0]
  · rw [Option.mem_def.mp hp]
    simp [hb]

theorem readPairs_short (hip : r.ip ≤ e.len) (h : (e.bytes.drop r.ip).length < 5) :
    readPairs e (n + 1) k prev r = .error ⟨.truncatedStream, e.len⟩ := by
  rw [readPairs]
  match hbs : e.bytes.drop r.ip with
  | [] =>
    have hend : e.len = r.ip := Nat.le_antisymm (by simpa using hbs) hip
    rw [fetch_end hend.le, hend]
    rfl
  | b :: bs =>
    have hlt : r.ip < e.len := bytes_length e ▸ lt_length_of_drop_cons hbs
    rw [hbs, List.length_cons] at h
    rw [fetch_of_drop hin hbs, ok_bind]
    dsimp only
    have hrest : e.bytes.drop (r.ip + 1) = bs := drop_add_of_append (xs := [b]) hbs
    rw [fetchLE_of_short (r := { r with ip := r.ip + 1 }) hin hlt (by rw [hrest]; omega)]
    rfl

/-- Good pairs are read one after the other. -/
theorem readPairs_append : ∀ {ps : List (Byte × Nat)} {k : Nat} {prev : Option Byte} {r : Run} {bs : List Byte},
    e.bytes.drop r.ip = pairBytes ps ++ bs → PairsFine ps → (∀ p ∈ prev, ∀ q ∈ ps.head?, p.toNat < q.1.toNat) →
    readPairs e (ps.length + n) k prev r =
      readPairs e n (k + ps.length) (lastByte prev ps) (r.pairsRead ps) >>= fun p => .ok (ps.map Prod.fst ++ p.1, p.2)
  | [], k, prev, r, _, _, _, _ => by
    rw [List.length_nil, Nat.zero_add]
    exact (bind_pure _).symm
  | (b, f) :: ps, k, prev, r, bs, h, ⟨hchain, hfreq⟩, hprev => by
    obtain ⟨hf1, hf⟩ := hfreq (b, f) List.mem_cons_self
    obtain ⟨hnext, hchain⟩ := List.isChain_cons.mp hchain
    have h : e.bytes.drop r.ip = (b :: leBytes 4 f) ++ (pairBytes ps ++ bs) := by simpa [pairBytes] using h
    have hrest : e.bytes.drop (r.pairsRead [(b, f)]).ip = pairBytes ps ++ bs := by
      simpa [Run.pairsRead] using drop_add_of_append h
    rw [List.length_cons, Nat.add_right_comm, readPairs_good hin h hf (by omega) fun p hp => hprev p hp _ rfl,
      readPairs_append hrest ⟨hchain, fun p hp => hfreq p (List.mem_cons_of_mem _ hp)⟩
        (by rintro _ ⟨⟩ q hq; exact hnext q hq),
      bind_assoc, pairsRead_pairsRead, Nat.add_assoc k, Nat.add_comm 1]
    rfl

/-! ### The whole header (42_huffman_decoder R242, R247) -/

theorem readTotalBits_ok {total : Nat} {bs : List Byte} (h : e.bytes.drop r.ip = leBytes 8 total ++ bs)
    (ht : total < 2 ^ 64) :
    readTotalBits e r = .ok { r with ip := r.ip + 8, u := { r.u with totalBits := total } } := by
  rw [readTotalBits, fetchLE_of_drop hin h (by omega), ok_bind]
  rfl

theorem readTotalBits_short (hip : r.ip ≤ e.len) (h : (e.bytes.drop r.ip).length < 8) :
    readTotalBits e r = .error ⟨.truncatedStream, e.len⟩ := by
  rw [readTotalBits, fetchLE_of_short hin hip h]
  rfl

/-- HUFF_DEC after its first pairs, which are good ones. -/
theorem huffDecUnit_of_pairs {ps : List (Byte × Nat)} {tail : List Byte} (hd : ps.length + n ≤ 256)
    (hps : PairsFine ps) (h : e.bytes = leBytes 8 (ps.length + n) ++ pairBytes ps ++ tail) :
    huffDecUnit e r =
      readPairs e n ps.length (lastByte none ps) ({ r with ip := 8 }.pairsRead ps) >>= fun p =>
        readTotalBits e p.2 >>= huffDecBody e (ps.map Prod.fst ++ p.1) := by
  have h0 : e.bytes.drop 0 = leBytes 8 (ps.length + n) ++ (pairBytes ps ++ tail) := by simpa using h
  have h8 : e.bytes.drop 8 = pairBytes ps ++ tail := by simpa using drop_add_of_append h0
  rw [huffDecUnit, readCount_ok hin h0 hd, ok_bind]
  dsimp only
  rw [readPairs_append hin h8 hps (by simp), bind_assoc, Nat.zero_add]
  rfl

end

/-- The input left after the pairs. -/
theorem drop_pairsRead {e : Env} {r : Run} {d : Nat} {ps : List (Byte × Nat)} {tail : List Byte}
    (h : e.bytes = leBytes 8 d ++ pairBytes ps ++ tail) :
    ({ r with ip := 8 }.pairsRead ps).ip ≤ e.len ∧ e.bytes.drop ({ r with ip := 8 }.pairsRead ps).ip = tail := by
  have hlen : e.len = 8 + 5 * ps.length + tail.length := by simpa [Nat.add_assoc] using congrArg List.length h
  have hdrop : e.bytes.drop (0 + (leBytes 8 d ++ pairBytes ps).length) = tail := drop_add_of_append h
  rw [Nat.zero_add, List.length_append, leBytes_length, pairBytes_length] at hdrop
  exact ⟨by rw [Run.pairsRead, hlen]; exact Nat.le_add_right _ _, hdrop⟩

/-- The run after the header. -/
def Run.headerRead (r : Run) (ps : List (Byte × Nat)) (total : Nat) : Run :=
  { r with ip := 16 + 5 * ps.length, u := { r.u with freq := setFreqs ps r.u.freq, totalBits := total } }

/-- HUFF_DEC after a good header. -/
theorem huffDecUnit_of_header {e : Env} (hin : ∀ i, i < e.len → e.cfg.busOk (e.src + i) = true) {r : Run}
    {ps : List (Byte × Nat)} {total : Nat} {tail : List Byte} (hd : ps.length ≤ 256) (hps : PairsFine ps)
    (ht : total < 2 ^ 64) (h : e.bytes = leBytes 8 ps.length ++ pairBytes ps ++ leBytes 8 total ++ tail) :
    huffDecUnit e r = huffDecBody e (ps.map Prod.fst) (r.headerRead ps total) := by
  rw [List.append_assoc] at h
  rw [huffDecUnit_of_pairs hin (n := 0) hd hps h, readPairs, ok_bind]
  dsimp only
  rw [readTotalBits_ok hin (drop_pairsRead h).2 ht, ok_bind, List.append_nil]
  simp [Run.pairsRead, Run.headerRead, Nat.add_right_comm]

/-- A command whose unit raises fails with that error. -/
theorem exec_failed {i : Instr} {u : Env → Run → Except Raise Run} {s : State} {k : ErrKind} {n : Nat}
    (hu : unitOf i = some u) (hs : s.Running) (h : u s.env s.begin = .error ⟨k, n⟩) :
    ∃ t, exec i s = .next t ∧ FailedWith t k n := by
  rw [exec_of_unit hu]
  exact runCommand_failed hs h

/-- Settles O56: the count is checked once its eight bytes are there. -/
theorem huffDecCount : Obligations.HuffDecCount := by
  unfold Obligations.HuffDecCount
  intro s d tail hs hbus
  refine ⟨fun hd hd' h => exec_failed rfl hs ?_, fun hlen => exec_failed rfl hs ?_⟩
  · rw [huffDecUnit, readCount_too_large hbus.1 (r := { s.begin with ip := 0 }) h hd hd']
    rfl
  · have hshort : (s.env.bytes.drop 0).length < 8 := by simpa [State.env] using hlen
    rw [huffDecUnit, readCount_short hbus.1 (Nat.zero_le _) hshort]
    rfl

/-- Settles O57: good pairs are read up to the bad one or up to where the input ends. -/
theorem huffDecPairs : Obligations.HuffDecPairs := by
  unfold Obligations.HuffDecPairs
  intro s d ps tail hs hbus hd hps h
  obtain ⟨hip, hdrop⟩ := drop_pairsRead (r := s.begin) h
  have hmore : ps.length < d → ∃ n, d = ps.length + (n + 1) := fun hlt => ⟨d - ps.length - 1, by omega⟩
  refine ⟨fun b f more hlt hf htail hbad => exec_failed rfl hs ?_, fun hlt htail => exec_failed rfl hs ?_,
    fun heq htail => exec_failed rfl hs ?_⟩
  · have hbad' : f = 0 ∨ ∃ p ∈ lastByte none ps, b.toNat ≤ p.toNat :=
      hbad.imp_right fun ⟨p, hp, hb⟩ => ⟨p.1, lastByte_of_getLast? hp, hb⟩
    obtain ⟨n, rfl⟩ := hmore hlt
    rw [huffDecUnit_of_pairs hbus.1 hd hps h, readPairs_bad hbus.1 (hdrop.trans htail) hf hbad']
    rfl
  · obtain ⟨n, rfl⟩ := hmore hlt
    rw [huffDecUnit_of_pairs hbus.1 hd hps h, readPairs_short hbus.1 hip (hdrop ▸ htail)]
    rfl
  · obtain rfl := heq
    rw [huffDecUnit_of_pairs hbus.1 (n := 0) hd hps h, readPairs, ok_bind]
    dsimp only
    rw [readTotalBits_short hbus.1 hip (hdrop ▸ htail)]
    rfl

/-! ### At most one symbol (42_huffman_decoder R248) -/

/-- Emitting one byte more often than it fits overflows. -/
theorem emitRep_full {e : Env} {b : Byte} {info : Nat} (hout : ∀ k, k < e.cap → e.cfg.busOk (e.dst + k) = true) :
    ∀ {n : Nat} {r : Run}, r.out.length ≤ e.cap → e.cap < r.out.length + n →
    emitRep e b info n r = .error ⟨.outputOverflow, info⟩
  | 0, _, h, h' => by omega
  | n + 1, r, h, h' => by
    rw [emitRep]
    obtain hfull | hroom := Nat.eq_or_lt_of_le h
    · rw [emit_full hfull.ge]
      rfl
    · rw [emit_ok ⟨hroom, hout⟩, ok_bind]
      exact emitRep_full hout (by simpa using hroom) (by simp; omega)

theorem begin_freq_length (s : State) : s.begin.u.freq.length = 256 := by simp [State.begin, Units.toWork]

/-- Settles O55: the header alone decides; with one symbol its frequency is N. -/
theorem huffDecDegenerate : Obligations.HuffDecDegenerate := by
  unfold Obligations.HuffDecDegenerate
  intro s total n b tail hs hbus hw ht
  refine ⟨fun h => ?_, fun hn hn' h => ?_⟩
  · have hunit := huffDecUnit_of_header hbus.1 (r := s.begin) (ps := []) (Nat.zero_le _)
      ⟨List.isChain_nil, by simp⟩ ht (by simpa [pairBytes] using h)
    exact exec_succeeded rfl hs hw ⟨_, hunit, rfl⟩ (Nat.zero_le _)
  · have hunit := huffDecUnit_of_header hbus.1 (r := s.begin) (ps := [(b, n)]) (by simp)
      (tail := tail) ⟨List.isChain_singleton _, by simpa using ⟨hn, hn'⟩⟩ ht (by simpa [pairBytes] using h)
    have hcount : declaredLength (s.begin.headerRead [(b, n)] total).u.freq [b] = n := by
      simp [declaredLength, Run.headerRead, setFreqs, freqOf_set (begin_freq_length s)]
    have hbody : huffDecUnit s.env s.begin = emitRep s.env b 21 n (s.begin.headerRead [(b, n)] total) :=
      hunit.trans (congrArg (emitRep s.env b 21 · _) hcount)
    refine ⟨fun hfit => ?_, fun hover => exec_failed rfl hs ?_⟩
    · rw [emitRep_ok (r := s.begin.headerRead [(b, n)] total) (begin_room hbus hfit)] at hbody
      exact exec_succeeded rfl hs hw ⟨_, hbody, rfl⟩ (by simpa using hfit)
    · rw [hbody, emitRep_full hbus.2 (Nat.zero_le _)]
      simpa [Run.headerRead, State.begin, State.env] using hover

end Sys2Proof.Machine

/-! PROOFS. HUFF_DEC's payload: GET_BIT delivers the payload's bits up to totalBits, WALK_SYMBOL follows a code to its leaf,
and the symbol loop decodes the codes one after the other (42_huffman_decoder R243 to R247). -/

namespace Sys2Proof.Machine

/-! ### The bits of a payload (20_memory R88) -/

/-- Bit `k` of the payload stands in byte `k / 8`, bit 7 of each byte first. -/
theorem unpackBits_getElem? : ∀ (bs : List Byte) (k : Nat),
    (unpackBits bs)[k]? = (bs[k / 8]?).map fun b => b.getLsbD (7 - k % 8)
  | [], k => by simp [unpackBits]
  | b :: bs, k => by
    have hcons : unpackBits (b :: bs) = (List.range 8).map (fun k => b.getLsbD (7 - k)) ++ unpackBits bs := rfl
    rw [hcons]
    obtain hk | hk := Nat.lt_or_ge k 8
    · rw [List.getElem?_append_left (by simpa using hk), Nat.div_eq_of_lt hk, Nat.mod_eq_of_lt hk]
      simp [hk]
    · obtain ⟨j, rfl⟩ : ∃ j, k = j + 8 := ⟨k - 8, by omega⟩
      rw [List.getElem?_append_right (by simp), Nat.add_div_right j (by decide), Nat.add_mod_right]
      simpa using unpackBits_getElem? bs j

@[simp] theorem unpackBits_length (bs : List Byte) : (unpackBits bs).length = 8 * bs.length := by
  simp [unpackBits, List.length_flatMap, Nat.mul_comm]

/-! ### One step of WALK_SYMBOL (42_huffman_decoder R245) -/

theorem walkSymbol_leaf {e : Env} {n x w : Nat} {b : Byte} {r : Run} (h : r.u.arena[x]? = some (.leaf b w)) :
    walkSymbol e (n + 1) x r = .ok (b, r) := by
  simp only [walkSymbol, h]

theorem walkSymbol_internal {e : Env} {n x w lt rt : Nat} {r : Run} (h : r.u.arena[x]? = some (.internal w lt rt)) :
    walkSymbol e (n + 1) x r = getBit e r >>= fun p => walkSymbol e n (if p.1 then rt else lt) p.2 := by
  simp only [walkSymbol, h]

/-! ### GET_BIT (42_huffman_decoder R244) -/

/-- The bits GET_BIT delivers: those of the payload, up to T. -/
def Run.payload (r : Run) (pay : List Byte) : List Bool := (unpackBits pay).take r.u.totalBits

theorem payload_length (r : Run) (pay : List Byte) : (r.payload pay).length = min r.u.totalBits (8 * pay.length) := by
  simp [Run.payload]

/-- `r` with the output `o` and `k` bits of the payload `pay` consumed: their bytes are fetched, the last one is kept. -/
def Run.unpacked (r : Run) (pay o : List Byte) (k : Nat) : Run :=
  { r with
    ip := r.ip + (k + 7) / 8
    out := o
    u := { r.u with pos := k, cur := (pay.take ((k + 7) / 8)).getLast?.getD r.u.cur } }

/-- The next bit stands in a byte of the payload, before T. -/
theorem payload_drop_cons {r : Run} {pay : List Byte} {k : Nat} {bit : Bool} {bits : List Bool}
    (h : (r.payload pay).drop k = bit :: bits) :
    k < r.u.totalBits ∧ ∃ b, pay[k / 8]? = some b ∧ b.getLsbD (7 - k % 8) = bit := by
  have hk : k < r.u.totalBits := by
    have := lt_length_of_drop_cons h
    rw [payload_length] at this
    omega
  have hget : (r.payload pay)[k]? = some bit := by
    rw [← Nat.add_zero k, ← List.getElem?_drop, h]
    rfl
  rw [Run.payload, List.getElem?_take_of_lt hk, unpackBits_getElem?, Option.map_eq_some_iff] at hget
  exact ⟨hk, hget⟩

/-- `code` gives each byte of `out` its path from the root. -/
def TreeCodes (r : Run) (code : Byte → List Bool) (out : List Byte) : Prop :=
  ∀ b ∈ out, (code b).length < r.u.arena.length ∧
    ∃ w, followCode r.u.arena (rootOf r.u.queue) (code b) = some (.leaf b w)

theorem TreeCodes.mono {r : Run} {code : Byte → List Bool} {out out' : List Byte} (h : TreeCodes r code out)
    (hsub : out' ⊆ out) : TreeCodes r code out' := fun b hb => h b (hsub hb)

section
variable {e : Env} (hin : ∀ i, i < e.len → e.cfg.busOk (e.src + i) = true) {r : Run} {pay : List Byte}
  (hpay : e.bytes.drop r.ip = pay) {o : List Byte} {k : Nat}
include hin hpay

/-- The byte of the next bit is fetched when it is not there yet. -/
theorem loadByte_unpacked {b : Byte} (hb : pay[k / 8]? = some b) :
    loadByte e (r.unpacked pay o k) =
      .ok { r.unpacked pay o (k + 1) with u := { (r.unpacked pay o (k + 1)).u with pos := k } } := by
  have hlast : (pay.take (k / 8 + 1)).getLast? = some b := by rw [List.take_add_one, hb]; simp
  have hnext : (k + 1 + 7) / 8 = k / 8 + 1 := by omega
  rw [loadByte]
  split
  · next hk =>
    have hcur : (k + 7) / 8 = k / 8 := by
      have : k % 8 = 0 := hk
      omega
    have hdrop : e.bytes.drop (r.unpacked pay o k).ip = b :: pay.drop (k / 8 + 1) := by
      rw [Run.unpacked, hcur, ← List.drop_drop, hpay]
      exact List.drop_eq_getElem?_toList_append.trans (by rw [hb]; rfl)
    rw [fetch_of_drop hin hdrop, ok_bind]
    refine congrArg Except.ok ?_
    simp [Run.unpacked, hnext, hcur, hlast, Nat.add_assoc]
  · next hk =>
    have hcur : (k + 7) / 8 = k / 8 + 1 := by
      have : k % 8 ≠ 0 := hk
      omega
    simp [Run.unpacked, hnext, hcur]

theorem getBit_ok {bit : Bool} {bits : List Bool} (h : (r.payload pay).drop k = bit :: bits) :
    getBit e (r.unpacked pay o k) = .ok (bit, r.unpacked pay o (k + 1)) := by
  obtain ⟨hk, b, hb, hbit⟩ := payload_drop_cons h
  have hcur : (r.unpacked pay o (k + 1)).u.cur = b := by
    have hnext : (k + 1 + 7) / 8 = k / 8 + 1 := by omega
    rw [Run.unpacked, hnext, List.take_add_one, hb]
    simp
  have hpos : ¬(r.unpacked pay o k).u.totalBits ≤ (r.unpacked pay o k).u.pos := not_le.mpr hk
  rw [getBit, if_neg hpos, loadByte_unpacked hin hpay hb, ok_bind, hcur]
  exact congrArg (fun x => Except.ok (x, _)) hbit

omit hin in
/-- The bits end at T or with the input's last byte. -/
theorem getBit_end (hip : r.ip ≤ e.len) :
    getBit e (r.unpacked pay o (r.payload pay).length) =
      .error ⟨.truncatedStream, r.ip + ((r.payload pay).length + 7) / 8⟩ := by
  have hlen : pay.length = e.len - r.ip := by rw [← hpay, List.length_drop, bytes_length]
  rw [payload_length]
  generalize hend : min r.u.totalBits (8 * pay.length) = k
  rw [getBit]
  by_cases hk : (r.unpacked pay o k).u.totalBits ≤ (r.unpacked pay o k).u.pos
  · exact if_pos hk
  · have hlt : k < r.u.totalBits := not_le.mp hk
    have hmod : (r.unpacked pay o k).u.pos % 8 = 0 := by
      show k % 8 = 0
      omega
    have hlast : e.len ≤ (r.unpacked pay o k).ip := by
      show e.len ≤ r.ip + (k + 7) / 8
      omega
    rw [if_neg hk, loadByte, if_pos hmod, fetch_end hlast]
    rfl

/-! ### WALK_SYMBOL along a code (42_huffman_decoder R245) -/

/-- The walk goes along a bit string the payload holds, to the node that string leads to. -/
theorem walkSymbol_follows {n : Nat} {v : WNode} {t : List Bool} : ∀ {q more : List Bool} {x k : Nat},
    followCode r.u.arena x (q ++ t) = some v → (r.payload pay).drop k = q ++ more →
    ∃ y, followCode r.u.arena y t = some v ∧
      walkSymbol e (q.length + n) x (r.unpacked pay o k) = walkSymbol e n y (r.unpacked pay o (k + q.length))
  | [], more, x, k, hv, _ => ⟨x, hv, by rw [List.length_nil, Nat.zero_add, Nat.add_zero]⟩
  | bit :: q, more, x, k, hv, h => by
    obtain ⟨w, lt, rt, hx, hv⟩ := followCode_cons_eq_some.mp hv
    obtain ⟨y, hy, hwalk⟩ := walkSymbol_follows hv (drop_add_of_append (xs := [bit]) h)
    refine ⟨y, hy, ?_⟩
    rw [List.length_cons, Nat.add_right_comm, walkSymbol_internal (r := r.unpacked pay o k) hx,
      getBit_ok hin hpay h, ok_bind, ← Nat.add_assoc, Nat.add_right_comm]
    exact hwalk

theorem walkSymbol_ok {n x w : Nat} {b : Byte} {q more : List Bool}
    (hq : followCode r.u.arena x q = some (.leaf b w)) (hn : q.length < n) (h : (r.payload pay).drop k = q ++ more) :
    walkSymbol e n x (r.unpacked pay o k) = .ok (b, r.unpacked pay o (k + q.length)) := by
  obtain ⟨m, rfl⟩ : ∃ m, n = q.length + (m + 1) := ⟨n - q.length - 1, by omega⟩
  obtain ⟨y, hy, hwalk⟩ := walkSymbol_follows hin hpay (o := o) (n := m + 1) (t := []) (by rwa [List.append_nil]) h
  rw [hwalk]
  exact walkSymbol_leaf hy

/-- The walk fails inside a code of which the payload holds a beginning alone. -/
theorem walkSymbol_end {n x w : Nat} {b : Byte} {q t : List Bool} (hip : r.ip ≤ e.len)
    (hq : followCode r.u.arena x (q ++ t) = some (.leaf b w)) (ht : t ≠ []) (hn : (q ++ t).length < n)
    (hk : k ≤ (r.payload pay).length) (h : (r.payload pay).drop k = q) :
    walkSymbol e n x (r.unpacked pay o k) =
      .error ⟨.truncatedStream, r.ip + ((r.payload pay).length + 7) / 8⟩ := by
  rw [List.length_append] at hn
  have hend : k + q.length = (r.payload pay).length := by
    rw [← h, List.length_drop]
    omega
  obtain ⟨m, rfl⟩ : ∃ m, n = q.length + (m + 1) := ⟨n - q.length - 1, by omega⟩
  obtain ⟨y, hy, hwalk⟩ := walkSymbol_follows hin hpay (o := o) (n := m + 1) (more := []) hq (by rwa [List.append_nil])
  cases t with
  | nil => exact absurd rfl ht
  | cons bit t =>
    obtain ⟨w, lt, rt, hy, -⟩ := followCode_cons_eq_some.mp hy
    rw [hwalk, walkSymbol_internal (r := r.unpacked pay o _) hy, hend, getBit_end hpay hip]
    rfl

/-! ### The symbol loop (42_huffman_decoder R246, R247) -/

variable {code : Byte → List Bool}

/-- The next symbol is the byte whose code the payload holds. -/
theorem decodeSymbols_succ {n : Nat} {b : Byte} {more : List Bool} (hb : TreeCodes r code [b])
    (h : (r.payload pay).drop k = code b ++ more) :
    decodeSymbols e (n + 1) (r.unpacked pay o k) =
      emit e b (r.ip + (k + (code b).length + 7) / 8) (r.unpacked pay o (k + (code b).length)) >>= decodeSymbols e n := by
  obtain ⟨hlen, w, hw⟩ := hb b (List.mem_singleton_self b)
  have hwalk : walkSymbol e r.u.arena.length (rootOf r.u.queue) (r.unpacked pay o k) = _ :=
    walkSymbol_ok hin hpay hw hlen h
  exact congrArg (· >>= _) hwalk

variable (hout : ∀ k, k < e.cap → e.cfg.busOk (e.dst + k) = true)
include hout

/-- The bytes whose codes come next are decoded one after the other. -/
theorem decodeSymbols_append {n : Nat} : ∀ {out more o k}, TreeCodes r code out →
    (r.payload pay).drop k = out.flatMap code ++ more → o.length + out.length ≤ e.cap →
    decodeSymbols e (out.length + n) (r.unpacked pay o k) =
      decodeSymbols e n (r.unpacked pay (o ++ out) (k + (out.flatMap code).length))
  | [], more, o, k, _, _, _ => by simp
  | b :: out, more, o, k, hcodes, h, hroom => by
    rw [List.flatMap_cons, List.append_assoc] at h
    rw [List.length_cons] at hroom
    rw [List.length_cons, Nat.add_right_comm, decodeSymbols_succ hin hpay (hcodes.mono (by simp)) h,
      emit_ok ⟨by show o.length + 1 ≤ e.cap; omega, hout⟩, ok_bind]
    refine (decodeSymbols_append (o := o ++ [b]) (hcodes.mono (List.subset_cons_self b out))
      (drop_add_of_append h) (by simp; omega)).trans ?_
    rw [List.append_assoc, List.flatMap_cons, List.length_append, Nat.add_assoc]
    rfl

/-- The bytes whose codes the payload holds are decoded, whatever follows. -/
theorem decodeSymbols_ok {out : List Byte} {more : List Bool} (hcodes : TreeCodes r code out)
    (h : r.payload pay = out.flatMap code ++ more) (hroom : out.length ≤ e.cap) :
    decodeSymbols e out.length (r.unpacked pay [] 0) = .ok (r.unpacked pay out (out.flatMap code).length) := by
  have hall := decodeSymbols_append hin hpay hout (n := 0) (k := 0) (o := []) hcodes h (by simpa using hroom)
  rwa [Nat.add_zero, Nat.zero_add, List.nil_append] at hall

/-- The byte too many overflows once its last bit is read. -/
theorem decodeSymbols_full {n : Nat} {out : List Byte} {more : List Bool} (hcodes : TreeCodes r code out)
    (h : r.payload pay = out.flatMap code ++ more) (hlen : out.length = e.cap + 1) (hn : out.length ≤ n) :
    decodeSymbols e n (r.unpacked pay [] 0) =
      .error ⟨.outputOverflow, r.ip + ((out.flatMap code).length + 7) / 8⟩ := by
  obtain ⟨init, b, rfl⟩ : ∃ init b, out = init ++ [b] := by
    simpa [List.ne_nil_of_length_pos (l := out) (by omega)] using List.eq_nil_or_concat out
  rw [List.length_append, List.length_singleton] at hlen hn
  obtain ⟨m, rfl⟩ : ∃ m, n = init.length + (m + 1) := ⟨n - init.length - 1, by omega⟩
  rw [List.flatMap_append, List.flatMap_singleton] at h ⊢
  rw [List.append_assoc] at h
  rw [decodeSymbols_append hin hpay hout (hcodes.mono (List.subset_append_left _ _)) (k := 0) h
    (by simp; omega)]
  have hdrop := drop_add_of_append (i := 0) h
  rw [decodeSymbols_succ hin hpay (hcodes.mono (List.subset_append_right _ _)) hdrop,
    emit_full (by show e.cap ≤ ([] ++ init).length; simp; omega), List.length_append, Nat.zero_add]
  rfl

end

/-- Where a bit string ends inside the codes of some bytes, it ends inside the code of one of them. -/
theorem exists_cut_code {code : Byte → List Bool} : ∀ {out : List Byte} {s t : List Bool}, out.flatMap code = s ++ t →
    t ≠ [] → ∃ pre b post q t', out = pre ++ b :: post ∧ s = pre.flatMap code ++ q ∧ code b = q ++ t' ∧ t' ≠ []
  | [], s, t, h, ht => absurd (List.append_eq_nil_iff.mp h.symm).2 ht
  | b :: out, s, t, h, ht => by
    rw [List.flatMap_cons] at h
    have hcut : (∃ s', s = code b ++ s' ∧ out.flatMap code = s' ++ t) ∨ ∃ t', code b = s ++ t' ∧ t' ≠ [] := by
      obtain hs | ⟨t', hb, hrest⟩ := List.append_eq_append_iff.mp h
      · exact .inl hs
      · by_cases ht' : t' = []
        · exact .inl ⟨[], by simpa [ht'] using hb.symm, by simpa [ht'] using hrest.symm⟩
        · exact .inr ⟨t', hb, ht'⟩
    obtain ⟨s', rfl, hrest⟩ | ⟨t', hb, ht'⟩ := hcut
    · obtain ⟨pre, c, post, q, t', rfl, rfl, hc, ht'⟩ := exists_cut_code hrest ht
      exact ⟨b :: pre, c, post, q, t', rfl, by rw [List.flatMap_cons, List.append_assoc], hc, ht'⟩
    · exact ⟨[], b, out, s, t', rfl, rfl, hb, ht'⟩

/-- The symbol whose code the payload cuts short fails, when the symbols before it fit. -/
theorem decodeSymbols_end {e : Env} (hbus : e.BusFine) {r : Run} {pay : List Byte} (hpay : e.bytes.drop r.ip = pay)
    (hip : r.ip ≤ e.len) {code : Byte → List Bool} {n : Nat} {out : List Byte} {t : List Bool}
    (hcodes : TreeCodes r code out) (h : out.flatMap code = r.payload pay ++ t) (ht : t ≠ []) (hn : out.length ≤ n)
    (hroom : ∀ k, k ≤ out.length → ((out.take k).flatMap code).length ≤ (r.payload pay).length → k ≤ e.cap) :
    decodeSymbols e n (r.unpacked pay [] 0) =
      .error ⟨.truncatedStream, r.ip + ((r.payload pay).length + 7) / 8⟩ := by
  obtain ⟨pre, b, post, q, t', rfl, hpre, hb, ht'⟩ := exists_cut_code h ht
  simp only [List.length_append, List.length_cons] at hn hroom
  obtain ⟨m, rfl⟩ : ∃ m, n = pre.length + (m + 1) := ⟨n - pre.length - 1, by omega⟩
  have hfit : pre.length ≤ e.cap := hroom _ (by omega) (by rw [List.take_left, hpre]; simp)
  have hpos : (pre.flatMap code).length ≤ (r.payload pay).length := by rw [hpre]; simp
  have hdrop := drop_add_of_append (i := 0) hpre
  rw [Nat.zero_add] at hdrop
  obtain ⟨hlen, w, hw⟩ := hcodes b (by simp)
  rw [hb] at hlen hw
  rw [decodeSymbols_append hbus.1 hpay hbus.2 (hcodes.mono (List.subset_append_left _ _)) (k := 0) hpre
    (by simpa using hfit), Nat.zero_add]
  have hwalk : walkSymbol e r.u.arena.length (rootOf r.u.queue) (r.unpacked pay ([] ++ pre) _) = _ :=
    walkSymbol_end hbus.1 hpay hip hw ht' hlen hpos hdrop
  exact congrArg (· >>= _) hwalk

end Sys2Proof.Machine

/-! PROOFS. HUFF_DEC of a header of two or more symbols: it rebuilds the tree of the frequencies and decodes the payload by
their codes (42_huffman_decoder R241 to R247). -/

namespace Sys2Proof.Machine

/-! ### The pairs of a frequency table -/

/-- The pairs WRITE_HEADER writes for a frequency table (41_huffman_encoder R211). -/
def headerPairs (freq : List Nat) : List (Byte × Nat) := (symbols freq).map fun b => (b, freqOf freq b)

@[simp] theorem headerPairs_fst (freq : List Nat) : (headerPairs freq).map Prod.fst = symbols freq := by
  simp [headerPairs, Function.comp_def]

@[simp] theorem headerPairs_length (freq : List Nat) : (headerPairs freq).length = (symbols freq).length :=
  List.length_map _

theorem huffHeader_eq_pairs (freq : List Nat) (total : Nat) : huffHeader freq (symbols freq) total =
    leBytes 8 (headerPairs freq).length ++ pairBytes (headerPairs freq) ++ leBytes 8 total := by
  rw [headerPairs_length, huffHeader, pairBytes, headerPairs, List.flatMap_map]

theorem freqOf_lt {freq : List Nat} {m : Nat} (hm : 0 < m) (h : ∀ f ∈ freq, f < m) (b : Byte) : freqOf freq b < m := by
  rw [freqOf, List.getD_eq_getElem?_getD]
  match hb : freq[b.toNat]? with
  | none => exact hm
  | some f => exact h f (List.mem_of_getElem? hb)

/-- The symbols ascend (41_huffman_encoder R201). -/
theorem symbols_ascend (freq : List Nat) : (symbols freq).Pairwise fun b c => b.toNat < c.toNat := by
  have hall : allBytes.Pairwise fun b c => b.toNat < c.toNat := by
    refine List.pairwise_map.mpr (List.pairwise_lt_range.imp_of_mem fun ha hb hlt => ?_)
    rw [List.mem_range] at ha hb
    rwa [BitVec.toNat_ofNat, BitVec.toNat_ofNat, Nat.mod_eq_of_lt ha, Nat.mod_eq_of_lt hb]
  exact hall.filter _

/-- HUFF_DEC accepts the pairs HUFF_ENC writes (30_encoding R121). -/
theorem headerPairs_fine {freq : List Nat} (h : ∀ f ∈ freq, f < 2 ^ 32) : PairsFine (headerPairs freq) := by
  refine ⟨List.Pairwise.isChain (List.pairwise_map.mpr (symbols_ascend freq)), fun p hp => ?_⟩
  obtain ⟨b, hb, rfl⟩ := List.mem_map.mp hp
  exact ⟨mem_symbols.mp hb, freqOf_lt (by decide) h b⟩

/-- Reading pairs that hold `freq`'s counts makes the table agree with `freq` on their bytes. -/
theorem freqOf_setFreqs {freq : List Nat} {b : Byte} : ∀ {syms : List Byte} {fr : List Nat}, fr.length = 256 →
    b ∈ syms ∨ freqOf fr b = freqOf freq b →
    freqOf (setFreqs (syms.map fun c => (c, freqOf freq c)) fr) b = freqOf freq b
  | [], _, _, h => h.resolve_left List.not_mem_nil
  | c :: syms, fr, hl, h => by
    refine freqOf_setFreqs (syms := syms) (fr := fr.set c.toNat (freqOf freq c)) (by simpa) ?_
    rw [freqOf_set hl]
    by_cases hbc : b = c
    · exact .inr (by rw [if_pos hbc, hbc])
    · rw [if_neg hbc]
      exact h.imp_left fun h => (List.mem_cons.mp h).resolve_left hbc

/-- N is the sum of the whole table: no other byte value counts. -/
theorem declaredLength_symbols {freq : List Nat} (hl : freq.length = 256) :
    declaredLength freq (symbols freq) = freq.sum := by
  have htable : allBytes.map (freqOf freq) = freq := by
    refine List.ext_getElem (by simp [allBytes, hl]) fun k hk hk' => ?_
    have hlt : k < 256 := by omega
    simp [allBytes, freqOf, Nat.mod_eq_of_lt hlt, hk']
  have hskip : ∀ bs : List Byte,
      ((bs.filter fun b => decide (0 < freqOf freq b)).map (freqOf freq)).sum = (bs.map (freqOf freq)).sum := by
    intro bs
    induction bs with
    | nil => rfl
    | cons b bs ih =>
      by_cases hb : 0 < freqOf freq b
      · simp [hb, ih]
      · simpa [hb] using ih.trans (by omega)
  rw [declaredLength, symbols, hskip, htable]

/-! ### The tree of the header (42_huffman_decoder R243) -/

/-- The run after the header of a frequency table and REBUILD_TREE. -/
def Run.treeRead (r : Run) (freq : List Nat) (total : Nat) : Run :=
  buildTreeRun (symbols freq) (r.headerRead (headerPairs freq) total)

/-- A code is shorter than the symbols are many (41_huffman_encoder R205). -/
theorem codeOf_length_lt {freq : List Nat} {b : Byte} (hb : b ∈ symbols freq) :
    (codeOf (codesFor freq) b).length < (symbols freq).length := by
  have hpos : 1 ≤ (symbols freq).length := List.length_pos_of_mem hb
  have := length_le_of_followCode (buildTree_built hpos).1.childrenBelow (followCode_codeOf hpos hb)
  omega

theorem treeRead_ip (r : Run) (freq : List Nat) (total : Nat) :
    (r.treeRead freq total).ip = 16 + 5 * (symbols freq).length := by
  rw [← headerPairs_length]
  rfl

theorem huffDecBody_of_tree {e : Env} {syms : List Byte} {r : Run} (h : 2 ≤ syms.length) :
    huffDecBody e syms r = decodeSymbols e (declaredLength r.u.freq syms)
      { buildTreeRun syms r with u := { (buildTreeRun syms r).u with pos := 0 } } := by
  match syms, h with
  | _ :: _ :: _, _ => rfl

section
variable {r : Run} (hl : r.u.freq.length = 256) {freq : List Nat} {total : Nat}
include hl

theorem freqOf_headerRead {b : Byte} (hb : b ∈ symbols freq) :
    freqOf (r.headerRead (headerPairs freq) total).u.freq b = freqOf freq b := freqOf_setFreqs hl (.inl hb)

/-- The decoder's tree is the encoder's (42_huffman_decoder R243). -/
theorem treeRead_tree : (r.treeRead freq total).u.arena = (buildTree (symbols freq) freq).1 ∧
    (r.treeRead freq total).u.queue = (buildTree (symbols freq) freq).2 := by
  have htree := buildTree_congr fun b => freqOf_headerRead hl (freq := freq) (total := total) (b := b)
  exact ⟨congrArg Prod.fst htree, congrArg Prod.snd htree⟩

theorem treeRead_codes {out : List Byte} (h : out ⊆ symbols freq) :
    TreeCodes (r.treeRead freq total) (codeOf (codesFor freq)) out := by
  intro b hb
  have hb := h hb
  have hpos : 1 ≤ (symbols freq).length := List.length_pos_of_mem hb
  have hlen := codeOf_length_lt hb
  obtain ⟨harena, hqueue⟩ := treeRead_tree hl (freq := freq) (total := total)
  rw [harena, hqueue, buildTree_length hpos, rootOf_buildTree hpos]
  exact ⟨by omega, _, followCode_codeOf hpos hb⟩

theorem huffDecUnit_of_tree {e : Env} (hin : ∀ i, i < e.len → e.cfg.busOk (e.src + i) = true) (hr : r.out = [])
    {pay : List Byte} (hfl : freq.length = 256) (hf : ∀ f ∈ freq, f < 2 ^ 32) (h2 : 2 ≤ (symbols freq).length)
    (ht : total < 2 ^ 64) (h : e.bytes = huffHeader freq (symbols freq) total ++ pay) :
    huffDecUnit e r = decodeSymbols e freq.sum ((r.treeRead freq total).unpacked pay [] 0) := by
  have hN : declaredLength (r.headerRead (headerPairs freq) total).u.freq (symbols freq) = freq.sum :=
    (declaredLength_congr fun b hb => freqOf_headerRead hl hb).trans (declaredLength_symbols hfl)
  have hd : (headerPairs freq).length ≤ 256 := by simpa using symbols_length_le freq
  rw [huffHeader_eq_pairs] at h
  rw [huffDecUnit_of_header hin hd (headerPairs_fine hf) ht h, headerPairs_fst, huffDecBody_of_tree h2, hN, ← hr]
  rfl

end

/-- The payload stands behind the header. -/
theorem drop_treeRead {e : Env} {r : Run} {freq : List Nat} {total : Nat} {pay : List Byte}
    (h : e.bytes = huffHeader freq (symbols freq) total ++ pay) :
    (r.treeRead freq total).ip ≤ e.len ∧ e.bytes.drop (r.treeRead freq total).ip = pay := by
  have hlen := congrArg List.length h
  rw [bytes_length, List.length_append, huffHeader_length] at hlen
  rw [treeRead_ip, h, List.drop_left' (huffHeader_length _ _ _)]
  exact ⟨by omega, rfl⟩

theorem treeRead_payload {r : Run} {freq : List Nat} {total : Nat} {pay : List Byte} :
    (r.treeRead freq total).payload pay = (unpackBits pay).take total := rfl

/-- Settles O58: the payload's bits begin with the codes of `out`, so the symbol loop yields `out` until it is full. -/
theorem huffDecDecodes : Obligations.HuffDecDecodes := by
  unfold Obligations.HuffDecDecodes
  intro s freq total out pay hs hbus hw hfl hf h2 hout hcodes ht hpre h
  have hl := begin_freq_length s
  have hunit := huffDecUnit_of_tree hl hbus.1 rfl hfl hf h2 ht h
  have hpay := (drop_treeRead (r := s.begin) h).2
  have htree := treeRead_codes hl (total := total) fun b hb => mem_symbols.mpr (hout b hb)
  obtain ⟨more, hmore⟩ := List.prefix_take_iff.mpr ⟨hpre, hcodes⟩
  have hpayload := (treeRead_payload (r := s.begin) (freq := freq)).trans hmore.symm
  refine ⟨fun hN hfit => ?_, fun hN hover => exec_failed rfl hs ?_⟩
  · rw [← hN, decodeSymbols_ok hbus.1 hpay hbus.2 htree hpayload hfit] at hunit
    exact exec_succeeded rfl hs hw ⟨_, hunit, rfl⟩ hfit
  · rw [hunit, decodeSymbols_full hbus.1 hpay hbus.2 htree hpayload hover hN, treeRead_ip]

/-- Settles O59: the payload's bits are a beginning of the codes of `out`, so the walk of a symbol is cut short. -/
theorem huffDecTruncated : Obligations.HuffDecTruncated := by
  unfold Obligations.HuffDecTruncated
  intro s freq total out pay hs hbus hfl hf h2 hN hout ht hshort hpre h hroom
  have hl := begin_freq_length s
  obtain ⟨hip, hpay⟩ := drop_treeRead (r := s.begin) h
  have htree := treeRead_codes hl (total := total) fun b hb => mem_symbols.mpr (hout b hb)
  have hlen : ((s.begin.treeRead freq total).payload pay).length = min total (8 * pay.length) := payload_length _ _
  have hpayload : (s.begin.treeRead freq total).payload pay =
      (out.flatMap (codeOf (codesFor freq))).take (min total (8 * pay.length)) := by
    rw [List.prefix_iff_eq_take.mp hpre, List.length_take_of_le hshort.le, treeRead_payload, List.take_eq_take_iff]
    simp
  have hcut : out.flatMap (codeOf (codesFor freq)) = (s.begin.treeRead freq total).payload pay ++
      (out.flatMap (codeOf (codesFor freq))).drop (min total (8 * pay.length)) := by
    rw [hpayload, List.take_append_drop]
  have hrest : (out.flatMap (codeOf (codesFor freq))).drop (min total (8 * pay.length)) ≠ [] :=
    List.ne_nil_of_length_pos (by rw [List.length_drop]; omega)
  refine exec_failed rfl hs ?_
  rw [huffDecUnit_of_tree hl hbus.1 rfl hfl hf h2 ht h,
    decodeSymbols_end hbus hpay hip htree hcut hrest hN (by rw [hlen]; exact hroom), treeRead_ip, hlen]
  have hceil : (min total (8 * pay.length) + 7) / 8 = min ((total + 7) / 8) pay.length := by omega
  rw [hceil]

end Sys2Proof.Machine

/-! PROOFS. HUFF_DEC of HUFF_ENC's output: the packed bits unpack to themselves, and the artifact's header is one HUFF_DEC
accepts (42_huffman_decoder R250). -/

namespace Sys2Proof.Machine

/-! ### Unpacking packed bits (30_encoding R124) -/

/-- Bit `k` of a bit string stands at position `length - 1 - k` of its number. -/
theorem testBit_bitsValue {bits : List Bool} : ∀ {k : Nat} (hk : k < bits.length),
    (bitsValue bits).testBit (bits.length - 1 - k) = bits[k] := by
  induction bits using List.reverseRecOn with
  | nil => exact fun hk => absurd hk (Nat.not_lt_zero _)
  | append_singleton bits x ih =>
    intro k hk
    rw [List.length_append, List.length_singleton] at hk
    have hdiv : (bitsValue bits * 2 + x.toNat) / 2 = bitsValue bits := by
      have := x.toNat_lt
      omega
    simp only [bitsValue_concat, List.length_append, List.length_singleton, Nat.add_sub_cancel]
    obtain hlt | rfl := Nat.lt_or_eq_of_le (Nat.le_of_lt_succ hk)
    · rw [show bits.length - k = bits.length - 1 - k + 1 by omega, Nat.testBit_succ, hdiv, ih hlt,
        List.getElem_append_left hlt]
    · rw [Nat.sub_self, Nat.testBit_zero, List.getElem_append_right le_rfl]
      cases x <;> simp

theorem paddedByte_getLsbD {bits : List Bool} (h : bits.length ≤ 8) {k : Nat} (hk : k < bits.length) :
    (paddedByte bits).getLsbD (7 - k) = bits[k] := by
  have hshift : 7 - k - (8 - bits.length) = bits.length - 1 - k := by omega
  have hge : 8 - bits.length ≤ 7 - k := by omega
  have hlt : 7 - k < 8 := by omega
  rw [paddedByte, BitVec.getLsbD_ofNat, Nat.testBit_mul_two_pow, hshift, testBit_bitsValue hk]
  simp [hge, hlt]

theorem packBits_getElem? : ∀ {n j : Nat} {bits : List Bool}, j < n → 8 * j < bits.length →
    (packBits n bits)[j]? = some (paddedByte ((bits.drop (8 * j)).take 8))
  | n + 1, 0, bits, _, h => by
    rw [packBits_cons (List.ne_nil_of_length_pos h)]
    rfl
  | n + 1, j + 1, bits, hj, h => by
    rw [packBits_cons (List.ne_nil_of_length_pos (by omega)), List.getElem?_cons_succ,
      packBits_getElem? (by omega) (by rw [List.length_drop]; omega), List.drop_drop, Nat.mul_succ, Nat.add_comm 8]

theorem prefix_unpackBits_packBits {n : Nat} {bits : List Bool} (h : bits.length ≤ 8 * n) :
    bits <+: unpackBits (packBits n bits) := by
  refine List.prefix_iff_getElem?.mpr fun k hk => ?_
  have hbyte : k % 8 < ((bits.drop (8 * (k / 8))).take 8).length := by
    rw [List.length_take, List.length_drop]
    omega
  have hk8 : 8 * (k / 8) + k % 8 = k := Nat.div_add_mod k 8
  rw [unpackBits_getElem?, packBits_getElem? (by omega) (by omega), Option.map_some,
    paddedByte_getLsbD (List.length_take_le _ _) hbyte]
  simp [hk8]

/-! ### The output of HUFF_ENC as the input of HUFF_DEC -/

/-- A command whose input is what another one wrote. -/
theorem bytes_of_succeeded {s t s' : State} {out : List Byte} (h : Succeeded s t out) (hmem : s'.mem = t.mem)
    (hsrc : s'.latch.src = s.latch.dst) (hlen : s'.latch.len = t.outLen) : s'.env.bytes = out := by
  have hlen : s'.env.len = out.length := (congrArg BitVec.toNat hlen).trans h.outLen
  refine List.ext_getElem (by rw [bytes_length, hlen]) fun k hk hk' => ?_
  have hbyte : s'.env.byte k = Memory.read s'.mem (s'.latch.src.toNat + k) := rfl
  simpa [Env.bytes, hbyte, hmem, hsrc] using h.bytes k hk'

/-- A command keeps memory in its canonical form. -/
theorem exec_mem_wf {i : Instr} {s t : State} (hi : i.port = .cmd) (h : exec i s = .next t)
    (hw : Memory.wf s.mem = true) : Memory.wf t.mem = true := by
  obtain ⟨u, hu⟩ := unitOf_of_port hi
  rw [exec_of_unit hu] at h
  obtain ⟨-, rfl⟩ | ⟨-, r, -, rfl⟩ | ⟨-, -, r, -, rfl⟩ | ⟨-, -, r, -, rfl⟩ := runCommand_next h
  · exact hw
  · exact hw
  · exact Memory.wf_writeBytes _ _ hw
  · exact Memory.wf_fill _ _ _ hw

/-- HUFF_ENC that ends without error has written its input's artifact. -/
theorem huffEnc_succeeded {s t : State} (hs : s.Running) (hbus : s.env.BusFine) (hw : Memory.wf s.mem = true)
    (h : exec .huffEnc s = .next t) (herr : t.error = false) : Succeeded s t (huffArtifact s.env.bytes) := by
  obtain ⟨-, -, hfits, hover⟩ := huffEncWritesArtifact s hs hbus hw
  obtain hfull | hfit := Nat.lt_or_ge s.latch.cap.toNat (huffArtifact s.env.bytes).length
  · obtain ⟨t', info, ht', hfail, -⟩ := hover hfull
    cases h.symm.trans ht'
    cases herr.symm.trans hfail.code.1
  · obtain ⟨t', ht', hok⟩ := hfits hfit
    cases h.symm.trans ht'
    exact hok

/-! ### The artifact's fields fit (41_huffman_encoder R205, 42_huffman_decoder R242) -/

theorem countsOf_sum (bs : List Byte) : (countsOf bs).sum = bs.length := by
  have hperm : (symbols (countsOf bs)).Perm bs.dedup :=
    (List.perm_ext_iff_of_nodup (symbols_nodup _) bs.nodup_dedup).mpr fun b => by
      rw [mem_symbols_countsOf, List.mem_dedup]
  rw [← declaredLength_symbols (countsOf_length bs), declaredLength, (hperm.map _).sum_eq, funext (freqOf_countsOf bs)]
  exact List.sum_map_count_dedup_eq_length bs

theorem countsOf_lt {bs : List Byte} (h : bs.length < 2 ^ 32) : ∀ f ∈ countsOf bs, f < 2 ^ 32 := by
  intro f hf
  obtain ⟨b, -, rfl⟩ := List.mem_map.mp hf
  exact List.count_le_length.trans_lt h

theorem totalBits_lt {bs : List Byte} (h : bs.length < 2 ^ 32) :
    (bs.flatMap (codeOf (codesFor (countsOf bs)))).length < 2 ^ 64 := by
  have hcode : ∀ n ∈ bs.map fun b => (codeOf (codesFor (countsOf bs)) b).length, n ≤ 256 := by
    intro n hn
    obtain ⟨b, hb, rfl⟩ := List.mem_map.mp hn
    have := codeOf_length_lt (mem_symbols_countsOf.mpr hb)
    have := symbols_length_le (countsOf bs)
    omega
  have hsum := List.sum_le_card_nsmul _ 256 hcode
  rw [List.length_map, smul_eq_mul] at hsum
  rw [List.length_flatMap]
  omega

/-- The only symbol makes up the whole input. -/
theorem eq_replicate_of_symbols {bs : List Byte} {b : Byte} (h : symbols (countsOf bs) = [b]) :
    bs = List.replicate bs.length b :=
  List.eq_replicate_iff.mpr ⟨rfl, fun c hc => by simpa [h] using mem_symbols_countsOf.mpr hc⟩

/-- HUFF_DEC of an artifact gives its bytes back, by the number of symbols. -/
theorem huffDec_huffArtifact {s : State} {bs : List Byte} (hs : s.Running) (hbus : s.env.BusFine)
    (hw : Memory.wf s.mem = true) (hlen : bs.length < 2 ^ 32) (h : s.env.bytes = huffArtifact bs)
    (hcap : bs.length ≤ s.latch.cap.toNat) : ∃ t, exec .huffDec s = .next t ∧ Succeeded s t bs := by
  have ht := totalBits_lt hlen
  match hsyms : symbols (countsOf bs) with
  | [] =>
    obtain rfl := bytes_eq_nil hsyms
    exact (huffDecDegenerate s 0 0 0 [] hs hbus hw (by decide)).1 (h.trans huffArtifact_nil)
  | [b] =>
    have hbs := eq_replicate_of_symbols hsyms
    have hpos : 0 < bs.length := List.length_pos_of_mem (mem_symbols_countsOf.mp (hsyms ▸ List.mem_singleton_self b))
    have hcount : bs.count b = bs.length := by rw [hbs]; simp
    obtain ⟨hfits, -⟩ := (huffDecDegenerate s _ bs.length b _ hs hbus hw ht).2 hpos hlen
      (h.trans (by simp [huffArtifact, huffHeader, hsyms, hcount]; rfl))
    rw [hbs]
    simpa using hfits hcap
  | b :: c :: syms =>
    have h2 : 2 ≤ (symbols (countsOf bs)).length := by rw [hsyms]; simp
    obtain ⟨hfits, -⟩ := huffDecDecodes s (countsOf bs) _ bs _ hs hbus hw (countsOf_length bs) (countsOf_lt hlen) h2
      (fun b hb => mem_symbols.mp (mem_symbols_countsOf.mpr hb)) le_rfl ht (prefix_unpackBits_packBits (by omega)) h
    exact hfits (countsOf_sum bs).symm hcap

/-- Settles O60: what HUFF_ENC leaves in memory is the artifact, whose header HUFF_DEC accepts and whose payload holds the
codes of the input. -/
theorem huffRoundTrip : Obligations.HuffRoundTrip := by
  unfold Obligations.HuffRoundTrip
  intro s hs hbus hw
  refine ⟨fun hfit => ?_, fun t s' ht herr hs' hbus' hmem hsrc hlen hcap => ?_⟩
  · obtain ⟨-, -, hfits, -⟩ := huffEncWritesArtifact s hs hbus hw
    obtain ⟨t, ht, hok⟩ := hfits hfit
    exact ⟨t, ht, hok.noError.1⟩
  · have hbytes := bytes_of_succeeded (huffEnc_succeeded hs hbus hw ht herr) hmem hsrc hlen
    have hw' : Memory.wf s'.mem = true := hmem ▸ exec_mem_wf rfl ht hw
    have hn : s.env.bytes.length = s.latch.len.toNat := bytes_length s.env
    exact huffDec_huffArtifact hs' hbus' hw' (hn ▸ s.latch.len.isLt) hbytes (hn ▸ hcap)

end Sys2Proof.Machine

/-! PROOFS. LZ77_ENC: FIND_MATCH returns the longest, nearest match, each round writes one token record, and the records
stand for the input; the stored path; and where each overflows (43_lz77_encoder R280 to R284, 60_exceptions R408). -/

namespace Sys2Proof.Machine

/-! ### FIND_MATCH (43_lz77_encoder R280, R281) -/

theorem matchAt_zero (e : Env) (cur off : Nat) : e.MatchAt cur off 0 := fun _ hk => absurd hk (Nat.not_lt_zero _)

theorem matchAt_succ {e : Env} {cur off n : Nat} (h : e.MatchAt cur off n)
    (hn : e.byte (cur - off + n) = e.byte (cur + n)) : e.MatchAt cur off (n + 1) := by
  intro k hk
  obtain hlt | rfl := Nat.lt_succ_iff_lt_or_eq.mp hk
  · exact h k hlt
  · exact hn

/-- A match at the cursor leaves one byte less of it at the next position. -/
theorem matchAt_tail {e : Env} {cur off n : Nat} (hoff : off ≤ cur) (h : e.MatchAt cur off (n + 1)) :
    e.MatchAt (cur + 1) off n := by
  intro k hk
  have hk1 := h (k + 1) (by omega)
  rwa [show cur - off + (k + 1) = cur + 1 - off + k by omega, show cur + (k + 1) = cur + 1 + k by omega] at hk1

/-- No match FIND_MATCH may take reaches past the input: a byte is left for nextLiteral. -/
theorem maxMatch_inside {e : Env} {cur : Nat} (h : cur < e.len) : cur + e.maxMatch cur < e.len := by
  unfold Env.maxMatch
  omega

/-- `n` is how far the bytes `off` back match, up to the longest match FIND_MATCH may take. -/
structure Env.MatchLength (e : Env) (cur off n : Nat) : Prop where
  le_max  : n ≤ e.maxMatch cur
  here    : e.MatchAt cur off n
  longest : ∀ m, m ≤ e.maxMatch cur → e.MatchAt cur off m → m ≤ n

/-- `best` is the longest match among the offsets up to `top`, the nearest among equals, and (0, 0) without any. -/
structure Env.BestUpTo (e : Env) (cur top : Nat) (best : Nat × Nat) : Prop where
  none    : best.2 = 0 → best.1 = 0
  found   : 0 < best.2 → 1 ≤ best.1 ∧ best.1 ≤ top ∧ best.2 ≤ e.maxMatch cur ∧ e.MatchAt cur best.1 best.2
  longest : ∀ o m, 1 ≤ o → o ≤ top → m ≤ e.maxMatch cur → e.MatchAt cur o m → m ≤ best.2
  nearest : ∀ o, 1 ≤ o → o < best.1 → ¬e.MatchAt cur o best.2

theorem bestUpTo_zero (e : Env) (cur : Nat) : e.BestUpTo cur 0 (0, 0) where
  none _ := rfl
  found h := absurd h (Nat.lt_irrefl 0)
  longest o _ ho ho' := by omega
  nearest _ _ h := absurd h (Nat.not_lt_zero _)

/-- The next offset replaces the best match only when its match is strictly longer. -/
theorem Env.BestUpTo.succ {e : Env} {cur top n : Nat} {best : Nat × Nat} (h : e.BestUpTo cur top best)
    (hn : e.MatchLength cur (top + 1) n) :
    e.BestUpTo cur (top + 1) (if best.2 < n then (top + 1, n) else best) := by
  have hlongest : ∀ o m, 1 ≤ o → o ≤ top + 1 → m ≤ e.maxMatch cur → e.MatchAt cur o m → m ≤ max best.2 n := by
    intro o m ho hot hm hmatch
    obtain hle | rfl := Nat.le_succ_iff.mp hot
    · exact (h.longest o m ho hle hm hmatch).trans (le_max_left _ _)
    · exact (hn.longest m hm hmatch).trans (le_max_right _ _)
  split
  · next hlt =>
    exact {
      none := fun h0 => absurd h0 (Nat.ne_zero_of_lt hlt)
      found := fun _ => ⟨Nat.le_add_left 1 top, le_rfl, hn.le_max, hn.here⟩
      longest := by simpa [max_eq_right_of_lt hlt] using hlongest
      nearest := fun o ho hot hmatch =>
        absurd (h.longest o n ho (Nat.lt_succ_iff.mp hot) hn.le_max hmatch) (not_le.mpr hlt) }
  · next hge =>
    refine { none := h.none, nearest := h.nearest, found := fun h0 => ?_, longest := ?_ }
    · obtain ⟨hoff, htop, hmatch⟩ := h.found h0
      exact ⟨hoff, Nat.le_succ_of_le htop, hmatch⟩
    · simpa [max_eq_left (not_lt.mp hge)] using hlongest

/-- The best match among the offsets of the window is the best match. -/
theorem Env.BestUpTo.bestMatch {e : Env} {cur : Nat} {best : Nat × Nat}
    (h : e.BestUpTo cur (min cur e.cfg.windowSize) best) : e.BestMatch cur best.1 best.2 :=
  ⟨h.none, h.found, h.longest, h.nearest⟩

theorem Env.BestMatch.length_le {e : Env} {cur off off' n n' : Nat} (h : e.BestMatch cur off n)
    (h' : e.BestMatch cur off' n') : n ≤ n' := by
  obtain rfl | hpos := Nat.eq_zero_or_pos n
  · exact Nat.zero_le _
  · obtain ⟨hoff, hwin, hmax, hmatch⟩ := h.found hpos
    exact h'.longest off n hoff hwin hmax hmatch

theorem Env.BestMatch.offset_le {e : Env} {cur off off' n : Nat} (h : e.BestMatch cur off n)
    (h' : e.BestMatch cur off' n) : off ≤ off' := by
  obtain hn | hpos := Nat.eq_zero_or_pos n
  · exact (h.none hn).le.trans (Nat.zero_le _)
  · obtain ⟨hoff', -, -, hmatch'⟩ := h'.found hpos
    exact not_lt.mp fun hlt => h.nearest off' hoff' hlt hmatch'

/-- At each cursor there is one best match. -/
theorem Env.BestMatch.unique {e : Env} {cur off off' n n' : Nat} (h : e.BestMatch cur off n)
    (h' : e.BestMatch cur off' n') : off = off' ∧ n = n' := by
  obtain rfl := Nat.le_antisymm (h.length_le h') (h'.length_le h)
  exact ⟨Nat.le_antisymm (h.offset_le h') (h'.offset_le h), rfl⟩

section
variable {e : Env} (hin : ∀ i, i < e.len → e.cfg.busOk (e.src + i) = true) {cur : Nat} (hc : cur < e.len)
include hin hc

theorem matchLengthFrom_ok {off : Nat} : ∀ {n len : Nat}, len + n = e.maxMatch cur → e.MatchAt cur off len →
    ∃ k, matchLengthFrom e cur off n len = .ok k ∧ e.MatchLength cur off k
  | 0, len, hl, h => ⟨len, rfl, hl.le, h, fun _ hm _ => hm.trans hl.ge⟩
  | n + 1, len, hl, h => by
    have hmax := maxMatch_inside hc
    rw [matchLengthFrom, input_ok (hin _ (by omega)), input_ok (hin _ (by omega)), ok_bind, ok_bind]
    split
    · next heq => exact matchLengthFrom_ok (by omega) (matchAt_succ h heq)
    · next hne =>
      exact ⟨len, rfl, by omega, h, fun m _ hm => not_lt.mp fun hlt => hne (hm len hlt)⟩

theorem findMatchFrom_ok : ∀ {n top : Nat} {best : Nat × Nat}, e.BestUpTo cur top best →
    ∃ best', findMatchFrom e cur (e.maxMatch cur) n (top + 1) best = .ok best' ∧ e.BestUpTo cur (top + n) best'
  | 0, _, best, h => ⟨best, rfl, h⟩
  | n + 1, top, best, h => by
    obtain ⟨k, hk, hlen⟩ := matchLengthFrom_ok hin hc (Nat.zero_add _) (matchAt_zero e cur (top + 1))
    rw [findMatchFrom, hk, ok_bind, Nat.add_comm n 1, ← Nat.add_assoc]
    exact findMatchFrom_ok (h.succ hlen)

theorem findMatch_finds : ∃ off n, findMatch e cur = .ok (off, n) ∧ e.BestMatch cur off n := by
  obtain ⟨⟨off, n⟩, hfind, hbest⟩ := findMatchFrom_ok hin hc (n := min cur e.cfg.windowSize) (bestUpTo_zero e cur)
  rw [Nat.zero_add] at hbest
  exact ⟨off, n, hfind, hbest.bestMatch⟩

/-- FIND_MATCH returns the best match. -/
theorem findMatch_ok {off n : Nat} (h : e.BestMatch cur off n) : findMatch e cur = .ok (off, n) := by
  obtain ⟨off', n', hfind, h'⟩ := findMatch_finds hin hc
  obtain ⟨rfl, rfl⟩ := h.unique h'
  exact hfind

end

/-! ### Token records (30_encoding R127, R128, 43_lz77_encoder R282) -/

/-- `(off, n)` is what the token at the cursor holds: the best match when it is long enough, (0, 0) of a literal token. -/
inductive Env.TokenAt (e : Env) (cur : Nat) : Nat → Nat → Prop where
  | matched (off n : Nat) : e.BestMatch cur off n → e.cfg.minMatchLen ≤ n → Env.TokenAt e cur off n
  | literal (off n : Nat) : e.BestMatch cur off n → n < e.cfg.minMatchLen → Env.TokenAt e cur 0 0

/-- The record of the token `(off, n)` at the cursor. -/
def Env.record (e : Env) (cur off n : Nat) : List Byte := leBytes 2 off ++ leBytes 2 n ++ [e.byte (cur + n)]

@[simp] theorem record_length (e : Env) (cur off n : Nat) : (e.record cur off n).length = 5 := by simp [Env.record]

/-- A token without a match refers nowhere; a match is in the window and leaves a byte for nextLiteral. -/
theorem Env.TokenAt.bounds {e : Env} {cur off n : Nat} (h : e.TokenAt cur off n) :
    (off = 0 ∧ n = 0) ∨ (1 ≤ off ∧ off ≤ min cur e.cfg.windowSize ∧ n ≤ e.maxMatch cur ∧ e.MatchAt cur off n) := by
  cases h with
  | literal => exact .inl ⟨rfl, rfl⟩
  | matched _ _ hbest =>
    obtain hn | hpos := Nat.eq_zero_or_pos n
    · exact .inl ⟨hbest.none hn, hn⟩
    · exact .inr (hbest.found hpos)

theorem Env.TokenAt.inside {e : Env} {cur off n : Nat} (h : e.TokenAt cur off n) (hc : cur < e.len) :
    cur + n < e.len := by
  have hmax := maxMatch_inside hc
  obtain ⟨-, rfl⟩ | ⟨-, -, hn, -⟩ := h.bounds <;> omega

theorem exists_tokenAt {e : Env} (hin : ∀ i, i < e.len → e.cfg.busOk (e.src + i) = true) {cur : Nat}
    (hc : cur < e.len) : ∃ off n, e.TokenAt cur off n := by
  obtain ⟨off, n, -, hbest⟩ := findMatch_finds hin hc
  by_cases hn : e.cfg.minMatchLen ≤ n
  · exact ⟨off, n, .matched off n hbest hn⟩
  · exact ⟨0, 0, .literal off n hbest (not_le.mp hn)⟩

/-- The records from a cursor inside the input on: the one of its token, then those from behind the token on. -/
theorem lzEncoded_cons_iff {e : Env} {cur c : Nat} {tok : List Byte} {recs : List (Nat × List Byte)} :
    LzEncoded e cur ((c, tok) :: recs) ↔ c = cur ∧ cur < e.len ∧
      ∃ off n, e.TokenAt cur off n ∧ tok = e.record cur off n ∧ LzEncoded e (cur + n + 1) recs := by
  constructor
  · intro h
    cases h with
    | matched _ off n hc hbest hn hrecs => exact ⟨rfl, hc, off, n, .matched off n hbest hn, rfl, hrecs⟩
    | literal _ off n hc hbest hn hrecs => exact ⟨rfl, hc, 0, 0, .literal off n hbest hn, rfl, hrecs⟩
  · rintro ⟨rfl, hc, off, n, htok, rfl, hrecs⟩
    cases htok with
    | matched _ _ hbest hn => exact .matched c off n hc hbest hn hrecs
    | literal off n hbest hn => exact .literal c off n hc hbest hn hrecs

theorem lzEncoded_nil {e : Env} {cur : Nat} (h : LzEncoded e cur []) : cur = e.len := by
  cases h
  rfl

/-- The token loop can be run from every cursor to the end of the input. -/
theorem exists_lzEncoded {e : Env} (hin : ∀ i, i < e.len → e.cfg.busOk (e.src + i) = true) (cur : Nat)
    (hc : cur ≤ e.len) : ∃ recs, LzEncoded e cur recs := by
  obtain rfl | hlt := Nat.eq_or_lt_of_le hc
  · exact ⟨[], .done⟩
  · obtain ⟨off, n, htok⟩ := exists_tokenAt hin hlt
    obtain ⟨recs, hrecs⟩ := exists_lzEncoded hin (cur + n + 1) (htok.inside hlt)
    exact ⟨_, lzEncoded_cons_iff.mpr ⟨rfl, hlt, off, n, htok, rfl, hrecs⟩⟩
termination_by e.len - cur

theorem recordBytes_cons (cur : Nat) (tok : List Byte) (recs : List (Nat × List Byte)) :
    recordBytes ((cur, tok) :: recs) = tok ++ recordBytes recs := rfl

/-- Each record takes five bytes and covers at least one. -/
theorem LzEncoded.counts {e : Env} : ∀ {recs : List (Nat × List Byte)} {cur : Nat}, LzEncoded e cur recs →
    (recordBytes recs).length = 5 * recs.length ∧ cur + recs.length ≤ e.len
  | [], _, h => ⟨rfl, (lzEncoded_nil h).le⟩
  | (_, _) :: recs, cur, h => by
    obtain ⟨-, -, off, n, -, rfl, hrecs⟩ := lzEncoded_cons_iff.mp h
    obtain ⟨hbytes, hlen⟩ := hrecs.counts
    rw [recordBytes_cons, List.length_append, hbytes, record_length, List.length_cons]
    omega

/-! ### The records stand for the input (30_encoding R125 to R129) -/

/-- A number of two bytes read back. -/
theorem pairValue_leBytes {v : Nat} (h : v < 65536) : pairValue (BitVec.ofNat 8 v) (BitVec.ofNat 8 (v / 256)) = v := by
  simp only [pairValue, BitVec.toNat_ofNat]
  omega

theorem span_concat (e : Env) (n : Nat) : e.span 0 n ++ [e.byte n] = e.span 0 (n + 1) := by
  rw [span_add, Nat.zero_add]
  rfl

theorem span_getD {e : Env} {k n : Nat} (h : k < n) : (e.span 0 n).getD k 0 = e.byte k := by
  simp [Env.span, h]

/-- Copying a match from the bytes before the cursor gives the bytes at the cursor. -/
theorem copyFrom_of_matchAt {e : Env} {off : Nat} (hpos : 1 ≤ off) : ∀ {n cur : Nat}, off ≤ cur →
    e.MatchAt cur off n → copyFrom off n (e.span 0 cur) = e.span 0 (cur + n)
  | 0, _, _, _ => rfl
  | n + 1, cur, hoff, h => by
    have hbyte : e.byte (cur - off) = e.byte cur := h 0 (Nat.succ_pos n)
    rw [copyFrom, span_length, span_getD (by omega), hbyte, span_concat,
      copyFrom_of_matchAt hpos (by omega) (matchAt_tail hoff h), Nat.add_assoc, Nat.add_comm 1 n]

section
variable {e : Env} (hcfg : e.cfg.wellFormed = true)
include hcfg

/-- The record of a token continues the bytes before the cursor up to behind the token. -/
theorem lzTokens_record {cur off n : Nat} {recs out : List Byte} (h : e.TokenAt cur off n)
    (hrecs : LzTokens e.cfg.windowSize (e.span 0 (cur + n + 1)) recs out) :
    LzTokens e.cfg.windowSize (e.span 0 cur) (e.record cur off n ++ recs) out := by
  obtain ⟨-, -, hmaxlen, -, hwindow⟩ := wellFormed_bounds hcfg
  have hmax : e.maxMatch cur ≤ e.cfg.maxMatchLen := Nat.min_le_left _ _
  have hwide : off < 65536 ∧ n < 65536 := by
    obtain ⟨rfl, rfl⟩ | ⟨-, hoff, hn, -⟩ := h.bounds <;> omega
  have hcopy : copyFrom off n (e.span 0 cur) = e.span 0 (cur + n) := by
    obtain ⟨rfl, rfl⟩ | ⟨hpos, hoff, -, hmatch⟩ := h.bounds
    · rfl
    · exact copyFrom_of_matchAt hpos (by omega) hmatch
  refine LzTokens.token _ _ _ _ _ _ ?_ ?_ <;> rw [pairValue_leBytes hwide.1, pairValue_leBytes hwide.2]
  · rw [span_length]
    obtain ⟨-, rfl⟩ | ⟨hpos, hoff, -, -⟩ := h.bounds
    · exact .inl rfl
    · exact .inr ⟨hpos, hoff⟩
  · rwa [hcopy, span_concat]

/-- The records from a cursor on make the bytes before it the whole input. -/
theorem LzEncoded.lzTokens : ∀ {recs : List (Nat × List Byte)} {cur : Nat}, LzEncoded e cur recs →
    LzTokens e.cfg.windowSize (e.span 0 cur) (recordBytes recs) e.bytes
  | [], _, h => by
    rw [lzEncoded_nil h, ← bytes_eq_span]
    exact .nil _
  | (_, _) :: recs, cur, h => by
    obtain ⟨-, -, off, n, htok, rfl, hrecs⟩ := lzEncoded_cons_iff.mp h
    exact lzTokens_record hcfg htok hrecs.lzTokens

end

/-! ### The token loop (43_lz77_encoder R282, R284) -/

theorem lz77EncToken_eq_emitRecord {e : Env} (hin : ∀ i, i < e.len → e.cfg.busOk (e.src + i) = true) {r : Run}
    {off n : Nat} (hc : r.u.lzCur < e.len) (h : e.TokenAt r.u.lzCur off n) :
    ∃ u, lz77EncToken e r = emitRecord e r.u.lzCur off n (r.u.lzCur + n) (r.u.lzCur + n + 1) { r with u := u } := by
  unfold lz77EncToken
  cases h with
  | matched _ _ hbest hn =>
    rw [findMatch_ok hin hc hbest, ok_bind]
    exact ⟨_, (emitToken_eq_emitRecord e _).trans (if_pos hn)⟩
  | literal off n hbest hn =>
    rw [findMatch_ok hin hc hbest, ok_bind]
    exact ⟨_, (emitToken_eq_emitRecord e _).trans (if_neg (not_le.mpr hn))⟩

theorem emitRecord_ok {e : Env} {info off n i next : Nat} {r : Run} (hi : e.cfg.busOk (e.src + i) = true)
    (hroom : Room e r 5) : emitRecord e info off n i next r =
      .ok { r with out := r.out ++ (leBytes 2 off ++ leBytes 2 n ++ [e.byte i]), u := { r.u with lzCur := next } } := by
  unfold emitRecord
  rw [emitLE_ok (hroom.mono (by omega)), ok_bind,
    emitLE_ok (Room.after (m := 2) (hroom.mono (by omega)) (leBytes_length 2 _) rfl), ok_bind, input_ok hi, ok_bind,
    emit_ok (Room.after (m := 4) (bs := leBytes 2 off ++ leBytes 2 n) hroom (by simp) (by simp)), ok_bind]
  simp only [List.append_assoc]
  rfl

/-- A record goes past the region in one of its numbers or in its last byte. -/
theorem emitRecord_full {e : Env} {info off n i next : Nat} {r : Run}
    (hout : ∀ k, k < e.cap → e.cfg.busOk (e.dst + k) = true) (hi : e.cfg.busOk (e.src + i) = true)
    (h : r.out.length ≤ e.cap) (h' : e.cap < r.out.length + 5) :
    emitRecord e info off n i next r = .error ⟨.outputOverflow, info⟩ := by
  unfold emitRecord
  by_cases hoff : e.cap < r.out.length + 2
  · rw [emitLE_full hout h hoff, error_bind]
  rw [emitLE_ok ⟨not_lt.mp hoff, hout⟩, ok_bind]
  by_cases hn : e.cap < r.out.length + 4
  · rw [emitLE_full hout (by simp; omega) (by simp; omega), error_bind]
  rw [emitLE_ok ⟨by simp; omega, hout⟩, ok_bind, input_ok hi, ok_bind, emit_full (by simp; omega), error_bind]

section
variable {e : Env} (hbus : e.BusFine) {r : Run}
include hbus

/-- One round writes the token's record and moves the cursor behind the token. -/
theorem lz77EncToken_ok {off n : Nat} (hc : r.u.lzCur < e.len) (h : e.TokenAt r.u.lzCur off n)
    (hroom : r.out.length + 5 ≤ e.cap) : ∃ r', lz77EncToken e r = .ok r' ∧
      r'.out = r.out ++ e.record r.u.lzCur off n ∧ r'.u.lzCur = r.u.lzCur + n + 1 := by
  obtain ⟨u, hu⟩ := lz77EncToken_eq_emitRecord hbus.1 hc h
  rw [hu, emitRecord_ok (r := { r with u := u }) (hbus.1 _ (h.inside hc)) ⟨hroom, hbus.2⟩]
  exact ⟨_, rfl, rfl, rfl⟩

theorem lz77EncToken_full {off n : Nat} (hc : r.u.lzCur < e.len) (h : e.TokenAt r.u.lzCur off n)
    (hfit : r.out.length ≤ e.cap) (hover : e.cap < r.out.length + 5) :
    lz77EncToken e r = .error ⟨.outputOverflow, r.u.lzCur⟩ := by
  obtain ⟨u, hu⟩ := lz77EncToken_eq_emitRecord hbus.1 hc h
  rw [hu, emitRecord_full (r := { r with u := u }) hbus.2 (hbus.1 _ (h.inside hc)) hfit hover]

/-- The rounds of the records `pre`, when these fit, leave the rounds of the records after them. -/
theorem lz77EncLoop_append {n : Nat} {post : List (Nat × List Byte)} : ∀ {pre : List (Nat × List Byte)} {r : Run},
    LzEncoded e r.u.lzCur (pre ++ post) → r.out.length + (recordBytes pre).length ≤ e.cap →
    ∃ r', lz77EncLoop e (pre.length + n) r = lz77EncLoop e n r' ∧ r'.out = r.out ++ recordBytes pre ∧
      LzEncoded e r'.u.lzCur post
  | [], r, h, _ => ⟨r, by rw [List.length_nil, Nat.zero_add], (List.append_nil _).symm, h⟩
  | (_, _) :: pre, r, h, hfit => by
    obtain ⟨-, hc, off, m, htok, rfl, hrecs⟩ := lzEncoded_cons_iff.mp h
    rw [recordBytes_cons, List.length_append, record_length] at hfit
    obtain ⟨r1, hround, hout, hcur⟩ := lz77EncToken_ok hbus hc htok (by omega)
    obtain ⟨r', hloop, hout', hpost⟩ := lz77EncLoop_append (r := r1) (by rwa [hcur])
      (by rw [hout, List.length_append, record_length]; omega)
    refine ⟨r', ?_, by rw [hout', hout, List.append_assoc, recordBytes_cons], hpost⟩
    rw [List.length_cons, Nat.add_right_comm, lz77EncLoop, if_pos hc, hround, ok_bind, hloop]

theorem lz77EncLoop_ok {n : Nat} {recs : List (Nat × List Byte)} (h : LzEncoded e r.u.lzCur recs)
    (hn : recs.length ≤ n) (hfit : r.out.length + (recordBytes recs).length ≤ e.cap) :
    ∃ r', lz77EncLoop e n r = .ok r' ∧ r'.out = r.out ++ recordBytes recs := by
  obtain ⟨r', hloop, hout, hend⟩ := lz77EncLoop_append hbus (n := n - recs.length) (post := [])
    (by rwa [List.append_nil]) hfit
  rw [Nat.add_sub_cancel' hn] at hloop
  refine ⟨r', hloop.trans ?_, hout⟩
  cases n - recs.length with
  | zero => rfl
  | succ m => exact if_neg (lzEncoded_nil hend).not_lt

/-- The loop stops at the first record that does not fit, with the cursor before it. -/
theorem lz77EncLoop_full {n cur : Nat} {pre post : List (Nat × List Byte)} {tok : List Byte}
    (h : LzEncoded e r.u.lzCur (pre ++ (cur, tok) :: post)) (hn : pre.length < n)
    (hfit : r.out.length + (recordBytes pre).length ≤ e.cap)
    (hover : e.cap < r.out.length + (recordBytes pre).length + tok.length) :
    lz77EncLoop e n r = .error ⟨.outputOverflow, cur⟩ := by
  obtain ⟨m, rfl⟩ := Nat.exists_eq_add_of_lt hn
  obtain ⟨r', hloop, hout, hpost⟩ := lz77EncLoop_append hbus (n := m + 1) h hfit
  obtain ⟨rfl, hc, off, k, htok, rfl, -⟩ := lzEncoded_cons_iff.mp hpost
  rw [record_length] at hover
  rw [Nat.add_assoc, hloop, lz77EncLoop, if_pos hc,
    lz77EncToken_full hbus hc htok (by rwa [hout, List.length_append]) (by rwa [hout, List.length_append]), error_bind]

end

/-! ### LZ77_ENC (43_lz77_encoder R283, R284) -/

/-- Storing more bytes than fit overflows at the first byte too many. -/
theorem storeBytes_full {e : Env} (hbus : e.BusFine) : ∀ {n i : Nat} {r : Run}, i + n ≤ e.len →
    r.out.length ≤ e.cap → e.cap < r.out.length + n →
    storeBytes e n i r = .error ⟨.outputOverflow, i + (e.cap - r.out.length)⟩
  | 0, _, _, _, h, h' => by omega
  | n + 1, i, r, hi, h, h' => by
    rw [storeBytes, input_ok (hbus.1 _ (by omega)), ok_bind]
    obtain hfull | hroom := Nat.eq_or_lt_of_le h
    · rw [emit_full hfull.ge, error_bind, hfull, Nat.sub_self, Nat.add_zero]
    · rw [emit_ok ⟨hroom, hbus.2⟩, ok_bind,
        storeBytes_full hbus (by omega) (by simpa using hroom) (by simp; omega)]
      simp only [List.length_append, List.length_singleton]
      rw [show i + 1 + (e.cap - (r.out.length + 1)) = i + (e.cap - r.out.length) by omega]

/-- The run behind the marker of the tokenized form, where the loop begins. -/
def Run.tokensBegun (r : Run) : Run := { r with out := [0x43], u := { r.u with lzCur := 0 } }

section
variable {e : Env} {r : Run}

/-- Without a byte of region neither marker fits. -/
theorem lz77EncUnit_marker_full (h : e.cap = 0) : lz77EncUnit e r = .error ⟨.outputOverflow, 0⟩ := by
  have hfull : e.cap ≤ r.out.length := h.le.trans (Nat.zero_le _)
  unfold lz77EncUnit
  split
  · rw [storeRaw, emit_full hfull, error_bind]
  · rw [emit_full hfull, error_bind]

variable (hbus : e.BusFine) (hr : r.out = [])
include hbus hr

/-- With room for the marker a short input is stored behind it. -/
theorem lz77EncUnit_stores (hlen : e.len < e.cfg.lzStoreThreshold) (hcap : 1 ≤ e.cap) :
    lz77EncUnit e r = storeBytes e e.len 0 { r with out := [0x55] } := by
  rw [lz77EncUnit, if_pos hlen, storeRaw, emit_ok ⟨by rwa [hr], hbus.2⟩, ok_bind, hr]
  rfl

/-- With room for the marker an input that is not short is tokenized behind it. -/
theorem lz77EncUnit_tokenizes (hlen : e.cfg.lzStoreThreshold ≤ e.len) (hcap : 1 ≤ e.cap) :
    lz77EncUnit e r = lz77EncLoop e e.len r.tokensBegun := by
  rw [lz77EncUnit, if_neg (not_lt.mpr hlen), emit_ok ⟨by rwa [hr], hbus.2⟩, ok_bind, hr]
  rfl

theorem lz77EncUnit_stored_ok (hlen : e.len < e.cfg.lzStoreThreshold) (hfit : 1 + e.len ≤ e.cap) :
    lz77EncUnit e r = .ok { r with out := 0x55 :: e.bytes } := by
  rw [lz77EncUnit_stores hbus hr hlen (by omega),
    storeBytes_ok (r := { r with out := [0x55] }) hbus.1 (Nat.zero_add _).le ⟨hfit, hbus.2⟩, bytes_eq_span]
  rfl

theorem lz77EncUnit_stored_full (hlen : e.len < e.cfg.lzStoreThreshold) {i : Nat} (hi : i < e.len)
    (hcap : e.cap = 1 + i) : lz77EncUnit e r = .error ⟨.outputOverflow, i⟩ := by
  rw [lz77EncUnit_stores hbus hr hlen (by omega), storeBytes_full hbus (Nat.zero_add _).le, hcap]
  · simp
  · rw [hcap]
    exact Nat.le_add_right 1 i
  · rw [hcap]
    exact Nat.add_lt_add_left hi 1

end

/-- Settles O44: the marker fits or not, then the stored bytes. -/
theorem lz77StoresShortInput : Obligations.Lz77StoresShortInput := by
  unfold Obligations.Lz77StoresShortInput
  intro s hs hbus hw hlen
  refine ⟨fun hfit => ?_, fun hcap => ?_, fun i hi hcap => ?_⟩
  · exact exec_succeeded rfl hs hw ⟨_, lz77EncUnit_stored_ok hbus rfl hlen hfit, rfl⟩
      (by rwa [List.length_cons, bytes_length, Nat.add_comm])
  · exact exec_failed rfl hs (lz77EncUnit_marker_full hcap)
  · exact exec_failed rfl hs (lz77EncUnit_stored_full hbus rfl hlen hi hcap)

/-- Settles O45: the records of the token loop, which stand for the input; the first of them that does not fit stops the
loop. -/
theorem lz77EncWritesTokens : Obligations.Lz77EncWritesTokens := by
  unfold Obligations.Lz77EncWritesTokens
  intro s hs hbus hw hcfg hlen
  obtain ⟨toks, htoks⟩ := exists_lzEncoded hbus.1 0 (Nat.zero_le s.env.len)
  obtain ⟨hbytes, hcount⟩ := htoks.counts
  rw [Nat.zero_add] at hcount
  have htokenizes : ∀ {n}, 1 + n ≤ s.latch.cap.toNat → lz77EncUnit s.env s.begin =
      lz77EncLoop s.env s.env.len s.begin.tokensBegun :=
    fun hfit => lz77EncUnit_tokenizes hbus rfl hlen ((Nat.le_add_right 1 _).trans hfit)
  refine ⟨toks, htoks, .tokens (htoks.lzTokens hcfg), hbytes.trans_le (Nat.mul_le_mul_left 5 hcount),
    fun hfit => ?_, fun hcap => ?_, fun pre cur tok post hsplit hfit hover => ?_⟩
  · obtain ⟨r, hloop, hout⟩ := lz77EncLoop_ok hbus (r := s.begin.tokensBegun) htoks hcount hfit
    exact exec_succeeded rfl hs hw ⟨r, (htokenizes hfit).trans hloop, hout⟩ (by rwa [List.length_cons, Nat.add_comm])
  · exact exec_failed rfl hs (lz77EncUnit_marker_full hcap)
  · subst hsplit
    rw [List.length_append, List.length_cons] at hcount
    exact exec_failed rfl hs ((htokenizes hfit).trans (lz77EncLoop_full hbus htoks (by omega) hfit hover))

end Sys2Proof.Machine

/-! PROOFS. LZ77_DEC: the history buffer holds the last WINDOW_SIZE bytes written, so each record it reads continues the
output as the artifact's format says; where a record or a stored byte does not fit, is cut short or refers outside the
window; and LZ77_DEC of LZ77_ENC's output (44_lz77_decoder R320 to R326, 60_exceptions R402, R404, R408). -/

namespace Sys2Proof.Machine

/-! ### The stored form (44_lz77_decoder R322) -/

/-- Copying more bytes than fit overflows with the offset after the first byte too many. -/
theorem copyBytes_full {e : Env} (hbus : e.BusFine) : ∀ {n : Nat} {r : Run}, r.ip + n ≤ e.len →
    r.out.length ≤ e.cap → e.cap < r.out.length + n →
    copyBytes e n r = .error ⟨.outputOverflow, r.ip + (e.cap - r.out.length) + 1⟩
  | 0, _, _, h, h' => by omega
  | n + 1, r, hi, h, h' => by
    have hlt : r.ip < e.len := by omega
    rw [copyBytes, fetch_ok hlt (hbus.1 _ hlt), ok_bind]
    dsimp only
    obtain hfull | hroom := Nat.eq_or_lt_of_le h
    · rw [emit_full (r := { r with ip := r.ip + 1 }) hfull.ge, error_bind, hfull, Nat.sub_self, Nat.add_zero]
    · rw [emit_ok (r := { r with ip := r.ip + 1 }) ⟨hroom, hbus.2⟩, ok_bind,
        copyBytes_full hbus (by dsimp only; omega) (by simpa using hroom) (by simp; omega)]
      simp only [List.length_append, List.length_singleton]
      rw [show r.ip + 1 + (e.cap - (r.out.length + 1)) = r.ip + (e.cap - r.out.length) by omega]

/-! ### RECONSTRUCT (44_lz77_decoder R324) -/

/-- LZ77_DEC at the cursor `ip` after the output `out`: the history holds the last `w` bytes of it, the newest first. -/
def Work.decoding (u : Work) (w ip : Nat) (out : List Byte) : Run :=
  ⟨ip, out, { u with hist := out.reverse.take w }⟩

/-- A byte emitted and pushed into the history leads to the longer output. -/
theorem histPush_decoding (e : Env) (u : Work) (ip : Nat) (b : Byte) (out : List Byte) :
    histPush e b { u.decoding e.cfg.windowSize ip out with out := out ++ [b] } =
      u.decoding e.cfg.windowSize ip (out ++ [b]) := by
  have hhist : (b :: out.reverse.take e.cfg.windowSize).take e.cfg.windowSize =
      (out ++ [b]).reverse.take e.cfg.windowSize := by
    cases e.cfg.windowSize <;> simp [List.take_take]
  simp only [histPush, Work.decoding, hhist]

/-- The byte `off` back in the history is the one `off` back in the output. -/
theorem hist_getD {out : List Byte} {w off : Nat} (hpos : 1 ≤ off) (hoff : off ≤ min out.length w) :
    (out.reverse.take w).getD (off - 1) 0 = out.getD (out.length - off) 0 := by
  have hlast : out.length - 1 - (off - 1) = out.length - off := by omega
  rw [List.getD_eq_getElem?_getD, List.getD_eq_getElem?_getD, List.getElem?_take_of_lt (by omega),
    List.getElem?_reverse (by omega), hlast]

/-- A copy of `n` bytes from `off` back stays in the window of `w` bytes, or copies nothing (44_lz77_decoder R323). -/
def Refers (w : Nat) (out : List Byte) (off n : Nat) : Prop := n = 0 ∨ (1 ≤ off ∧ off ≤ min out.length w)

theorem copyFrom_length (off : Nat) : ∀ (n : Nat) (out : List Byte), (copyFrom off n out).length = out.length + n
  | 0, _ => rfl
  | n + 1, out => by
    rw [copyFrom, copyFrom_length off n, List.length_append, List.length_singleton, Nat.add_assoc, Nat.add_comm 1]

section
variable {e : Env} (hout : ∀ k, k < e.cap → e.cfg.busOk (e.dst + k) = true)
include hout

theorem copyBack_ok {u : Work} {ip off : Nat} : ∀ {n : Nat} {out : List Byte}, Refers e.cfg.windowSize out off n →
    out.length + n ≤ e.cap → copyBack e off n (u.decoding e.cfg.windowSize ip out) =
      .ok (u.decoding e.cfg.windowSize ip (copyFrom off n out))
  | 0, _, _, _ => rfl
  | n + 1, out, href, hfit => by
    obtain ⟨hpos, hoff⟩ := href.resolve_left n.succ_ne_zero
    have hbyte : (u.decoding e.cfg.windowSize ip out).u.hist.getD (off - 1) 0 = out.getD (out.length - off) 0 :=
      hist_getD hpos hoff
    have hroom : Room e (u.decoding e.cfg.windowSize ip out) 1 :=
      ⟨(Nat.add_le_add_left (Nat.le_add_left 1 n) _).trans hfit, hout⟩
    rw [copyBack, hbyte, emit_ok hroom, ok_bind, copyFrom]
    refine (congrArg _ (histPush_decoding e u ip _ out)).trans (copyBack_ok (.inr ⟨hpos, ?_⟩) ?_) <;>
      rw [List.length_append, List.length_singleton] <;> omega

/-- Copying more bytes than fit overflows, whatever the history holds. -/
theorem copyBack_full {off : Nat} : ∀ {n : Nat} {r : Run}, r.out.length ≤ e.cap → e.cap < r.out.length + n →
    copyBack e off n r = .error ⟨.outputOverflow, r.ip⟩
  | 0, _, h, h' => by omega
  | n + 1, r, h, h' => by
    rw [copyBack]
    obtain hfull | hroom := Nat.eq_or_lt_of_le h
    · rw [emit_full hfull.ge, error_bind]
    · rw [emit_ok ⟨hroom, hout⟩, ok_bind]
      exact copyBack_full (by simpa [histPush] using hroom) (by simp [histPush]; omega)

variable {u : Work} {ip off n : Nat} {lit : Byte} {out : List Byte} (href : Refers e.cfg.windowSize out off n)
include href

/-- A token that fits continues the output by its copy and its literal. -/
theorem reconstruct_ok (hfit : out.length + n + 1 ≤ e.cap) :
    reconstruct e ⟨off, n, lit⟩ (u.decoding e.cfg.windowSize ip out) =
      .ok (u.decoding e.cfg.windowSize ip (copyFrom off n out ++ [lit])) := by
  have hroom : Room e (u.decoding e.cfg.windowSize ip (copyFrom off n out)) 1 :=
    ⟨(congrArg (· + 1) (copyFrom_length off n out)).trans_le hfit, hout⟩
  rw [reconstruct, copyBack_ok hout href (Nat.le_of_succ_le hfit), ok_bind, emit_ok hroom, ok_bind]
  exact congrArg _ (histPush_decoding e u ip lit _)

/-- A token that does not fit overflows in its copy or at its literal. -/
theorem reconstruct_full (hle : out.length ≤ e.cap) (hover : e.cap < out.length + n + 1) :
    reconstruct e ⟨off, n, lit⟩ (u.decoding e.cfg.windowSize ip out) = .error ⟨.outputOverflow, ip⟩ := by
  rw [reconstruct]
  obtain hcopy | hcopy := Nat.lt_or_ge e.cap (out.length + n)
  · rw [copyBack_full hout hle hcopy]
    rfl
  · have hfull : e.cap ≤ (u.decoding e.cfg.windowSize ip (copyFrom off n out)).out.length :=
      (Nat.le_of_lt_succ hover).trans_eq (copyFrom_length off n out).symm
    rw [copyBack_ok hout href hcopy, ok_bind, emit_full hfull]
    rfl

end

/-! ### READ_TOKEN (44_lz77_decoder R323) -/

theorem leBytes_pairValue (lo hi : Byte) : leBytes 2 (pairValue lo hi) = [lo, hi] := by
  have hhi : pairValue lo hi / 256 = hi.toNat := by
    unfold pairValue
    omega
  rw [leBytes, leBytes, hhi, pairValue]
  simp [leBytes, BitVec.ofNat_add, BitVec.ofNat_mul]

theorem pairValue_lt (lo hi : Byte) : pairValue lo hi < 256 ^ 2 := by
  unfold pairValue
  omega

theorem readToken_short {e : Env} {r : Run} (h : (e.bytes.drop r.ip).length < 5) :
    readToken e r = .error ⟨.truncatedStream, r.ip⟩ := by
  rw [List.length_drop, bytes_length] at h
  exact if_pos h

section
variable {e : Env} (hin : ∀ i, i < e.len → e.cfg.busOk (e.src + i) = true) {r : Run}
include hin

theorem fetchLE_pair {lo hi : Byte} {bs : List Byte} (h : e.bytes.drop r.ip = lo :: hi :: bs) :
    fetchLE e 2 r = .ok (pairValue lo hi, { r with ip := r.ip + 2 }) :=
  fetchLE_of_drop (bs := bs) hin (by rwa [leBytes_pairValue]) (pairValue_lt lo hi)

/-- A whole record is read, then its offset is checked. -/
theorem readToken_record {o0 o1 l0 l1 lit : Byte} {bs : List Byte}
    (h : e.bytes.drop r.ip = o0 :: o1 :: l0 :: l1 :: lit :: bs) : readToken e r =
      if 0 < pairValue l0 l1 ∧ (pairValue o0 o1 = 0 ∨ min r.op e.cfg.windowSize < pairValue o0 o1) then
        .error ⟨.invalidOffset, r.ip⟩
      else .ok (⟨pairValue o0 o1, pairValue l0 l1, lit⟩, { r with ip := r.ip + 5 }) := by
  have hlong : ¬e.len - r.ip < 5 := by
    rw [← bytes_length, ← List.length_drop, h]
    simp
  have h2 : e.bytes.drop (r.ip + 2) = l0 :: l1 :: lit :: bs := drop_add_of_append (xs := [o0, o1]) h
  have h4 : e.bytes.drop (r.ip + 2 + 2) = lit :: bs := drop_add_of_append (xs := [l0, l1]) h2
  rw [readToken, if_neg hlong, fetchLE_pair hin h, ok_bind]
  dsimp only
  rw [fetchLE_pair hin h2, ok_bind]
  dsimp only
  rw [fetch_of_drop hin h4, ok_bind]
  rfl

variable {o0 o1 l0 l1 lit : Byte} {bs : List Byte} (h : e.bytes.drop r.ip = o0 :: o1 :: l0 :: l1 :: lit :: bs)
include h

theorem readToken_ok (href : Refers e.cfg.windowSize r.out (pairValue o0 o1) (pairValue l0 l1)) :
    readToken e r = .ok (⟨pairValue o0 o1, pairValue l0 l1, lit⟩, { r with ip := r.ip + 5 }) := by
  rw [readToken_record hin h, if_neg]
  unfold Refers at href
  unfold Run.op
  omega

theorem readToken_invalid (hlen : 0 < pairValue l0 l1)
    (hoff : pairValue o0 o1 = 0 ∨ min r.out.length e.cfg.windowSize < pairValue o0 o1) :
    readToken e r = .error ⟨.invalidOffset, r.ip⟩ :=
  (readToken_record hin h).trans (if_pos ⟨hlen, hoff⟩)

end

/-! ### The token loop (44_lz77_decoder R325) -/

theorem lz77DecLoop_end {e : Env} {r : Run} (h : e.len ≤ r.ip) : ∀ n, lz77DecLoop e n r = .ok r
  | 0 => rfl
  | _ + 1 => if_neg (not_lt.mpr h)

theorem LzTokens.length_le {w : Nat} {before recs out : List Byte} (h : LzTokens w before recs out) :
    before.length ≤ out.length := by
  induction h with
  | nil => exact le_rfl
  | token before o0 o1 l0 l1 lit _ _ ih =>
    rw [List.length_append, copyFrom_length] at ih
    omega

/-- A round that begins before the end of the input and ends the loop in READ_TOKEN. -/
theorem lz77DecLoop_error {e : Env} {n : Nat} {r : Run} {z : Raise} (hlt : r.ip < e.len)
    (h : readToken e r = .error z) : lz77DecLoop e (n + 1) r = .error z := by
  rw [lz77DecLoop, if_pos hlt, h, error_bind]

/-- A round of a record whose copy stays in the window reconstructs its token behind it. -/
theorem lz77DecLoop_record {e : Env} (hin : ∀ i, i < e.len → e.cfg.busOk (e.src + i) = true) {u : Work} {n ip : Nat}
    {out : List Byte} {o0 o1 l0 l1 lit : Byte} {bs : List Byte} (h : e.bytes.drop ip = o0 :: o1 :: l0 :: l1 :: lit :: bs)
    (href : Refers e.cfg.windowSize out (pairValue o0 o1) (pairValue l0 l1)) :
    lz77DecLoop e (n + 1) (u.decoding e.cfg.windowSize ip out) =
      reconstruct e ⟨pairValue o0 o1, pairValue l0 l1, lit⟩ (u.decoding e.cfg.windowSize (ip + 5) out) >>=
        lz77DecLoop e n := by
  have hlt : (u.decoding e.cfg.windowSize ip out).ip < e.len := bytes_length e ▸ lt_length_of_drop_cons h
  rw [lz77DecLoop, if_pos hlt, readToken_ok (r := u.decoding e.cfg.windowSize ip out) hin h href, ok_bind]
  rfl

/-- The rounds of records that decode to `out`, when that fits, leave the rounds of what stands behind them. -/
theorem lz77DecLoop_append {e : Env} (hbus : e.BusFine) {u : Work} {n : Nat} {before recs out tail : List Byte}
    (h : LzTokens e.cfg.windowSize before recs out) (hfit : out.length ≤ e.cap) : ∀ {ip : Nat},
    e.bytes.drop ip = recs ++ tail →
    lz77DecLoop e (recs.length / 5 + n) (u.decoding e.cfg.windowSize ip before) =
      lz77DecLoop e n (u.decoding e.cfg.windowSize (ip + recs.length) out) := by
  induction h with
  | nil =>
    intro ip _
    rw [List.length_nil, Nat.zero_div, Nat.zero_add, Nat.add_zero]
  | @token before o0 o1 l0 l1 lit recs out href hrecs ih =>
    intro ip hdrop
    have hfit' := hrecs.length_le.trans hfit
    rw [List.length_append, copyFrom_length, List.length_singleton] at hfit'
    have hrest : e.bytes.drop (ip + 5) = recs ++ tail := drop_add_of_append (xs := [o0, o1, l0, l1, lit]) hdrop
    have hround : (o0 :: o1 :: l0 :: l1 :: lit :: recs).length / 5 + n = recs.length / 5 + n + 1 := by
      simp only [List.length_cons]
      omega
    rw [hround, lz77DecLoop_record hbus.1 hdrop href, reconstruct_ok hbus.2 href hfit', ok_bind, ih hfit hrest,
      Nat.add_assoc, Nat.add_comm 5]
    rfl

/-! ### LZ77_DEC (44_lz77_decoder R320, R325) -/

section
variable {e : Env} (hbus : e.BusFine) {r : Run} (hr : r.out = [])
include hbus hr

/-- The first byte chooses the form of what stands behind it. -/
theorem lz77DecUnit_marker {m : Byte} {bs : List Byte} (h : e.bytes = m :: bs) :
    e.len = 1 + bs.length ∧ lz77DecUnit e r =
      if m = markerStored then copyStored e (r.u.decoding e.cfg.windowSize 1 [])
      else if m = markerTokens then lz77DecLoop e e.len (r.u.decoding e.cfg.windowSize 1 [])
      else .error ⟨.unknownFormatMarker, 0⟩ := by
  have hlen : e.len = 1 + bs.length := by simpa [Nat.add_comm] using congrArg List.length h
  have hbegin : r.u.decoding e.cfg.windowSize 1 [] = ⟨1, r.out, { r.u with hist := [] }⟩ := by
    rw [Work.decoding, List.reverse_nil, List.take_nil, hr]
  refine ⟨hlen, ?_⟩
  rw [lz77DecUnit, readMarker, if_neg (by omega), fetch_of_drop hbus.1 (r := ⟨0, r.out, _⟩) h, hbegin]
  rfl

theorem lz77DecUnit_stored {bs : List Byte} (h : e.bytes = 0x55 :: bs) :
    e.len = 1 + bs.length ∧ lz77DecUnit e r = copyBytes e bs.length (r.u.decoding e.cfg.windowSize 1 []) := by
  obtain ⟨hlen, hunit⟩ := lz77DecUnit_marker hbus hr h
  have hleft : e.len - (r.u.decoding e.cfg.windowSize 1 []).ip = bs.length := by
    rw [hlen]
    exact Nat.add_sub_cancel_left _ _
  exact ⟨hlen, hunit.trans (congrArg (copyBytes e · _) hleft)⟩

theorem lz77DecUnit_tokens {bs : List Byte} (h : e.bytes = 0x43 :: bs) :
    e.len = 1 + bs.length ∧ lz77DecUnit e r = lz77DecLoop e e.len (r.u.decoding e.cfg.windowSize 1 []) :=
  lz77DecUnit_marker hbus hr h

/-- After records that decode to `out`, when that fits, a round is left for what stands behind them. -/
theorem lz77DecUnit_records {recs out tail : List Byte} (hrecs : LzTokens e.cfg.windowSize [] recs out)
    (hfit : out.length ≤ e.cap) (h : e.bytes = 0x43 :: recs ++ tail) :
    e.bytes.drop (1 + recs.length) = tail ∧
      ∃ n, lz77DecUnit e r = lz77DecLoop e (n + 1) (r.u.decoding e.cfg.windowSize (1 + recs.length) out) := by
  obtain ⟨hlen, hunit⟩ := lz77DecUnit_tokens hbus hr (bs := recs ++ tail) h
  rw [List.length_append] at hlen
  have hdrop : e.bytes.drop 1 = recs ++ tail := by rw [h]; rfl
  obtain ⟨n, hn⟩ := Nat.exists_eq_add_of_lt (show recs.length / 5 < e.len by omega)
  refine ⟨drop_add_of_append hdrop, n, ?_⟩
  rw [hunit, hn, Nat.add_assoc, lz77DecLoop_append hbus hrecs hfit hdrop]

/-- LZ77_DEC writes what the artifact stands for. -/
theorem lz77DecUnit_ok {art out : List Byte} (hart : LzArtifact e.cfg.windowSize art out) (h : e.bytes = art)
    (hfit : out.length ≤ e.cap) : ∃ r', lz77DecUnit e r = .ok r' ∧ r'.out = out := by
  cases hart with
  | stored =>
    obtain ⟨hlen, hunit⟩ := lz77DecUnit_stored hbus hr h
    have hspan : e.span 1 out.length = out := by
      have hbytes := (bytes_eq_span e).symm.trans h
      rw [hlen, span_add] at hbytes
      exact (List.cons.inj hbytes).2
    rw [hunit, copyBytes_ok hbus.1 hlen.ge ⟨(Nat.zero_add _).trans_le hfit, hbus.2⟩]
    exact ⟨_, rfl, hspan⟩
  | @tokens recs _ hrecs =>
    obtain ⟨hend, n, hunit⟩ := lz77DecUnit_records hbus hr hrecs hfit (h.trans (List.append_nil _).symm)
    rw [List.drop_eq_nil_iff, bytes_length] at hend
    exact ⟨_, hunit.trans (lz77DecLoop_end hend _), rfl⟩

end

/-- Settles O46: the unit's result for the two forms; the record that does not fit stops the loop in its round. -/
theorem lz77DecReconstructs : Obligations.Lz77DecReconstructs := by
  unfold Obligations.Lz77DecReconstructs
  intro s hs hbus hw
  refine ⟨fun out hart hfit => ?_, fun bs h hover => exec_failed rfl hs ?_,
    fun recs out o0 o1 l0 l1 lit tail hrecs h href hfit hover => exec_failed rfl hs ?_⟩
  · exact exec_succeeded rfl hs hw (lz77DecUnit_ok hbus rfl hart rfl hfit) hfit
  · obtain ⟨hlen, hunit⟩ := lz77DecUnit_stored hbus (r := s.begin) rfl h
    rw [hunit, copyBytes_full hbus hlen.ge (Nat.zero_le _) (hover.trans_eq (Nat.zero_add _).symm)]
    exact congrArg (fun i => Except.error (⟨.outputOverflow, i + 1⟩ : Raise)) (Nat.add_comm 1 s.env.cap)
  · obtain ⟨hrecord, n, hunit⟩ := lz77DecUnit_records hbus (r := s.begin) rfl hrecs hfit h
    rw [hunit, lz77DecLoop_record hbus.1 hrecord href, reconstruct_full hbus.2 href hfit hover, error_bind,
      Nat.add_right_comm, Nat.add_comm]

/-- Settles O48: the round behind the records finds the rest too short, or its offset outside the window. -/
theorem lz77DecTokenErrors : Obligations.Lz77DecTokenErrors := by
  unfold Obligations.Lz77DecTokenErrors
  intro s recs out tail hs hbus hrecs hfit h
  obtain ⟨hrest, n, hunit⟩ := lz77DecUnit_records hbus (r := s.begin) rfl hrecs hfit h
  have hlen : s.env.len = 1 + recs.length + tail.length := by
    simpa [Nat.add_comm, Nat.add_left_comm, Nat.add_assoc] using congrArg List.length h
  have hround : ∀ {z}, 1 ≤ tail.length →
      readToken s.env (s.begin.u.decoding s.env.cfg.windowSize (1 + recs.length) out) = .error z →
      lz77DecUnit s.env s.begin = .error z := fun hpos hread =>
    hunit.trans (lz77DecLoop_error (hlen ▸ Nat.lt_add_of_pos_right hpos) hread)
  refine ⟨fun hpos hshort => exec_failed rfl hs (hround hpos (readToken_short (hrest ▸ hshort))),
    fun o0 o1 l0 l1 lit more htail hpair hoff => exec_failed rfl hs (hround (by simp [htail]) ?_)⟩
  exact readToken_invalid hbus.1 (hrest.trans htail) hpair hoff

/-! ### LZ77_DEC of LZ77_ENC's output (44_lz77_decoder R326) -/

/-- When records do not fit, one of them is the first that does not. -/
theorem exists_record_too_many : ∀ {rs : List (Nat × List Byte)} {m : Nat}, m < (recordBytes rs).length →
    ∃ pre cur tok post, rs = pre ++ (cur, tok) :: post ∧ (recordBytes pre).length ≤ m ∧
      m < (recordBytes pre).length + tok.length
  | [], _, h => absurd h (Nat.not_lt_zero _)
  | (cur, tok) :: rs, m, h => by
    obtain hlt | hge := Nat.lt_or_ge m tok.length
    · exact ⟨[], cur, tok, rs, rfl, Nat.zero_le _, by rwa [recordBytes, List.flatMap_nil, List.length_nil, Nat.zero_add]⟩
    · rw [recordBytes_cons, List.length_append] at h
      obtain ⟨pre, cur', tok', post, rfl, hle, hlt⟩ := exists_record_too_many (rs := rs) (m := m - tok.length) (by omega)
      refine ⟨(cur, tok) :: pre, cur', tok', post, rfl, ?_, ?_⟩ <;>
        rw [recordBytes_cons, List.length_append] <;> omega

section
variable {s : State} (hs : s.Running) (hbus : s.env.BusFine) (hw : Memory.wf s.mem = true)
  (hcfg : s.cfg.wellFormed = true)
include hs hbus hw hcfg

/-- LZ77_ENC writes an artifact of its input, of 1 + 5·L_LEN bytes at most, where it fits, and fails where it does not. -/
theorem lz77Enc_writes_artifact : ∃ art, LzArtifact s.cfg.windowSize art s.env.bytes ∧
    art.length ≤ 1 + 5 * s.latch.len.toNat ∧
    (art.length ≤ s.latch.cap.toNat → ∃ t, exec .lz77Enc s = .next t ∧ Succeeded s t art) ∧
    (s.latch.cap.toNat < art.length → ∃ t info, exec .lz77Enc s = .next t ∧ FailedWith t .outputOverflow info) := by
  obtain hshort | hlong := Nat.lt_or_ge s.latch.len.toNat s.cfg.lzStoreThreshold
  · obtain ⟨hfits, hmarker, hbyte⟩ := lz77StoresShortInput s hs hbus hw hshort
    have hlen : (0x55 :: s.env.bytes).length = 1 + s.latch.len.toNat := by
      rw [List.length_cons, bytes_length, Nat.add_comm]
      rfl
    refine ⟨_, .stored _, by omega, fun hfit => hfits (hlen ▸ hfit), fun hover => ?_⟩
    rw [hlen] at hover
    obtain hzero | hpos := Nat.eq_zero_or_pos s.latch.cap.toNat
    · exact (hmarker hzero).imp fun _ h => ⟨_, h⟩
    · obtain ⟨i, hi⟩ := Nat.exists_eq_add_of_le hpos
      exact (hbyte i (by omega) hi).imp fun _ h => ⟨_, h⟩
  · obtain ⟨toks, -, hart, hlen, hfits, hmarker, htoken⟩ := lz77EncWritesTokens s hs hbus hw hcfg hlong
    have hlen' : (0x43 :: recordBytes toks).length = 1 + (recordBytes toks).length := Nat.add_comm _ _
    refine ⟨_, hart, by omega, fun hfit => hfits (hlen' ▸ hfit), fun hover => ?_⟩
    rw [hlen'] at hover
    obtain hzero | hpos := Nat.eq_zero_or_pos s.latch.cap.toNat
    · exact (hmarker hzero).imp fun _ h => ⟨_, h⟩
    · obtain ⟨m, hm⟩ := Nat.exists_eq_add_of_le hpos
      obtain ⟨pre, cur, tok, post, hsplit, hle, hlt⟩ := exists_record_too_many (rs := toks) (m := m) (by omega)
      exact (htoken pre cur tok post hsplit (by omega) (by omega)).imp fun _ h => ⟨_, h⟩

/-- LZ77_ENC that ends without error has written an artifact of its input. -/
theorem lz77Enc_succeeded {t : State} (h : exec .lz77Enc s = .next t) (herr : t.error = false) :
    ∃ art, LzArtifact s.cfg.windowSize art s.env.bytes ∧ Succeeded s t art := by
  obtain ⟨art, hart, -, hfits, hover⟩ := lz77Enc_writes_artifact hs hbus hw hcfg
  obtain hfull | hfit := Nat.lt_or_ge s.latch.cap.toNat art.length
  · obtain ⟨t', info, ht', hfail⟩ := hover hfull
    cases h.symm.trans ht'
    cases herr.symm.trans hfail.code.1
  · obtain ⟨t', ht', hok⟩ := hfits hfit
    cases h.symm.trans ht'
    exact ⟨art, hart, hok⟩

end

/-- Settles O49: what LZ77_ENC leaves in memory is an artifact that stands for its input under the machine's window, and
LZ77_DEC writes what an artifact stands for. -/
theorem lz77RoundTrip : Obligations.Lz77RoundTrip := by
  unfold Obligations.Lz77RoundTrip
  intro s hs hbus hw hcfg
  refine ⟨fun hfit => ?_, fun t s' ht herr hs' hbus' hmem hcfg' hsrc hlen hcap => ?_⟩
  · obtain ⟨art, -, hlen, hfits, -⟩ := lz77Enc_writes_artifact hs hbus hw hcfg
    obtain ⟨t, ht, hok⟩ := hfits (hlen.trans hfit)
    exact ⟨t, ht, hok.noError.1⟩
  · obtain ⟨art, hart, hok⟩ := lz77Enc_succeeded hs hbus hw hcfg ht herr
    have hw' : Memory.wf s'.mem = true := hmem ▸ exec_mem_wf rfl ht hw
    obtain ⟨hdecodes, -⟩ := lz77DecReconstructs s' hs' hbus' hw'
    refine hdecodes s.env.bytes ?_ ((bytes_length s.env).trans_le hcap)
    rwa [hcfg', bytes_of_succeeded hok hmem hsrc hlen]

end Sys2Proof.Machine

/-! PROOFS. RLE_ENC: the run classifier and the span emitters give the spans of `RleEncoding`, those are an artifact of the
input in the ranges of 45_rle_encoder R355, and the loop writes them or stops before the first that does not fit
(45_rle_encoder R350 to R354, 60_exceptions R408). -/

namespace Sys2Proof.Machine

/-! ### What spans stand for (30_encoding R131 to R133, 45_rle_encoder R355) -/

/-- Bit 7 of a control byte tells a run from a raw span. -/
theorem getLsbD_seven (c : Byte) : c.getLsbD 7 = decide (0x80 ≤ c.toNat) :=
  (BitVec.msb_eq_getLsbD_last c).symm.trans (BitVec.msb_eq_decide c)

theorem toNat_runControl {r : Nat} (h : r ≤ 127) : (BitVec.ofNat 8 (0x80 + r)).toNat = 0x80 + r := by
  rw [BitVec.toNat_ofNat]
  omega

theorem toNat_rawControl {n : Nat} (h : n ≤ 128) : (BitVec.ofNat 8 (n - 1)).toNat = n - 1 := by
  rw [BitVec.toNat_ofNat]
  omega

section
variable {i : Nat} {bs : List Byte} {spans : List (Nat × List Byte)}

theorem RleEncoding.rleWritten (h : RleEncoding i bs spans) : RleWritten (recordBytes spans) := by
  induction h with
  | nil => exact .nil
  | run i v r hlow hhigh _ _ ih => exact .run _ v (by rw [toNat_runControl hhigh]; omega) ih
  | raw i bs hlow hhigh _ _ _ ih =>
    refine .raw _ bs ?_ ?_ ih <;> rw [toNat_rawControl hhigh] <;> omega

theorem RleEncoding.rleArtifact (h : RleEncoding i bs spans) : RleArtifact (recordBytes spans) bs := by
  induction h with
  | nil => exact .nil
  | run i v r hlow hhigh _ _ ih =>
    have hc := toNat_runControl hhigh
    have hart := RleArtifact.run (BitVec.ofNat 8 (0x80 + r)) v (by rw [getLsbD_seven, hc]; simp) ih
    rwa [hc, show (0x80 + r) % 128 = r by omega] at hart
  | raw i bs hlow hhigh _ _ _ ih =>
    have hc := toNat_rawControl hhigh
    exact .raw _ bs (by rw [getLsbD_seven, hc]; simp; omega) (by rw [hc]; omega) ih

/-- A run of two bytes or more takes two bytes, a raw span one more than it covers. -/
theorem RleEncoding.length_le (h : RleEncoding i bs spans) : (recordBytes spans).length ≤ 2 * bs.length := by
  induction h with
  | nil => exact Nat.zero_le _
  | run i v r hlow _ _ _ ih =>
    simp only [recordBytes_cons, List.length_append, List.length_cons, List.length_nil, List.length_replicate]
    omega
  | raw i bs hlow _ _ _ _ ih =>
    simp only [recordBytes_cons, List.length_append, List.length_cons]
    omega

end

/-! ### The run classifier and the spans it gives (45_rle_encoder R350, R351) -/

/-- Without bus errors, what can fail with BUS_ERROR alone has a result. -/
theorem Post.exists_ok {α : Type} {Q : α → Prop} {e : Env} {x : Except Raise α} (hbus : e.BusFine)
    (h : Post Q (FailsAs e [.busError]) x) : ∃ a, x = .ok a ∧ Q a := by
  cases x with
  | ok a => exact ⟨a, rfl, h⟩
  | error z =>
    obtain ⟨hkind, hbad, -⟩ : FailsAs e [.busError] z := h
    obtain ⟨hfalse, ⟨hle, hlt⟩ | ⟨hle, hlt⟩⟩ := hbad (List.mem_singleton.mp hkind) <;>
      obtain ⟨k, hk⟩ := Nat.exists_eq_add_of_le hle <;> rw [hk] at hfalse
    · cases hfalse.symm.trans (hbus.1 k (by omega))
    · cases hfalse.symm.trans (hbus.2 k (by omega))

/-- RAW_SPAN_END stops short of its bound only at the end of the input or before a repeat. -/
theorem rawSpanEndFrom_stop {e : Env} (hin : ∀ i, i < e.len → e.cfg.busOk (e.src + i) = true) : ∀ {n j k : Nat},
    rawSpanEndFrom e n j = .ok k → k < j + n → k < e.len → k + 1 < e.len ∧ e.byte k = e.byte (k + 1)
  | 0, j, k, h, hk, _ => by
    cases h
    omega
  | n + 1, j, k, h, hk, hlen => by
    unfold rawSpanEndFrom at h
    split at h
    · next hj =>
      split at h
      · next hj1 =>
        rw [input_ok (hin j hj), ok_bind, input_ok (hin _ hj1), ok_bind] at h
        split at h
        · next heq =>
          cases h
          exact ⟨hj1, heq⟩
        · exact rawSpanEndFrom_stop hin h (by omega) hlen
      · exact rawSpanEndFrom_stop hin h (by omega) hlen
    · next hj =>
      cases h
      exact absurd hlen hj

/-- `e.SpanAt i next span`: from input index `i` the run classifier takes the bytes before `next`, and `span` is what the
span emitters write for them. -/
inductive Env.SpanAt (e : Env) (i : Nat) : Nat → List Byte → Prop where
  | run {n : Nat} : runLength e i = .ok n → 2 ≤ n → e.SpanAt i (i + n) [BitVec.ofNat 8 (0x80 + n), e.byte i]
  | raw {n : Nat} : runLength e i = .ok 1 → rawSpanEnd e i = .ok (i + n) →
      e.SpanAt i (i + n) (BitVec.ofNat 8 (n - 1) :: e.span i n)

/-- `e.Spans i spans`: RLE_ENC's rounds from input index `i` on write `spans`. -/
inductive Env.Spans (e : Env) : Nat → List (Nat × List Byte) → Prop where
  | done {i : Nat} : i = e.len → e.Spans i []
  | span {i next : Nat} {span : List Byte} {spans : List (Nat × List Byte)} : i < e.len → e.SpanAt i next span →
      e.Spans next spans → e.Spans i ((i, span) :: spans)

section
variable {e : Env} {i : Nat}

theorem runLength_eq_ok {n : Nat} (hi : i < e.len) (h : runLength e i = .ok n) : 1 ≤ n ∧ n ≤ 127 ∧ i + n ≤ e.len ∧
    (∀ t, t < n → e.byte (i + t) = e.byte i) ∧ (n < 127 → i + n < e.len → e.byte (i + n) ≠ e.byte i) := by
  have hspec := runLength_spec hi
  rwa [h] at hspec

theorem rawSpanEnd_eq_ok {n : Nat} (hi : i < e.len) (h : rawSpanEnd e i = .ok (i + n)) : 1 ≤ n ∧ n ≤ 128 ∧
    i + n ≤ e.len ∧ ∀ t, i + 1 ≤ t → t < i + n → t + 1 < e.len → e.byte t ≠ e.byte (t + 1) := by
  have hspec := rawSpanEnd_spec hi
  rw [h] at hspec
  obtain ⟨hlow, hhigh, hrest⟩ := hspec
  exact ⟨by omega, by omega, hrest⟩

theorem Env.SpanAt.inside {next : Nat} {span : List Byte} (h : e.SpanAt i next span) (hi : i < e.len) :
    i < next ∧ next ≤ e.len := by
  cases h with
  | run hrun hn =>
    obtain ⟨-, -, hle, -⟩ := runLength_eq_ok hi hrun
    omega
  | raw _ hraw =>
    obtain ⟨hpos, -, hle, -⟩ := rawSpanEnd_eq_ok hi hraw
    omega

/-- Each round consumes at least one byte, so L_LEN rounds are enough. -/
theorem Env.Spans.count_le {spans : List (Nat × List Byte)} (h : e.Spans i spans) : i + spans.length ≤ e.len := by
  induction h with
  | done hend => exact hend.le
  | span hi hspan _ ih =>
    have := (hspan.inside hi).1
    rw [List.length_cons]
    omega

variable (hbus : e.BusFine)
include hbus

theorem exists_spanAt (hi : i < e.len) : ∃ next span, e.SpanAt i next span := by
  obtain ⟨n, hrun, hpos, -⟩ := (runLength_spec hi).exists_ok hbus
  obtain rfl | hn := Nat.eq_or_lt_of_le hpos
  · obtain ⟨j, hraw, hlow, -⟩ := (rawSpanEnd_spec hi).exists_ok hbus
    obtain ⟨n, rfl⟩ := Nat.exists_eq_add_of_le (Nat.le_of_succ_le hlow)
    exact ⟨_, _, .raw hrun hraw⟩
  · exact ⟨_, _, .run hrun hn⟩

end

/-- RLE_ENC's rounds reach the end of the input from every index. -/
theorem exists_spans {e : Env} (hbus : e.BusFine) (i : Nat) (hi : i ≤ e.len) : ∃ spans, e.Spans i spans := by
  obtain rfl | hlt := Nat.eq_or_lt_of_le hi
  · exact ⟨[], .done rfl⟩
  · obtain ⟨next, span, hspan⟩ := exists_spanAt hbus hlt
    have hnext := hspan.inside hlt
    obtain ⟨spans, hspans⟩ := exists_spans hbus next hnext.2
    exact ⟨_, .span hlt hspan hspans⟩
termination_by e.len - i

/-! ### The spans are those of the format's relation (45_rle_encoder R350 to R353) -/

section
variable {e : Env} {i : Nat}

theorem span_eq_replicate {n : Nat} {b : Byte} (h : ∀ t, t < n → e.byte (i + t) = b) :
    e.span i n = List.replicate n b := by
  refine List.eq_replicate_iff.mpr ⟨span_length e i n, fun c hc => ?_⟩
  obtain ⟨t, ht, rfl⟩ := List.mem_map.mp hc
  exact h t (List.mem_range.mp ht)

theorem span_isChain {n : Nat} (h : ∀ t, i ≤ t → t + 1 < i + n → e.byte t ≠ e.byte (t + 1)) :
    List.IsChain (fun x y => x ≠ y) (e.span i n) := by
  refine List.isChain_iff_getElem.mpr fun k hk => ?_
  rw [span_length] at hk
  simpa [Env.span, Nat.add_assoc] using h (i + k) (Nat.le_add_right i k) (by omega)

theorem span_take_one (m : Nat) : (e.span i m).take 1 = e.span i (min m 1) := by
  cases m with
  | zero => rfl
  | succ m => rw [span_succ, Nat.min_eq_right (Nat.le_add_left 1 m)]; rfl

/-- The run at `i` is the longest of its byte, up to 127 bytes. -/
theorem rleEncoding_run {n m : Nat} {spans : List (Nat × List Byte)} (hrun : runLength e i = .ok n) (hn : 2 ≤ n)
    (hlen : i + n + m = e.len) (hrest : RleEncoding (i + n) (e.span (i + n) m) spans) :
    RleEncoding i (e.span i (n + m)) ((i, [BitVec.ofNat 8 (0x80 + n), e.byte i]) :: spans) := by
  obtain ⟨-, hmax, -, hsame, hends⟩ := runLength_eq_ok (by omega) hrun
  rw [span_add, span_eq_replicate hsame]
  refine .run i (e.byte i) n hn hmax (fun hlt => ?_) hrest
  cases m with
  | zero => simp [Env.span]
  | succ m =>
    rw [span_succ, List.head?_cons]
    exact fun h => hends hlt (by omega) (Option.some.inj h)

/-- The raw span at `i` holds no repeat and stops at 128 bytes, at the end, or before a repeat. -/
theorem rleEncoding_raw (hin : ∀ i, i < e.len → e.cfg.busOk (e.src + i) = true) {n m : Nat}
    {spans : List (Nat × List Byte)} (hrun : runLength e i = .ok 1) (hraw : rawSpanEnd e i = .ok (i + n))
    (hi : i < e.len) (hlen : i + n + m = e.len) (hrest : RleEncoding (i + n) (e.span (i + n) m) spans) :
    RleEncoding i (e.span i (n + m)) ((i, BitVec.ofNat 8 (n - 1) :: e.span i n) :: spans) := by
  obtain ⟨-, -, -, -, hfirst⟩ := runLength_eq_ok hi hrun
  obtain ⟨hlow, hhigh, -, hdiffer⟩ := rawSpanEnd_eq_ok hi hraw
  have hspan := RleEncoding.raw i (e.span i n) (rest := e.span (i + n) m) (spans := spans)
  rw [span_length, ← span_add] at hspan
  refine hspan hlow hhigh ?_ (fun hshort => ?_) hrest
  · rw [span_take_one, ← span_add]
    refine span_isChain fun t ht ht' => ?_
    obtain rfl | hlt := Nat.eq_or_lt_of_le ht
    · exact (hfirst (by omega) (by omega)).symm
    · exact hdiffer t hlt (by omega) (by omega)
  · obtain hend | hmore := Nat.eq_or_lt_of_le (show i + n ≤ e.len by omega)
    · exact .inl (by rw [show m = 0 by omega]; rfl)
    · obtain ⟨hnext, hrepeat⟩ := rawSpanEndFrom_stop hin hraw (by simp only [rleMaxRaw]; omega) hmore
      obtain ⟨m, rfl⟩ := Nat.exists_eq_add_of_le' (show 2 ≤ m by omega)
      exact .inr ⟨e.byte (i + n), e.span (i + n + 1 + 1) m, by rw [span_succ, span_succ, ← hrepeat]⟩

/-- What RLE_ENC's rounds write from index `i` on is the encoding of the bytes from there to the end. -/
theorem Env.Spans.rleEncoding (hin : ∀ i, i < e.len → e.cfg.busOk (e.src + i) = true)
    {spans : List (Nat × List Byte)} (h : e.Spans i spans) : ∀ {n : Nat}, i + n = e.len →
    RleEncoding i (e.span i n) spans := by
  induction h with
  | done hend =>
    intro n hn
    rw [show n = 0 by omega]
    exact .nil _
  | span hi hspan _ ih =>
    intro n hn
    obtain ⟨hlt, hle⟩ := hspan.inside hi
    obtain ⟨m, hm⟩ := Nat.exists_eq_add_of_le hle
    cases hspan with
    | @run k hrun h2 =>
      rw [show n = k + m by omega]
      exact rleEncoding_run hrun h2 hm.symm (ih hm.symm)
    | @raw k hrun hraw =>
      rw [show n = k + m by omega]
      exact rleEncoding_raw hin hrun hraw hi hm.symm (ih hm.symm)

end

/-! ### The span emitters (45_rle_encoder R352, R353) -/

/-- The run with `n` measured by RUN_LENGTH, as the span emitters find it. -/
def Run.runMeasured (r : Run) (n : Nat) : Run := { r with u := { r.u with rleR := n } }

/-- The run with `j` set by RAW_SPAN_END, as EMIT_RAW finds it. -/
def Run.rawMeasured (r : Run) (j : Nat) : Run := { r with u := { r.u with rleR := 1, rleJ := j } }

section
variable {e : Env} {r : Run}

theorem rleEncSpan_of_run {n : Nat} (hrun : runLength e r.u.rleI = .ok n) (hn : 2 ≤ n) :
    rleEncSpan e r = emitRun e (r.runMeasured n) := by
  rw [rleEncSpan, hrun, ok_bind]
  exact if_pos hn

theorem rleEncSpan_of_raw {j : Nat} (hrun : runLength e r.u.rleI = .ok 1) (hraw : rawSpanEnd e r.u.rleI = .ok j) :
    rleEncSpan e r = emitRaw e (r.rawMeasured j) := by
  rw [rleEncSpan, hrun, ok_bind, if_neg (by decide), hraw, ok_bind]
  rfl

variable (hbus : e.BusFine)
include hbus

/-- Emitting more input bytes than fit overflows with the info given. -/
theorem emitInput_full {info : Nat} : ∀ {n k : Nat} {r : Run}, k + n ≤ e.len → r.out.length ≤ e.cap →
    e.cap < r.out.length + n → emitInput e info n k r = .error ⟨.outputOverflow, info⟩
  | 0, _, _, _, h, h' => by omega
  | n + 1, k, r, hk, h, h' => by
    rw [emitInput, input_ok (hbus.1 _ (by omega)), ok_bind]
    obtain hfull | hroom := Nat.eq_or_lt_of_le h
    · rw [emit_full hfull.ge, error_bind]
    · rw [emit_ok ⟨hroom, hbus.2⟩, ok_bind]
      exact emitInput_full (by omega) (by simpa using hroom) (by simp; omega)

theorem emitRun_ok (hi : r.u.rleI < e.len) (hfit : r.out.length + 2 ≤ e.cap) : emitRun e r =
    .ok { r with
      out := r.out ++ [BitVec.ofNat 8 (0x80 + r.u.rleR), e.byte r.u.rleI]
      u := { r.u with rleI := r.u.rleI + r.u.rleR } } := by
  rw [emitRun, emit_ok ⟨by omega, hbus.2⟩, ok_bind, input_ok (hbus.1 _ hi), ok_bind,
    emit_ok ⟨by simp; omega, hbus.2⟩, ok_bind, List.append_assoc]
  rfl

theorem emitRun_full (hi : r.u.rleI < e.len) (h : r.out.length ≤ e.cap) (h' : e.cap < r.out.length + 2) :
    emitRun e r = .error ⟨.outputOverflow, r.u.rleI⟩ := by
  rw [emitRun]
  obtain hfull | hroom := Nat.eq_or_lt_of_le h
  · rw [emit_full hfull.ge, error_bind]
  · rw [emit_ok ⟨hroom, hbus.2⟩, ok_bind, input_ok (hbus.1 _ hi), ok_bind, emit_full (by simp; omega), error_bind]

theorem emitRaw_ok {n : Nat} (hj : r.u.rleJ = r.u.rleI + n) (hle : r.u.rleI + n ≤ e.len)
    (hfit : r.out.length + (n + 1) ≤ e.cap) : emitRaw e r =
    .ok { r with
      out := r.out ++ BitVec.ofNat 8 (n - 1) :: e.span r.u.rleI n
      u := { r.u with rleI := r.u.rleI + n } } := by
  rw [emitRaw, hj, Nat.add_sub_cancel_left, emit_ok ⟨by omega, hbus.2⟩, ok_bind,
    emitInput_ok hbus.1 hle ⟨by simp; omega, hbus.2⟩, ok_bind, List.append_assoc]
  rfl

theorem emitRaw_full {n : Nat} (hj : r.u.rleJ = r.u.rleI + n) (hle : r.u.rleI + n ≤ e.len)
    (h : r.out.length ≤ e.cap) (h' : e.cap < r.out.length + (n + 1)) :
    emitRaw e r = .error ⟨.outputOverflow, r.u.rleI⟩ := by
  rw [emitRaw, hj, Nat.add_sub_cancel_left]
  obtain hfull | hroom := Nat.eq_or_lt_of_le h
  · rw [emit_full hfull.ge, error_bind]
  · rw [emit_ok ⟨hroom, hbus.2⟩, ok_bind, emitInput_full hbus hle (by simpa using hroom) (by simp; omega), error_bind]

/-! ### The loop (45_rle_encoder R354) -/

variable {next : Nat} {span : List Byte}

/-- One round writes the span at its index and moves behind the bytes it stands for. -/
theorem rleEncSpan_ok (hi : r.u.rleI < e.len) (h : e.SpanAt r.u.rleI next span)
    (hfit : r.out.length + span.length ≤ e.cap) :
    ∃ r', rleEncSpan e r = .ok r' ∧ r'.out = r.out ++ span ∧ r'.u.rleI = next := by
  obtain ⟨-, hle⟩ := h.inside hi
  cases h with
  | @run n hrun hn =>
    exact ⟨_, (rleEncSpan_of_run hrun hn).trans (emitRun_ok hbus (r := r.runMeasured n) hi hfit), rfl, rfl⟩
  | @raw n hrun hraw =>
    rw [List.length_cons, span_length] at hfit
    exact ⟨_, (rleEncSpan_of_raw hrun hraw).trans (emitRaw_ok hbus (r := r.rawMeasured _) rfl hle hfit), rfl, rfl⟩

theorem rleEncSpan_full (hi : r.u.rleI < e.len) (h : e.SpanAt r.u.rleI next span) (hfit : r.out.length ≤ e.cap)
    (hover : e.cap < r.out.length + span.length) : rleEncSpan e r = .error ⟨.outputOverflow, r.u.rleI⟩ := by
  obtain ⟨-, hle⟩ := h.inside hi
  cases h with
  | @run n hrun hn => exact (rleEncSpan_of_run hrun hn).trans (emitRun_full hbus (r := r.runMeasured n) hi hfit hover)
  | @raw n hrun hraw =>
    rw [List.length_cons, span_length] at hover
    exact (rleEncSpan_of_raw hrun hraw).trans (emitRaw_full hbus (r := r.rawMeasured _) rfl hle hfit hover)

/-- The rounds of the spans `pre`, when these fit, leave the rounds of the spans after them. -/
theorem rleEncLoop_append {n : Nat} {post : List (Nat × List Byte)} : ∀ {pre : List (Nat × List Byte)} {r : Run},
    e.Spans r.u.rleI (pre ++ post) → r.out.length + (recordBytes pre).length ≤ e.cap →
    ∃ r', rleEncLoop e (pre.length + n) r = rleEncLoop e n r' ∧ r'.out = r.out ++ recordBytes pre ∧
      e.Spans r'.u.rleI post
  | [], r, h, _ => ⟨r, by rw [List.length_nil, Nat.zero_add], (List.append_nil _).symm, h⟩
  | (_, _) :: pre, r, .span hi hspan hspans, hfit => by
    rw [recordBytes_cons, List.length_append] at hfit
    obtain ⟨r1, hround, hout, rfl⟩ := rleEncSpan_ok hbus hi hspan (by omega)
    obtain ⟨r', hloop, hout', hpost⟩ := rleEncLoop_append hspans (by rw [hout, List.length_append]; omega)
    refine ⟨r', ?_, by rw [hout', hout, List.append_assoc, recordBytes_cons], hpost⟩
    rw [List.length_cons, Nat.add_right_comm, rleEncLoop, if_pos hi, hround, ok_bind, hloop]

theorem rleEncLoop_ok {n : Nat} {spans : List (Nat × List Byte)} (h : e.Spans r.u.rleI spans)
    (hn : spans.length ≤ n) (hfit : r.out.length + (recordBytes spans).length ≤ e.cap) :
    ∃ r', rleEncLoop e n r = .ok r' ∧ r'.out = r.out ++ recordBytes spans := by
  obtain ⟨r', hloop, hout, hend⟩ := rleEncLoop_append hbus (n := n - spans.length) (post := [])
    (by rwa [List.append_nil]) hfit
  rw [Nat.add_sub_cancel' hn] at hloop
  refine ⟨r', hloop.trans ?_, hout⟩
  cases hend with
  | done hlast =>
    cases n - spans.length with
    | zero => rfl
    | succ m => exact if_neg hlast.not_lt

/-- The loop stops at the first span that does not fit, with that span's start. -/
theorem rleEncLoop_full {n i : Nat} {pre post : List (Nat × List Byte)} (h : e.Spans r.u.rleI (pre ++ (i, span) :: post))
    (hn : pre.length < n) (hfit : r.out.length + (recordBytes pre).length ≤ e.cap)
    (hover : e.cap < r.out.length + (recordBytes pre).length + span.length) :
    rleEncLoop e n r = .error ⟨.outputOverflow, i⟩ := by
  obtain ⟨m, rfl⟩ := Nat.exists_eq_add_of_lt hn
  obtain ⟨r', hloop, hout, hpost⟩ := rleEncLoop_append hbus (n := m + 1) h hfit
  rw [← List.length_append, ← hout] at hfit hover
  cases hpost with
  | span hi hspan _ =>
    rw [Nat.add_assoc, hloop, rleEncLoop, if_pos hi, rleEncSpan_full hbus hi hspan hfit hover, error_bind]

/-! ### RLE_ENC (45_rle_encoder R354) -/

variable (hr : r.out = [])
include hr

theorem rleEncUnit_ok {spans : List (Nat × List Byte)} (h : e.Spans 0 spans)
    (hfit : (recordBytes spans).length ≤ e.cap) : ∃ r', rleEncUnit e r = .ok r' ∧ r'.out = recordBytes spans := by
  obtain ⟨r', hloop, hout⟩ := rleEncLoop_ok hbus (r := { r with u := { r.u with rleI := 0 } }) h
    ((Nat.zero_add _).ge.trans h.count_le) (by simpa [hr] using hfit)
  exact ⟨r', hloop, by simpa [hr] using hout⟩

theorem rleEncUnit_full {i : Nat} {pre post : List (Nat × List Byte)} (h : e.Spans 0 (pre ++ (i, span) :: post))
    (hfit : (recordBytes pre).length ≤ e.cap) (hover : e.cap < (recordBytes pre).length + span.length) :
    rleEncUnit e r = .error ⟨.outputOverflow, i⟩ := by
  have hcount := h.count_le
  rw [Nat.zero_add, List.length_append, List.length_cons] at hcount
  exact rleEncLoop_full hbus (r := { r with u := { r.u with rleI := 0 } }) h (by omega) (by simpa [hr] using hfit)
    (by simpa [hr] using hover)

end

/-- Settles O40: the spans of RLE_ENC's rounds are the encoding of the input, and the loop writes them all or stops at the
first that does not fit. -/
theorem rleEncWritesSpans : Obligations.RleEncWritesSpans := by
  unfold Obligations.RleEncWritesSpans
  intro s hs hbus hw
  obtain ⟨spans, hspans⟩ := exists_spans hbus 0 (Nat.zero_le s.env.len)
  have henc : RleEncoding 0 s.env.bytes spans := by
    rw [bytes_eq_span]
    exact hspans.rleEncoding hbus.1 (Nat.zero_add _)
  refine ⟨spans, henc, henc.rleWritten, henc.rleArtifact, henc.length_le.trans_eq (by rw [bytes_length]; rfl),
    fun hfit => ?_, fun pre i span post hsplit hfit hover => ?_⟩
  · exact exec_succeeded rfl hs hw (rleEncUnit_ok hbus rfl hspans hfit) hfit
  · subst hsplit
    exact exec_failed rfl hs (rleEncUnit_full hbus rfl hspans hfit hover)

end Sys2Proof.Machine

/-! PROOFS. RLE_DEC: each round expands one span of the artifact, overflows inside it or finds it cut short; and RLE_DEC
of RLE_ENC's output (46_rle_decoder R380 to R383, 60_exceptions R402, R408, R415). -/

namespace Sys2Proof.Machine

/-! ### One span (46_rle_decoder R380, R381) -/

/-- The run behind the control byte `c` of a span. -/
def Run.controlRead (r : Run) (c : Byte) : Run := { r with ip := r.ip + 1, u := { r.u with rleC := c } }

/-- The run behind the first `k` bytes of a span with control byte `c` that stands for `n` bytes. -/
def Run.spanRead (r : Run) (c : Byte) (n k : Nat) : Run :=
  { r with ip := r.ip + k, u := { r.u with rleC := c, rleCnt := n } }

/-- The bytes read at `i` are the span there. -/
theorem span_of_drop {e : Env} {i : Nat} {bs tail : List Byte} (h : e.bytes.drop i = bs ++ tail) :
    e.span i bs.length = bs := by
  have hlen : e.len - i = bs.length + tail.length := by
    rw [← bytes_length, ← List.length_drop, h, List.length_append]
  have hspan : e.bytes.drop i = e.span i (e.len - i) := by
    obtain hle | hge := Nat.le_total i e.len
    · rw [bytes_eq_span, ← Nat.add_sub_cancel' hle, span_add, Nat.add_sub_cancel_left, Nat.zero_add,
        List.drop_left' (span_length e 0 i)]
    · rw [List.drop_of_length_le (by rwa [bytes_length]), Nat.sub_eq_zero_of_le hge]
      rfl
  rw [h, hlen, span_add] at hspan
  exact (List.append_inj_left hspan (span_length e i _).symm).symm

section
variable {e : Env} (hbus : e.BusFine) {r : Run} {c : Byte}
include hbus

/-- The control byte read, its bit 7 chooses between the two expanders. -/
theorem rleDecSpan_control {bs : List Byte} (h : e.bytes.drop r.ip = c :: bs) :
    e.len - (r.ip + 1) = bs.length ∧ rleDecSpan e r =
      if c.getLsbD 7 then expandRun e c r.ip (r.controlRead c) else expandRaw e c r.ip (r.controlRead c) := by
  have hrest : e.bytes.drop (r.ip + 1) = bs := drop_add_of_append (xs := [c]) h
  refine ⟨by rw [← bytes_length, ← List.length_drop, hrest], ?_⟩
  rw [rleDecSpan, fetch_of_drop hbus.1 h, ok_bind]
  rfl

/-- A run control with its value byte emits that byte over and over. -/
theorem rleDecSpan_run {v : Byte} {tail : List Byte} (h : e.bytes.drop r.ip = c :: v :: tail)
    (hc : c.getLsbD 7 = true) :
    rleDecSpan e r = emitRep e v (r.ip + 2) (c.toNat % 128) (r.spanRead c (c.toNat % 128) 2) := by
  obtain ⟨hleft, hspan⟩ := rleDecSpan_control hbus h
  rw [List.length_cons] at hleft
  have hv : e.bytes.drop (r.spanRead c (c.toNat % 128) 1).ip = v :: tail := drop_add_of_append (xs := [c]) h
  have hexpand : expandRun e c r.ip (r.controlRead c) =
      fetch e (r.spanRead c (c.toNat % 128) 1) >>= fun p => emitRep e p.1 p.2.ip (c.toNat % 128) p.2 :=
    if_neg (hleft.ge.trans' (Nat.le_add_left 1 _)).not_gt
  rw [hspan, if_pos hc, hexpand, fetch_of_drop hbus.1 hv, ok_bind]
  rfl

/-- A raw control with the bytes it promises copies them. -/
theorem rleDecSpan_raw {bs tail : List Byte} (h : e.bytes.drop r.ip = c :: bs ++ tail) (hc : c.getLsbD 7 = false)
    (hlen : bs.length = c.toNat % 128 + 1) :
    r.ip + 1 + bs.length ≤ e.len ∧
      rleDecSpan e r = copyBytes e bs.length (r.spanRead c bs.length 1) := by
  obtain ⟨hleft, hspan⟩ := rleDecSpan_control hbus (bs := bs ++ tail) h
  rw [List.length_append] at hleft
  have henough : ¬e.len - (r.controlRead c).ip < c.toNat % 128 + 1 := by
    rw [← hlen]
    exact (hleft.ge.trans' (Nat.le_add_right _ _)).not_gt
  refine ⟨by omega, ?_⟩
  rw [hspan, if_neg (Bool.eq_false_iff.mp hc), expandRaw, hlen]
  exact if_neg henough

/-- A span cut short fails with the offset of its control byte. -/
theorem rleDecSpan_truncated {tail : List Byte} (h : e.bytes.drop r.ip = c :: tail)
    (hshort : (c.getLsbD 7 = true ∧ tail = []) ∨ (c.getLsbD 7 = false ∧ tail.length < c.toNat % 128 + 1)) :
    rleDecSpan e r = .error ⟨.truncatedStream, r.ip⟩ := by
  obtain ⟨hleft, hspan⟩ := rleDecSpan_control hbus h
  obtain ⟨hc, rfl⟩ | ⟨hc, hlt⟩ := hshort
  · rw [hspan, if_pos hc]
    exact if_pos (hleft.trans_lt Nat.one_pos)
  · rw [hspan, if_neg (Bool.eq_false_iff.mp hc)]
    exact if_pos (hleft.trans_lt hlt)

/-- Where a run fits, the span moves behind it and appends its bytes. -/
theorem rleDecSpan_run_ok {v : Byte} {tail : List Byte} (h : e.bytes.drop r.ip = [c, v] ++ tail)
    (hc : c.getLsbD 7 = true) (hfit : r.out.length + (List.replicate (c.toNat % 128) v).length ≤ e.cap) :
    ∃ r', rleDecSpan e r = .ok r' ∧ r'.ip = r.ip + 2 ∧ r'.out = r.out ++ List.replicate (c.toNat % 128) v := by
  rw [List.length_replicate] at hfit
  exact ⟨_, (rleDecSpan_run hbus h hc).trans (emitRep_ok (r := r.spanRead c _ 2) ⟨hfit, hbus.2⟩), rfl, rfl⟩

theorem rleDecSpan_run_full {v : Byte} {tail : List Byte} (h : e.bytes.drop r.ip = c :: v :: tail)
    (hc : c.getLsbD 7 = true) (hle : r.out.length ≤ e.cap) (hover : e.cap < r.out.length + c.toNat % 128) :
    rleDecSpan e r = .error ⟨.outputOverflow, r.ip + 2⟩ :=
  (rleDecSpan_run hbus h hc).trans (emitRep_full (r := r.spanRead c _ 2) hbus.2 hle hover)

section
variable {bs tail : List Byte} (h : e.bytes.drop r.ip = c :: bs ++ tail) (hc : c.getLsbD 7 = false)
  (hlen : bs.length = c.toNat % 128 + 1)
include h hc hlen

theorem rleDecSpan_raw_ok (hfit : r.out.length + bs.length ≤ e.cap) :
    ∃ r', rleDecSpan e r = .ok r' ∧ r'.ip = r.ip + (bs.length + 1) ∧ r'.out = r.out ++ bs := by
  obtain ⟨hinside, hspan⟩ := rleDecSpan_raw hbus h hc hlen
  have hbs : e.bytes.drop (r.ip + 1) = bs ++ tail := drop_add_of_append (xs := [c]) h
  exact ⟨_, hspan.trans (copyBytes_ok hbus.1 (r := r.spanRead c bs.length 1) hinside ⟨hfit, hbus.2⟩),
    Nat.add_right_comm r.ip 1 _, congrArg (r.out ++ ·) (span_of_drop hbs)⟩

theorem rleDecSpan_raw_full (hle : r.out.length ≤ e.cap) (hover : e.cap < r.out.length + bs.length) :
    rleDecSpan e r = .error ⟨.outputOverflow, r.ip + 2 + (e.cap - r.out.length)⟩ := by
  obtain ⟨hinside, hspan⟩ := rleDecSpan_raw hbus h hc hlen
  rw [hspan, copyBytes_full hbus (r := r.spanRead c bs.length 1) hinside hle hover]
  exact congrArg (fun i => Except.error (⟨.outputOverflow, i⟩ : Raise)) (Nat.add_right_comm (r.ip + 1) _ 1)

end
end

/-! ### The loop (46_rle_decoder R382) -/

/-- `e.Expands art out`: where the input goes on with `art` and `out` fits, the rounds for `art` move behind it and
append `out`; they are at most as many as its bytes. -/
def Env.Expands (e : Env) (art out : List Byte) : Prop :=
  ∀ (n : Nat) (r : Run) (tail : List Byte), e.bytes.drop r.ip = art ++ tail → r.out.length + out.length ≤ e.cap →
    art.length ≤ n → ∃ m r', rleDecLoop e n r = rleDecLoop e m r' ∧ n ≤ m + art.length ∧ r'.ip = r.ip + art.length ∧
      r'.out = r.out ++ out

section
variable {e : Env}

theorem rleDecLoop_end {r : Run} (h : e.len ≤ r.ip) : ∀ n, rleDecLoop e n r = .ok r
  | 0 => rfl
  | _ + 1 => if_neg (not_lt.mpr h)

/-- A round before the end of the input is a span and the rounds behind it. -/
theorem rleDecLoop_succ {n : Nat} {r : Run} {c : Byte} {bs : List Byte} (h : e.bytes.drop r.ip = c :: bs) :
    rleDecLoop e (n + 1) r = rleDecSpan e r >>= rleDecLoop e n :=
  if_pos (bytes_length e ▸ lt_length_of_drop_cons h)

theorem Env.Expands.nil : e.Expands [] [] :=
  fun n r _ _ _ _ => ⟨n, r, rfl, le_rfl, rfl, (List.append_nil _).symm⟩

/-- A round for the span `c :: span`, then the rounds behind it. -/
theorem Env.Expands.cons {c : Byte} {span bs art out : List Byte} (h : e.Expands art out)
    (hspan : ∀ (r : Run) (tail : List Byte), e.bytes.drop r.ip = c :: span ++ tail →
      r.out.length + bs.length ≤ e.cap →
      ∃ r', rleDecSpan e r = .ok r' ∧ r'.ip = r.ip + (c :: span).length ∧ r'.out = r.out ++ bs) :
    e.Expands (c :: span ++ art) (bs ++ out) := by
  intro n r tail hdrop hfit hn
  rw [List.append_assoc] at hdrop
  rw [List.length_append] at hfit hn ⊢
  obtain ⟨k, rfl⟩ : ∃ k, n = k + 1 := ⟨n - 1, by rw [List.length_cons] at hn; omega⟩
  obtain ⟨r1, hround, hip, hout⟩ := hspan r (art ++ tail) hdrop (by omega)
  obtain ⟨m, r', hloop, hm, hip', hout'⟩ := h k r1 tail (hip ▸ drop_add_of_append hdrop)
    (by rw [hout, List.length_append]; omega) (by rw [List.length_cons] at hn; omega)
  refine ⟨m, r', ?_, by rw [List.length_cons]; omega, by omega, by rw [hout', hout, List.append_assoc]⟩
  rw [rleDecLoop_succ hdrop, hround, ok_bind, hloop]

variable (hbus : e.BusFine)
include hbus

/-- RLE_DEC's rounds expand an artifact to the bytes it stands for. -/
theorem RleArtifact.expands {art out : List Byte} (h : RleArtifact art out) : e.Expands art out := by
  induction h with
  | nil => exact .nil
  | run c v hc _ ih => exact ih.cons (span := [v]) fun _ _ hdrop hfit => rleDecSpan_run_ok hbus hdrop hc hfit
  | raw c bs hc hlen _ ih => exact ih.cons fun _ _ hdrop hfit => rleDecSpan_raw_ok hbus hdrop hc hlen hfit

/-! ### RLE_DEC (46_rle_decoder R382) -/

variable {r : Run} (hr : r.out = []) {art out : List Byte} (hart : RleArtifact art out) (hfit : out.length ≤ e.cap)
include hr hart hfit

/-- After spans that stand for `out`, when that fits, a round is left for each byte behind them. -/
theorem rleDecUnit_spans {tail : List Byte} (h : e.bytes = art ++ tail) :
    ∃ n r', rleDecUnit e r = rleDecLoop e n r' ∧ tail.length ≤ n ∧ r'.ip = art.length ∧ r'.out = out ∧
      e.bytes.drop r'.ip = tail := by
  have hlen : e.len = art.length + tail.length := by rw [← bytes_length, h, List.length_append]
  obtain ⟨n, r', hloop, hn, hip, hout⟩ := hart.expands hbus e.len { r with ip := 0 } tail h
    (by simpa [hr] using hfit) (by omega)
  rw [Nat.zero_add] at hip
  exact ⟨n, r', hloop, by omega, hip, by simpa [hr] using hout, by rw [hip, h, List.drop_left]⟩

/-- RLE_DEC writes what the artifact stands for. -/
theorem rleDecUnit_ok (h : e.bytes = art) : ∃ r', rleDecUnit e r = .ok r' ∧ r'.out = out := by
  obtain ⟨n, r', hunit, -, -, hout, hdrop⟩ := rleDecUnit_spans hbus hr hart hfit (h.trans (List.append_nil _).symm)
  rw [List.drop_eq_nil_iff, bytes_length] at hdrop
  exact ⟨r', hunit.trans (rleDecLoop_end hdrop n), hout⟩

/-- The span behind spans that fit is reached; where it raises, RLE_DEC does. -/
theorem rleDecUnit_next_span {c : Byte} {bs : List Byte} (h : e.bytes = art ++ c :: bs) :
    ∃ r', r'.ip = art.length ∧ r'.out = out ∧ e.bytes.drop r'.ip = c :: bs ∧
      ∀ z, rleDecSpan e r' = .error z → rleDecUnit e r = .error z := by
  obtain ⟨n, r', hunit, hn, hip, hout, hdrop⟩ := rleDecUnit_spans hbus hr hart hfit h
  obtain ⟨n, rfl⟩ := Nat.exists_eq_add_of_lt (Nat.zero_lt_of_lt hn)
  refine ⟨r', hip, hout, hdrop, fun z hz => ?_⟩
  rw [hunit, Nat.zero_add, rleDecLoop_succ hdrop, hz, error_bind]

end

/-- Settles O41: the loop expands the spans that fit, and the span behind them overflows in its round. -/
theorem rleDecExpands : Obligations.RleDecExpands := by
  unfold Obligations.RleDecExpands
  intro s hs hbus hw
  refine ⟨fun out hart hfit => ?_, fun pre out c v tail hart h hc hfit hover => exec_failed rfl hs ?_,
    fun pre out c bs tail hart h hc hlen hfit hover => exec_failed rfl hs ?_⟩
  · exact exec_succeeded rfl hs hw (rleDecUnit_ok hbus rfl hart hfit rfl) hfit
  · obtain ⟨r, hip, rfl, hdrop, herror⟩ := rleDecUnit_next_span hbus (r := s.begin) rfl hart hfit h
    exact hip ▸ herror _ (rleDecSpan_run_full hbus hdrop hc hfit hover)
  · rw [List.append_assoc] at h
    obtain ⟨r, hip, rfl, hdrop, herror⟩ := rleDecUnit_next_span hbus (r := s.begin) (bs := bs ++ tail) rfl hart hfit h
    exact hip ▸ herror _ (rleDecSpan_raw_full hbus hdrop hc hlen hfit hover)

/-- Settles O42: the round behind the spans that fit finds its span cut short. -/
theorem rleDecTruncated : Obligations.RleDecTruncated := by
  unfold Obligations.RleDecTruncated
  intro s art out tail c hs hbus hart hfit h hshort
  obtain ⟨r, hip, -, hdrop, herror⟩ := rleDecUnit_next_span hbus (r := s.begin) rfl hart hfit h
  exact exec_failed rfl hs (hip ▸ herror _ (rleDecSpan_truncated hbus hdrop hshort))

/-! ### RLE_DEC of RLE_ENC's output (46_rle_decoder R383) -/

/-- RLE_ENC that ends without error has written an artifact of its input. -/
theorem rleEnc_succeeded {s t : State} (hs : s.Running) (hbus : s.env.BusFine) (hw : Memory.wf s.mem = true)
    (h : exec .rleEnc s = .next t) (herr : t.error = false) :
    ∃ art, RleArtifact art s.env.bytes ∧ Succeeded s t art := by
  obtain ⟨spans, -, -, hart, -, hfits, hover⟩ := rleEncWritesSpans s hs hbus hw
  obtain hfull | hfit := Nat.lt_or_ge s.latch.cap.toNat (recordBytes spans).length
  · obtain ⟨pre, i, span, post, hsplit, hle, hlt⟩ := exists_record_too_many hfull
    obtain ⟨t', ht', hfail⟩ := hover pre i span post hsplit hle hlt
    cases h.symm.trans ht'
    cases herr.symm.trans hfail.code.1
  · obtain ⟨t', ht', hok⟩ := hfits hfit
    cases h.symm.trans ht'
    exact ⟨_, hart, hok⟩

/-- Settles O43: what RLE_ENC leaves in memory is an artifact that stands for its input, and RLE_DEC writes what an
artifact stands for. -/
theorem rleRoundTrip : Obligations.RleRoundTrip := by
  unfold Obligations.RleRoundTrip
  intro s hs hbus hw
  refine ⟨fun hfit => ?_, fun t s' ht herr hs' hbus' hmem hsrc hlen hcap => ?_⟩
  · obtain ⟨spans, -, -, -, hle, hfits, -⟩ := rleEncWritesSpans s hs hbus hw
    obtain ⟨t, ht, hok⟩ := hfits (hle.trans hfit)
    exact ⟨t, ht, hok.noError.1⟩
  · obtain ⟨art, hart, hok⟩ := rleEnc_succeeded hs hbus hw ht herr
    have hw' : Memory.wf s'.mem = true := hmem ▸ exec_mem_wf rfl ht hw
    obtain ⟨hexpands, -⟩ := rleDecExpands s' hs' hbus' hw'
    refine hexpands s.env.bytes ?_ ((bytes_length s.env).trans_le hcap)
    rwa [bytes_of_succeeded hok hmem hsrc hlen]

end Sys2Proof.Machine

/-! PROOFS. Exceptions and resets: the block's turn, the errors a running command can end with and what its ERR_INFO holds,
what a START is refused for, and the state a reset leaves (60_exceptions R405 to R413, R426, 70_reset_and_hazards R450, R452,
R461). -/

namespace Sys2Proof.Machine

/-! ### The block's turn (40_command_sequencer R157, 60_exceptions R426) -/

/-- With no input left and at a blockTurn entry the step is the block's turn, the entry taken. -/
theorem step_blockTurn {s : State} {rest : List Input} (hc : s.cfg.wellFormed = true)
    (hi : s.inputs = [] ∨ s.inputs = .blockTurn :: rest) :
    step s = (blockTurn { s with inputs := s.inputs.tail }).outcome := by
  obtain hi | hi := hi
  · rw [step_nil hc hi, hi]
    exact congrArg (fun l => (blockTurn { s with inputs := l }).outcome) hi
  · rw [step_cons hc hi, hi]
    rfl

theorem blockTurn_idle {s : State} (hp : s.phase = .idle) : (blockTurn s).outcome = .next s := by
  simp only [blockTurn, hp, Fetched.outcome]

/-- Settles O8: the step is the block's turn, which an idle block lets pass. -/
theorem idleBlockDoesNothing : Obligations.IdleBlockDoesNothing := by
  unfold Obligations.IdleBlockDoesNothing
  intro s rest hc hp
  refine ⟨fun hi => ?_, fun hi => ?_⟩
  · rw [step_nil hc hi, blockTurn_idle hp]
  · rw [step_cons hc hi]
    exact blockTurn_idle (s := { s with inputs := rest }) hp

/-- On the block's turn a running command's word is run, or completes with BAD_COMMAND(0) when it selects no command. -/
theorem step_running {s : State} {rest : List Input} (hc : s.cfg.wellFormed = true)
    (hi : s.inputs = [] ∨ s.inputs = .blockTurn :: rest) (hp : s.phase = .run) :
    (∃ i, decodeCommand s.latch.cmd = some i ∧ step s = exec i { s with inputs := s.inputs.tail }) ∨
    (decodeCommand s.latch.cmd = none ∧
      step s = .next (takeError ⟨.badCommand, 0⟩ { s with inputs := s.inputs.tail })) := by
  rw [step_blockTurn hc hi]
  obtain ⟨hidle, -⟩ | ⟨-, hrun⟩ | ⟨-, hbad⟩ := blockTurn_outcome { s with inputs := s.inputs.tail }
  · cases hp.symm.trans hidle
  · exact .inl hrun
  · exact .inr hbad

/-! ### The start checks (40_command_sequencer R158, 60_exceptions R406, R407) -/

theorem takeError_failedWith (s : State) (r : Raise) : FailedWith (takeError r s) r.kind r.info where
  done := rfl
  idle := ⟨rfl, rfl⟩
  code := ⟨rfl, rfl⟩
  errInfo := rfl
  outLen := rfl

/-- A word that is 0 or at least 7 selects no command (30_encoding R112). -/
theorem decodeCommand_eq_none {w : Word} (hw : w = 0 ∨ 7 ≤ w.toNat) : decodeCommand w = none := by
  cases hd : decodeCommand w with
  | none => rfl
  | some i =>
    obtain ⟨rfl, -⟩ | ⟨rfl, -⟩ | ⟨rfl, -⟩ | ⟨rfl, -⟩ | ⟨rfl, -⟩ | ⟨rfl, -⟩ := decodeCommand_eq_some hd <;>
      exact absurd hw (by decide)

/-- Settles O21: the block's turn takes BAD_COMMAND(0), which touches no memory. -/
theorem badCommand : Obligations.BadCommand := by
  unfold Obligations.BadCommand
  intro s rest hc hp hw hi
  obtain ⟨i, hsome, -⟩ | ⟨-, hstep⟩ := step_running hc hi hp
  · cases hsome.symm.trans (decodeCommand_eq_none hw)
  · exact ⟨_, hstep, takeError_failedWith _ _, rfl, takeError_frame _ _⟩

/-- A command whose regions fail the start checks is given RANGE_ERROR(0). -/
theorem startChecks_rangeError {l : Latch} {i : Instr} (hd : decodeCommand l.cmd = some i)
    (h : 2 ^ 32 < l.src.toNat + l.len.toNat ∨ 2 ^ 32 < l.dst.toNat + l.cap.toNat ∨ l.input.meets l.output = true) :
    startChecks l = some ⟨.rangeError, 0⟩ := by
  cases hc : startChecks l with
  | none =>
    obtain ⟨-, hin, hout, hmeet⟩ := startChecks_eq_none.mp hc
    simp only [Latch.input, Latch.output] at hin hout
    obtain h | h | h := h
    · omega
    · omega
    · cases h.symm.trans hmeet
  | some r =>
    obtain ⟨-, hnone⟩ | ⟨rfl, -⟩ := startChecks_eq_some hc
    · cases hd.symm.trans hnone
    · rfl

/-- Settles O22: a start check fails, and the completion with its error touches no memory. -/
theorem rangeError : Obligations.RangeError := by
  unfold Obligations.RangeError
  intro s i hp hd hregions
  have hsome : decodeCommand s.latch.cmd = some i := decodeWord_cmd.mp (decode_wordBytes_eq_ok.mp hd)
  obtain ⟨u, hu⟩ := unitOf_of_decode hsome
  have hcheck : startChecks s.latch = some ⟨.rangeError, 0⟩ := by
    refine startChecks_rangeError hsome (hregions.imp_right (Or.imp_right ?_))
    rintro ⟨a, hin, hin', hout, hout'⟩
    exact Region.meets_iff.mpr ⟨a, Region.contains_iff.mpr ⟨hin, hin'⟩, Region.contains_iff.mpr ⟨hout, hout'⟩⟩
  rw [exec_of_unit hu]
  exact ⟨_, runCommand_checks u hp hcheck, takeError_failedWith _ _, rfl, takeError_frame _ _⟩

/-! ### The errors a running command can end with (60_exceptions R411, R413) -/

/-- What a running block with the latched operands `l` and the environment `e` can raise on its turn: a failed start
check, or an error of its command's unit, whose regions then lie inside the address space. -/
inductive TurnRaises (l : Latch) (e : Env) : Raise → Prop where
  | badCommand : decodeCommand l.cmd = none → TurnRaises l e ⟨.badCommand, 0⟩
  | rangeError (i : Instr) : decodeCommand l.cmd = some i → TurnRaises l e ⟨.rangeError, 0⟩
  | unit (i : Instr) (x : Raise) : decodeCommand l.cmd = some i → startChecks l = none → FailsAs e (errorsOf i) x →
      TurnRaises l e x

/-- After an error ERR_CODE and ERR_INFO hold what was raised (60_exceptions R414). -/
theorem exec_raises {s t : State} {i : Instr} (hd : decodeCommand s.latch.cmd = some i) (hp : s.phase = .run)
    (h : exec i s = .next t) (herr : t.error = true) :
    ∃ x, TurnRaises s.latch s.env x ∧ t.errCode = x.kind.code ∧ t.errInfo = BitVec.ofNat 32 x.info := by
  obtain ⟨u, hu⟩ := unitOf_of_decode hd
  rw [exec_of_unit hu] at h
  obtain ⟨hidle, -⟩ | ⟨-, x, hcheck, rfl⟩ | ⟨-, -, r, -, rfl⟩ | ⟨-, hcheck, x, hfail, rfl⟩ := runCommand_next h
  · cases hp.symm.trans hidle
  · obtain ⟨-, hnone⟩ | ⟨rfl, -⟩ := startChecks_eq_some hcheck
    · cases hd.symm.trans hnone
    · exact ⟨_, .rangeError i hd, rfl, rfl⟩
  · cases herr
  · have hpost := unit_post hu (begin_fits s)
    rw [hfail] at hpost
    exact ⟨x, .unit i x hd hcheck hpost, rfl, rfl⟩

theorem step_raises {s t : State} {rest : List Input} (hc : s.cfg.wellFormed = true)
    (hi : s.inputs = [] ∨ s.inputs = .blockTurn :: rest) (hp : s.phase = .run) (h : step s = .next t)
    (herr : t.error = true) :
    ∃ x, TurnRaises s.latch s.env x ∧ t.errCode = x.kind.code ∧ t.errInfo = BitVec.ofNat 32 x.info := by
  obtain ⟨i, hd, hstep⟩ | ⟨hnone, hstep⟩ := step_running hc hi hp
  · exact exec_raises (s := { s with inputs := s.inputs.tail }) hd hp (hstep.symm.trans h) herr
  · cases h.symm.trans hstep
    exact ⟨_, .badCommand hnone, rfl, rfl⟩

/-- Settles O25, by what the turn raises: the word that selects a command is not the one BAD_COMMAND is raised for. -/
theorem errorsOfEachCommand : Obligations.ErrorsOfEachCommand := by
  unfold Obligations.ErrorsOfEachCommand
  intro s t rest hc hi hp h herr
  obtain ⟨x, hx, hcode, -⟩ := step_raises hc hi hp h herr
  have hdecode : ∀ i, decode .cmd (wordBytes s.latch.cmd) = .ok (i, []) ↔ decodeCommand s.latch.cmd = some i :=
    fun i => decode_wordBytes_eq_ok.trans decodeWord_cmd
  simp only [ne_eq, hdecode, hcode]
  cases hx with
  | badCommand hnone => exact ⟨fun i hd => (nomatch hnone.symm.trans hd), fun _ => rfl⟩
  | rangeError i hd => exact ⟨fun _ _ => .inl rfl, fun hno => absurd hd (hno i)⟩
  | unit i x hd _ hfails =>
    refine ⟨fun j hj => ?_, fun hno => absurd hd (hno i)⟩
    obtain rfl := Option.some.inj (hd.symm.trans hj)
    exact .inr ⟨_, hfails.kind, rfl⟩

theorem ErrKind.code_injective {k k' : ErrKind} (h : k.code = k'.code) : k = k' := by
  revert h
  cases k <;> cases k' <;> decide

/-- ERR_INFO holds an error's info exactly: a unit raises input offsets, and addresses inside the space. -/
theorem FailsAs.info_lt {s : State} {ks : List ErrKind} {x : Raise} (hcheck : startChecks s.latch = none)
    (h : FailsAs s.env ks x) : x.info < 2 ^ 32 := by
  obtain ⟨-, hin, hout, -⟩ := startChecks_eq_none.mp hcheck
  by_cases hk : x.kind = .busError
  · obtain ⟨-, ⟨-, hlt⟩ | ⟨-, hlt⟩⟩ := h.bus hk
    · exact hlt.trans_le hin
    · exact hlt.trans_le hout
  · exact (h.info hk).trans_lt s.latch.len.isLt

/-- No command's unit raises the errors of the start checks. -/
theorem not_mem_errorsOf (i : Instr) : ErrKind.badCommand ∉ errorsOf i ∧ ErrKind.rangeError ∉ errorsOf i := by
  cases i <;> simp [errorsOf]

/-- Settles O26, by what the turn raises: a start check's info is 0, a unit's an input offset or a rejected address. -/
theorem errInfo : Obligations.ErrInfo := by
  unfold Obligations.ErrInfo
  intro s t rest hc hi hp h herr
  obtain ⟨x, hx, hcode, hinfo⟩ := step_raises hc hi hp h herr
  have hkind : ∀ k, t.errCode = ErrKind.code k ↔ x.kind = k :=
    fun k => ⟨fun hk => ErrKind.code_injective (hcode.symm.trans hk), fun hk => hk ▸ hcode⟩
  simp only [ne_eq, hkind, hinfo]
  cases hx with
  | badCommand _ | rangeError _ _ => exact ⟨fun hk => (nomatch hk), fun _ => rfl, fun _ => Nat.zero_le _⟩
  | unit i x _ hcheck hfails =>
    rw [BitVec.toNat_ofNat, Nat.mod_eq_of_lt (hfails.info_lt hcheck)]
    refine ⟨hfails.bus, ?_, hfails.info⟩
    rintro (hk | hk)
    · exact absurd (hk ▸ hfails.kind) (not_mem_errorsOf i).1
    · exact absurd (hk ▸ hfails.kind) (not_mem_errorsOf i).2

/-! ### LZ77_DEC's marker (44_lz77_decoder R320, R321) -/

/-- Settles O47: the unit raises at its first byte, or where it should stand. -/
theorem lz77DecMarker : Obligations.Lz77DecMarker := by
  unfold Obligations.Lz77DecMarker
  intro s hs hbus
  refine ⟨fun m tail hbytes hstored htokens => exec_failed rfl hs ?_, fun hbytes => exec_failed rfl hs ?_⟩
  · rw [(lz77DecUnit_marker hbus rfl hbytes).2, if_neg (show ¬m = markerStored from hstored),
      if_neg (show ¬m = markerTokens from htokens)]
  · have hlen : s.env.len = 0 := by simpa using congrArg List.length hbytes
    simp only [lz77DecUnit, readMarker, hlen, if_true, error_bind]

/-! ### A START outside the host's duties (70_reset_and_hazards R461) -/

theorem execStart_breach {s : State} {ie : Bool} {why : Refusal} (hb : s.busy = false) (h : dutyBreach s = some why) :
    execStart ie s = .refused why := by simp [execStart, hb, h]

theorem dutyBreach_regionOverDevice {s : State} (h : ∃ d ∈ Config.deviceRegions s.cfg,
    d.meets s.operands.input = true ∨ d.meets s.operands.output = true) : dutyBreach s = some .regionOverDevice :=
  if_pos (by simpa using h)

/-- A START that is not dutiful breaks some duty. -/
theorem execStart_refused {s : State} (ie : Bool) (hb : s.busy = false) (hd : ¬s.Dutiful) :
    ∃ why, execStart ie s = .refused why := by
  obtain ⟨why, h⟩ := Option.ne_none_iff_exists'.mp fun hnone => hd (dutyBreach_eq_none.mp hnone)
  exact ⟨why, execStart_breach hb h⟩

/-- Settles O28: the duties are checked at the START, device registers first; each duty broken leaves the START not
dutiful. -/
theorem dutiesRefused : Obligations.DutiesRefused := by
  unfold Obligations.DutiesRefused
  intro s ie x hb
  refine ⟨fun hdev => execStart_breach hb (dutyBreach_regionOverDevice hdev),
    fun hbroken => execStart_refused ie hb ?_, fun hmem hstores => ⟨_, execStart_idle hb ⟨hmem, hstores⟩, rfl⟩⟩
  rintro ⟨⟨-, hside⟩, hfenced, hcoherent⟩
  have hin : ∀ a, s.operands.input.contains a = true ↔ s.srcAddr.toNat ≤ a ∧ a < s.srcAddr.toNat + s.srcLen.toNat :=
    fun a => Region.contains_iff
  obtain ⟨m, hm, hmeets⟩ | ⟨a, ha, hrange⟩ | ⟨hincoherent, a, ha, hrange⟩ := hbroken
  · cases hmeets.symm.trans (hside m hm)
  · cases ((hin a).mpr hrange).symm.trans (hfenced a ha)
  · obtain hcoh | hclean := hcoherent
    · cases hcoh.symm.trans hincoherent
    · cases ((hin a).mpr hrange).symm.trans (hclean a ha)

/-! ### The resets (70_reset_and_hazards R450, R452) -/

/-- Settles O18: both steps are the one reset of the block. -/
theorem softResetIsHardwareReset : Obligations.SoftResetIsHardwareReset := by
  unfold Obligations.SoftResetIsHardwareReset
  rintro s _ v rest hc h1 hi rfl
  have hhard : step { s with inputs := .hwReset :: rest } = .next (resetBlock { s with inputs := rest }) :=
    step_cons (s := { s with inputs := .hwReset :: rest }) hc rfl
  exact ⟨(step_ctrlAction hc hi (decodeCtrl_of_bit1 h1)).trans hhard.symm, _, hhard, resetBlock_atReset _⟩

/-- Settles O36: an idle block without an error, over memory that lists nothing. -/
theorem resetHasInv : Obligations.ResetHasInv :=
  .of_idle rfl rfl (by decide) (.inl rfl) (fun _ => rfl) (fun _ => rfl) ⟨rfl, rfl⟩

theorem reset_atReset : AtReset State.reset where
  ctrl := rfl
  status := ⟨rfl, rfl, rfl, rfl⟩
  cmd := rfl
  operands := ⟨rfl, rfl, rfl, rfl⟩
  result := ⟨rfl, rfl⟩
  phase := rfl
  irq := rfl

/-- Settles O37: each register read at its reset value, PARAM_LZ and PARAM_STORE packed from the default parameters. -/
theorem resetRegisters : Obligations.ResetRegisters := by
  unfold Obligations.ResetRegisters
  refine ⟨rfl, rfl, rfl, rfl, rfl, rfl, rfl, rfl, rfl, rfl, rfl, ?_, ?_, reset_atReset⟩
  · exact (readReg_paramLz State.reset).trans (by decide)
  · exact (readReg_paramStore State.reset).trans (by decide)

end Sys2Proof.Machine

/-! PROOFS. Bus errors: a command's unit runs as on a clear bus until an access is rejected, and the first rejected access is
the first rejected byte of one of its two regions (60_exceptions R409, R412, R413, 20_memory R81, R82).

A run's progress is what it has accessed: `e.ReadTo n` and `e.WrittenTo n` say that the bus accepted the first `n` bytes of
the input and of the output region. `AsOnClearBus e i Q x y` compares a computation `x` of command `i` on the bus of `e` with
the same computation `y` on a clear bus. -/

namespace Sys2Proof.Machine

/-! ### What the bus has accepted -/

/-- The same command on a bus that rejects no access (20_memory R81). -/
def Env.onClearBus (e : Env) : Env := { e with cfg := { e.cfg with busFail := [] } }

/-- BUS_OK holds for the first `n` bytes of the input region. -/
def Env.ReadTo (e : Env) (n : Nat) : Prop := ∀ j, j < n → e.cfg.busOk (e.src + j) = true

/-- BUS_OK holds for the first `n` bytes of the output region. -/
def Env.WrittenTo (e : Env) (n : Nat) : Prop := ∀ k, k < n → e.cfg.busOk (e.dst + k) = true

/-- The cursor is at `n` or behind it, and the bus accepted every byte before the cursor and every byte emitted. -/
def Env.OnBus (e : Env) (n : Nat) (r : Run) : Prop := n ≤ r.ip ∧ e.ReadTo r.ip ∧ e.WrittenTo r.op

theorem Env.ReadTo.mono {e : Env} {m n : Nat} (h : e.ReadTo n) (hm : m ≤ n) : e.ReadTo m :=
  fun j hj => h j (hj.trans_le hm)

theorem Env.ReadTo.zero (e : Env) : e.ReadTo 0 := fun _ hj => absurd hj (Nat.not_lt_zero _)

theorem Env.WrittenTo.zero (e : Env) : e.WrittenTo 0 := fun _ hk => absurd hk (Nat.not_lt_zero _)

theorem Env.ReadTo.succ {e : Env} {n : Nat} (h : e.ReadTo n) (hb : e.cfg.busOk (e.src + n) = true) :
    e.ReadTo (n + 1) := fun j hj => (Nat.lt_succ_iff_lt_or_eq.mp hj).elim (h j) fun hn => hn ▸ hb

theorem Env.WrittenTo.succ {e : Env} {n : Nat} (h : e.WrittenTo n) (hb : e.cfg.busOk (e.dst + n) = true) :
    e.WrittenTo (n + 1) := fun k hk => (Nat.lt_succ_iff_lt_or_eq.mp hk).elim (h k) fun hn => hn ▸ hb

theorem Env.OnBus.mono {e : Env} {m n : Nat} {r : Run} (h : e.OnBus n r) (hm : m ≤ n) : e.OnBus m r :=
  ⟨hm.trans h.1, h.2⟩

theorem Env.OnBus.at_cursor {e : Env} {n : Nat} {r : Run} (h : e.OnBus n r) : e.OnBus r.ip r := ⟨le_refl _, h.2⟩

/-- What the working values hold does not matter. -/
theorem Env.OnBus.work {e : Env} {n : Nat} {r : Run} (h : e.OnBus n r) (u : Work) : e.OnBus n { r with u := u } := h

/-- A pass over the input begins at its first byte. -/
theorem Env.OnBus.rewind {e : Env} {n : Nat} {r : Run} (h : e.OnBus n r) (u : Work) : e.OnBus 0 ⟨0, r.out, u⟩ :=
  ⟨Nat.zero_le _, .zero e, h.2.2⟩

/-! ### The same computation on the two buses -/

/-- Both computations end alike, with a result that satisfies `Q` or with an error, or the first one ends with a BUS_ERROR
at an address command `i` may report. -/
inductive AsOnClearBus (e : Env) (i : Instr) {α : Type} (Q : α → Prop) : Except Raise α → Except Raise α → Prop where
  | ok (a : α) : Q a → AsOnClearBus e i Q (.ok a) (.ok a)
  | error (x : Raise) : AsOnClearBus e i Q (.error x) (.error x)
  | busError (a : Nat) (y : Except Raise α) : e.BusErrorAt i a → AsOnClearBus e i Q (.error ⟨.busError, a⟩) y

section
variable {e : Env} {i : Instr} {α β : Type} {Q Q' : α → Prop}

/-- The rule for one computation after another. -/
theorem AsOnClearBus.bind {R : β → Prop} {x y : Except Raise α} {f g : α → Except Raise β} (hx : AsOnClearBus e i Q x y)
    (hf : ∀ a, Q a → AsOnClearBus e i R (f a) (g a)) : AsOnClearBus e i R (x >>= f) (y >>= g) := by
  cases hx with
  | ok a ha => exact hf a ha
  | error x => exact .error x
  | busError a y ha => exact .busError a _ ha

theorem AsOnClearBus.imp {x y : Except Raise α} (hx : AsOnClearBus e i Q x y) (hq : ∀ a, Q a → Q' a) :
    AsOnClearBus e i Q' x y := by
  cases hx with
  | ok a ha => exact .ok a (hq a ha)
  | error x => exact .error x
  | busError a y ha => exact .busError a y ha

/-- What a result satisfies on every bus may be used. -/
theorem AsOnClearBus.and_post {E : Raise → Prop} {x y : Except Raise α} (hx : AsOnClearBus e i Q x y)
    (hp : Post Q' E x) : AsOnClearBus e i (fun a => Q a ∧ Q' a) x y := by
  cases hx with
  | ok a ha => exact .ok a ⟨ha, hp⟩
  | error x => exact .error x
  | busError a y ha => exact .busError a y ha

/-- The rule for a choice both computations make. -/
theorem AsOnClearBus.ite {c : Prop} [Decidable c] {x x' y y' : Except Raise α} (hx : c → AsOnClearBus e i Q x y)
    (hy : ¬c → AsOnClearBus e i Q x' y') : AsOnClearBus e i Q (if c then x else x') (if c then y else y') := by
  split
  · next hc => exact hx hc
  · next hc => exact hy hc

end

section
variable {e : Env} {i : Instr} {n : Nat}

/-! ### The primitives -/

theorem input_rejected {k : Nat} (h : e.cfg.busOk (e.src + k) = false) :
    input e k = .error ⟨.busError, e.src + k⟩ := by simp [input, h]

theorem input_onClearBus (k : Nat) : input e.onClearBus k = .ok (e.byte k) := input_ok rfl

/-- A read at the first byte not accepted yet, or before it. -/
theorem input_onBus {k : Nat} (hk : k < e.len) (h : e.ReadTo k) :
    AsOnClearBus e i (fun _ => e.ReadTo (k + 1)) (input e k) (input e.onClearBus k) := by
  rw [input_onClearBus]
  cases hb : e.cfg.busOk (e.src + k) with
  | true =>
    rw [input_ok hb]
    exact .ok _ (h.succ hb)
  | false =>
    rw [input_rejected hb]
    exact .busError _ _ (.read k ⟨hk, hb, h⟩)

theorem fetch_onBus {r : Run} (h : e.OnBus n r) :
    AsOnClearBus e i (fun p => e.OnBus (n + 1) p.2) (fetch e r) (fetch e.onClearBus r) := by
  obtain ⟨hn, hread, hwritten⟩ := h
  refine .ite (fun _ => .error _) fun hlt => (input_onBus (not_le.mp hlt) hread).bind fun b hread' => ?_
  exact .ok _ ⟨Nat.succ_le_succ hn, hread', hwritten⟩

theorem fetchLE_onBus : ∀ {m : Nat} {r : Run}, e.OnBus n r →
    AsOnClearBus e i (fun p => e.OnBus n p.2) (fetchLE e m r) (fetchLE e.onClearBus m r)
  | 0, _, h => .ok _ h
  | _ + 1, _, h =>
    (fetch_onBus h).bind fun _ h1 => (fetchLE_onBus (h1.mono (Nat.le_succ n))).bind fun _ h2 => .ok _ h2

/-- An emit writes behind the bytes the bus accepted and changes the output alone. -/
theorem emit_onBus_sameButOut {b : Byte} {info : Nat} {r : Run} (h : e.OnBus n r) :
    AsOnClearBus e i (fun r' => e.OnBus n r' ∧ SameButOut r r') (emit e b info r) (emit e.onClearBus b info r) := by
  obtain ⟨hn, hread, hwritten⟩ := h
  refine .ite (fun _ => .error _) fun hcap => ?_
  have hclear : e.onClearBus.cfg.busOk (e.onClearBus.dst + r.op) = true := rfl
  rw [if_pos hclear]
  cases hb : e.cfg.busOk (e.dst + r.op) with
  | true => exact .ok _ ⟨⟨hn, hread, by simpa [Run.op] using hwritten.succ hb⟩, rfl, rfl⟩
  | false => exact .busError _ _ (.write r.op ⟨not_le.mp hcap, hb, hwritten⟩)

theorem emit_onBus {b : Byte} {info : Nat} {r : Run} (h : e.OnBus n r) :
    AsOnClearBus e i (e.OnBus n) (emit e b info r) (emit e.onClearBus b info r) :=
  (emit_onBus_sameButOut h).imp fun _ h' => h'.1

theorem emitLE_onBus {info : Nat} : ∀ {m v : Nat} {r : Run}, e.OnBus n r →
    AsOnClearBus e i (e.OnBus n) (emitLE e info m v r) (emitLE e.onClearBus info m v r)
  | 0, _, _, h => .ok _ h
  | _ + 1, _, _, h => (emit_onBus h).bind fun _ h1 => emitLE_onBus h1

theorem emitRep_onBus {b : Byte} {info : Nat} : ∀ {m : Nat} {r : Run}, e.OnBus n r →
    AsOnClearBus e i (e.OnBus n) (emitRep e b info m r) (emitRep e.onClearBus b info m r)
  | 0, _, h => .ok _ h
  | _ + 1, _, h => (emit_onBus h).bind fun _ h1 => emitRep_onBus h1

theorem copyBytes_onBus : ∀ {m n : Nat} {r : Run}, e.OnBus n r →
    AsOnClearBus e i (e.OnBus (n + m)) (copyBytes e m r) (copyBytes e.onClearBus m r)
  | 0, _, _, h => .ok _ h
  | m + 1, n, _, h =>
    (fetch_onBus h).bind fun (_, _) h1 => (emit_onBus h1).bind fun _ h2 =>
      (copyBytes_onBus h2).imp fun _ h3 => h3.mono (Nat.succ_add_eq_add_succ n m).ge

/-! ### huffman_encoder -/

theorem freqLoop_onBus : ∀ {m n : Nat} {r : Run}, e.OnBus n r →
    AsOnClearBus e i (e.OnBus (n + m)) (freqLoop e m r) (freqLoop e.onClearBus m r)
  | 0, _, _, h => .ok _ h
  | m + 1, n, _, h =>
    (fetch_onBus h).bind fun (_, _) h1 =>
      (freqLoop_onBus (h1.work _)).imp fun _ h2 => h2.mono (Nat.succ_add_eq_add_succ n m).ge

/-- FREQ_COUNT reads the whole input (41_huffman_encoder R200). -/
theorem freqCount_onBus {r : Run} (h : e.OnBus n r) :
    AsOnClearBus e i (e.OnBus e.len) (freqCount e r) (freqCount e.onClearBus r) :=
  (freqLoop_onBus (h.rewind _)).imp fun _ h1 => h1.mono (Nat.zero_add _).ge

theorem writePairs_onBus : ∀ {bs : List Byte} {r : Run}, e.OnBus n r →
    AsOnClearBus e i (e.OnBus n) (writePairs e bs r) (writePairs e.onClearBus bs r)
  | [], _, h => .ok _ h
  | _ :: _, _, h => (emit_onBus h).bind fun _ h1 => (emitLE_onBus h1).bind fun _ h2 => writePairs_onBus h2

theorem writeHeader_onBus {syms : List Byte} {total : Nat} {r : Run} (h : e.OnBus n r) :
    AsOnClearBus e i (e.OnBus n) (writeHeader e syms total r) (writeHeader e.onClearBus syms total r) :=
  (emitLE_onBus h).bind fun _ h1 => (writePairs_onBus h1).bind fun _ h2 => emitLE_onBus h2

theorem putBit_onBus {x : Bool} {info : Nat} {r : Run} (h : e.OnBus n r) :
    AsOnClearBus e i (e.OnBus n) (putBit e x info r) (putBit e.onClearBus x info r) :=
  .ite (fun _ => (emit_onBus h).bind fun _ h1 => .ok _ h1) fun _ => .ok _ h

theorem putBits_onBus {info : Nat} : ∀ {xs : List Bool} {r : Run}, e.OnBus n r →
    AsOnClearBus e i (e.OnBus n) (putBits e info xs r) (putBits e.onClearBus info xs r)
  | [], _, h => .ok _ h
  | _ :: _, _, h => (putBit_onBus h).bind fun _ h1 => putBits_onBus h1

theorem flushBits_onBus {info : Nat} {r : Run} (h : e.OnBus n r) :
    AsOnClearBus e i (e.OnBus n) (flushBits e info r) (flushBits e.onClearBus info r) :=
  .ite (fun _ => (emit_onBus h).bind fun _ h1 => .ok _ h1) fun _ => .ok _ h

theorem payloadLoop_onBus : ∀ {m : Nat} {r : Run}, e.OnBus n r →
    AsOnClearBus e i (e.OnBus n) (payloadLoop e m r) (payloadLoop e.onClearBus m r)
  | 0, _, h => .ok _ h
  | _ + 1, _, h =>
    (fetch_onBus h).bind fun _ h1 => (putBits_onBus (h1.mono (Nat.le_succ n))).bind fun _ h2 => payloadLoop_onBus h2

theorem payloadPass_onBus {r : Run} (h : e.OnBus n r) :
    AsOnClearBus e i (e.OnBus 0) (payloadPass e r) (payloadPass e.onClearBus r) :=
  (payloadLoop_onBus (h.rewind _)).bind fun _ h1 => flushBits_onBus h1

/-- FREQ_COUNT comes before anything is written (41_huffman_encoder R210). -/
theorem huffEncUnit_onBus {r : Run} (h : e.OnBus n r) :
    AsOnClearBus e i (fun r' => e.ReadTo e.len ∧ e.WrittenTo r'.op) (huffEncUnit e r) (huffEncUnit e.onClearBus r) := by
  unfold huffEncUnit
  refine (freqCount_onBus h).bind fun r1 h1 => ?_
  have hread : e.ReadTo e.len := h1.2.1.mono h1.1
  refine .ite (fun _ => ?_) fun _ => ?_
  · exact (emitLE_onBus h1).bind fun _ h2 => (emitLE_onBus h2).imp fun _ h3 => ⟨hread, h3.2.2⟩
  · exact (writeHeader_onBus (h1.work _)).bind fun _ h2 => (payloadPass_onBus h2).imp fun _ h3 => ⟨hread, h3.2.2⟩

/-! ### huffman_decoder -/

theorem readCount_onBus {r : Run} (h : e.OnBus n r) :
    AsOnClearBus e i (fun p => e.OnBus n p.2) (readCount e r) (readCount e.onClearBus r) :=
  (fetchLE_onBus h).bind fun _ h1 => .ite (fun _ => .error _) fun _ => .ok _ h1

theorem readPairs_onBus : ∀ {m k : Nat} {prev : Option Byte} {r : Run}, e.OnBus n r →
    AsOnClearBus e i (fun p => e.OnBus n p.2) (readPairs e m k prev r) (readPairs e.onClearBus m k prev r)
  | 0, _, _, _, h => .ok _ h
  | _ + 1, _, _, _, h =>
    (fetch_onBus h).bind fun (_, _) h1 => (fetchLE_onBus (h1.mono (Nat.le_succ n))).bind fun (_, _) h2 =>
      .ite (fun _ => .error _) fun _ => (readPairs_onBus (h2.work _)).bind fun (_, _) h3 => .ok _ h3

theorem readTotalBits_onBus {r : Run} (h : e.OnBus n r) :
    AsOnClearBus e i (e.OnBus n) (readTotalBits e r) (readTotalBits e.onClearBus r) :=
  (fetchLE_onBus h).bind fun _ h1 => .ok _ h1

theorem loadByte_onBus {r : Run} (h : e.OnBus n r) :
    AsOnClearBus e i (e.OnBus n) (loadByte e r) (loadByte e.onClearBus r) :=
  .ite (fun _ => (fetch_onBus h).bind fun _ h1 => .ok _ (h1.mono (Nat.le_succ n))) fun _ => .ok _ h

theorem getBit_onBus {r : Run} (h : e.OnBus n r) :
    AsOnClearBus e i (fun p => e.OnBus n p.2) (getBit e r) (getBit e.onClearBus r) :=
  .ite (fun _ => .error _) fun _ => (loadByte_onBus h).bind fun _ h1 => .ok _ h1

theorem walkSymbol_onBus : ∀ {m x : Nat} {r : Run}, e.OnBus n r →
    AsOnClearBus e i (fun p => e.OnBus n p.2) (walkSymbol e m x r) (walkSymbol e.onClearBus m x r)
  | 0, _, _, h => .ok _ h
  | m + 1, x, r, h => by
    match hx : r.u.arena[x]? with
    | some (.leaf sym w) =>
      rw [walkSymbol_leaf hx, walkSymbol_leaf hx]
      exact .ok _ h
    | some (.internal w lt rt) =>
      rw [walkSymbol_internal hx, walkSymbol_internal hx]
      exact (getBit_onBus h).bind fun _ h1 => walkSymbol_onBus h1
    | none =>
      simp only [walkSymbol, hx]
      exact .ok _ h

theorem decodeSymbols_onBus : ∀ {m : Nat} {r : Run}, e.OnBus n r →
    AsOnClearBus e i (e.OnBus n) (decodeSymbols e m r) (decodeSymbols e.onClearBus m r)
  | 0, _, h => .ok _ h
  | _ + 1, _, h =>
    (walkSymbol_onBus h).bind fun _ h1 => (emit_onBus h1).bind fun _ h2 => decodeSymbols_onBus h2

theorem huffDecBody_onBus {syms : List Byte} {r : Run} (h : e.OnBus n r) :
    AsOnClearBus e i (e.OnBus n) (huffDecBody e syms r) (huffDecBody e.onClearBus syms r) :=
  match syms with
  | [] => .ok _ h
  | [_] => emitRep_onBus h
  | _ :: _ :: _ => decodeSymbols_onBus h

theorem huffDecUnit_onBus {r : Run} (h : e.OnBus n r) :
    AsOnClearBus e i (e.OnBus 0) (huffDecUnit e r) (huffDecUnit e.onClearBus r) :=
  (readCount_onBus (h.rewind _)).bind fun _ h1 => (readPairs_onBus h1).bind fun _ h2 =>
    (readTotalBits_onBus h2).bind fun _ h3 => huffDecBody_onBus h3

/-! ### rle_decoder -/

theorem expandRaw_onBus {c : Byte} {t : Nat} {r : Run} (h : e.OnBus n r) :
    AsOnClearBus e i (e.OnBus n) (expandRaw e c t r) (expandRaw e.onClearBus c t r) :=
  .ite (fun _ => .error _) fun _ => (copyBytes_onBus (h.work _)).imp fun _ h1 => h1.mono (Nat.le_add_right _ _)

theorem expandRun_onBus {c : Byte} {t : Nat} {r : Run} (h : e.OnBus n r) :
    AsOnClearBus e i (e.OnBus n) (expandRun e c t r) (expandRun e.onClearBus c t r) :=
  .ite (fun _ => .error _) fun _ =>
    (fetch_onBus (h.work _)).bind fun (_, _) h1 => emitRep_onBus (h1.mono (Nat.le_succ n))

/-- A span consumes its control byte. -/
theorem rleDecSpan_onBus {r : Run} (h : e.OnBus n r) :
    AsOnClearBus e i (e.OnBus (n + 1)) (rleDecSpan e r) (rleDecSpan e.onClearBus r) :=
  (fetch_onBus h).bind fun _ h1 => .ite (fun _ => expandRun_onBus h1) fun _ => expandRaw_onBus h1

/-- The loop ends behind the last byte of the input. -/
theorem rleDecLoop_onBus : ∀ {m n : Nat} {r : Run}, e.OnBus n r → e.len ≤ n + m →
    AsOnClearBus e i (e.OnBus e.len) (rleDecLoop e m r) (rleDecLoop e.onClearBus m r)
  | 0, _, _, h, hm => .ok _ (h.mono hm)
  | _ + 1, _, _, h, hm =>
    .ite (fun _ => (rleDecSpan_onBus h).bind fun _ h1 => rleDecLoop_onBus h1 (by omega))
      fun hend => .ok _ ⟨not_lt.mp hend, h.2⟩

theorem rleDecUnit_onBus {r : Run} (h : e.OnBus n r) :
    AsOnClearBus e i (e.OnBus e.len) (rleDecUnit e r) (rleDecUnit e.onClearBus r) :=
  rleDecLoop_onBus (h.rewind _) (Nat.zero_add _).ge

/-! ### lz77_decoder -/

/-- A record consumes its first byte. -/
theorem readToken_onBus {r : Run} (h : e.OnBus n r) :
    AsOnClearBus e i (fun p => e.OnBus (n + 1) p.2) (readToken e r) (readToken e.onClearBus r) := by
  refine .ite (fun _ => .error _) fun _ => (fetchLE_onBus h).bind fun (_, _) h1 => (fetchLE_onBus h1).bind
    fun (_, _) h2 => (fetch_onBus h2).bind fun (_, _) h3 => .ite (fun _ => .error _) fun _ => .ok _ h3

theorem copyBack_onBus {off : Nat} : ∀ {m : Nat} {r : Run}, e.OnBus n r →
    AsOnClearBus e i (e.OnBus n) (copyBack e off m r) (copyBack e.onClearBus off m r)
  | 0, _, h => .ok _ h
  | _ + 1, _, h => (emit_onBus h).bind fun _ h1 => copyBack_onBus h1

theorem reconstruct_onBus {t : Token} {r : Run} (h : e.OnBus n r) :
    AsOnClearBus e i (e.OnBus n) (reconstruct e t r) (reconstruct e.onClearBus t r) :=
  (copyBack_onBus h).bind fun _ h1 => (emit_onBus h1).bind fun _ h2 => .ok _ h2

theorem lz77DecLoop_onBus : ∀ {m n : Nat} {r : Run}, e.OnBus n r → e.len ≤ n + m →
    AsOnClearBus e i (e.OnBus e.len) (lz77DecLoop e m r) (lz77DecLoop e.onClearBus m r)
  | 0, _, _, h, hm => .ok _ (h.mono hm)
  | _ + 1, _, _, h, hm =>
    .ite (fun _ => (readToken_onBus h).bind fun _ h1 => (reconstruct_onBus h1).bind fun _ h2 =>
        lz77DecLoop_onBus h2 (by omega))
      fun hend => .ok _ ⟨not_lt.mp hend, h.2⟩

theorem readMarker_onBus {r : Run} (h : e.OnBus n r) :
    AsOnClearBus e i (fun p => e.OnBus 1 p.2) (readMarker e r) (readMarker e.onClearBus r) :=
  .ite (fun _ => .error _) fun _ => fetch_onBus (h.rewind _)

theorem lz77DecUnit_onBus {r : Run} (h : e.OnBus n r) :
    AsOnClearBus e i (e.OnBus e.len) (lz77DecUnit e r) (lz77DecUnit e.onClearBus r) :=
  (readMarker_onBus (h.work _)).bind fun (_, _) h1 =>
    .ite (fun _ => (copyBytes_onBus h1.at_cursor).imp fun _ h2 => h2.mono le_add_tsub) fun _ =>
      .ite (fun _ => lz77DecLoop_onBus h1 (Nat.le_add_left _ _)) fun _ => .error _

/-! ### rle_encoder -/

/-- From the second byte of a run on, RUN_LENGTH reads one byte further each round. -/
theorem runLengthFrom_onBus {p : Nat} (hp : p < e.len) : ∀ {m k : Nat}, e.ReadTo (p + k) → 1 ≤ k →
    AsOnClearBus e i (fun l => e.ReadTo (p + l)) (runLengthFrom e p m k) (runLengthFrom e.onClearBus p m k)
  | 0, _, h, _ => .ok _ h
  | _ + 1, _, h, hk =>
    .ite (fun hlt => (input_onBus hlt h).bind fun _ h1 => (input_onBus hp (h.mono (by omega))).bind fun _ _ =>
        .ite (fun _ => runLengthFrom_onBus hp h1 (Nat.le_add_left 1 _)) fun _ => .ok _ h)
      fun _ => .ok _ h

/-- RUN_LENGTH begins with the byte after the one at the cursor, which it reads next: of the two, the first rejected one is
the first rejected byte of the input, or its neighbour was read before it (45_rle_encoder R350, log 11). -/
theorem input_ahead_onBus {p : Nat} (hp : p + 1 < e.len) (h : e.ReadTo p) :
    AsOnClearBus e .rleEnc (fun _ => e.cfg.busOk (e.src + (p + 1)) = true) (input e (p + 1))
      (input e.onClearBus (p + 1)) := by
  rw [input_onClearBus]
  cases hnext : e.cfg.busOk (e.src + (p + 1)) with
  | true =>
    rw [input_ok hnext]
    exact .ok _ rfl
  | false =>
    rw [input_rejected hnext]
    refine .busError _ _ ?_
    cases hb : e.cfg.busOk (e.src + p) with
    | true => exact .read (p + 1) ⟨hp, hnext, h.succ hb⟩
    | false => exact .readAhead p rfl ⟨by omega, hb, h⟩ hp hnext

/-- RUN_LENGTH reads its run, and the byte after the one at the cursor where there is one. -/
theorem runLength_onBus {p : Nat} (hp : p < e.len) (h : e.ReadTo p) :
    AsOnClearBus e .rleEnc (fun l => (2 ≤ l → e.ReadTo (p + l)) ∧ (p + 1 < e.len → e.ReadTo (p + 2)))
      (runLength e p) (runLength e.onClearBus p) := by
  refine .ite (fun hlt => (input_ahead_onBus hlt h).bind fun _ hnext => (input_onBus hp h).bind fun _ h1 => ?_)
    fun hge => .ok _ ⟨fun h2 => absurd h2 (by decide), fun hlt => absurd hlt hge⟩
  have h2 : e.ReadTo (p + 2) := h1.succ hnext
  exact .ite (fun _ => (runLengthFrom_onBus hp h2 (by decide)).imp fun _ hl => ⟨fun _ => hl, fun _ => h2⟩)
    fun _ => .ok _ ⟨fun h2 => absurd h2 (by decide), fun _ => h2⟩

/-- RAW_SPAN_END reads one byte ahead. -/
theorem rawSpanEndFrom_onBus : ∀ {m j : Nat}, (j < e.len → e.ReadTo (j + 1)) →
    AsOnClearBus e i (fun _ => True) (rawSpanEndFrom e m j) (rawSpanEndFrom e.onClearBus m j)
  | 0, _, _ => .ok _ trivial
  | _ + 1, j, h =>
    .ite (fun hj => .ite
        (fun hj1 => (input_onBus hj ((h hj).mono (Nat.le_succ j))).bind fun _ _ => (input_onBus hj1 (h hj)).bind
          fun _ h1 => .ite (fun _ => .ok _ trivial) fun _ => rawSpanEndFrom_onBus fun _ => h1)
        fun hj1 => rawSpanEndFrom_onBus fun hlt => absurd hlt hj1)
      fun _ => .ok _ trivial

theorem emitInput_onBus {info : Nat} : ∀ {m k : Nat} {r : Run}, k + m ≤ e.len → e.ReadTo k → e.OnBus n r →
    AsOnClearBus e i (fun r' => e.ReadTo (k + m) ∧ e.OnBus n r') (emitInput e info m k r)
      (emitInput e.onClearBus info m k r)
  | 0, _, _, _, hread, h => .ok _ ⟨hread, h⟩
  | m + 1, k, _, hk, hread, h =>
    (input_onBus (by omega) hread).bind fun _ hread' => (emit_onBus h).bind fun _ h1 =>
      (emitInput_onBus (by omega) hread' h1).imp fun _ h2 => ⟨h2.1.mono (by omega), h2.2⟩

/-- RLE_ENC's progress: the input before its position is read, and the output is written. -/
def Env.RleOnBus (e : Env) (k : Nat) (r : Run) : Prop := k ≤ r.u.rleI ∧ e.ReadTo r.u.rleI ∧ e.OnBus 0 r

theorem rleOnBus_zero {r : Run} (h : e.OnBus 0 r) : e.RleOnBus 0 { r with u := { r.u with rleI := 0 } } :=
  ⟨Nat.zero_le _, .zero e, h⟩

theorem emitRun_onBus {r : Run} (hi : r.u.rleI < e.len) (hn : 1 ≤ r.u.rleR)
    (hread : e.ReadTo (r.u.rleI + r.u.rleR)) (h : e.OnBus 0 r) :
    AsOnClearBus e i (e.RleOnBus (r.u.rleI + 1)) (emitRun e r) (emitRun e.onClearBus r) := by
  refine (emit_onBus_sameButOut h).bind fun r1 h1 => (input_onBus hi (hread.mono (Nat.le_add_right _ _))).bind fun _ _ =>
    (emit_onBus_sameButOut h1.1).bind fun r2 h2 => .ok _ ?_
  have hu : r2.u = r.u := (h1.2.trans h2.2).2
  simp only [Env.RleOnBus, hu]
  exact ⟨by omega, hread, h2.1⟩

theorem emitRaw_onBus {r : Run} (hij : r.u.rleI < r.u.rleJ) (hj : r.u.rleJ ≤ e.len) (hread : e.ReadTo r.u.rleI)
    (h : e.OnBus 0 r) :
    AsOnClearBus e i (e.RleOnBus (r.u.rleI + 1)) (emitRaw e r) (emitRaw e.onClearBus r) :=
  (emit_onBus h).bind fun _ h1 => (emitInput_onBus (by omega) hread h1).bind fun _ h2 =>
    .ok _ ⟨hij, h2.1.mono (by dsimp only; omega), h2.2⟩

theorem rleEncSpan_onBus {r : Run} (hi : r.u.rleI < e.len) (hread : e.ReadTo r.u.rleI) (h : e.OnBus 0 r) :
    AsOnClearBus e .rleEnc (e.RleOnBus (r.u.rleI + 1)) (rleEncSpan e r) (rleEncSpan e.onClearBus r) := by
  refine (runLength_onBus hi hread).bind fun l hl => .ite (fun h2 => ?_) fun _ => ?_
  · exact emitRun_onBus (r := { r with u := { r.u with rleR := l } }) hi (by dsimp only; omega) (hl.1 h2) h
  · refine ((rawSpanEndFrom_onBus hl.2).and_post (rawSpanEnd_spec hi)).bind ?_
    rintro j ⟨-, hij, -, hj, -⟩
    exact emitRaw_onBus (r := { r with u := { r.u with rleR := l, rleJ := j } }) hij hj hread h

/-- The loop ends behind the last byte of the input. -/
theorem rleEncLoop_onBus : ∀ {m k : Nat} {r : Run}, e.RleOnBus k r → e.len ≤ k + m →
    AsOnClearBus e .rleEnc (e.RleOnBus e.len) (rleEncLoop e m r) (rleEncLoop e.onClearBus m r)
  | 0, _, _, h, hm => .ok _ ⟨hm.trans h.1, h.2⟩
  | _ + 1, _, _, ⟨hk, hread, h⟩, hm =>
    .ite (fun hi => (rleEncSpan_onBus hi hread h).bind fun _ h1 => rleEncLoop_onBus h1 (by omega))
      fun hend => .ok _ ⟨not_lt.mp hend, hread, h⟩

theorem rleEncUnit_onBus {r : Run} (h : e.OnBus 0 r) :
    AsOnClearBus e .rleEnc (e.RleOnBus e.len) (rleEncUnit e r) (rleEncUnit e.onClearBus r) :=
  rleEncLoop_onBus (rleOnBus_zero h) (Nat.zero_add _).ge

/-! ### lz77_encoder -/

/-- A match's bytes stand before the byte it reads at the cursor's side, so each round reads one byte further. -/
theorem matchLengthFrom_onBus {cur off : Nat} (hoff : 1 ≤ off) : ∀ {m len : Nat}, cur + len + m < e.len →
    e.ReadTo (cur + len) → off ≤ cur →
    AsOnClearBus e i (fun l => e.ReadTo (cur + l)) (matchLengthFrom e cur off m len)
      (matchLengthFrom e.onClearBus cur off m len)
  | 0, _, _, h, _ => .ok _ h
  | m + 1, len, hlt, h, hcur =>
    (input_onBus (by omega) (h.mono (by omega))).bind fun _ _ => (input_onBus (by omega) h).bind fun _ h1 =>
      .ite (fun _ => matchLengthFrom_onBus hoff (by omega) h1 hcur) fun _ => .ok _ h

theorem findMatchFrom_onBus {cur maxlen : Nat} (hm : cur + maxlen < e.len) (hread : e.ReadTo cur) :
    ∀ {m off : Nat} {best : Nat × Nat}, 1 ≤ off → off + m ≤ cur + 1 → e.ReadTo (cur + best.2) →
    AsOnClearBus e i (fun p => e.ReadTo (cur + p.2)) (findMatchFrom e cur maxlen m off best)
      (findMatchFrom e.onClearBus cur maxlen m off best)
  | 0, _, _, _, _, hbest => .ok _ hbest
  | _ + 1, _, _, hoff, hcur, hbest =>
    (matchLengthFrom_onBus hoff hm hread (by omega)).bind fun _ hlen =>
      findMatchFrom_onBus hm hread (Nat.le_succ_of_le hoff) (by omega) (by split <;> assumption)

/-- FIND_MATCH reads the bytes of its best match. -/
theorem findMatch_onBus {cur : Nat} (hc : cur < e.len) (hread : e.ReadTo cur) :
    AsOnClearBus e i (fun p => e.ReadTo (cur + p.2) ∧ cur + p.2 < e.len) (findMatch e cur)
      (findMatch e.onClearBus cur) :=
  (findMatchFrom_onBus (maxlen := min e.cfg.maxMatchLen (e.len - 1 - cur)) (best := (0, 0)) (by omega) hread (le_refl 1)
    (by omega) hread).and_post (findMatch_inside hc)

/-- LZ77_ENC's progress: the input before its cursor is read, and the output is written. -/
def Env.LzOnBus (e : Env) (k : Nat) (r : Run) : Prop := k ≤ r.u.lzCur ∧ e.ReadTo r.u.lzCur ∧ e.OnBus 0 r

theorem lzOnBus_zero {r : Run} (h : e.OnBus 0 r) : e.LzOnBus 0 { r with u := { r.u with lzCur := 0 } } :=
  ⟨Nat.zero_le _, .zero e, h⟩

theorem emitRecord_onBus {info off len k : Nat} {r : Run} (hk : k < e.len) (hread : e.ReadTo k) (h : e.OnBus 0 r) :
    AsOnClearBus e i (e.LzOnBus (k + 1)) (emitRecord e info off len k (k + 1) r)
      (emitRecord e.onClearBus info off len k (k + 1) r) :=
  (emitLE_onBus h).bind fun _ h1 => (emitLE_onBus h1).bind fun _ h2 => (input_onBus hk hread).bind fun _ hread' =>
    (emit_onBus h2).bind fun _ h3 => .ok _ ⟨le_refl _, hread', h3⟩

theorem lz77EncToken_onBus {r : Run} (hc : r.u.lzCur < e.len) (hread : e.ReadTo r.u.lzCur) (h : e.OnBus 0 r) :
    AsOnClearBus e i (e.LzOnBus (r.u.lzCur + 1)) (lz77EncToken e r) (lz77EncToken e.onClearBus r) := by
  refine (findMatch_onBus hc hread).bind ?_
  rintro ⟨off, len⟩ ⟨hmatch, hlen⟩
  simp only [emitToken_eq_emitRecord]
  refine .ite (fun _ => ?_) fun _ => emitRecord_onBus hc hread (h.work _)
  exact (emitRecord_onBus hlen hmatch (h.work _)).imp fun _ h1 =>
    ⟨(Nat.succ_le_succ (Nat.le_add_right _ _)).trans h1.1, h1.2⟩

/-- The loop ends behind the last byte of the input. -/
theorem lz77EncLoop_onBus : ∀ {m k : Nat} {r : Run}, e.LzOnBus k r → e.len ≤ k + m →
    AsOnClearBus e i (e.LzOnBus e.len) (lz77EncLoop e m r) (lz77EncLoop e.onClearBus m r)
  | 0, _, _, h, hm => .ok _ ⟨hm.trans h.1, h.2⟩
  | _ + 1, _, _, ⟨hk, hread, h⟩, hm =>
    .ite (fun hc => (lz77EncToken_onBus hc hread h).bind fun _ h1 => lz77EncLoop_onBus h1 (by omega))
      fun hend => .ok _ ⟨not_lt.mp hend, hread, h⟩

theorem storeBytes_onBus : ∀ {m k : Nat} {r : Run}, k + m ≤ e.len → e.ReadTo k → e.OnBus n r →
    AsOnClearBus e i (fun r' => e.ReadTo (k + m) ∧ e.OnBus n r') (storeBytes e m k r) (storeBytes e.onClearBus m k r)
  | 0, _, _, _, hread, h => .ok _ ⟨hread, h⟩
  | m + 1, k, _, hk, hread, h =>
    (input_onBus (by omega) hread).bind fun _ hread' => (emit_onBus h).bind fun _ h1 =>
      (storeBytes_onBus (by omega) hread' h1).imp fun _ h2 => ⟨h2.1.mono (by omega), h2.2⟩

theorem lz77EncUnit_onBus {r : Run} (h : e.OnBus 0 r) :
    AsOnClearBus e i (fun r' => e.ReadTo e.len ∧ e.WrittenTo r'.op) (lz77EncUnit e r) (lz77EncUnit e.onClearBus r) :=
  .ite
    (fun _ => (emit_onBus h).bind fun _ h1 => (storeBytes_onBus (Nat.zero_add _).le (.zero e) h1).imp fun _ h2 =>
      ⟨h2.1.mono (Nat.zero_add _).ge, h2.2.2.2⟩)
    fun _ => (emit_onBus h).bind fun _ h1 =>
      (lz77EncLoop_onBus (lzOnBus_zero h1) (Nat.zero_add _).ge).imp fun _ h2 =>
        ⟨h2.2.1.mono h2.1, h2.2.2.2.2⟩

/-! ### A rejected first byte -/

theorem fetch_first_rejected {r : Run} (hip : r.ip = 0) (h : e.FirstBadIn 0) : fetch e r = .error ⟨.busError, e.src⟩ := by
  unfold fetch
  rw [hip, if_neg (not_le.mpr h.inside), input_rejected h.rejected]
  rfl

/-- HUFF_ENC, HUFF_DEC, LZ77_DEC and RLE_DEC begin with a Fetch of their first input byte. -/
theorem unit_first_rejected {u : Env → Run → Except Raise Run} (hu : unitOf i = some u)
    (hi : i = .huffEnc ∨ i = .huffDec ∨ i = .lz77Dec ∨ i = .rleDec) (h : e.FirstBadIn 0) (r : Run) :
    u e r = .error ⟨.busError, e.src⟩ := by
  have hfetch : ∀ w, fetch e ⟨0, r.out, w⟩ = .error ⟨.busError, e.src⟩ := fun _ => fetch_first_rejected rfl h
  obtain ⟨m, hm⟩ := Nat.exists_eq_succ_of_ne_zero h.inside.ne'
  obtain rfl | rfl | rfl | rfl := hi <;> cases hu
  · simp only [huffEncUnit, freqCount, freqLoop, hm, hfetch, error_bind]
  · simp only [huffDecUnit, readCount, fetchLE, hfetch, error_bind]
  · simp [lz77DecUnit, readMarker, hm, hfetch]
  · simp only [rleDecUnit, rleDecLoop, rleDecSpan, hm, Nat.zero_lt_succ, if_true, hfetch, error_bind]

/-! ### The six commands -/

/-- Of a success every output byte was accepted and, but for HUFF_DEC, every input byte. -/
theorem unit_onBus {u : Env → Run → Except Raise Run} (hu : unitOf i = some u) {r : Run} (h : e.OnBus 0 r) :
    AsOnClearBus e i (fun r' => (i ≠ .huffDec → e.ReadTo e.len) ∧ e.WrittenTo r'.op) (u e r) (u e.onClearBus r) := by
  cases i with
  | huffEnc => cases hu; exact (huffEncUnit_onBus h).imp fun _ h1 => ⟨fun _ => h1.1, h1.2⟩
  | huffDec => cases hu; exact (huffDecUnit_onBus h).imp fun _ h1 => ⟨fun hi => absurd rfl hi, h1.2.2⟩
  | lz77Enc => cases hu; exact (lz77EncUnit_onBus h).imp fun _ h1 => ⟨fun _ => h1.1, h1.2⟩
  | lz77Dec => cases hu; exact (lz77DecUnit_onBus h).imp fun _ h1 => ⟨fun _ => h1.2.1.mono h1.1, h1.2.2⟩
  | rleEnc => cases hu; exact (rleEncUnit_onBus h).imp fun _ h1 => ⟨fun _ => h1.2.1.mono h1.1, h1.2.2.2.2⟩
  | rleDec => cases hu; exact (rleDecUnit_onBus h).imp fun _ h1 => ⟨fun _ => h1.2.1.mono h1.1, h1.2.2⟩
  | start _ _ | softReset _ _ | doneClear _ _ => cases hu

end

theorem begin_onBus (s : State) : s.env.OnBus 0 s.begin := ⟨le_refl 0, .zero _, .zero _⟩

/-- Settles O27, by what the unit does beside its run on a clear bus: a success alike accessed no rejected byte. -/
theorem busErrors : Obligations.BusErrors := by
  unfold Obligations.BusErrors
  intro s i hi hs
  obtain ⟨u, hu⟩ := unitOf_of_port hi
  refine ⟨fun t0 h0 => ?_, fun hfirst hbad => exec_failed hu hs (unit_first_rejected hu hfirst hbad s.begin)⟩
  rw [exec_of_unit hu] at h0 ⊢
  have hunit := unit_onBus hu (begin_onBus s)
  generalize hx : u s.env s.begin = x at hunit
  generalize hy : u s.env.onClearBus s.begin = y at hunit
  cases hunit with
  | ok r h =>
    cases (runCommand_ok (s := s.busClear) hs.phase hs.checks hy).symm.trans h0
    refine ⟨_, runCommand_ok hs.phase hs.checks hx, .inl rfl, fun _ hbad => ?_⟩
    exfalso
    obtain ⟨k, hk, hlt⟩ | ⟨hne, k, hk⟩ := hbad
    · have hlen : k < r.op := hlt.trans_le (Nat.mod_le _ _)
      cases hk.rejected.symm.trans (h.2 k hlen)
    · cases hk.rejected.symm.trans (h.1 hne k hk.inside)
  | error x =>
    cases (runCommand_error (s := s.busClear) hs.phase hs.checks hy).symm.trans h0
    exact ⟨_, runCommand_error hs.phase hs.checks hx, .inl rfl, fun herr => nomatch herr⟩
  | busError a _ ha =>
    obtain ⟨t, ht, hfail⟩ := runCommand_failed hs hx
    exact ⟨t, ht, .inr ⟨a, ha, hfail⟩, fun _ _ => ⟨a, ha, hfail⟩⟩

end Sys2Proof.Machine
